-- ==== Sys2Proof/Word.lean ====
section
/-! DEFINITION. The words of the block: 32-bit command-port values and 8-bit memory bytes
(spec 00_scope R6 `XLEN`, `AW`; 20_memory R60). -/

namespace Sys2Proof

/-- A value of a command-port register or of an operand: a 32-bit natural (R20, R321). -/
abbrev Word := BitVec 32

/-- The contents of one MEM address (R60). -/
abbrev Byte := BitVec 8

/-- `2^AW`, the first number that is no MEM address (R6, R60). -/
abbrev addressSpan : Nat := 4294967296

/-- `zext_32`: a natural written to a 32-bit register. R321: the values written always fit. -/
abbrev zext32 (n : Nat) : Word := BitVec.ofNat 32 n

end Sys2Proof
end

