-- ==== Sys2Proof/Config.lean ====
section
/-! DEFINITION. The source's enumerations (spec 30_encoding R95), the implementation parameters of
00_scope R6, and the free value of the model. The parameters are plain data that `State` carries:
a state of ANY parameter set is a `State`, so a statement over all states covers them all. -/

namespace Sys2Proof

/-- The four agents that issue operations (R10, R94): the three execution contexts of the source
(foreground, peripheral interrupt handler, DMA-completion handler) and the environment. -/
inductive Agent where
  | fg | pirq | dirq | env
deriving DecidableEq, Repr

/-- `part` of enable and disable (R95). -/
inductive Part where
  | read | write | both
deriving DecidableEq, Repr

/-- `parity` (R95). -/
inductive Parity where
  | none | even | odd
deriving DecidableEq, Repr

/-- `stopBits` (R95). -/
inductive StopBits where
  | one | half | two | oneAndHalf
deriving DecidableEq, Repr

/-- `flow` (R95). -/
inductive Flow where
  | none | cts | rts | ctsRts
deriving DecidableEq, Repr

/-- `DUTY[e]`, stored and read by no rule (R6, R262). -/
inductive Duty where
  | standard | fastDuty2 | fastDuty16by9
deriving DecidableEq, Repr

/-- `ADDRW[e]` (R6, R95). -/
inductive AddrWidth where
  | bits7 | bits10
deriving DecidableEq, Repr

/-- The frame shape of a serial instance: what `LD.SETFRAME` sets together (R25, R153). -/
structure FrameShape where
  dataBits : Nat
  parity   : Parity
  stopBits : StopBits
deriving DecidableEq, Repr

/-- One member `[lo, hi)` of `MEMREGIONS` (R6). -/
structure Region where
  lo : Nat
  hi : Nat
deriving DecidableEq, Repr

/-- Parameters of a free-standing ring: `RB_N`, `RB_BASE`, `RB_PROD`, `RB_CONS` (R6). -/
structure RingPar where
  n    : Nat
  base : Nat
  prod : Agent
  cons : Agent
deriving DecidableEq, Repr

/-- Parameters of a serial instance (R6): ring capacities and bases, clock channel, oversampling
factor, which DMA channels are bound. The remaining fields are construction arguments: the frame
shape and flow control a model may start from (R44 "a model takes them as construction arguments"),
the peripheral addresses given to the channels (R371 (b)) and the constants `index()` of the three
interrupt lines (R34). -/
structure UartPar where
  txN       : Nat
  rxN       : Nat
  txBase    : Nat
  rxBase    : Nat
  clkCh     : Nat
  ovs       : Nat
  hasTxDma  : Bool
  hasRxDma  : Bool
  frame0    : Option FrameShape
  flow0     : Option Flow
  txPaddr   : Nat
  rxPaddr   : Nat
  irqIndex  : Nat
  txdmaIndex : Nat
  rxdmaIndex : Nat
deriving DecidableEq, Repr

/-- Parameters of a bus engine (R6): queue capacity and the constants `cfg` of R35. The remaining
fields are the peripheral addresses of its channels and the indices of its four lines. -/
structure EnginePar where
  qN       : Nat
  maxSpeed : Nat
  duty     : Duty
  addrW    : AddrWidth
  txPaddr  : Nat
  rxPaddr  : Nat
  evIndex    : Nat
  errIndex   : Nat
  txdmaIndex : Nat
  rxdmaIndex : Nat
deriving DecidableEq, Repr

/-- All the parameters of R6. `NRB`, `NUART`, `NI2C`, `NCLK` are the lengths of the lists. -/
structure Config where
  regions       : List Region
  dataBitsLegal : List Nat
  rings         : List RingPar
  uarts         : List UartPar
  engines       : List EnginePar
  clk0          : List Nat
deriving DecidableEq, Repr

namespace Config

/-- The storage range `[base, base + n)` of a byte ring lies inside one region (R68). -/
def storageOk (rs : List Region) (base n : Nat) : Bool :=
  decide (1 ≤ n) && decide (n < addressSpan) && decide (base + n ≤ addressSpan) &&
    rs.any fun r => decide (r.lo ≤ base) && decide (base + n ≤ r.hi)

/-- The storage ranges of all byte rings, as `(base, capacity)` (R24, R61). -/
def storages (c : Config) : List (Nat × Nat) :=
  c.rings.map (fun p => (p.base, p.n)) ++
    c.uarts.flatMap (fun p => [(p.txBase, p.txN), (p.rxBase, p.rxN)])

/-- Two storage ranges share no address. -/
def apart (x y : Nat × Nat) : Bool :=
  decide (x.1 + x.2 ≤ y.1) || decide (y.1 + y.2 ≤ x.1)

/-- Every element of a list is apart from every later one. -/
def pairwiseApart : List (Nat × Nat) → Bool
  | [] => true
  | x :: xs => xs.all (apart x) && pairwiseApart xs

/-- The parameter constraints of R6 and R68. -/
def valid (c : Config) : Bool :=
  c.regions.all (fun r => decide (r.hi ≤ addressSpan)) &&
  decide (c.dataBitsLegal ≠ []) &&
  c.rings.all (fun p => storageOk c.regions p.base p.n &&
    decide (p.prod ≠ p.cons) && decide (p.prod ≠ .env) && decide (p.cons ≠ .env)) &&
  c.uarts.all (fun p => storageOk c.regions p.txBase p.txN && storageOk c.regions p.rxBase p.rxN &&
    decide (1 ≤ p.ovs) && decide (p.clkCh < c.clk0.length)) &&
  c.engines.all (fun p => decide (1 ≤ p.qN) && decide (p.qN < addressSpan)) &&
  decide (1 ≤ c.clk0.length) &&
  c.clk0.all (fun f => decide (f < addressSpan)) &&
  pairwiseApart c.storages

/-- The parameters the machine is reset with: the harness parameters of 95_test_vectors (one serial
instance, one bus engine, one clock of 16 MHz, MEM `[0x1000, 0x6000)`), and one free-standing ring of
8 elements wired FG to DIRQ at `0x2200`, which no other storage touches. R6 leaves every one of
these open; no statement rests on them (DESIGN CHOICE, unsafe only for a claim about `State.reset`
itself: assumption 1). -/
def harness : Config where
  regions := [⟨0x1000, 0x6000⟩]
  dataBitsLegal := [8, 9]
  rings := [⟨8, 0x2200, .fg, .dirq⟩]
  uarts :=
    [{ txN := 8, rxN := 64, txBase := 0x2000, rxBase := 0x2100, clkCh := 0, ovs := 8,
       hasTxDma := true, hasRxDma := true, frame0 := none, flow0 := none,
       txPaddr := 0, rxPaddr := 0, irqIndex := 0, txdmaIndex := 1, rxdmaIndex := 2 }]
  engines :=
    [{ qN := 4, maxSpeed := 100000, duty := .standard, addrW := .bits7,
       txPaddr := 0, rxPaddr := 0, evIndex := 3, errIndex := 4, txdmaIndex := 5, rxdmaIndex := 6 }]
  clk0 := [16000000]

/-- FREE VALUE. What a channel's `remaining` holds after one is subtracted from 0. R297 subtracts,
R320 says `remaining >= 1` whenever a move is admitted, and the hazard of R382 (a queued descriptor
rewritten to two zero lengths) reaches 0 all the same: the spec states no value there. The argument
is the counter `State.freeCount` (assumption 7). -/
opaque freeRemaining : Nat → Word

end Config

end Sys2Proof
end

