-- ==== Sys2Proof/Syntax.lean ====
section
/-! DEFINITION. The operations: one constructor per row of spec/opcode_table.json (30_encoding R96).
Every operation word carries `INST` and `AGENT` (R91); a Format I operation carries its `IMM`
sub-fields (R93) as the bit fields they are, reserved codes included: R96 checks a reserved
enumeration value AFTER the row is selected. -/

namespace Sys2Proof

/-- An operation of the block. `inst` is `OW[23:20]`, `agent` is `OW[19:18]`. -/
inductive Instr where
  | memLd (inst : BitVec 4) (agent : Agent) (n : BitVec 3)
  | memSt (inst : BitVec 4) (agent : Agent) (n : BitVec 3)
  | rbWrite (inst : BitVec 4) (agent : Agent)
  | rbRead (inst : BitVec 4) (agent : Agent)
  | rbPop (inst : BitVec 4) (agent : Agent)
  | rbSkip (inst : BitVec 4) (agent : Agent)
  | rbPeek (inst : BitVec 4) (agent : Agent)
  | rbCommit (inst : BitVec 4) (agent : Agent)
  | rbUsed (inst : BitVec 4) (agent : Agent)
  | ldSetSpeed (inst : BitVec 4) (agent : Agent)
  | ldSetFrame (inst : BitVec 4) (agent : Agent) (parity : BitVec 2) (stopBits : BitVec 2) (dataBits : BitVec 8)
  | ldSetFlow (inst : BitVec 4) (agent : Agent) (flow : BitVec 2)
  | ldEnable (inst : BitVec 4) (agent : Agent) (part : BitVec 2)
  | ldDisable (inst : BitVec 4) (agent : Agent) (part : BitVec 2)
  | ldArmIrq (inst : BitVec 4) (agent : Agent) (cond : BitVec 4)
  | ldDisarmIrq (inst : BitVec 4) (agent : Agent) (cond : BitVec 4)
  | ldIrq (inst : BitVec 4) (agent : Agent)
  | ldRdUnit (inst : BitVec 4) (agent : Agent)
  | ldWrUnit (inst : BitVec 4) (agent : Agent)
  | ldWaitTc (inst : BitVec 4) (agent : Agent)
  | ldWaitRxne (inst : BitVec 4) (agent : Agent)
  | ldClkChg (inst : BitVec 4) (agent : Agent) (phase : BitVec 1)
  | bsWrite (inst : BitVec 4) (agent : Agent)
  | bsReadB (inst : BitVec 4) (agent : Agent)
  | bsReadNb (inst : BitVec 4) (agent : Agent)
  | bsTxDone (inst : BitVec 4) (agent : Agent)
  | bsRxDone (inst : BitVec 4) (agent : Agent)
  | tbEnable (inst : BitVec 4) (agent : Agent) (part : BitVec 2)
  | tbDisable (inst : BitVec 4) (agent : Agent) (part : BitVec 2)
  | bteSubmit (inst : BitVec 4) (agent : Agent)
  | bteEvAddr (inst : BitVec 4) (agent : Agent)
  | bteEvTc (inst : BitVec 4) (agent : Agent)
  | bteEvStop (inst : BitVec 4) (agent : Agent)
  | bteEvNack (inst : BitVec 4) (agent : Agent)
  | bteEvErr (inst : BitVec 4) (agent : Agent) (kind : BitVec 8)
  | bteDmaDone (inst : BitVec 4) (agent : Agent) (channel : BitVec 1)
  | lineRx (inst : BitVec 4) (agent : Agent) (flags : BitVec 4)
  | lineTxReady (inst : BitVec 4) (agent : Agent)
  | lineTxComplete (inst : BitVec 4) (agent : Agent)
  | lineIdle (inst : BitVec 4) (agent : Agent)
  | dmaMove (inst : BitVec 4) (agent : Agent) (channel : BitVec 2)
deriving DecidableEq, Repr

end Sys2Proof
end

