-- ==== Sys2Proof/WellFormed.lean ====
section
/-! DEFINITION. The static checks on an operation: the reserved enumeration values of
30_encoding R98 (d), (e) and the required agents of R94. They need no state; a term that fails one is
refused by its own meaning (`X_RESERVED`, `X_AGENT`), never silently run. -/

namespace Sys2Proof

namespace Instr

/-- The agent R94 requires; `none` for the `RB.*` operations, whose ring decides (R122). -/
def requiredAgent : Instr → Option Agent
  | .memLd _ _ _ => some .fg
  | .memSt _ _ _ => some .fg
  | .rbWrite _ _ => none
  | .rbRead _ _ => none
  | .rbPop _ _ => none
  | .rbSkip _ _ => none
  | .rbPeek _ _ => none
  | .rbCommit _ _ => none
  | .rbUsed _ _ => none
  | .ldSetSpeed _ _ => some .fg
  | .ldSetFrame _ _ _ _ _ => some .fg
  | .ldSetFlow _ _ _ => some .fg
  | .ldEnable _ _ _ => some .fg
  | .ldDisable _ _ _ => some .fg
  | .ldArmIrq _ _ _ => some .fg
  | .ldDisarmIrq _ _ _ => some .fg
  | .ldIrq _ _ => some .pirq
  | .ldRdUnit _ _ => some .fg
  | .ldWrUnit _ _ => some .fg
  | .ldWaitTc _ _ => some .fg
  | .ldWaitRxne _ _ => some .fg
  | .ldClkChg _ _ _ => some .fg
  | .bsWrite _ _ => some .fg
  | .bsReadB _ _ => some .fg
  | .bsReadNb _ _ => some .fg
  | .bsTxDone _ _ => some .dirq
  | .bsRxDone _ _ => some .dirq
  | .tbEnable _ _ _ => some .fg
  | .tbDisable _ _ _ => some .fg
  | .bteSubmit _ _ => some .fg
  | .bteEvAddr _ _ => some .pirq
  | .bteEvTc _ _ => some .pirq
  | .bteEvStop _ _ => some .pirq
  | .bteEvNack _ _ => some .pirq
  | .bteEvErr _ _ _ => some .pirq
  | .bteDmaDone _ _ _ => some .dirq
  | .lineRx _ _ _ => some .env
  | .lineTxReady _ _ => some .env
  | .lineTxComplete _ _ => some .env
  | .lineIdle _ _ => some .env
  | .dmaMove _ _ _ => some .env

/-- The `INST` field of an operation (R91). -/
def instOf : Instr → BitVec 4
  | .memLd i _ _ => i
  | .memSt i _ _ => i
  | .rbWrite i _ => i
  | .rbRead i _ => i
  | .rbPop i _ => i
  | .rbSkip i _ => i
  | .rbPeek i _ => i
  | .rbCommit i _ => i
  | .rbUsed i _ => i
  | .ldSetSpeed i _ => i
  | .ldSetFrame i _ _ _ _ => i
  | .ldSetFlow i _ _ => i
  | .ldEnable i _ _ => i
  | .ldDisable i _ _ => i
  | .ldArmIrq i _ _ => i
  | .ldDisarmIrq i _ _ => i
  | .ldIrq i _ => i
  | .ldRdUnit i _ => i
  | .ldWrUnit i _ => i
  | .ldWaitTc i _ => i
  | .ldWaitRxne i _ => i
  | .ldClkChg i _ _ => i
  | .bsWrite i _ => i
  | .bsReadB i _ => i
  | .bsReadNb i _ => i
  | .bsTxDone i _ => i
  | .bsRxDone i _ => i
  | .tbEnable i _ _ => i
  | .tbDisable i _ _ => i
  | .bteSubmit i _ => i
  | .bteEvAddr i _ => i
  | .bteEvTc i _ => i
  | .bteEvStop i _ => i
  | .bteEvNack i _ => i
  | .bteEvErr i _ _ => i
  | .bteDmaDone i _ _ => i
  | .lineRx i _ _ => i
  | .lineTxReady i _ => i
  | .lineTxComplete i _ => i
  | .lineIdle i _ => i
  | .dmaMove i _ _ => i

/-- The `AGENT` field of an operation (R91, R94): the issuing context. -/
def agentOf : Instr → Agent
  | .memLd _ a _ => a
  | .memSt _ a _ => a
  | .rbWrite _ a => a
  | .rbRead _ a => a
  | .rbPop _ a => a
  | .rbSkip _ a => a
  | .rbPeek _ a => a
  | .rbCommit _ a => a
  | .rbUsed _ a => a
  | .ldSetSpeed _ a => a
  | .ldSetFrame _ a _ _ _ => a
  | .ldSetFlow _ a _ => a
  | .ldEnable _ a _ => a
  | .ldDisable _ a _ => a
  | .ldArmIrq _ a _ => a
  | .ldDisarmIrq _ a _ => a
  | .ldIrq _ a => a
  | .ldRdUnit _ a => a
  | .ldWrUnit _ a => a
  | .ldWaitTc _ a => a
  | .ldWaitRxne _ a => a
  | .ldClkChg _ a _ => a
  | .bsWrite _ a => a
  | .bsReadB _ a => a
  | .bsReadNb _ a => a
  | .bsTxDone _ a => a
  | .bsRxDone _ a => a
  | .tbEnable _ a _ => a
  | .tbDisable _ a _ => a
  | .bteSubmit _ a => a
  | .bteEvAddr _ a => a
  | .bteEvTc _ a => a
  | .bteEvStop _ a => a
  | .bteEvNack _ a => a
  | .bteEvErr _ a _ => a
  | .bteDmaDone _ a _ => a
  | .lineRx _ a _ => a
  | .lineTxReady _ a => a
  | .lineTxComplete _ a => a
  | .lineIdle _ a => a
  | .dmaMove _ a _ => a

/-- No reserved enumeration value (R98 (d)): access size 1, 2 or 4, `part` and `parity` not 3,
condition number at most 8, a bus error kind of `BTE.EVERR`; and no ring operation of agent ENV
(R98 (e)). -/
def fieldsOk : Instr → Bool
  | .memLd _ _ n => n == 1#3 || n == 2#3 || n == 4#3
  | .memSt _ _ n => n == 1#3 || n == 2#3 || n == 4#3
  | .rbWrite _ a => a != .env
  | .rbRead _ a => a != .env
  | .rbPop _ a => a != .env
  | .rbSkip _ a => a != .env
  | .rbPeek _ a => a != .env
  | .rbCommit _ a => a != .env
  | .rbUsed _ a => a != .env
  | .ldSetSpeed _ _ => true
  | .ldSetFrame _ _ p _ _ => p != 3#2
  | .ldSetFlow _ _ _ => true
  | .ldEnable _ _ p => p != 3#2
  | .ldDisable _ _ p => p != 3#2
  | .ldArmIrq _ _ c => decide (c.toNat ≤ 8)
  | .ldDisarmIrq _ _ c => decide (c.toNat ≤ 8)
  | .ldIrq _ _ => true
  | .ldRdUnit _ _ => true
  | .ldWrUnit _ _ => true
  | .ldWaitTc _ _ => true
  | .ldWaitRxne _ _ => true
  | .ldClkChg _ _ _ => true
  | .bsWrite _ _ => true
  | .bsReadB _ _ => true
  | .bsReadNb _ _ => true
  | .bsTxDone _ _ => true
  | .bsRxDone _ _ => true
  | .tbEnable _ _ p => p != 3#2
  | .tbDisable _ _ p => p != 3#2
  | .bteSubmit _ _ => true
  | .bteEvAddr _ _ => true
  | .bteEvTc _ _ => true
  | .bteEvStop _ _ => true
  | .bteEvNack _ _ => true
  | .bteEvErr _ _ k => k == 0x11#8 || k == 0x12#8 || k == 0x14#8 || k == 0x15#8 || k == 0x16#8
  | .bteDmaDone _ _ _ => true
  | .lineRx _ _ _ => true
  | .lineTxReady _ _ => true
  | .lineTxComplete _ _ => true
  | .lineIdle _ _ => true
  | .dmaMove _ _ _ => true

/-- The issuing context is the one R94 requires, where it requires one. -/
def agentOk (i : Instr) : Bool :=
  match i.requiredAgent with
  | some a => i.agentOf == a
  | none => true

/-- An operation that passes every check needing no state (R94, R98). -/
def wellFormed (i : Instr) : Bool := i.fieldsOk && i.agentOk

end Instr

end Sys2Proof
end

