-- ==== Sys2Proof/Decode.lean ====
section
/-! DEFINITION. Decoding and encoding of operation words (30_encoding R90 to R97). Decoding is total:
a 32-bit word selects one row of R96 or is rejected by the name of the check of R98 (a), (b), (c) it
fails. The encoder is written from the same field layout (R91, R93). -/

namespace Sys2Proof

/-- Why a word selects no row (R98 (a), (b), (c)); each is `X_RESERVED` to the issuer. -/
inductive DecodeError where
  | reservedOpcode | reservedBits | undefinedImm
deriving DecidableEq, Repr

/-- `OW[31:24]` (R91). -/
def opcField (w : Word) : BitVec 8 := w.extractLsb' 24 8
/-- `OW[23:20]` (R91). -/
def instField (w : Word) : BitVec 4 := w.extractLsb' 20 4
/-- `OW[19:18]` (R91). -/
def agentField (w : Word) : BitVec 2 := w.extractLsb' 18 2
/-- `OW[17:16]`, reserved (R91). -/
def reservedField (w : Word) : BitVec 2 := w.extractLsb' 16 2
/-- `OW[15:0]` (R91). -/
def immField (w : Word) : BitVec 16 := w.extractLsb' 0 16

/-- The agent numbers of R91: 0 FG, 1 PIRQ, 2 DIRQ, 3 ENV. -/
def agentOfCode (c : BitVec 2) : Agent :=
  if c = 0#2 then .fg else if c = 1#2 then .pirq else if c = 2#2 then .dirq else .env

/-- The number of an agent in `OW[19:18]` (R91). -/
def agentCode : Agent → BitVec 2
  | .fg => 0#2
  | .pirq => 1#2
  | .dirq => 2#2
  | .env => 3#2

/-- The issuing context of an operation word, reserved words included (R91, R314). -/
def issuerOf (w : Word) : Agent := agentOfCode (agentField w)

/-- The row of R96 with opcode `opc`: how many low bits of `IMM` it defines (R93), and the operation
it stands for. `none` for the 215 reserved opcodes. -/
def rowOf (opc : Nat) (i : BitVec 4) (a : Agent) (imm : BitVec 16) : Option (Nat × Instr) :=
  match opc with
  | 0x01 => some (3, .memLd i a (imm.extractLsb' 0 3))
  | 0x02 => some (3, .memSt i a (imm.extractLsb' 0 3))
  | 0x10 => some (0, .rbWrite i a)
  | 0x11 => some (0, .rbRead i a)
  | 0x12 => some (0, .rbPop i a)
  | 0x13 => some (0, .rbSkip i a)
  | 0x14 => some (0, .rbPeek i a)
  | 0x15 => some (0, .rbCommit i a)
  | 0x16 => some (0, .rbUsed i a)
  | 0x20 => some (0, .ldSetSpeed i a)
  | 0x21 => some (12, .ldSetFrame i a (imm.extractLsb' 0 2) (imm.extractLsb' 2 2) (imm.extractLsb' 4 8))
  | 0x22 => some (2, .ldSetFlow i a (imm.extractLsb' 0 2))
  | 0x23 => some (2, .ldEnable i a (imm.extractLsb' 0 2))
  | 0x24 => some (2, .ldDisable i a (imm.extractLsb' 0 2))
  | 0x25 => some (4, .ldArmIrq i a (imm.extractLsb' 0 4))
  | 0x26 => some (4, .ldDisarmIrq i a (imm.extractLsb' 0 4))
  | 0x27 => some (0, .ldIrq i a)
  | 0x28 => some (0, .ldRdUnit i a)
  | 0x29 => some (0, .ldWrUnit i a)
  | 0x2A => some (0, .ldWaitTc i a)
  | 0x2B => some (0, .ldWaitRxne i a)
  | 0x2C => some (1, .ldClkChg i a (imm.extractLsb' 0 1))
  | 0x30 => some (0, .bsWrite i a)
  | 0x31 => some (0, .bsReadB i a)
  | 0x32 => some (0, .bsReadNb i a)
  | 0x33 => some (0, .bsTxDone i a)
  | 0x34 => some (0, .bsRxDone i a)
  | 0x38 => some (2, .tbEnable i a (imm.extractLsb' 0 2))
  | 0x39 => some (2, .tbDisable i a (imm.extractLsb' 0 2))
  | 0x40 => some (0, .bteSubmit i a)
  | 0x41 => some (0, .bteEvAddr i a)
  | 0x42 => some (0, .bteEvTc i a)
  | 0x43 => some (0, .bteEvStop i a)
  | 0x44 => some (0, .bteEvNack i a)
  | 0x45 => some (8, .bteEvErr i a (imm.extractLsb' 0 8))
  | 0x46 => some (1, .bteDmaDone i a (imm.extractLsb' 0 1))
  | 0x50 => some (4, .lineRx i a (imm.extractLsb' 0 4))
  | 0x51 => some (0, .lineTxReady i a)
  | 0x52 => some (0, .lineTxComplete i a)
  | 0x53 => some (0, .lineIdle i a)
  | 0x54 => some (2, .dmaMove i a (imm.extractLsb' 0 2))
  | _ => none

/-- Decode an operation word (R96, R97): the row of its opcode, if bits 17:16 and every `IMM` bit the
row does not define are 0. -/
def decode (w : Word) : Except DecodeError Instr :=
  match rowOf (opcField w).toNat (instField w) (agentOfCode (agentField w)) (immField w) with
  | none => .error .reservedOpcode
  | some (k, i) =>
    if reservedField w ≠ 0#2 then .error .reservedBits
    else if 2 ^ k ≤ (immField w).toNat then .error .undefinedImm
    else .ok i

/-- The opcode of an operation (R96). -/
def opcodeOf : Instr → BitVec 8
  | .memLd _ _ _ => 0x01#8
  | .memSt _ _ _ => 0x02#8
  | .rbWrite _ _ => 0x10#8
  | .rbRead _ _ => 0x11#8
  | .rbPop _ _ => 0x12#8
  | .rbSkip _ _ => 0x13#8
  | .rbPeek _ _ => 0x14#8
  | .rbCommit _ _ => 0x15#8
  | .rbUsed _ _ => 0x16#8
  | .ldSetSpeed _ _ => 0x20#8
  | .ldSetFrame _ _ _ _ _ => 0x21#8
  | .ldSetFlow _ _ _ => 0x22#8
  | .ldEnable _ _ _ => 0x23#8
  | .ldDisable _ _ _ => 0x24#8
  | .ldArmIrq _ _ _ => 0x25#8
  | .ldDisarmIrq _ _ _ => 0x26#8
  | .ldIrq _ _ => 0x27#8
  | .ldRdUnit _ _ => 0x28#8
  | .ldWrUnit _ _ => 0x29#8
  | .ldWaitTc _ _ => 0x2A#8
  | .ldWaitRxne _ _ => 0x2B#8
  | .ldClkChg _ _ _ => 0x2C#8
  | .bsWrite _ _ => 0x30#8
  | .bsReadB _ _ => 0x31#8
  | .bsReadNb _ _ => 0x32#8
  | .bsTxDone _ _ => 0x33#8
  | .bsRxDone _ _ => 0x34#8
  | .tbEnable _ _ _ => 0x38#8
  | .tbDisable _ _ _ => 0x39#8
  | .bteSubmit _ _ => 0x40#8
  | .bteEvAddr _ _ => 0x41#8
  | .bteEvTc _ _ => 0x42#8
  | .bteEvStop _ _ => 0x43#8
  | .bteEvNack _ _ => 0x44#8
  | .bteEvErr _ _ _ => 0x45#8
  | .bteDmaDone _ _ _ => 0x46#8
  | .lineRx _ _ _ => 0x50#8
  | .lineTxReady _ _ => 0x51#8
  | .lineTxComplete _ _ => 0x52#8
  | .lineIdle _ _ => 0x53#8
  | .dmaMove _ _ _ => 0x54#8

/-- The `IMM` field of an operation (R93); 0 for Format N (R92). -/
def immOf : Instr → BitVec 16
  | .memLd _ _ n => 0#13 ++ n
  | .memSt _ _ n => 0#13 ++ n
  | .rbWrite _ _ => 0#16
  | .rbRead _ _ => 0#16
  | .rbPop _ _ => 0#16
  | .rbSkip _ _ => 0#16
  | .rbPeek _ _ => 0#16
  | .rbCommit _ _ => 0#16
  | .rbUsed _ _ => 0#16
  | .ldSetSpeed _ _ => 0#16
  | .ldSetFrame _ _ p sb db => ((0#4 ++ db) ++ sb) ++ p
  | .ldSetFlow _ _ f => 0#14 ++ f
  | .ldEnable _ _ p => 0#14 ++ p
  | .ldDisable _ _ p => 0#14 ++ p
  | .ldArmIrq _ _ c => 0#12 ++ c
  | .ldDisarmIrq _ _ c => 0#12 ++ c
  | .ldIrq _ _ => 0#16
  | .ldRdUnit _ _ => 0#16
  | .ldWrUnit _ _ => 0#16
  | .ldWaitTc _ _ => 0#16
  | .ldWaitRxne _ _ => 0#16
  | .ldClkChg _ _ p => 0#15 ++ p
  | .bsWrite _ _ => 0#16
  | .bsReadB _ _ => 0#16
  | .bsReadNb _ _ => 0#16
  | .bsTxDone _ _ => 0#16
  | .bsRxDone _ _ => 0#16
  | .tbEnable _ _ p => 0#14 ++ p
  | .tbDisable _ _ p => 0#14 ++ p
  | .bteSubmit _ _ => 0#16
  | .bteEvAddr _ _ => 0#16
  | .bteEvTc _ _ => 0#16
  | .bteEvStop _ _ => 0#16
  | .bteEvNack _ _ => 0#16
  | .bteEvErr _ _ k => 0#8 ++ k
  | .bteDmaDone _ _ c => 0#15 ++ c
  | .lineRx _ _ f => 0#12 ++ f
  | .lineTxReady _ _ => 0#16
  | .lineTxComplete _ _ => 0#16
  | .lineIdle _ _ => 0#16
  | .dmaMove _ _ c => 0#14 ++ c

/-- Assemble the fields of R91, most significant first. -/
def packWord (opc : BitVec 8) (i : BitVec 4) (a : BitVec 2) (imm : BitVec 16) : Word :=
  (((opc ++ i) ++ a) ++ 0#2) ++ imm

/-- The operation word of an operation (R91, R101). -/
def encode (i : Instr) : Word :=
  packWord (opcodeOf i) i.instOf (agentCode i.agentOf) (immOf i)

/-- A row of the opcode table as R96 states it: a word selects it when its masked bits are the
pattern. -/
structure TableRow where
  mnemonic : String
  pattern  : Word
  mask     : Word
deriving DecidableEq, Repr

/-- `w & mask = match` (R96). -/
def TableRow.selects (r : TableRow) (w : Word) : Bool := w &&& r.mask == r.pattern

/-- The rows of R96, with the patterns and masks of spec/opcode_table.json (first part). -/
def tableRowsA : List TableRow :=
  [ ⟨"MEM.LD", 0x01000000#32, 0xFF03FFF8#32⟩, ⟨"MEM.ST", 0x02000000#32, 0xFF03FFF8#32⟩,
    ⟨"RB.WRITE", 0x10000000#32, 0xFF03FFFF#32⟩, ⟨"RB.READ", 0x11000000#32, 0xFF03FFFF#32⟩,
    ⟨"RB.POP", 0x12000000#32, 0xFF03FFFF#32⟩, ⟨"RB.SKIP", 0x13000000#32, 0xFF03FFFF#32⟩,
    ⟨"RB.PEEK", 0x14000000#32, 0xFF03FFFF#32⟩, ⟨"RB.COMMIT", 0x15000000#32, 0xFF03FFFF#32⟩,
    ⟨"RB.USED", 0x16000000#32, 0xFF03FFFF#32⟩ ]

/-- The rows of R96 (second part: the line driver). -/
def tableRowsB : List TableRow :=
  [ ⟨"LD.SETSPEED", 0x20000000#32, 0xFF03FFFF#32⟩, ⟨"LD.SETFRAME", 0x21000000#32, 0xFF03F000#32⟩,
    ⟨"LD.SETFLOW", 0x22000000#32, 0xFF03FFFC#32⟩, ⟨"LD.ENABLE", 0x23000000#32, 0xFF03FFFC#32⟩,
    ⟨"LD.DISABLE", 0x24000000#32, 0xFF03FFFC#32⟩, ⟨"LD.ARMIRQ", 0x25000000#32, 0xFF03FFF0#32⟩,
    ⟨"LD.DISARMIRQ", 0x26000000#32, 0xFF03FFF0#32⟩, ⟨"LD.IRQ", 0x27000000#32, 0xFF03FFFF#32⟩,
    ⟨"LD.RDUNIT", 0x28000000#32, 0xFF03FFFF#32⟩, ⟨"LD.WRUNIT", 0x29000000#32, 0xFF03FFFF#32⟩,
    ⟨"LD.WAITTC", 0x2A000000#32, 0xFF03FFFF#32⟩, ⟨"LD.WAITRXNE", 0x2B000000#32, 0xFF03FFFF#32⟩,
    ⟨"LD.CLKCHG", 0x2C000000#32, 0xFF03FFFE#32⟩ ]

/-- The rows of R96 (third part: stream, binding, bus engine, environment). -/
def tableRowsC : List TableRow :=
  [ ⟨"BS.WRITE", 0x30000000#32, 0xFF03FFFF#32⟩, ⟨"BS.READB", 0x31000000#32, 0xFF03FFFF#32⟩,
    ⟨"BS.READNB", 0x32000000#32, 0xFF03FFFF#32⟩, ⟨"BS.TXDONE", 0x33000000#32, 0xFF03FFFF#32⟩,
    ⟨"BS.RXDONE", 0x34000000#32, 0xFF03FFFF#32⟩, ⟨"TB.ENABLE", 0x38000000#32, 0xFF03FFFC#32⟩,
    ⟨"TB.DISABLE", 0x39000000#32, 0xFF03FFFC#32⟩, ⟨"BTE.SUBMIT", 0x40000000#32, 0xFF03FFFF#32⟩,
    ⟨"BTE.EVADDR", 0x41000000#32, 0xFF03FFFF#32⟩, ⟨"BTE.EVTC", 0x42000000#32, 0xFF03FFFF#32⟩,
    ⟨"BTE.EVSTOP", 0x43000000#32, 0xFF03FFFF#32⟩, ⟨"BTE.EVNACK", 0x44000000#32, 0xFF03FFFF#32⟩,
    ⟨"BTE.EVERR", 0x45000000#32, 0xFF03FF00#32⟩, ⟨"BTE.DMADONE", 0x46000000#32, 0xFF03FFFE#32⟩,
    ⟨"LINE.RX", 0x50000000#32, 0xFF03FFF0#32⟩, ⟨"LINE.TXREADY", 0x51000000#32, 0xFF03FFFF#32⟩,
    ⟨"LINE.TXCOMPLETE", 0x52000000#32, 0xFF03FFFF#32⟩, ⟨"LINE.IDLE", 0x53000000#32, 0xFF03FFFF#32⟩,
    ⟨"DMA.MOVE", 0x54000000#32, 0xFF03FFFC#32⟩ ]

/-- The opcode table (R96): 41 rows. -/
def opcodeTable : List TableRow := tableRowsA ++ tableRowsB ++ tableRowsC

/-- The instruction the decoder reads from the table's bits of one word: `nbits` low bits of `w`, the
bits above them 0. An operation is one 32-bit word (R90), written to the port whole, so there is no
byte order to apply. -/
def decodeTableWord (nbits w : Nat) : Option Instr :=
  match decode (zext32 (w % 2 ^ nbits)) with
  | .ok i => some i
  | .error _ => none

end Sys2Proof
end

