-- ==== Sys2Proof/Machine/State.lean ====
section
/-! DEFINITION. The state of the block (spec 10_state), as plain data, and its value after reset
(R44). "Holds no value" is a state the spec itself gives a field (R44, R45): such a field is an
`Option`, `none` standing for it; a rule that reads one is refused `X_STATE` by the block, in a next
state, so a read never stops the machine. -/

namespace Sys2Proof.Machine

/-- Why the machine would stop with a fault. No constructor: "Nothing in this subsystem escalates to a
system-level fault or halts the processor" (R330). The block's own sticky faults (R340) are state
(`State.faults`), after which the machine goes on. -/
inductive Fault where
deriving DecidableEq, Repr

/-- Why a word would have no meaning in this model. The block's own refusals (R341) are state
(`State.refusals`), after which the machine goes on. -/
inductive Refusal where
  /-- An operation that exec does not give its meaning yet. Safe: the machine stops. No arm uses it. -/
  | notModelled (mnemonic : String)
deriving DecidableEq, Repr

/-- The result, error and event kinds of R331. -/
inductive Kind where
  | success
  | parityError | framingError | noiseDetected | overrunError | lineBreak
  | busError | arbitrationLost | acknowledgeFailure | overrunUnderrun | timingError | protocolAlert
  | dataAvailable | transmitReady | transmitComplete | idleLine
deriving DecidableEq, Repr

/-- The fault codes of R343. -/
inductive FaultCode where
  | delta | rbOverflow | rbUnderflow
deriving DecidableEq, Repr

/-- The refusal codes of R344. -/
inductive RefuseCode where
  | xReserved | xAgent | xOperand | xState | xNoDma | xMem | xEmptyTxn
deriving DecidableEq, Repr

/-- `FAULTS`, the sticky set of fault codes (R40): which members it has. -/
structure FaultSet where
  delta       : Bool
  rbOverflow  : Bool
  rbUnderflow : Bool
deriving DecidableEq, Repr

/-- `REFUSALS`, the sticky set of refusal codes (R40): which members it has. -/
structure RefusalSet where
  xReserved : Bool
  xAgent    : Bool
  xOperand  : Bool
  xState    : Bool
  xNoDma    : Bool
  xMem      : Bool
  xEmptyTxn : Bool
deriving DecidableEq, Repr

/-- `CSR` (R21) by its fields; every other bit reads 0 and the issuer cannot write it. `code` is bits
15:8. -/
structure Csr where
  fault   : Bool
  refused : Bool
  hold    : Bool
  code    : BitVec 8
deriving DecidableEq, Repr

/-- A command port (R20). The port is one per agent in effect (R314, D1). `RES` holds no value until an
operation writes it (R44). -/
structure Port where
  arg0 : Word
  arg1 : Word
  arg2 : Word
  res0 : Option Word
  res1 : Option Word
deriving DecidableEq, Repr

/-- The indices of a ring of capacity `n` (R23): `readIndex`, `writeIndex`, the used count. -/
structure Ring where
  n    : Nat
  rd   : Nat
  wr   : Nat
  used : Nat
deriving DecidableEq, Repr

/-- A byte ring: element `i` is the byte `MEM[base + i]` (R24, R61). -/
structure ByteRing where
  ix   : Ring
  base : Nat
deriving DecidableEq, Repr

/-- The transaction queue's ring (R24): 32-bit references in an internal array, not in MEM. An element
holds no value until a submit writes it (R44). -/
structure Queue where
  ix    : Ring
  store : List (Option Word)
deriving DecidableEq, Repr

/-- A free-standing ring with its wiring `RB_PROD`, `RB_CONS` (R24, R122). -/
structure FreeRing where
  ring : ByteRing
  prod : Agent
  cons : Agent
deriving DecidableEq, Repr

/-- A direction of a LineDriver (R26). -/
inductive EnState where
  | disabled | enabled
deriving DecidableEq, Repr

/-- LineDriver configuration and enable state (R25, R26, R27). `mant`, `frac` and the frame fields hold
no value until set (R44). -/
structure LineDriver where
  speed    : Word
  mant     : Option Nat
  frac     : Option Nat
  dataBits : Option Nat
  parity   : Option Parity
  stopBits : Option StopBits
  flow     : Option Flow
  rxEn     : EnState
  txEn     : EnState
  periphEn : Bool
  ie       : BitVec 9
deriving DecidableEq, Repr

/-- The peripheral's status word and data registers (R28, R29). -/
structure Line where
  sr     : BitVec 9
  rdr    : Option Word
  txLine : List Word
deriving DecidableEq, Repr

/-- TransferBinding (R30): the DMA request enables. -/
structure Binding where
  dmaTxEn : Bool
  dmaRxEn : Bool
deriving DecidableEq, Repr

/-- The PendingRead (R32). It exists exactly when `rem` is not 0. -/
structure PendingRead where
  dst    : Word
  rem    : Word
  handle : Word
deriving DecidableEq, Repr

/-- BufferedStream (R31). -/
structure Stream where
  tx         : ByteRing
  rx         : ByteRing
  txInFlight : Nat
  prevCount  : Nat
  pend       : PendingRead
deriving DecidableEq, Repr

/-- Direction of a DMA channel (R33). -/
inductive DmaDir where
  | memToPeriph | periphToMem
deriving DecidableEq, Repr

/-- A DMA channel (R33). -/
structure DmaChan where
  dir       : DmaDir
  width     : Nat
  burst     : Nat
  maddr     : Nat
  paddr     : Nat
  count     : Nat
  remaining : Nat
  circular  : Bool
  running   : Bool
  done      : Bool
deriving DecidableEq, Repr

/-- An interrupt line (R34). -/
structure IrqLine where
  enabled : Bool
  bound   : Bool
  index   : Nat
deriving DecidableEq, Repr

/-- A serial instance `UART[u]`: its parameters, LD, LINE, TB, BS, its two channels and three lines. -/
structure Uart where
  par      : UartPar
  ld       : LineDriver
  line     : Line
  tb       : Binding
  bs       : Stream
  txch     : DmaChan
  rxch     : DmaChan
  irq      : IrqLine
  txdmaIrq : IrqLine
  rxdmaIrq : IrqLine
deriving DecidableEq, Repr

/-- `BTE.st` (R35). -/
inductive BusState where
  | idle | addressPhase | dataPhaseWrite | dataPhaseRead
deriving DecidableEq, Repr

/-- `BTE.phase` (R35). -/
inductive BusPhase where
  | w | r
deriving DecidableEq, Repr

/-- Direction of a bus start (R37). -/
inductive BusDir where
  | wr | rd
deriving DecidableEq, Repr

/-- An item of `BUSLOG` (R37). -/
inductive BusItem where
  | start (addr : Word) (dir : BusDir) (ext : Bool)
  | rstart (addr : Word) (dir : BusDir) (ext : Bool)
  | w (b : Byte)
  | r (b : Byte)
  | stop
  | nack
  | preset
deriving DecidableEq, Repr

/-- A bus engine `I2C[e]` (R35, R37): its constants, the queue, the state machine, its channels, lines
and logs. `phase`, `byteCount` and `autoStop` hold no value until the first start (R44). -/
structure Engine where
  par       : EnginePar
  q         : Queue
  st        : BusState
  phase     : Option BusPhase
  byteCount : Option Nat
  autoStop  : Option Bool
  periphEn  : Bool
  dmaTxEn   : Bool
  dmaRxEn   : Bool
  txch      : DmaChan
  rxch      : DmaChan
  evIrq     : IrqLine
  errIrq    : IrqLine
  txdmaIrq  : IrqLine
  rxdmaIrq  : IrqLine
  busLog    : List BusItem
  errLog    : List Kind
deriving DecidableEq, Repr

/-- MEM (R60): the bytes that hold a value, by rising address. An address not listed holds no value
(R44, R69). -/
abbrev Memory := List Host.Cell

/-- The canonical form of MEM: addresses strictly rising and below `2^AW`. No entry can equal what an
unlisted address reads as, which is no value. -/
def Memory.wf (m : Memory) : Bool :=
  decide (m.Pairwise fun x y => x.1 < y.1) && m.all fun x => decide (x.1 < addressSpan)

/-- The command FG has issued and that is waiting (R342); its operands stay in FG's port (R314). -/
inductive Held where
  | waitTc (u : Nat)
  | waitRxne (u : Nat)
  | readB (u : Nat)
deriving DecidableEq, Repr

/-- Which result register a host reads. -/
inductive ResReg where
  | res0 | res1
deriving DecidableEq, Repr

/-- One entry of the trace (R90): an agent writes its `ARG` registers and an operation word; or the
foreground, holding, re-tests its condition (R356); or an issuer reads a result register (R20, R314). -/
inductive Act where
  | issue (w : Word) (a0 : Word) (a1 : Word) (a2 : Word)
  | wake
  | readRes (ag : Agent) (k : ResReg)
deriving DecidableEq, Repr

/-- The whole block. `acts` (the trace still to come, oldest first), `held` and `freeCount` are the
model's own: R12 lets any enabled operation of any agent be the next transition, and the trace says
which is. -/
structure State where
  regions       : List Region
  dataBitsLegal : List Nat
  portFg        : Port
  portPirq      : Port
  portDirq      : Port
  portEnv       : Port
  csr           : Csr
  faults        : FaultSet
  refusals      : RefusalSet
  rings         : List FreeRing
  uarts         : List Uart
  engines       : List Engine
  clkFreq       : List Nat
  irqMask       : Bool
  evq           : List (Word × Kind)
  notif         : List (Nat × Kind)
  mem           : Memory
  held          : Option Held
  acts          : List Act
  freeCount     : Nat
deriving DecidableEq, Repr

/-- A ring after reset: empty (R44). -/
def Ring.empty (n : Nat) : Ring := ⟨n, 0, 0, 0⟩

/-- A command port after reset. R44 leaves `ARG` unspecified: 0 here (assumption 2); `RES` holds no
value. -/
def Port.reset : Port := ⟨0#32, 0#32, 0#32, none, none⟩

/-- An interrupt line after reset: enabled and bound (R44, R371 (c)). -/
def IrqLine.reset (index : Nat) : IrqLine := ⟨true, true, index⟩

/-- A stopped channel of width and burst 1, as construction leaves it (R44, R371 (b)). -/
def DmaChan.idle (dir : DmaDir) (maddr paddr : Nat) : DmaChan :=
  ⟨dir, 1, 1, maddr, paddr, 0, 0, false, false, false⟩

/-- The serial receive channel after reset: free-running over the read ring's storage (R44). -/
def DmaChan.freeRunning (maddr paddr n : Nat) : DmaChan :=
  ⟨.periphToMem, 1, 1, maddr, paddr, n, n, true, true, false⟩

/-- A free-standing ring after construction. -/
def FreeRing.reset (p : RingPar) : FreeRing := ⟨⟨.empty p.n, p.base⟩, p.prod, p.cons⟩

/-- A serial instance after construction (R44). -/
def Uart.reset (p : UartPar) : Uart where
  par := p
  ld :=
    { speed := 0#32, mant := none, frac := none,
      dataBits := p.frame0.map (·.dataBits), parity := p.frame0.map (·.parity),
      stopBits := p.frame0.map (·.stopBits), flow := p.flow0,
      rxEn := .disabled, txEn := .disabled, periphEn := false, ie := 0#9 }
  line := ⟨0#9, none, []⟩
  tb := ⟨false, false⟩
  bs :=
    { tx := ⟨.empty p.txN, p.txBase⟩, rx := ⟨.empty p.rxN, p.rxBase⟩,
      txInFlight := 0, prevCount := p.rxN, pend := ⟨0#32, 0#32, 0#32⟩ }
  txch := .idle .memToPeriph p.txBase p.txPaddr
  rxch :=
    if p.hasRxDma then .freeRunning p.rxBase p.rxPaddr p.rxN
    else .idle .periphToMem p.rxBase p.rxPaddr
  irq := .reset p.irqIndex
  txdmaIrq := .reset p.txdmaIndex
  rxdmaIrq := .reset p.rxdmaIndex

/-- A bus engine after construction (R44): Idle, its peripheral and DMA enables off. -/
def Engine.reset (p : EnginePar) : Engine where
  par := p
  q := ⟨.empty p.qN, List.replicate p.qN none⟩
  st := .idle
  phase := none
  byteCount := none
  autoStop := none
  periphEn := false
  dmaTxEn := false
  dmaRxEn := false
  txch := .idle .memToPeriph 0 p.txPaddr
  rxch := .idle .periphToMem 0 p.rxPaddr
  evIrq := .reset p.evIndex
  errIrq := .reset p.errIndex
  txdmaIrq := .reset p.txdmaIndex
  rxdmaIrq := .reset p.rxdmaIndex
  busLog := []
  errLog := []

/-- The block right after construction with given parameters (R44, R370 to R373). -/
def State.ofConfig (c : Config) : State where
  regions := c.regions
  dataBitsLegal := c.dataBitsLegal
  portFg := .reset
  portPirq := .reset
  portDirq := .reset
  portEnv := .reset
  csr := ⟨false, false, false, 0#8⟩
  faults := ⟨false, false, false⟩
  refusals := ⟨false, false, false, false, false, false, false⟩
  rings := c.rings.map .reset
  uarts := c.uarts.map .reset
  engines := c.engines.map .reset
  clkFreq := c.clk0
  irqMask := false
  evq := []
  notif := []
  mem := []
  held := none
  acts := []
  freeCount := 0

/-- The machine right after reset (R44), with the parameters `Config.harness`. -/
def State.reset : State := .ofConfig .harness

end Sys2Proof.Machine
end

