-- ==== Sys2Proof/Machine/Ops.lean ====
section
/-! DEFINITION. The named operations over the state: the outcomes fault and refusal (60_exceptions R340,
R341), the command port (R20, R21), MEM (20_memory), the ring procedures (40_ringbuffer), the DMA
channel interface (44_external_interfaces R290 to R297), `post` (R310). The block has no trap, no
saved pc and no return (R330, R339): what an operation that goes wrong does is `conclude`. -/

namespace Sys2Proof.Machine

/-! ### Codes -/

/-- The code of a kind (R331). -/
def Kind.code : Kind → BitVec 8
  | .success => 0x00#8
  | .parityError => 0x01#8
  | .framingError => 0x02#8
  | .noiseDetected => 0x03#8
  | .overrunError => 0x04#8
  | .lineBreak => 0x05#8
  | .busError => 0x11#8
  | .arbitrationLost => 0x12#8
  | .acknowledgeFailure => 0x13#8
  | .overrunUnderrun => 0x14#8
  | .timingError => 0x15#8
  | .protocolAlert => 0x16#8
  | .dataAvailable => 0x21#8
  | .transmitReady => 0x22#8
  | .transmitComplete => 0x23#8
  | .idleLine => 0x24#8

/-- The code of a fault (R343). -/
def FaultCode.code : FaultCode → BitVec 8
  | .delta => 0x81#8
  | .rbOverflow => 0x82#8
  | .rbUnderflow => 0x83#8

/-- The code of a refusal (R344). -/
def RefuseCode.code : RefuseCode → BitVec 8
  | .xReserved => 0x01#8
  | .xAgent => 0x02#8
  | .xOperand => 0x03#8
  | .xState => 0x04#8
  | .xNoDma => 0x05#8
  | .xMem => 0x06#8
  | .xEmptyTxn => 0x07#8

/-- `FAULTS + {f}` (R340). -/
def FaultSet.insert (f : FaultCode) (x : FaultSet) : FaultSet :=
  match f with
  | .delta => { x with delta := true }
  | .rbOverflow => { x with rbOverflow := true }
  | .rbUnderflow => { x with rbUnderflow := true }

/-- Membership in `FAULTS`. -/
def FaultSet.has (x : FaultSet) : FaultCode → Bool
  | .delta => x.delta
  | .rbOverflow => x.rbOverflow
  | .rbUnderflow => x.rbUnderflow

/-- `REFUSALS + {x}` (R341). -/
def RefusalSet.insert (c : RefuseCode) (x : RefusalSet) : RefusalSet :=
  match c with
  | .xReserved => { x with xReserved := true }
  | .xAgent => { x with xAgent := true }
  | .xOperand => { x with xOperand := true }
  | .xState => { x with xState := true }
  | .xNoDma => { x with xNoDma := true }
  | .xMem => { x with xMem := true }
  | .xEmptyTxn => { x with xEmptyTxn := true }

/-- Membership in `REFUSALS`. -/
def RefusalSet.has (x : RefusalSet) : RefuseCode → Bool
  | .xReserved => x.xReserved
  | .xAgent => x.xAgent
  | .xOperand => x.xOperand
  | .xState => x.xState
  | .xNoDma => x.xNoDma
  | .xMem => x.xMem
  | .xEmptyTxn => x.xEmptyTxn

/-- `CSR` as the issuer reads it (R21): bit 0 `FAULT`, bit 1 `REFUSED`, bit 2 `HOLD`, bits 15:8 `CODE`,
every other bit 0. -/
def Csr.word (c : Csr) : Word :=
  (((0#16 ++ c.code) ++ 0#5) ++ BitVec.ofBool c.hold) ++ (BitVec.ofBool c.refused ++ BitVec.ofBool c.fault)

/-! ### Fault, refusal -/

/-- How an operation can end other than in its next state: a fault raised in the state its effects had
reached (R340), or a refusal (R341). -/
inductive Stop where
  | fault (f : FaultCode) (s : State)
  | refuse (x : RefuseCode)

/-- A procedure of the block: its result, or the way it stopped. -/
abbrev Proc (α : Type) := Except Stop α

/-- `refuse(X)` (R8). -/
def refuse {α : Type} (x : RefuseCode) : Proc α := .error (.refuse x)

/-- `raise Fault(F)` in the state reached (R8). -/
def raise {α : Type} (f : FaultCode) (s : State) : Proc α := .error (.fault f s)

/-- An admission check: refuse with `x` unless `b`. -/
def require (b : Bool) (x : RefuseCode) : Proc Unit := if b then .ok () else refuse x

/-- Read a field that may hold no value; with none the operation is refused `X_STATE` (R45). -/
def valueOf {α : Type} : Option α → Proc α
  | some a => .ok a
  | none => refuse .xState

/-- A fault is recorded (R340): sticky member, `CSR.FAULT`, and `CSR.CODE` if it is the first fault. -/
def raiseFault (f : FaultCode) (s : State) : State :=
  { s with
    faults := s.faults.insert f
    csr := { s.csr with fault := true, code := if s.csr.fault then s.csr.code else f.code } }

/-- A refusal is recorded (R341): sticky member, `CSR.REFUSED`, and `CSR.CODE` if there was neither a
fault nor a refusal before. -/
def markRefused (x : RefuseCode) (s : State) : State :=
  { s with
    refusals := s.refusals.insert x
    csr := { s.csr with refused := true, code := if s.csr.fault || s.csr.refused then s.csr.code else x.code } }

/-- How an operation issued in state `s` ends (R340, R341). A fault keeps the effects made before it; a
refusal changes nothing of `s` but the mark. Either way the block goes on. -/
def conclude (s : State) : Proc State → Host.Outcome State Fault Refusal
  | .ok t => .next t
  | .error (.fault f t) => .next (raiseFault f t)
  | .error (.refuse x) => .next (markRefused x s)

/-- A word that selects no row of the opcode table (R98 (a), (b), (c)): refused `X_RESERVED`. -/
def execReserved (_ : DecodeError) (s : State) : Host.Outcome State Fault Refusal :=
  conclude s (refuse .xReserved)

/-! ### The command port -/

/-- The port of an agent (R314). -/
def State.port (s : State) : Agent → Port
  | .fg => s.portFg
  | .pirq => s.portPirq
  | .dirq => s.portDirq
  | .env => s.portEnv

/-- Replace the port of an agent. -/
def State.setPort (s : State) (a : Agent) (p : Port) : State :=
  match a with
  | .fg => { s with portFg := p }
  | .pirq => { s with portPirq := p }
  | .dirq => { s with portDirq := p }
  | .env => { s with portEnv := p }

/-- `RES0 <- v` in the issuer's port (R20, R325). -/
def State.setRes0 (s : State) (a : Agent) (v : Word) : State :=
  s.setPort a { s.port a with res0 := some v }

/-- `RES1 <- v` in the issuer's port (R20, R325). -/
def State.setRes1 (s : State) (a : Agent) (v : Word) : State :=
  s.setPort a { s.port a with res1 := some v }

/-- The issuer writes `ARG0..ARG2` before the operation word (R314). -/
def State.loadArgs (s : State) (a : Agent) (a0 a1 a2 : Word) : State :=
  s.setPort a { s.port a with arg0 := a0, arg1 := a1, arg2 := a2 }

/-- The command FG issued begins to wait (R342): `CSR.HOLD <- 1`. -/
def State.hold (s : State) (h : Held) : State :=
  { s with held := some h, csr := { s.csr with hold := true } }

/-- The waiting command is no longer waiting (R342): `CSR.HOLD <- 0`. -/
def State.release (s : State) : State :=
  { s with held := none, csr := { s.csr with hold := false } }

/-! ### MEM -/

/-- The byte at an address, `none` where it holds no value (R60). -/
def Memory.read : Memory → Nat → Option Byte
  | [], _ => none
  | (x, b) :: m, a => if a = x then some b else Memory.read m a

/-- Store a byte, keeping the canonical form. -/
def Memory.write : Memory → Nat → Byte → Memory
  | [], a, v => [(a, v)]
  | (x, b) :: m, a, v =>
    if a < x then (a, v) :: (x, b) :: m
    else if a = x then (a, v) :: m
    else (x, b) :: Memory.write m a v

/-- An access of `n` bytes at `a` is admitted: inside one region, and not past `2^AW` (R69). -/
def admitted (rs : List Region) (a n : Nat) : Bool :=
  n == 0 || (decide (a + n ≤ addressSpan) && rs.any fun r => decide (r.lo ≤ a) && decide (a + n ≤ r.hi))

/-- Every address from `a` to `b - 1` lies in some region; `fuel` regions may be used up. -/
def coveredFrom : Nat → List Region → Nat → Nat → Bool
  | 0, _, a, b => decide (b ≤ a)
  | fuel + 1, rs, a, b =>
    if b ≤ a then true
    else
      match rs.find? fun r => decide (r.lo ≤ a) && decide (a < r.hi) with
      | none => false
      | some r => coveredFrom fuel rs r.hi b

/-- Every byte of a span of `n` single-byte accesses is admitted, and the span does not pass `2^AW`
(R69, R123, R323). -/
def spanAdmitted (rs : List Region) (a n : Nat) : Bool :=
  decide (a + n ≤ addressSpan) && coveredFrom rs.length rs a (a + n)

/-- Every byte of the span is admitted and holds a value (R69, R123). -/
def spanReadable (rs : List Region) (m : Memory) (a n : Nat) : Bool :=
  spanAdmitted rs a n && (List.range n).all fun i => (Memory.read m (a + i)).isSome

/-- `MemRead(a, n)` (R8, R63): the little-endian value of `n` bytes, if each holds one. -/
def Memory.readLE (m : Memory) (a : Nat) : Nat → Option Nat
  | 0 => some 0
  | n + 1 =>
    match Memory.read m a, Memory.readLE m (a + 1) n with
    | some b, some v => some (b.toNat + 256 * v)
    | _, _ => none

/-- `MemWrite(a, n, v)` (R8, R63): the low `8n` bits of `v`, the lowest byte at `a`. -/
def Memory.writeLE (m : Memory) (a : Nat) : Nat → Nat → Memory
  | 0, _ => m
  | n + 1, v => Memory.writeLE (Memory.write m a (BitVec.ofNat 8 v)) (a + 1) n (v / 256)

/-- Copy byte by byte, element 0 first (R381): element `i` goes from address `src i` to `dst i`. A
source byte with no value is passed over; every caller has checked there is none (R341). -/
def copyBytes (m : Memory) (src dst : Nat → Nat) : Nat → Memory
  | 0 => m
  | k + 1 =>
    let m' := copyBytes m src dst k
    match Memory.read m' (src k) with
    | some b => Memory.write m' (dst k) b
    | none => m'

/-- One byte read by the block: refused `X_MEM` unless admitted and holding a value (R69). -/
def readByte (s : State) (a : Nat) : Proc Byte :=
  if admitted s.regions a 1 then
    match Memory.read s.mem a with
    | some b => .ok b
    | none => refuse .xMem
  else refuse .xMem

/-- A 4-byte descriptor word (R65, R67): refused `X_MEM` unless admitted and every byte holds a value. -/
def readWord (s : State) (a : Nat) : Proc Word :=
  if admitted s.regions a 4 then
    match Memory.readLE s.mem a 4 with
    | some v => .ok (zext32 v)
    | none => refuse .xMem
  else refuse .xMem

/-! ### Ring index arithmetic and the ring procedures -/

/-- Producer-side advance (R121, R130): `wr <- (wr + k) mod N`, `used <- used + k`. -/
def Ring.produce (r : Ring) (k : Nat) : Ring :=
  { r with wr := (r.wr + k) % r.n, used := r.used + k }

/-- Consumer-side advance (R121, R130): `rd <- (rd + k) mod N`, `used <- used - k`. -/
def Ring.consume (r : Ring) (k : Nat) : Ring :=
  { r with rd := (r.rd + k) % r.n, used := r.used - k }

/-- `B.commit(n)` (R128). -/
def Ring.commit (r : Ring) (s : State) (n : Nat) : Proc Ring :=
  if r.n < r.used + n then raise .rbOverflow s else .ok (r.produce n)

/-- `B.skip(n)` (R126). -/
def Ring.skip (r : Ring) (s : State) (n : Nat) : Proc Ring :=
  if r.used < n then raise .rbUnderflow s else .ok (r.consume n)

/-- The address of the `i`-th element the producer fills next (R323). -/
def ByteRing.prodAddr (b : ByteRing) (i : Nat) : Nat := b.base + (b.ix.wr + i) % b.ix.n

/-- The address of the `i`-th element the consumer takes next (R323). -/
def ByteRing.consAddr (b : ByteRing) (i : Nat) : Nat := b.base + (b.ix.rd + i) % b.ix.n

/-- How many elements a write of `count` accepts (R123). -/
def ByteRing.accepts (b : ByteRing) (count : Nat) : Nat := min count (b.ix.n - b.ix.used)

/-- How many elements a read of `count` delivers (R124). -/
def ByteRing.delivers (b : ByteRing) (count : Nat) : Nat := min count b.ix.used

/-- `B.write(src, count)` (R123): the count accepted, the ring and MEM after. -/
def ByteRing.write (b : ByteRing) (s : State) (src count : Nat) : Proc (Nat × ByteRing × Memory) := do
  let n := b.accepts count
  require (spanReadable s.regions s.mem src n) .xMem
  require ((List.range n).all fun i => admitted s.regions (b.prodAddr i) 1) .xMem
  .ok (n, { b with ix := b.ix.produce n }, copyBytes s.mem (fun i => src + i) b.prodAddr n)

/-- `B.read(dst, count)` (R124): the count delivered, the ring and MEM after. -/
def ByteRing.read (b : ByteRing) (s : State) (dst count : Nat) : Proc (Nat × ByteRing × Memory) := do
  let n := b.delivers count
  require (spanAdmitted s.regions dst n) .xMem
  require ((List.range n).all fun i =>
    admitted s.regions (b.consAddr i) 1 && (Memory.read s.mem (b.consAddr i)).isSome) .xMem
  .ok (n, { b with ix := b.ix.consume n }, copyBytes s.mem b.consAddr (fun i => dst + i) n)

/-- `B.pop()` on a byte ring (R125): the oldest element if there is one, and the ring after. -/
def ByteRing.pop (b : ByteRing) (s : State) : Proc (Option Byte × ByteRing) :=
  if b.ix.used = 0 then .ok (none, b)
  else do
    let v ← readByte s (b.base + b.ix.rd)
    .ok (some v, { b with ix := b.ix.consume 1 })

/-- `B.peek()` (R127): the run that starts at the oldest unread element. -/
def ByteRing.peek (b : ByteRing) : Nat × Nat :=
  (b.base + b.ix.rd, min b.ix.used (b.ix.n - b.ix.rd))

/-- `q.write([t])` with room for one (R241). -/
def Queue.push (q : Queue) (t : Word) : Queue :=
  { ix := q.ix.produce 1, store := q.store.set q.ix.wr (some t) }

/-- `q.pop()` (R125, R250); nothing if the queue is empty. -/
def Queue.pop (q : Queue) : Queue :=
  if q.ix.used = 0 then q else { q with ix := q.ix.consume 1 }

/-- `q.store[q.rd]`, the reference at the head (43_bus_engine preamble). -/
def Queue.head (q : Queue) : Option Word := (q.store[q.ix.rd]?).join

/-! ### The DMA channel interface (R290 to R297) -/

/-- `ch.configure(d, w, b)` (R290): a width other than 1 is refused `X_OPERAND` (R65). -/
def DmaChan.configure (ch : DmaChan) (d : DmaDir) (w b : Nat) : Proc DmaChan :=
  if w = 1 then .ok { ch with dir := d, width := w, burst := b } else refuse .xOperand

/-- `ch.setAddress(Memory, p)` (R291). -/
def DmaChan.setMemAddress (ch : DmaChan) (p : Nat) : DmaChan := { ch with maddr := p }

/-- `ch.setAddress(Peripheral, p)` (R291). -/
def DmaChan.setPeriphAddress (ch : DmaChan) (p : Nat) : DmaChan := { ch with paddr := p }

/-- `ch.setTransferCount(n)` (R292). -/
def DmaChan.setTransferCount (ch : DmaChan) (n : Nat) : DmaChan := { ch with count := n, remaining := n }

/-- `ch.setCircular(b)` (R295). -/
def DmaChan.setCircular (ch : DmaChan) (b : Bool) : DmaChan := { ch with circular := b }

/-- `ch.start()` (R293). -/
def DmaChan.start (ch : DmaChan) : DmaChan := { ch with running := true, done := false }

/-- A channel stopped by the end of a transaction (R250). -/
def DmaChan.stop (ch : DmaChan) : DmaChan := { ch with running := false }

/-- `ch.complete()` (R294). -/
def DmaChan.complete (ch : DmaChan) : Bool := ch.done

/-- `ch.transferCount()` (R294). -/
def DmaChan.transferCount (ch : DmaChan) : Nat := ch.count

/-- `ch.currentTransferCount()` (R294). -/
def DmaChan.currentTransferCount (ch : DmaChan) : Nat := ch.remaining

/-- `arm(ch, p, n)` (R243); also what `startTx` does (R202). -/
def DmaChan.arm (ch : DmaChan) (p n : Nat) : DmaChan :=
  ((ch.setMemAddress p).setTransferCount n).start

/-- The channel after its `remaining` took the value `r` (R297): at 0 it is done, and reloads if
circular, else stops. -/
def DmaChan.settle (ch : DmaChan) (r : Nat) : DmaChan :=
  if r = 0 then
    { ch with
      done := true
      remaining := if ch.circular then ch.count else 0
      running := if ch.circular then ch.running else false }
  else { ch with remaining := r }

/-- `remaining - 1` as R297 subtracts it. From 0 the spec states no value (R320): it is the free value
numbered `k` (assumption 7). -/
def DmaChan.decremented (ch : DmaChan) (k : Nat) : Nat :=
  if ch.remaining = 0 then (Config.freeRemaining k).toNat else ch.remaining - 1

/-- `advance(ch)` (R297). -/
def DmaChan.advance (ch : DmaChan) (k : Nat) : DmaChan := ch.settle (ch.decremented k)

/-- The effective address of a move, `maddr + (count - remaining)` over the integers (R296, R320,
R323); `none` if it is negative. -/
def DmaChan.address (ch : DmaChan) : Option Nat :=
  if ch.remaining ≤ ch.maddr + ch.count then some (ch.maddr + ch.count - ch.remaining) else none

/-- Whether `advance` uses up a free value. -/
def DmaChan.takesFree (ch : DmaChan) : Bool := ch.remaining == 0

/-- The counter of free values after an `advance` of the channel. -/
def State.countFree (s : State) (ch : DmaChan) : State :=
  if ch.takesFree then { s with freeCount := s.freeCount + 1 } else s

/-! ### Interrupt lines (R299), used at construction only -/

/-- `ln.enable()`. -/
def IrqLine.enable (l : IrqLine) : IrqLine := { l with enabled := true }

/-- `ln.setCallback(handler)`: the handler is the one the table of R299 names for the line. -/
def IrqLine.setCallback (l : IrqLine) : IrqLine := { l with bound := true }

/-- `ln.index()`: the constant of the line, which no rule reads. -/
def IrqLine.lineIndex (l : IrqLine) : Nat := l.index

/-! ### Units -/

/-- Ring `r` of the free-standing bank; out of range is `X_OPERAND` (R122). -/
def ringAt (s : State) (r : Nat) : Proc FreeRing :=
  match s.rings[r]? with
  | some b => .ok b
  | none => refuse .xOperand

/-- Serial instance `u`; out of range is `X_OPERAND` (41_linedriver preamble). -/
def uartAt (s : State) (u : Nat) : Proc Uart :=
  match s.uarts[u]? with
  | some x => .ok x
  | none => refuse .xOperand

/-- Bus engine `e`; out of range is `X_OPERAND` (43_bus_engine preamble). -/
def engineAt (s : State) (e : Nat) : Proc Engine :=
  match s.engines[e]? with
  | some x => .ok x
  | none => refuse .xOperand

/-- Replace a free-standing ring's indices. -/
def State.setRing (s : State) (r : Nat) (b : FreeRing) : State := { s with rings := s.rings.set r b }

/-- Replace a serial instance. -/
def State.setUart (s : State) (u : Nat) (x : Uart) : State := { s with uarts := s.uarts.set u x }

/-- Replace a bus engine. -/
def State.setEngine (s : State) (e : Nat) (x : Engine) : State := { s with engines := s.engines.set e x }

/-- Replace MEM. -/
def State.setMem (s : State) (m : Memory) : State := { s with mem := m }

/-- `frequency(channel)` of the clock provider (R307). R6 requires `CLKCH[u] < NCLK`; a channel that is
not there is refused `X_OPERAND`. -/
def frequency (s : State) (c : Nat) : Proc Nat :=
  match s.clkFreq[c]? with
  | some f => .ok f
  | none => refuse .xOperand

/-! ### Completion primitive -/

/-- `post(h, k)` (R310): the global mask is set, the pair appended to `EVQ`, the mask cleared. -/
def post (h : Word) (k : Kind) (s : State) : State :=
  let masked := { s with irqMask := true }
  let posted := { masked with evq := masked.evq ++ [(h, k)] }
  { posted with irqMask := false }

end Sys2Proof.Machine
end

