-- ==== Sys2Proof/Machine/Operands.lean ====
section
/-! DEFINITION. Operand forms (30_encoding R92 to R95, 45_common_laws R323): the enumerations an `IMM`
sub-field encodes, the agent and instance checks, the `ARG` operands, descriptor fields; and the
divisor arithmetic of 41_linedriver R152. The order of the checks is that of 60_exceptions R344. -/

namespace Sys2Proof.Machine

/-- `part` (R95); 3 is reserved. -/
def partOf (c : BitVec 2) : Option Part :=
  if c = 0#2 then some .read else if c = 1#2 then some .write
  else if c = 2#2 then some .both else none

/-- `parity` (R95); 3 is reserved. -/
def parityOf (c : BitVec 2) : Option Parity :=
  if c = 0#2 then some .none else if c = 1#2 then some .even
  else if c = 2#2 then some .odd else Option.none

/-- `stopBits` (R95). -/
def stopBitsOf (c : BitVec 2) : StopBits :=
  if c = 0#2 then .one else if c = 1#2 then .half else if c = 2#2 then .two else .oneAndHalf

/-- `flow` (R95). -/
def flowOf (c : BitVec 2) : Flow :=
  if c = 0#2 then .none else if c = 1#2 then .cts else if c = 2#2 then .rts else .ctsRts

/-- The access size of `MEM.LD`/`MEM.ST` in bytes (R93); reserved unless 1, 2 or 4 (R98 (d)). -/
def accessSize (n : BitVec 3) : Option Nat :=
  if n = 1#3 then some 1 else if n = 2#3 then some 2 else if n = 4#3 then some 4 else none

/-- A condition number 0..8 (R93); 9..15 reserved. -/
def conditionOf (c : BitVec 4) : Option Nat := if c.toNat ≤ 8 then some c.toNat else none

/-- A bus error kind `BTE.EVERR` carries (R98 (d), R249); every other code is reserved. -/
def busErrorOf (k : BitVec 8) : Option Kind :=
  if k = 0x11#8 then some .busError
  else if k = 0x12#8 then some .arbitrationLost
  else if k = 0x14#8 then some .overrunUnderrun
  else if k = 0x15#8 then some .timingError
  else if k = 0x16#8 then some .protocolAlert
  else none

/-- A sub-field's value; a reserved one is refused `X_RESERVED` (R98 (d)). -/
def field {α : Type} : Option α → Proc α
  | some a => .ok a
  | none => refuse .xReserved

/-- The `AGENT` field must name the context the operation belongs to (R94). -/
def requireAgent (a want : Agent) : Proc Unit := require (a == want) .xAgent

/-- `read` is named by the part (R156). -/
def namesRead : Part → Bool
  | .read => true
  | .write => false
  | .both => true

/-- `write` is named by the part (R156). -/
def namesWrite : Part → Bool
  | .read => false
  | .write => true
  | .both => true

/-- Which side of a ring an operation works on (R122). -/
inductive Side where
  | producer | consumer | either
deriving DecidableEq, Repr

/-- The wiring admits the context on that side (R122). -/
def FreeRing.admits (b : FreeRing) (side : Side) (a : Agent) : Bool :=
  match side with
  | .producer => a == b.prod
  | .consumer => a == b.cons
  | .either => a == b.prod || a == b.cons

/-- Admission of an `RB.*` operation word (R98 (e), R122): ENV is reserved; the ring must exist; its
wiring must admit the context on that side. -/
def ringFor (s : State) (i : BitVec 4) (a : Agent) (side : Side) : Proc FreeRing := do
  require (a != .env) .xReserved
  let b ← ringAt s i.toNat
  require (b.admits side a) .xAgent
  .ok b

/-- The serial instance of an operation whose required agent is `want` (R94, R98). -/
def uartFor (s : State) (i : BitVec 4) (a want : Agent) : Proc Uart := do
  requireAgent a want
  uartAt s i.toNat

/-- The bus engine of an operation whose required agent is `want` (R94, R98). -/
def engineFor (s : State) (i : BitVec 4) (a want : Agent) : Proc Engine := do
  requireAgent a want
  engineAt s i.toNat

/-! ### Descriptor fields (R67, R323) -/

/-- `desc(t).wbuf`. -/
def descWbuf (s : State) (t : Word) : Proc Word := readWord s t.toNat
/-- `desc(t).wlen`. -/
def descWlen (s : State) (t : Word) : Proc Word := readWord s (t.toNat + 4)
/-- `desc(t).rbuf`. -/
def descRbuf (s : State) (t : Word) : Proc Word := readWord s (t.toNat + 8)
/-- `desc(t).rlen`. -/
def descRlen (s : State) (t : Word) : Proc Word := readWord s (t.toNat + 12)
/-- `desc(t).addr`. -/
def descAddr (s : State) (t : Word) : Proc Word := readWord s (t.toNat + 16)
/-- `desc(t).handle`. -/
def descHandle (s : State) (t : Word) : Proc Word := readWord s (t.toNat + 20)

/-! ### The divisor (R152) -/

/-- `d = (clock + speed div 2) div speed`, over unbounded naturals. -/
def divisor (clock speed : Nat) : Nat := (clock + speed / 2) / speed

/-- The coarse field, `d div ovs`. -/
def mantissa (d ovs : Nat) : Nat := d / ovs

/-- The fine field, `d mod ovs`. -/
def fraction (d ovs : Nat) : Nat := d % ovs

/-- Both divisor fields are set together (R151). -/
def LineDriver.setDivisor (l : LineDriver) (d ovs : Nat) : LineDriver :=
  { l with mant := some (mantissa d ovs), frac := some (fraction d ovs) }

end Sys2Proof.Machine
end

