-- ==== Sys2Proof/Machine/Flags.lean ====
section
/-! DEFINITION. The flags of the block (10_state R43): the nine status bits and how each is set and
cleared (41_linedriver R164, 44_external_interfaces R300 to R306), the interrupt-enable bits
(10_state R27), the interrupt requests (60_exceptions R335). -/

namespace Sys2Proof.Machine

/-! ### Status bits (R28) -/

/-- `sr[c]` of a line. -/
def Line.flag (p : Line) (c : Nat) : Bool := p.sr.getLsbD c

/-- `sr[c] <- 1`, no other bit touched. -/
def Line.setFlag (p : Line) (c : Nat) : Line := { p with sr := p.sr ||| (1#9 <<< c) }

/-- `sr[c] <- 0`, no other bit touched. -/
def Line.clearFlag (p : Line) (c : Nat) : Line := { p with sr := p.sr &&& ~~~(1#9 <<< c) }

/-- `sr[c] <- 1` if `b`. -/
def Line.setFlagIf (p : Line) (b : Bool) (c : Nat) : Line := if b then p.setFlag c else p

/-- The bit numbers of R28: overrun. -/
abbrev bitORE : Nat := 0
/-- Framing error (R28). -/
abbrev bitFE : Nat := 1
/-- Parity error (R28). -/
abbrev bitPE : Nat := 2
/-- Noise detected (R28). -/
abbrev bitNF : Nat := 3
/-- Line break (R28). -/
abbrev bitLBD : Nat := 4
/-- Data available (R28). -/
abbrev bitRXNE : Nat := 5
/-- Transmit ready (R28). -/
abbrev bitTXE : Nat := 6
/-- Transmit complete (R28). -/
abbrev bitTC : Nat := 7
/-- Idle line (R28). -/
abbrev bitIDLE : Nat := 8

/-- The error latch holds: `ORE`, `FE` or `NF` is set (R301). -/
def Line.latched (p : Line) : Bool := p.flag bitORE || p.flag bitFE || p.flag bitNF

/-- `clearOnStatusRead(s)` (R164 (a)): PE, TC and IDLE, where 1 in the sample. -/
def Line.clearOnStatusRead (p : Line) (sample : BitVec 9) : Line :=
  { p with sr := p.sr &&& ~~~(sample &&& 0b110000100#9) }

/-- The effect of `dataRegRead` outside the handler (R303): `RXNE <- 0`. The value read is `rdr`. -/
def Line.afterDataRead (p : Line) : Line := p.clearFlag bitRXNE

/-- `dummyRead()` inside `LD.IRQ` (R163, R164 (b), R303): clears ORE, FE, NF and RXNE. -/
def Line.dummyRead (p : Line) : Line := { p with sr := p.sr &&& ~~~0b000101011#9 }

/-- `dataRegWrite(u, v)` (R304): the unit joins the line, TXE and TC are cleared. -/
def Line.dataWrite (p : Line) (v : Word) : Line :=
  { p with txLine := p.txLine ++ [v], sr := p.sr &&& ~~~0b011000000#9 }

/-! ### Interrupt-enable bits (R27) -/

/-- The read-side bits: 0..5 and 8 (R27, R158). -/
def readSideMask : BitVec 9 := 0b100111111#9

/-- The write-side bits: 6 and 7 (R27, R158). -/
def writeSideMask : BitVec 9 := 0b011000000#9

/-- Condition `c` belongs to the write direction (R27). -/
def isWriteSide (c : Nat) : Bool := c == bitTXE || c == bitTC

/-- `ie[c] <- 1` (R159). -/
def LineDriver.arm (l : LineDriver) (c : Nat) : LineDriver := { l with ie := l.ie ||| (1#9 <<< c) }

/-- `ie[c] <- 0` (R160). -/
def LineDriver.disarm (l : LineDriver) (c : Nat) : LineDriver := { l with ie := l.ie &&& ~~~(1#9 <<< c) }

/-- Some direction is Enabled (R155). -/
def LineDriver.someEnabled (l : LineDriver) : Bool := l.rxEn == .enabled || l.txEn == .enabled

/-- The receiver is on (R300). -/
def LineDriver.receiverOn (l : LineDriver) : Bool := l.rxEn == .enabled && l.periphEn

/-- The transmitter is on (R305). -/
def LineDriver.transmitterOn (l : LineDriver) : Bool := l.txEn == .enabled && l.periphEn

/-- `LD.ENABLE` on the enable state (R157). -/
def LineDriver.enable (l : LineDriver) (p : Part) : LineDriver :=
  { l with
    rxEn := if namesRead p then .enabled else l.rxEn
    txEn := if namesWrite p then .enabled else l.txEn
    periphEn := true }

/-- `LD.DISABLE` on the enable state (R158). -/
def LineDriver.disable (l : LineDriver) (p : Part) : LineDriver :=
  let r := if namesRead p then { l with rxEn := .disabled, ie := l.ie &&& ~~~readSideMask } else l
  let w := if namesWrite p then { r with txEn := .disabled, ie := r.ie &&& ~~~writeSideMask } else r
  if p = .both then { w with periphEn := false } else w

/-! ### Interrupt requests (R161, R298, R335) -/

/-- The serial instance asserts its line: `periphEn = 1` and `(sr & ie) != 0` (R161). -/
def Uart.requests (x : Uart) : Bool := x.ld.periphEn && x.line.sr &&& x.ld.ie != 0#9

/-- A channel requests its completion interrupt while `done = 1` (R298). -/
def DmaChan.requests (ch : DmaChan) : Bool := ch.done

/-- A pending request: the source, and the unit it belongs to (R335). Bus triggers are the environment's
and are no state. -/
inductive Request where
  | serial (u : Nat)
  | uartTxDma (u : Nat)
  | uartRxDma (u : Nat)
  | busTxDma (e : Nat)
  | busRxDma (e : Nat)
deriving DecidableEq, Repr

/-- The request condition of a source holds in the state (R335). -/
def State.pending (s : State) : Request → Bool
  | .serial u => (s.uarts[u]?).any (·.requests)
  | .uartTxDma u => (s.uarts[u]?).any (·.txch.requests)
  | .uartRxDma u => (s.uarts[u]?).any (·.rxch.requests)
  | .busTxDma e => (s.engines[e]?).any (·.txch.requests)
  | .busRxDma e => (s.engines[e]?).any (·.rxch.requests)

end Sys2Proof.Machine
end

