-- ==== Sys2Proof/Machine/HostAccess.lean ====
section
/-! DEFINITION. Host access to MEM (44_external_interfaces R314 to R316): `MEM.LD`, `MEM.ST`, and the
host's read of a result register. -/

namespace Sys2Proof.Machine

/-- `MEM.LD` (R315). -/
def execMemLd (i : BitVec 4) (a : Agent) (n : BitVec 3) (s : State) : Host.Outcome State Fault Refusal :=
  conclude s do
    let k ← field (accessSize n)
    requireAgent a .fg
    require (i == 0#4) .xOperand
    let addr := (s.port a).arg0.toNat
    require (addr % k == 0 && admitted s.regions addr k) .xMem
    match Memory.readLE s.mem addr k with
    | some v => .ok (s.setRes0 a (zext32 v))
    | none => refuse .xMem

/-- `MEM.ST` (R316). The checks stand in the order of R344: a value too wide is `X_OPERAND` even where
the address is also not admitted. -/
def execMemSt (i : BitVec 4) (a : Agent) (n : BitVec 3) (s : State) : Host.Outcome State Fault Refusal :=
  conclude s do
    let k ← field (accessSize n)
    requireAgent a .fg
    require (i == 0#4) .xOperand
    let addr := (s.port a).arg0.toNat
    let v := (s.port a).arg1.toNat
    require (k == 4 || decide (v < 2 ^ (8 * k))) .xOperand
    require (addr % k == 0 && admitted s.regions addr k) .xMem
    .ok (s.setMem (Memory.writeLE s.mem addr k v))

/-- An issuer reads a result register (R20, R314): nothing changes; before an operation wrote it, the
read is refused `X_STATE` (R44, R344). -/
def execReadRes (a : Agent) (k : ResReg) (s : State) : Host.Outcome State Fault Refusal :=
  conclude s do
    let _ ← valueOf (match k with
      | .res0 => (s.port a).res0
      | .res1 => (s.port a).res1)
    .ok s

end Sys2Proof.Machine
end

