-- ==== Sys2Proof/Machine/RingBuffer.lean ====
section
/-! DEFINITION. The seven `RB.*` operations on the free-standing rings (40_ringbuffer R122 to R129). -/

namespace Sys2Proof.Machine

/-- `RB.WRITE` (R123), a producer operation. -/
def execRbWrite (i : BitVec 4) (a : Agent) (s : State) : Host.Outcome State Fault Refusal :=
  conclude s do
    let b ← ringFor s i a .producer
    let (n, ring, mem) ← b.ring.write s (s.port a).arg0.toNat (s.port a).arg1.toNat
    .ok (((s.setRing i.toNat { b with ring := ring }).setMem mem).setRes0 a (zext32 n))

/-- `RB.READ` (R124), a consumer operation. -/
def execRbRead (i : BitVec 4) (a : Agent) (s : State) : Host.Outcome State Fault Refusal :=
  conclude s do
    let b ← ringFor s i a .consumer
    let (n, ring, mem) ← b.ring.read s (s.port a).arg0.toNat (s.port a).arg1.toNat
    .ok (((s.setRing i.toNat { b with ring := ring }).setMem mem).setRes0 a (zext32 n))

/-- `RB.POP` (R125), a consumer operation: `RES1` only when an element was available. -/
def execRbPop (i : BitVec 4) (a : Agent) (s : State) : Host.Outcome State Fault Refusal :=
  conclude s do
    let b ← ringFor s i a .consumer
    let (v, ring) ← b.ring.pop s
    match v with
    | some byte =>
      .ok (((s.setRing i.toNat { b with ring := ring }).setRes1 a (byte.setWidth 32)).setRes0 a 1#32)
    | none => .ok (s.setRes0 a 0#32)

/-- `RB.SKIP` (R126), a consumer operation: `F_RB_UNDERFLOW` if `n > used`. -/
def execRbSkip (i : BitVec 4) (a : Agent) (s : State) : Host.Outcome State Fault Refusal :=
  conclude s do
    let b ← ringFor s i a .consumer
    let ix ← b.ring.ix.skip s (s.port a).arg0.toNat
    .ok (s.setRing i.toNat { b with ring := { b.ring with ix := ix } })

/-- `RB.PEEK` (R127), a consumer-side query. -/
def execRbPeek (i : BitVec 4) (a : Agent) (s : State) : Host.Outcome State Fault Refusal :=
  conclude s do
    let b ← ringFor s i a .consumer
    .ok ((s.setRes0 a (zext32 b.ring.peek.1)).setRes1 a (zext32 b.ring.peek.2))

/-- `RB.COMMIT` (R128), a producer operation: `F_RB_OVERFLOW` if `used + n > N`. -/
def execRbCommit (i : BitVec 4) (a : Agent) (s : State) : Host.Outcome State Fault Refusal :=
  conclude s do
    let b ← ringFor s i a .producer
    let ix ← b.ring.ix.commit s (s.port a).arg0.toNat
    .ok (s.setRing i.toNat { b with ring := { b.ring with ix := ix } })

/-- `RB.USED` (R129), a query of either side. -/
def execRbUsed (i : BitVec 4) (a : Agent) (s : State) : Host.Outcome State Fault Refusal :=
  conclude s do
    let b ← ringFor s i a .either
    .ok (s.setRes0 a (zext32 b.ring.ix.used))

end Sys2Proof.Machine
end

