-- ==== Sys2Proof/Machine/BusEngine.lean ====
section
/-! DEFINITION. The bus transaction engine (43_bus_engine): the FIFO queue arbiter, the start sequence,
the transition table. -/

namespace Sys2Proof.Machine

/-- `ext = 1` in 10-bit mode (43_bus_engine preamble). -/
def Engine.ext (e : Engine) : Bool := e.par.addrW == .bits10

/-- The bound on a target address: `2^7` or `2^10` (R67, R242). -/
def Engine.addressBound (e : Engine) : Nat := if e.ext then 2 ^ 10 else 2 ^ 7

/-- `emit BUSLOG x` (R8). -/
def Engine.emit (e : Engine) (x : BusItem) : Engine := { e with busLog := e.busLog ++ [x] }

/-- Replace the state-machine scratch fields at the start of a phase (R243, R246). -/
def Engine.setPhase (e : Engine) (p : BusPhase) (n : Nat) (auto : Bool) (st : BusState) : Engine :=
  { e with phase := some p, byteCount := some n, autoStop := some auto, st := st }

/-- `start(e)` (R243): the head of the queue begins. Descriptor fields are read here, each where it is
used. -/
def Engine.startHead (e : Engine) (s : State) : Proc Engine := do
  let t ← valueOf e.q.head
  let wl ← descWlen s t
  let rl ← descRlen s t
  let a ← descAddr s t
  let on := { e with periphEn := true }
  if 0 < wl.toNat then do
    let p ← descWbuf s t
    let armed := { on.emit (.start a .wr e.ext) with
      txch := on.txch.arm p.toNat wl.toNat, dmaTxEn := true }
    .ok (armed.setPhase .w wl.toNat (!(decide (0 < rl.toNat))) .addressPhase)
  else do
    let p ← descRbuf s t
    let armed := { on.emit (.start a .rd e.ext) with
      rxch := on.rxch.arm p.toNat rl.toNat, dmaRxEn := true }
    .ok (armed.setPhase .r rl.toNat true .addressPhase)

/-- `shutdown(e)` (R251). -/
def Engine.shutdown (e : Engine) : Engine :=
  { e with dmaTxEn := false, dmaRxEn := false, periphEn := false }

/-- `finish(e)` (R250): both channels stop, the reference is popped, the engine is Idle. -/
def Engine.finish (e : Engine) : Engine :=
  { e with txch := e.txch.stop, rxch := e.rxch.stop, q := e.q.pop, st := .idle }

/-- `next(e)` (R252): the oldest transaction still queued, or shutdown. -/
def Engine.next (e : Engine) (s : State) : Proc Engine :=
  if 0 < e.q.ix.used then e.startHead s else .ok e.shutdown

/-- `validate(t)` (R242), the checks in the order of R344: `X_OPERAND` for the address before every
`X_MEM` but those that leave no address to compare, a misaligned reference and an unreadable address
word (assumption 8); then the other words, then the empty transaction. -/
def Engine.validate (e : Engine) (s : State) (t : Word) : Proc Unit := do
  require (t.toNat % 4 == 0) .xMem
  let a ← descAddr s t
  require (decide (a.toNat < e.addressBound)) .xOperand
  let _ ← descWbuf s t
  let wl ← descWlen s t
  let _ ← descRbuf s t
  let rl ← descRlen s t
  let _ ← descHandle s t
  require (wl != 0#32 || rl != 0#32) .xEmptyTxn

/-- `BTE.SUBMIT` (R241). -/
def execBteSubmit (i : BitVec 4) (a : Agent) (s : State) : Host.Outcome State Fault Refusal :=
  conclude s do
    let e ← engineFor s i a .fg
    let t := (s.port a).arg0
    e.validate s t
    if e.q.ix.used = e.q.ix.n then .ok (s.setRes0 a 0#32)
    else do
      let queued := { e with q := e.q.push t }
      let after ← if e.st = .idle then queued.startHead s else .ok queued
      .ok ((s.setEngine i.toNat after).setRes0 a 1#32)

/-- Admission of a bus-event entry (R253): the event line is enabled and the engine is not Idle. -/
def Engine.eventOk (e : Engine) : Bool := e.evIrq.enabled && e.st != .idle

/-- `BTE.EVADDR` (R245). -/
def execBteEvAddr (i : BitVec 4) (a : Agent) (s : State) : Host.Outcome State Fault Refusal :=
  conclude s do
    let e ← engineFor s i a .pirq
    require (e.eventOk && e.st == .addressPhase) .xState
    let p ← valueOf e.phase
    .ok (s.setEngine i.toNat { e with st := if p = .w then .dataPhaseWrite else .dataPhaseRead })

/-- `BTE.EVTC` (R246): the read phase begins with a repeated start. -/
def execBteEvTc (i : BitVec 4) (a : Agent) (s : State) : Host.Outcome State Fault Refusal :=
  conclude s do
    let e ← engineFor s i a .pirq
    require (e.eventOk && (e.st == .addressPhase || e.st == .dataPhaseWrite) &&
      e.phase == some .w && e.autoStop == some false && !e.txch.running) .xState
    let t ← valueOf e.q.head
    let p ← descRbuf s t
    let n ← descRlen s t
    let addr ← descAddr s t
    let armed := { e.emit (.rstart addr .rd e.ext) with
      dmaTxEn := false, rxch := e.rxch.arm p.toNat n.toNat, dmaRxEn := true }
    .ok (s.setEngine i.toNat (armed.setPhase .r n.toNat true .dataPhaseRead))

/-- The channel of the running phase is still running (R247); with no phase the field holds no value. -/
def Engine.phaseRunning (e : Engine) : Bool :=
  match e.phase with
  | some .w => e.txch.running
  | some .r => e.rxch.running
  | none => true

/-- `BTE.EVSTOP` (R247): pop, signal completion, next. -/
def execBteEvStop (i : BitVec 4) (a : Agent) (s : State) : Host.Outcome State Fault Refusal :=
  conclude s do
    let e ← engineFor s i a .pirq
    require (e.eventOk && e.autoStop == some true && !e.phaseRunning) .xState
    let t ← valueOf e.q.head
    let h ← descHandle s t
    let after ← (e.emit .stop).finish.next s
    let posted := if h = 0#32 then s else post h .success s
    .ok (posted.setEngine i.toNat after)

/-- `BTE.EVNACK` (R248): abort, pop, next; nothing is reported. -/
def execBteEvNack (i : BitVec 4) (a : Agent) (s : State) : Host.Outcome State Fault Refusal :=
  conclude s do
    let e ← engineFor s i a .pirq
    require e.eventOk .xState
    let after ← (e.emit .nack).finish.next s
    .ok (s.setEngine i.toNat after)

/-- "report error, reset peripheral enable" (R249): the log entry, then the enable is cleared and set. -/
def Engine.reportError (e : Engine) (k : Kind) : Engine :=
  let off := { e with errLog := e.errLog ++ [k], periphEn := false }
  ({ off with periphEn := true }).emit .preset

/-- `BTE.EVERR` (R249): report, reset the peripheral enable, pop, next. -/
def execBteEvErr (i : BitVec 4) (a : Agent) (kind : BitVec 8) (s : State) : Host.Outcome State Fault Refusal :=
  conclude s do
    let k ← field (busErrorOf kind)
    let e ← engineFor s i a .pirq
    require (e.errIrq.enabled && e.st != .idle) .xState
    let after ← (e.reportError k).finish.next s
    .ok (s.setEngine i.toNat after)

/-- `BTE.DMADONE` (R254): acknowledge a channel's completion, nothing else; admitted in every bus
state. -/
def execBteDmaDone (i : BitVec 4) (a : Agent) (channel : BitVec 1) (s : State) : Host.Outcome State Fault Refusal :=
  conclude s do
    let e ← engineFor s i a .dirq
    if channel = 0#1 then do
      require (e.txdmaIrq.enabled && e.txch.complete) .xState
      .ok (s.setEngine i.toNat { e with txch := { e.txch with done := false } })
    else do
      require (e.rxdmaIrq.enabled && e.rxch.complete) .xState
      .ok (s.setEngine i.toNat { e with rxch := { e.rxch with done := false } })

/-- The address bytes on the wire of R257, for a reader of `BUSLOG`: from general knowledge, not in the
source, and no rule depends on them (PRESUMED; assumption 14). `again` marks a repeated start. -/
def addressBytes (addr : Word) (dir : BusDir) (ext again : Bool) : List Byte :=
  let rw : BitVec 1 := if dir = .rd then 1#1 else 0#1
  let header : Byte := (0b11110#5 ++ addr.extractLsb' 8 2) ++ rw
  if ext then (if again then [header] else [header, addr.extractLsb' 0 8])
  else [addr.extractLsb' 0 7 ++ rw]

end Sys2Proof.Machine
end

