-- ==== Sys2Proof/Machine/BufferedStream.lean ====
section
/-! DEFINITION. BufferedStream and TransferBinding (42_bufferedstream): the write side, the reads, the
completion coalescer, the reactions to LineDriver notifications, the DMA request enables. -/

namespace Sys2Proof.Machine

/-! ### Write side -/

/-- `startTx(u)` (R202): hand the run that starts at the oldest byte to the outbound channel. -/
def Uart.startTx (x : Uart) : Uart :=
  let run := x.bs.tx.peek
  if run.2 = 0 then x
  else { x with txch := x.txch.arm run.1 run.2, bs := { x.bs with txInFlight := run.2 } }

/-- `BS.WRITE` (R201). -/
def execBsWrite (i : BitVec 4) (a : Agent) (s : State) : Host.Outcome State Fault Refusal :=
  conclude s do
    let x ← uartFor s i a .fg
    require x.par.hasTxDma .xNoDma
    let (n, tx, mem) ← x.bs.tx.write s (s.port a).arg0.toNat (s.port a).arg1.toNat
    let written := { x with bs := { x.bs with tx := tx } }
    let after := if x.bs.txInFlight = 0 then written.startTx else written
    .ok (((s.setUart i.toNat after).setMem mem).setRes0 a (zext32 n))

/-- `BS.TXDONE` (R203): release the finished run, start the next. The channel must be bound (R200); a
missing channel is `X_NODMA` (assumption 9). -/
def execBsTxDone (i : BitVec 4) (a : Agent) (s : State) : Host.Outcome State Fault Refusal :=
  conclude s do
    let x ← uartFor s i a .dirq
    require x.par.hasTxDma .xNoDma
    require (x.txdmaIrq.enabled && x.txch.complete && x.bs.txInFlight != 0) .xState
    let acked := { x with txch := { x.txch with done := false } }
    let ix ← acked.bs.tx.ix.skip (s.setUart i.toNat acked) acked.bs.txInFlight
    let skipped := { acked with bs := { acked.bs with tx := { acked.bs.tx with ix := ix }, txInFlight := 0 } }
    .ok (s.setUart i.toNat skipped.startTx)

/-! ### The completion coalescer -/

/-- The wrapped count difference of R210: `previousCount - currentCount`, plus the buffer size if
negative. A signed integer. -/
def coalescedDelta (prev cur size : Nat) : Int :=
  let d : Int := prev - cur
  if d < 0 then d + size else d

/-- `trySatisfy(u)` (R212): complete the PendingRead once enough bytes have accumulated. -/
def trySatisfy (u : Nat) (s : State) : Proc State := do
  let x ← uartAt s u
  if x.bs.pend.rem ≠ 0#32 ∧ x.bs.pend.rem.toNat ≤ x.bs.rx.ix.used then
    let (_, rx, mem) ← x.bs.rx.read s x.bs.pend.dst.toNat x.bs.pend.rem.toNat
    let drained := { x with bs := { x.bs with rx := rx, pend := ⟨0#32, 0#32, 0#32⟩ } }
    .ok (post x.bs.pend.handle .success ((s.setUart u drained).setMem mem))
  else .ok s

/-- `rxSync(u)` (R210): one run accounts for every unit stored since the last. -/
def rxSync (u : Nat) (s : State) : Proc State := do
  let x ← uartAt s u
  let cur := x.rxch.currentTransferCount
  let size := x.bs.rx.ix.n
  let delta := coalescedDelta x.bs.prevCount cur size
  if delta < 0 ∨ (size : Int) ≤ delta then raise .delta s
  else do
    let ix ← x.bs.rx.ix.commit s delta.toNat
    let synced := { x with bs := { x.bs with rx := { x.bs.rx with ix := ix }, prevCount := cur } }
    trySatisfy u (s.setUart u synced)

/-- `BS.RXDONE` (R213). The channel must be bound (R200; assumption 9). -/
def execBsRxDone (i : BitVec 4) (a : Agent) (s : State) : Host.Outcome State Fault Refusal :=
  conclude s do
    let x ← uartFor s i a .dirq
    require x.par.hasRxDma .xNoDma
    require (x.rxdmaIrq.enabled && x.rxch.complete) .xState
    rxSync i.toNat (s.setUart i.toNat { x with rxch := { x.rxch with done := false } })

/-! ### Reads -/

/-- A new read supersedes any PendingRead (R207): all fields zeroed. -/
def Uart.supersede (x : Uart) : Uart := { x with bs := { x.bs with pend := ⟨0#32, 0#32, 0#32⟩ } }

/-- The lines of `BS.READB` below its hold (R205): drain `ARG1` bytes to `ARG0`, `RES0 <- ARG1`. -/
def drainRead (u : Nat) (a : Agent) (s : State) : Proc State := do
  let x ← uartAt s u
  let (n, rx, mem) ← x.bs.rx.read s (s.port a).arg0.toNat (s.port a).arg1.toNat
  .ok (((s.setUart u { x with bs := { x.bs with rx := rx } }).setMem mem).setRes0 a (zext32 n))

/-- `BS.READB` (R205): drain at once if enough is buffered, else hold (R342). The destination is
admitted before the supersede, the operation's first effect (R341; assumption 10). -/
def execBsReadB (i : BitVec 4) (a : Agent) (s : State) : Host.Outcome State Fault Refusal :=
  conclude s do
    let x ← uartFor s i a .fg
    require x.par.hasRxDma .xNoDma
    require (spanAdmitted s.regions (s.port a).arg0.toNat (s.port a).arg1.toNat) .xMem
    let superseded := s.setUart i.toNat x.supersede
    if (s.port a).arg1.toNat ≤ x.bs.rx.ix.used then drainRead i.toNat a superseded
    else .ok (superseded.hold (.readB i.toNat))

/-- `BS.READNB` (R206): satisfied at once, or recorded as the PendingRead. -/
def execBsReadNb (i : BitVec 4) (a : Agent) (s : State) : Host.Outcome State Fault Refusal :=
  conclude s do
    let x ← uartFor s i a .fg
    require ((s.port a).arg2 != 0#32) .xOperand
    require x.par.hasRxDma .xNoDma
    if (s.port a).arg1.toNat ≤ x.bs.rx.ix.used then
      drainRead i.toNat a (s.setUart i.toNat x.supersede)
    else
      let pending : PendingRead := ⟨(s.port a).arg0, (s.port a).arg1, (s.port a).arg2⟩
      .ok ((s.setUart i.toNat { x with bs := { x.bs with pend := pending } }).setRes0 a 0#32)

/-! ### Reactions to LineDriver notifications -/

/-- Reaction to `error(k)` (R214): forward the kind to the PendingRead's handle, if one exists. -/
def forwardError (u : Nat) (k : Kind) (s : State) : Proc State := do
  let x ← uartAt s u
  if x.bs.pend.rem ≠ 0#32 then .ok (post x.bs.pend.handle k s) else .ok s

/-- Reaction to `event(IdleLine)` (R211): the coalescer, if the inbound channel is bound. -/
def idleReaction (u : Nat) (s : State) : Proc State := do
  let x ← uartAt s u
  if x.par.hasRxDma then rxSync u s else .ok s

/-- The owner's reaction to a notification (R165, R211, R214, R215). -/
def react (u : Nat) (k : Kind) (s : State) : Proc State :=
  match k with
  | .overrunError => forwardError u k s
  | .framingError => forwardError u k s
  | .parityError => forwardError u k s
  | .noiseDetected => forwardError u k s
  | .lineBreak => forwardError u k s
  | .idleLine => idleReaction u s
  | .dataAvailable => .ok s
  | .transmitReady => .ok s
  | .transmitComplete => .ok s
  | .success => .ok s
  | .busError => .ok s
  | .arbitrationLost => .ok s
  | .acknowledgeFailure => .ok s
  | .overrunUnderrun => .ok s
  | .timingError => .ok s
  | .protocolAlert => .ok s

/-- `notify` (R165): append `(u, k)` to `NOTIF`, then run the owner's reaction. -/
def notify (u : Nat) (k : Kind) (s : State) : Proc State :=
  react u k { s with notif := s.notif ++ [(u, k)] }

/-! ### TransferBinding -/

/-- Set the request enables the part names (R216). -/
def Binding.enable (t : Binding) (p : Part) : Binding :=
  ⟨namesWrite p || t.dmaTxEn, namesRead p || t.dmaRxEn⟩

/-- Clear the request enables the part names (R217). -/
def Binding.disable (t : Binding) (p : Part) : Binding :=
  ⟨!namesWrite p && t.dmaTxEn, !namesRead p && t.dmaRxEn⟩

/-- `TB.ENABLE` (R216). -/
def execTbEnable (i : BitVec 4) (a : Agent) (part : BitVec 2) (s : State) : Host.Outcome State Fault Refusal :=
  conclude s do
    let p ← field (partOf part)
    let x ← uartFor s i a .fg
    require (!namesRead p || x.par.hasRxDma) .xNoDma
    require (!namesWrite p || x.par.hasTxDma) .xNoDma
    .ok (s.setUart i.toNat { x with tb := x.tb.enable p })

/-- `TB.DISABLE` (R217). -/
def execTbDisable (i : BitVec 4) (a : Agent) (part : BitVec 2) (s : State) : Host.Outcome State Fault Refusal :=
  conclude s do
    let p ← field (partOf part)
    let x ← uartFor s i a .fg
    .ok (s.setUart i.toNat { x with tb := x.tb.disable p })

end Sys2Proof.Machine
end

