-- ==== Sys2Proof/Machine/LineDriver.lean ====
section
/-! DEFINITION. The LineDriver operations (41_linedriver R151 to R174). -/

namespace Sys2Proof.Machine

/-! ### Speed, frame, flow -/

/-- `LD.SETSPEED` (R151). -/
def execLdSetSpeed (i : BitVec 4) (a : Agent) (s : State) : Host.Outcome State Fault Refusal :=
  conclude s do
    let x ← uartFor s i a .fg
    let clock ← frequency s x.par.clkCh
    let bps := (s.port a).arg0
    require (bps != 0#32) .xOperand
    let d := divisor clock bps.toNat
    require (d != 0) .xOperand
    let ld := { x.ld.setDivisor d x.par.ovs with speed := bps }
    .ok ((s.setUart i.toNat { x with ld := ld }).setRes0 a (zext32 (clock / d)))

/-- `LD.SETFRAME` (R153). The checks stand in the order of R344. -/
def execLdSetFrame (i : BitVec 4) (a : Agent) (parity stopBits : BitVec 2) (dataBits : BitVec 8) (s : State) :
    Host.Outcome State Fault Refusal :=
  conclude s do
    let p ← field (parityOf parity)
    let x ← uartFor s i a .fg
    require (s.dataBitsLegal.contains dataBits.toNat) .xOperand
    require (!x.ld.someEnabled) .xState
    let ld := { x.ld with
      dataBits := some dataBits.toNat, parity := some p, stopBits := some (stopBitsOf stopBits) }
    .ok (s.setUart i.toNat { x with ld := ld })

/-- `LD.SETFLOW` (R154). -/
def execLdSetFlow (i : BitVec 4) (a : Agent) (flow : BitVec 2) (s : State) : Host.Outcome State Fault Refusal :=
  conclude s do
    let x ← uartFor s i a .fg
    require (!x.ld.someEnabled) .xState
    .ok (s.setUart i.toNat { x with ld := { x.ld with flow := some (flowOf flow) } })

/-! ### Enable state and interrupt enables -/

/-- `LD.ENABLE` (R157): refused until the frame shape has been set. -/
def execLdEnable (i : BitVec 4) (a : Agent) (part : BitVec 2) (s : State) : Host.Outcome State Fault Refusal :=
  conclude s do
    let p ← field (partOf part)
    let x ← uartFor s i a .fg
    require x.ld.dataBits.isSome .xState
    .ok (s.setUart i.toNat { x with ld := x.ld.enable p })

/-- `LD.DISABLE` (R158). -/
def execLdDisable (i : BitVec 4) (a : Agent) (part : BitVec 2) (s : State) : Host.Outcome State Fault Refusal :=
  conclude s do
    let p ← field (partOf part)
    let x ← uartFor s i a .fg
    .ok (s.setUart i.toNat { x with ld := x.ld.disable p })

/-- The direction of a condition is Enabled (R159). -/
def LineDriver.mayArm (l : LineDriver) (c : Nat) : Bool :=
  if isWriteSide c then l.txEn == .enabled else l.rxEn == .enabled

/-- `LD.ARMIRQ` (R159). -/
def execLdArmIrq (i : BitVec 4) (a : Agent) (cond : BitVec 4) (s : State) : Host.Outcome State Fault Refusal :=
  conclude s do
    let c ← field (conditionOf cond)
    let x ← uartFor s i a .fg
    require (x.ld.mayArm c) .xState
    .ok (s.setUart i.toNat { x with ld := x.ld.arm c })

/-- `LD.DISARMIRQ` (R160), admitted in every state. -/
def execLdDisarmIrq (i : BitVec 4) (a : Agent) (cond : BitVec 4) (s : State) : Host.Outcome State Fault Refusal :=
  conclude s do
    let c ← field (conditionOf cond)
    let x ← uartFor s i a .fg
    .ok (s.setUart i.toNat { x with ld := x.ld.disarm c })

/-! ### The interrupt handler -/

/-- One test of `onInterrupt()` (R162): the status bit, the kind notified, the access made after it. -/
structure IrqEntry where
  bit    : Nat
  kind   : Kind
  access : Line → Line

/-- The fixed order of R162, with the dummy reads and the write-back of R163. -/
def irqOrder : List IrqEntry :=
  [ ⟨bitORE, .overrunError, .dummyRead⟩,
    ⟨bitFE, .framingError, .dummyRead⟩,
    ⟨bitPE, .parityError, id⟩,
    ⟨bitNF, .noiseDetected, .dummyRead⟩,
    ⟨bitLBD, .lineBreak, fun p => p.clearFlag bitLBD⟩,
    ⟨bitRXNE, .dataAvailable, id⟩,
    ⟨bitTXE, .transmitReady, id⟩,
    ⟨bitTC, .transmitComplete, id⟩,
    ⟨bitIDLE, .idleLine, id⟩ ]

/-- One test against the sample: notify, run the reaction, then make the access (R162). -/
def irqTest (u : Nat) (sample : BitVec 9) (t : IrqEntry) (s : State) : Proc State :=
  if sample.getLsbD t.bit then do
    let s' ← notify u t.kind s
    let x ← uartAt s' u
    .ok (s'.setUart u { x with line := t.access x.line })
  else .ok s

/-- The tests in order. -/
def irqTests (u : Nat) (sample : BitVec 9) : List IrqEntry → State → Proc State
  | [], s => .ok s
  | t :: ts, s => do
    let s' ← irqTest u sample t s
    irqTests u sample ts s'

/-- `LD.IRQ` (R162): one status read, then every test against that sample. -/
def execLdIrq (i : BitVec 4) (a : Agent) (s : State) : Host.Outcome State Fault Refusal :=
  conclude s do
    let x ← uartFor s i a .pirq
    require (x.irq.enabled && x.irq.bound) .xState
    let sample := x.line.sr
    irqTests i.toNat sample irqOrder
      (s.setUart i.toNat { x with line := x.line.clearOnStatusRead sample })

/-! ### Raw access -/

/-- A raw operation of the read direction is admitted (R167). -/
def Uart.rawReadOk (x : Uart) : Bool :=
  x.ld.receiverOn && !(x.par.hasRxDma && x.tb.dmaRxEn)

/-- A raw operation of the write direction is admitted (R167). -/
def Uart.rawWriteOk (x : Uart) : Bool :=
  x.ld.transmitterOn && !(x.par.hasTxDma && x.tb.dmaTxEn)

/-- A unit is below `2^dataBits`; with no frame shape ever set there is no bound (R169, R300). -/
def LineDriver.unitFits (l : LineDriver) (v : Word) : Bool :=
  match l.dataBits with
  | some d => decide (v.toNat < 2 ^ d)
  | none => true

/-- `LD.RDUNIT` (R168). -/
def execLdRdUnit (i : BitVec 4) (a : Agent) (s : State) : Host.Outcome State Fault Refusal :=
  conclude s do
    let x ← uartFor s i a .fg
    require x.rawReadOk .xState
    require (x.line.flag bitRXNE) .xState
    let v ← valueOf x.line.rdr
    .ok ((s.setUart i.toNat { x with line := x.line.afterDataRead }).setRes0 a v)

/-- `LD.WRUNIT` (R169). The checks stand in the order of R344. -/
def execLdWrUnit (i : BitVec 4) (a : Agent) (s : State) : Host.Outcome State Fault Refusal :=
  conclude s do
    let x ← uartFor s i a .fg
    let v := (s.port a).arg0
    require (x.ld.unitFits v) .xOperand
    require x.rawWriteOk .xState
    let _ ← valueOf x.ld.dataBits
    require (x.line.flag bitTXE) .xState
    .ok (s.setUart i.toNat { x with line := x.line.dataWrite v })

/-- `LD.WAITTC` (R170): executes at once if `TC = 1`, else holds. -/
def execLdWaitTc (i : BitVec 4) (a : Agent) (s : State) : Host.Outcome State Fault Refusal :=
  conclude s do
    let x ← uartFor s i a .fg
    require x.rawWriteOk .xState
    .ok (if x.line.flag bitTC then s else s.hold (.waitTc i.toNat))

/-- `LD.WAITRXNE` (R171): executes at once if `RXNE = 1`, else holds. -/
def execLdWaitRxne (i : BitVec 4) (a : Agent) (s : State) : Host.Outcome State Fault Refusal :=
  conclude s do
    let x ← uartFor s i a .fg
    require x.rawReadOk .xState
    .ok (if x.line.flag bitRXNE then s else s.hold (.waitRxne i.toNat))

/-! ### Clock change -/

/-- The driver re-derives its divisor on a change of channel `c`: it queries `c` and a speed was
previously set (R172, R174). -/
def Uart.follows (x : Uart) (c : Nat) : Bool := x.par.clkCh == c && x.ld.speed != 0#32

/-- The driver's divisor at a new frequency (R174). -/
def Uart.newDivisor (x : Uart) (f : Nat) : Nat := divisor f x.ld.speed.toNat

/-- A driver after its clock channel `c` changed to `f` Hz (R174). -/
def Uart.reclock (c f : Nat) (x : Uart) : Uart :=
  if x.follows c then { x with ld := x.ld.setDivisor (x.newDivisor f) x.par.ovs } else x

/-- `LD.CLKCHG` (R174). -/
def execLdClkChg (i : BitVec 4) (a : Agent) (phase : BitVec 1) (s : State) : Host.Outcome State Fault Refusal :=
  conclude s do
    requireAgent a .fg
    require (decide (i.toNat < s.clkFreq.length)) .xOperand
    let f := (s.port a).arg0.toNat
    if phase = 0#1 then .ok s
    else do
      require (s.uarts.all fun x => !x.follows i.toNat || x.newDivisor f != 0) .xOperand
      .ok { s with clkFreq := s.clkFreq.set i.toNat f, uarts := s.uarts.map (Uart.reclock i.toNat f) }

end Sys2Proof.Machine
end

