-- ==== Sys2Proof/Machine/Environment.lean ====
section
/-! DEFINITION. The environment steps (44_external_interfaces R296 to R306): the serial line and the
DMA channels moving data. -/

namespace Sys2Proof.Machine

/-! ### The serial line -/

/-- What an arriving frame does to the line with the receiver on (R300, R301). -/
def Line.receive (p : Line) (v : Word) (flags : BitVec 4) : Line :=
  if p.latched then p
  else if p.flag bitRXNE then p.setFlag bitORE
  else
    (((({ p with rdr := some v }.setFlag bitRXNE).setFlagIf (flags.getLsbD 0) bitFE).setFlagIf
      (flags.getLsbD 1) bitPE).setFlagIf (flags.getLsbD 2) bitNF).setFlagIf (flags.getLsbD 3) bitLBD

/-- `LINE.RX` (R300). -/
def execLineRx (i : BitVec 4) (a : Agent) (flags : BitVec 4) (s : State) : Host.Outcome State Fault Refusal :=
  conclude s do
    let x ← uartFor s i a .env
    let v := (s.port a).arg0
    require (x.ld.unitFits v) .xOperand
    .ok (if x.ld.receiverOn then s.setUart i.toNat { x with line := x.line.receive v flags } else s)

/-- `LINE.TXREADY` (R305). -/
def execLineTxReady (i : BitVec 4) (a : Agent) (s : State) : Host.Outcome State Fault Refusal :=
  conclude s do
    let x ← uartFor s i a .env
    require (x.ld.transmitterOn && !x.line.flag bitTXE) .xState
    .ok (s.setUart i.toNat { x with line := x.line.setFlag bitTXE })

/-- `LINE.TXCOMPLETE` (R306). -/
def execLineTxComplete (i : BitVec 4) (a : Agent) (s : State) : Host.Outcome State Fault Refusal :=
  conclude s do
    let x ← uartFor s i a .env
    require (x.ld.transmitterOn && x.line.flag bitTXE && !x.line.flag bitTC) .xState
    .ok (s.setUart i.toNat { x with line := x.line.setFlag bitTC })

/-- `LINE.IDLE` (R302). -/
def execLineIdle (i : BitVec 4) (a : Agent) (s : State) : Host.Outcome State Fault Refusal :=
  conclude s do
    let x ← uartFor s i a .env
    .ok (if x.ld.receiverOn then s.setUart i.toNat { x with line := x.line.setFlag bitIDLE } else s)

/-! ### DMA -/

/-- The address a move touches; none is `X_MEM` (R69, R296). -/
def moveAddress (ch : DmaChan) : Proc Nat :=
  match ch.address with
  | some a => .ok a
  | none => refuse .xMem

/-- `MEM[addr] <- b` by a channel, admitted first (R69). -/
def moveStore (s : State) (addr : Nat) (b : Byte) : Proc State := do
  require (admitted s.regions addr 1) .xMem
  .ok (s.setMem (Memory.write s.mem addr b))

/-- A unit of the line is at most a byte. With `dataBits > 8` an instance "can use only the raw
single-unit operations" (R65): its channels move nothing (assumption 23). -/
def LineDriver.byteUnits (l : LineDriver) : Bool :=
  match l.dataBits with
  | some d => decide (d ≤ 8)
  | none => true

/-- The waiting unit is at most a byte. A unit of a wider frame outlives a change of frame shape, and "a
unit wider than 8 bits never reaches MEM" (R63): no channel moves it (assumption 23). -/
def Line.waitsByte (p : Line) : Bool :=
  match p.rdr with
  | some v => decide (v.toNat < 256)
  | none => true

/-- The serial transmit channel may move (R296, R65). -/
def Uart.txMoveOk (x : Uart) : Bool :=
  x.par.hasTxDma && x.txch.running && x.tb.dmaTxEn && x.ld.transmitterOn && x.line.flag bitTXE &&
    x.ld.byteUnits

/-- The serial receive channel may move (R296, R63, R65). -/
def Uart.rxMoveOk (x : Uart) : Bool :=
  x.par.hasRxDma && x.rxch.running && x.tb.dmaRxEn && x.ld.receiverOn && x.line.flag bitRXNE &&
    x.ld.byteUnits && x.line.waitsByte

/-- The bus write channel may move (R296). -/
def Engine.txMoveOk (e : Engine) : Bool :=
  e.st != .idle && e.phase == some .w && e.dmaTxEn && e.txch.running

/-- The bus read channel may move (R296). -/
def Engine.rxMoveOk (e : Engine) : Bool :=
  e.st != .idle && e.phase == some .r && e.dmaRxEn && e.rxch.running

/-- `DMA.MOVE` on `UART[u].txch` (R296): MEM to the line. -/
def moveUartTx (u : Nat) (s : State) : Proc State := do
  let x ← uartAt s u
  require x.txMoveOk .xState
  let addr ← moveAddress x.txch
  let b ← readByte s addr
  .ok ((s.countFree x.txch).setUart u
    { x with line := x.line.dataWrite (b.setWidth 32), txch := x.txch.advance s.freeCount })

/-- `DMA.MOVE` on `UART[u].rxch` (R296): the low 8 bits of the unit to MEM, which are the whole unit
(R63). -/
def moveUartRx (u : Nat) (s : State) : Proc State := do
  let x ← uartAt s u
  require x.rxMoveOk .xState
  let v ← valueOf x.line.rdr
  let addr ← moveAddress x.rxch
  let stored ← moveStore s addr (v.extractLsb' 0 8)
  .ok ((stored.countFree x.rxch).setUart u
    { x with line := x.line.afterDataRead, rxch := x.rxch.advance s.freeCount })

/-- `DMA.MOVE` on `I2C[e].txch` (R296): MEM to the bus. -/
def moveBusTx (n : Nat) (s : State) : Proc State := do
  let e ← engineAt s n
  require e.txMoveOk .xState
  let addr ← moveAddress e.txch
  let b ← readByte s addr
  .ok ((s.countFree e.txch).setEngine n
    { e.emit (.w b) with txch := e.txch.advance s.freeCount })

/-- `DMA.MOVE` on `I2C[e].rxch` (R296): the byte the target supplies to MEM. -/
def moveBusRx (n : Nat) (v : Word) (s : State) : Proc State := do
  let e ← engineAt s n
  require (decide (v.toNat < 256)) .xOperand
  require e.rxMoveOk .xState
  let addr ← moveAddress e.rxch
  let stored ← moveStore s addr (v.extractLsb' 0 8)
  .ok ((stored.countFree e.rxch).setEngine n
    { e.emit (.r (v.extractLsb' 0 8)) with rxch := e.rxch.advance s.freeCount })

/-- `DMA.MOVE` (R296): one channel moves one unit. -/
def execDmaMove (i : BitVec 4) (a : Agent) (channel : BitVec 2) (s : State) : Host.Outcome State Fault Refusal :=
  conclude s do
    requireAgent a .env
    if channel = 0#2 then moveUartTx i.toNat s
    else if channel = 1#2 then moveUartRx i.toNat s
    else if channel = 2#2 then moveBusTx i.toNat s
    else moveBusRx i.toNat (s.port a).arg0 s

end Sys2Proof.Machine
end

