-- ==== Sys2Proof/Machine/Schedule.lean ====
section
/-! DEFINITION. How operations come to be issued (00_scope R11, R12; 30_encoding R90; 44_external_interfaces
R314) and how a held command goes on (60_exceptions R342, R356). The block has no program counter and
no fetch (10_state R22): the trace `State.acts` says which agent moves next, so every interleaving R12
allows is some trace. -/

namespace Sys2Proof.Machine

/-- The entry is the foreground's: FG issues nothing while it holds (R342). A wake-up is no issue. -/
def Act.byFg : Act → Bool
  | .issue w _ _ _ => issuerOf w == .fg
  | .wake => false
  | .readRes a _ => a == .fg

/-- The first entry of another agent, and the trace without it: while FG holds its own entries wait in
order and "operations of other agents proceed" (R342). -/
def takeOther : List Act → Option (Act × List Act)
  | [] => none
  | x :: xs =>
    if x.byFg then
      match takeOther xs with
      | some (y, ys) => some (y, x :: ys)
      | none => none
    else some (x, xs)

/-- The condition of the held command holds (R170, R171, R205). -/
def State.lifted (s : State) : Held → Bool
  | .waitTc u => (s.uarts[u]?).any fun x => x.line.flag bitTC
  | .waitRxne u => (s.uarts[u]?).any fun x => x.line.flag bitRXNE
  | .readB u => (s.uarts[u]?).any fun x => decide (s.portFg.arg1.toNat ≤ x.bs.rx.ix.used)

/-- What the next transition is. -/
inductive Turn where
  /-- Nothing is issued: no enabled operation, or a wake-up whose test fails. -/
  | idle (s : State)
  /-- The held command executes from the line after its `hold`. -/
  | resume (h : Held) (s : State)
  /-- An operation word is issued; its `ARG`s stand in the issuer's port. -/
  | issue (w : Word) (s : State)
  /-- An issuer reads a result register. -/
  | readRes (a : Agent) (k : ResReg) (s : State)

/-- The turn an entry of the trace gives; `s` is the state with the entry taken from the trace. -/
def Act.turn (x : Act) (s : State) : Turn :=
  match x with
  | .issue w a0 a1 a2 => .issue w (s.loadArgs (issuerOf w) a0 a1 a2)
  | .wake => .idle s
  | .readRes a k => .readRes a k s

/-- The turn while FG holds `h` and its condition is true: a wake-up, the end of the trace, or an entry
of FG lets the held command execute; another agent may still move first (R12). -/
def liftedTurn (h : Held) (s : State) : Turn :=
  match s.acts with
  | [] => .resume h s
  | .wake :: rest => .resume h { s with acts := rest }
  | .issue w a0 a1 a2 :: rest =>
    if issuerOf w = .fg then .resume h s
    else (Act.issue w a0 a1 a2).turn { s with acts := rest }
  | .readRes a k :: rest =>
    if a = .fg then .resume h s else (Act.readRes a k).turn { s with acts := rest }

/-- The turn while FG holds and its condition is false (R342). -/
def waitingTurn (s : State) : Turn :=
  match takeOther s.acts with
  | none => .idle s
  | some (x, rest) => x.turn { s with acts := rest }

/-- The turn when no command holds: the oldest entry of the trace (R90). -/
def freeTurn (s : State) : Turn :=
  match s.acts with
  | [] => .idle s
  | x :: rest => x.turn { s with acts := rest }

/-- The next transition (R12, R342). With nothing to do the block stays as it is: "nothing ever happens
after a while" (R390). -/
def nextTurn (s : State) : Turn :=
  match s.held with
  | none => freeTurn s
  | some h => if s.lifted h then liftedTurn h s else waitingTurn s

/-- The lines below the `hold` of a held command (R170, R171, R205). -/
def resumeProc (h : Held) (s : State) : Proc State :=
  match h with
  | .waitTc _ => .ok s
  | .waitRxne _ => .ok s
  | .readB u => drainRead u .fg s

/-- A hold lifts (R342): the command no longer waits, and its remaining lines take effect. -/
def execResume (h : Held) (s : State) : Host.Outcome State Fault Refusal :=
  conclude s.release (resumeProc h s.release)

/-- The operation word `w`, with the operands already in its issuer's port, is the next one issued; a
hold of FG that would keep it from being issued is given up. -/
def State.place (s : State) (w : Word) : State :=
  let p := s.port (issuerOf w)
  let free := if issuerOf w = .fg then s.release else s
  { free with acts := .issue w p.arg0 p.arg1 p.arg2 :: s.acts }

end Sys2Proof.Machine
end

