-- ==== Sys2Proof/Machine/Dispatch.lean ====
section
/-! DEFINITION. One arm per operation of the opcode table (30_encoding R96). -/

namespace Sys2Proof.Machine

/-- The meaning of an operation issued in a state. -/
def exec (i : Instr) (s : State) : Host.Outcome State Fault Refusal :=
  match i with
  | .memLd inst agent n => Sys2Proof.Machine.execMemLd inst agent n s
  | .memSt inst agent n => Sys2Proof.Machine.execMemSt inst agent n s
  | .rbWrite inst agent => Sys2Proof.Machine.execRbWrite inst agent s
  | .rbRead inst agent => Sys2Proof.Machine.execRbRead inst agent s
  | .rbPop inst agent => Sys2Proof.Machine.execRbPop inst agent s
  | .rbSkip inst agent => Sys2Proof.Machine.execRbSkip inst agent s
  | .rbPeek inst agent => Sys2Proof.Machine.execRbPeek inst agent s
  | .rbCommit inst agent => Sys2Proof.Machine.execRbCommit inst agent s
  | .rbUsed inst agent => Sys2Proof.Machine.execRbUsed inst agent s
  | .ldSetSpeed inst agent => Sys2Proof.Machine.execLdSetSpeed inst agent s
  | .ldSetFrame inst agent parity stopBits dataBits => Sys2Proof.Machine.execLdSetFrame inst agent parity stopBits dataBits s
  | .ldSetFlow inst agent flow => Sys2Proof.Machine.execLdSetFlow inst agent flow s
  | .ldEnable inst agent part => Sys2Proof.Machine.execLdEnable inst agent part s
  | .ldDisable inst agent part => Sys2Proof.Machine.execLdDisable inst agent part s
  | .ldArmIrq inst agent cond => Sys2Proof.Machine.execLdArmIrq inst agent cond s
  | .ldDisarmIrq inst agent cond => Sys2Proof.Machine.execLdDisarmIrq inst agent cond s
  | .ldIrq inst agent => Sys2Proof.Machine.execLdIrq inst agent s
  | .ldRdUnit inst agent => Sys2Proof.Machine.execLdRdUnit inst agent s
  | .ldWrUnit inst agent => Sys2Proof.Machine.execLdWrUnit inst agent s
  | .ldWaitTc inst agent => Sys2Proof.Machine.execLdWaitTc inst agent s
  | .ldWaitRxne inst agent => Sys2Proof.Machine.execLdWaitRxne inst agent s
  | .ldClkChg inst agent phase => Sys2Proof.Machine.execLdClkChg inst agent phase s
  | .bsWrite inst agent => Sys2Proof.Machine.execBsWrite inst agent s
  | .bsReadB inst agent => Sys2Proof.Machine.execBsReadB inst agent s
  | .bsReadNb inst agent => Sys2Proof.Machine.execBsReadNb inst agent s
  | .bsTxDone inst agent => Sys2Proof.Machine.execBsTxDone inst agent s
  | .bsRxDone inst agent => Sys2Proof.Machine.execBsRxDone inst agent s
  | .tbEnable inst agent part => Sys2Proof.Machine.execTbEnable inst agent part s
  | .tbDisable inst agent part => Sys2Proof.Machine.execTbDisable inst agent part s
  | .bteSubmit inst agent => Sys2Proof.Machine.execBteSubmit inst agent s
  | .bteEvAddr inst agent => Sys2Proof.Machine.execBteEvAddr inst agent s
  | .bteEvTc inst agent => Sys2Proof.Machine.execBteEvTc inst agent s
  | .bteEvStop inst agent => Sys2Proof.Machine.execBteEvStop inst agent s
  | .bteEvNack inst agent => Sys2Proof.Machine.execBteEvNack inst agent s
  | .bteEvErr inst agent kind => Sys2Proof.Machine.execBteEvErr inst agent kind s
  | .bteDmaDone inst agent channel => Sys2Proof.Machine.execBteDmaDone inst agent channel s
  | .lineRx inst agent flags => Sys2Proof.Machine.execLineRx inst agent flags s
  | .lineTxReady inst agent => Sys2Proof.Machine.execLineTxReady inst agent s
  | .lineTxComplete inst agent => Sys2Proof.Machine.execLineTxComplete inst agent s
  | .lineIdle inst agent => Sys2Proof.Machine.execLineIdle inst agent s
  | .dmaMove inst agent channel => Sys2Proof.Machine.execDmaMove inst agent channel s

end Sys2Proof.Machine
end

