-- ==== Sys2Proof/Machine/Step.lean ====
section
/-! DEFINITION. One transition of the block (00_scope R9 to R12): the turn that is next, and the
operation it issues. -/

namespace Sys2Proof.Machine

/-- One transition. -/
def step (s : State) : Host.Outcome State Fault Refusal :=
  match nextTurn s with
  | .idle t => .next t
  | .resume h t => execResume h t
  | .readRes a k t => execReadRes a k t
  | .issue w t =>
    match decode w with
    | .ok i => exec i t
    | .error e => execReserved e t

/-- The state in which the next step issues the word `w`, its operands being what stands in the issuer's
port (0 after reset). -/
def State.withFetchWord (s : State) (nbits w : Nat) : State := s.place (zext32 (w % 2 ^ nbits))

end Sys2Proof.Machine
end

