-- ==== Sys2Proof/Safety.lean ====
section
/-! DEFINITION. The terms claims are written in: how an operation goes wrong (60_exceptions R340, R341),
what is admitted and stored in MEM (20_memory R63, R69), which unit an operation names, which
operations may change what, and the invariants of the block (10_state R46). -/

namespace Sys2Proof.Machine

/-! ### Outcomes -/

/-- No fault has been recorded: a run with a fault is not a correct run (R340). -/
abbrev State.faultFree (s : State) : Prop := s.faults = ⟨false, false, false⟩

/-- Nothing was refused: "A proof about the block is about runs with `REFUSALS` empty" (R341). -/
abbrev State.refusalFree (s : State) : Prop :=
  s.refusals = ⟨false, false, false, false, false, false, false⟩

/-- The state of a correct run. -/
abbrev State.correct (s : State) : Prop := s.faultFree ∧ s.refusalFree

/-- The operation is refused with `c`: nothing changes but the mark (R341). -/
abbrev Refuses (i : Instr) (s : State) (c : RefuseCode) : Prop :=
  exec i s = .next (markRefused c s)

/-- One transition leads from `s` to `t`. -/
abbrev Steps (s t : State) : Prop := step s = .next t

/-- The states that runs from `s0` reach. -/
inductive Reaches (s0 : State) : State → Prop where
  | refl : Reaches s0 s0
  | tail {s t : State} (h : Reaches s0 s) (hs : Steps s t) : Reaches s0 t

/-! ### MEM -/

/-- The `n` bytes at `a` lie in one region and do not pass `2^AW` (R69). -/
abbrev InRegion (s : State) (a n : Nat) : Prop :=
  a + n ≤ 2 ^ 32 ∧ ∃ r ∈ s.regions, r.lo ≤ a ∧ a + n ≤ r.hi

/-- Every byte of the span is admitted, and the span does not pass `2^AW` (R69, R123). -/
abbrev SpanAllowed (s : State) (a n : Nat) : Prop :=
  a + n ≤ 2 ^ 32 ∧ ∀ i < n, InRegion s (a + i) 1

/-- The byte at `a` is admitted and holds a value (R69). -/
abbrev ByteReadable (s : State) (a : Nat) : Prop :=
  InRegion s a 1 ∧ (Memory.read s.mem a).isSome = true

/-- Every byte of the span is admitted and holds a value (R69, R123). -/
abbrev SpanHolds (s : State) (a n : Nat) : Prop :=
  a + n ≤ 2 ^ 32 ∧ ∀ i < n, ByteReadable s (a + i)

/-- The four bytes at `a` are admitted and hold the word `w`, lowest byte first (R63, R65). -/
abbrev HoldsWord (s : State) (a : Nat) (w : Word) : Prop :=
  InRegion s a 4 ∧ ∀ i < 4, Memory.read s.mem (a + i) = some (w.extractLsb' (8 * i) 8)

/-- Bytes copied one at a time, element 0 first, each read from MEM as the copies before it left it
(R65, R381). -/
def copied (m : Memory) (src dst : Nat → Nat) (n : Nat) : Memory :=
  (List.range n).foldl
    (fun m i => match Memory.read m (src i) with
      | some b => Memory.write m (dst i) b
      | none => m) m

/-- The address of the `i`-th free element of a ring: where its producer stores next (R123). -/
abbrev ByteRing.freeAddr (b : ByteRing) (i : Nat) : Nat := b.base + (b.ix.wr + i) % b.ix.n

/-- The address of the `i`-th unread element of a ring, oldest first (R124). -/
abbrev ByteRing.unreadAddr (b : ByteRing) (i : Nat) : Nat := b.base + (b.ix.rd + i) % b.ix.n

/-- The unread elements of a ring, oldest first. -/
def ByteRing.contents (b : ByteRing) (m : Memory) : List (Option Byte) :=
  (List.range b.ix.used).map fun k => Memory.read m (b.unreadAddr k)

/-- A buffer of `n` bytes at `a` shares no address with the ring's storage (R68, R381). -/
abbrev ByteRing.clearOf (b : ByteRing) (a n : Nat) : Prop := a + n ≤ b.base ∨ b.base + b.ix.n ≤ a

/-! ### What an operation names, and what it may change -/

/-- What the `INST` field of an operation numbers (R91, R96). -/
inductive Target where
  | mem
  | ring (r : Nat)
  | uart (u : Nat)
  | engine (e : Nat)
  | clock (c : Nat)
deriving DecidableEq, Repr

/-- The unit an operation names (R96); channels 0 and 1 of `DMA.MOVE` are a serial instance's, 2 and 3 a
bus engine's (R93). -/
def target : Instr → Target
  | .memLd _ _ _ => .mem
  | .memSt _ _ _ => .mem
  | .rbWrite i _ => .ring i.toNat
  | .rbRead i _ => .ring i.toNat
  | .rbPop i _ => .ring i.toNat
  | .rbSkip i _ => .ring i.toNat
  | .rbPeek i _ => .ring i.toNat
  | .rbCommit i _ => .ring i.toNat
  | .rbUsed i _ => .ring i.toNat
  | .ldSetSpeed i _ => .uart i.toNat
  | .ldSetFrame i _ _ _ _ => .uart i.toNat
  | .ldSetFlow i _ _ => .uart i.toNat
  | .ldEnable i _ _ => .uart i.toNat
  | .ldDisable i _ _ => .uart i.toNat
  | .ldArmIrq i _ _ => .uart i.toNat
  | .ldDisarmIrq i _ _ => .uart i.toNat
  | .ldIrq i _ => .uart i.toNat
  | .ldRdUnit i _ => .uart i.toNat
  | .ldWrUnit i _ => .uart i.toNat
  | .ldWaitTc i _ => .uart i.toNat
  | .ldWaitRxne i _ => .uart i.toNat
  | .ldClkChg i _ _ => .clock i.toNat
  | .bsWrite i _ => .uart i.toNat
  | .bsReadB i _ => .uart i.toNat
  | .bsReadNb i _ => .uart i.toNat
  | .bsTxDone i _ => .uart i.toNat
  | .bsRxDone i _ => .uart i.toNat
  | .tbEnable i _ _ => .uart i.toNat
  | .tbDisable i _ _ => .uart i.toNat
  | .bteSubmit i _ => .engine i.toNat
  | .bteEvAddr i _ => .engine i.toNat
  | .bteEvTc i _ => .engine i.toNat
  | .bteEvStop i _ => .engine i.toNat
  | .bteEvNack i _ => .engine i.toNat
  | .bteEvErr i _ _ => .engine i.toNat
  | .bteDmaDone i _ _ => .engine i.toNat
  | .lineRx i _ _ => .uart i.toNat
  | .lineTxReady i _ => .uart i.toNat
  | .lineTxComplete i _ => .uart i.toNat
  | .lineIdle i _ => .uart i.toNat
  | .dmaMove i _ c => if c.toNat < 2 then .uart i.toNat else .engine i.toNat

/-- The named unit exists; `MEM.*` must carry 0 (R98). -/
def State.hasTarget (s : State) (i : Instr) : Prop :=
  match target i with
  | .mem => i.instOf = 0#4
  | .ring r => r < s.rings.length
  | .uart u => u < s.uarts.length
  | .engine e => e < s.engines.length
  | .clock c => c < s.clkFreq.length

/-- The operations that write `RES0` (R325). -/
def writesRes0 : Instr → Bool
  | .memLd _ _ _ | .rbWrite _ _ | .rbRead _ _ | .rbPop _ _ | .rbPeek _ _ | .rbUsed _ _
  | .ldSetSpeed _ _ | .ldRdUnit _ _ | .bsWrite _ _ | .bsReadB _ _ | .bsReadNb _ _
  | .bteSubmit _ _ => true
  | _ => false

/-- The operations that write `RES1` (R325). -/
def writesRes1 : Instr → Bool
  | .rbPop _ _ | .rbPeek _ _ => true
  | _ => false

/-- The operations that may store to MEM (R60). -/
def writesMem : Instr → Bool
  | .memSt _ _ _ | .rbWrite _ _ | .rbRead _ _ | .bsWrite _ _ | .bsReadB _ _ | .bsReadNb _ _
  | .bsRxDone _ _ | .ldIrq _ _ | .dmaMove _ _ _ => true
  | _ => false

/-- The operations that may post a completion (R310): handler entries. -/
def posts : Instr → Bool
  | .ldIrq _ _ | .bsRxDone _ _ | .bteEvStop _ _ => true
  | _ => false

/-- `LD.ENABLE` and `LD.DISABLE` (R156). -/
def movesEnableState : Instr → Bool
  | .ldEnable _ _ _ | .ldDisable _ _ _ => true
  | _ => false

/-- `LD.CLKCHG`, the one operation that changes a clock frequency (R38). -/
def changesClock : Instr → Bool
  | .ldClkChg _ _ _ => true
  | _ => false

/-- `LD.IRQ`, the one operation that notifies (R162). -/
def notifies : Instr → Bool
  | .ldIrq _ _ => true
  | _ => false

/-! ### Constants of a run (R6, R42, R336) -/

/-- The fields of a channel no operation sets (R290, R291, R295). -/
def DmaChan.fixedPart (ch : DmaChan) : DmaDir × Nat × Nat × Nat × Bool :=
  (ch.dir, ch.width, ch.burst, ch.paddr, ch.circular)

/-- Everything of a free-standing ring that construction fixes. -/
def FreeRing.fixedPart (b : FreeRing) : Nat × Nat × Agent × Agent :=
  (b.ring.ix.n, b.ring.base, b.prod, b.cons)

/-- Everything of a serial instance that construction fixes. -/
def Uart.fixedPart (x : Uart) :
    UartPar × (Nat × Nat × Nat × Nat) × (DmaDir × Nat × Nat × Nat × Bool) ×
      (DmaDir × Nat × Nat × Nat × Bool) × IrqLine × IrqLine × IrqLine :=
  (x.par, (x.bs.tx.ix.n, x.bs.tx.base, x.bs.rx.ix.n, x.bs.rx.base), x.txch.fixedPart,
    x.rxch.fixedPart, x.irq, x.txdmaIrq, x.rxdmaIrq)

/-- Everything of a bus engine that construction fixes. -/
def Engine.fixedPart (e : Engine) :
    EnginePar × (Nat × Nat) × (DmaDir × Nat × Nat × Nat × Bool) ×
      (DmaDir × Nat × Nat × Nat × Bool) × IrqLine × IrqLine × IrqLine × IrqLine :=
  (e.par, (e.q.ix.n, e.q.store.length), e.txch.fixedPart, e.rxch.fixedPart, e.evIrq, e.errIrq,
    e.txdmaIrq, e.rxdmaIrq)

/-! ### Invariants -/

/-- The invariant of a ring (R23, R133). -/
def Ring.Inv (r : Ring) : Prop :=
  r.rd < r.n ∧ r.used ≤ r.n ∧ r.wr = (r.rd + r.used) % r.n

/-- Every ring of the block keeps R23's invariant, and a queue's array has its capacity (R46 (a)). -/
def State.RingsInv (s : State) : Prop :=
  (∀ b ∈ s.rings, b.ring.ix.Inv) ∧
  (∀ x ∈ s.uarts, x.bs.tx.ix.Inv ∧ x.bs.rx.ix.Inv) ∧
  (∀ e ∈ s.engines, e.q.ix.Inv ∧ e.q.store.length = e.q.ix.n)

/-- A LineDriver: an interrupt enable of a Disabled direction is 0 (R27, R46 (b)); the two divisor
fields are set together and the fine one is below the oversampling factor (R25, R46 (c)); a direction
is Enabled only once the frame shape is set (R157). -/
def Uart.DriverInv (x : Uart) : Prop :=
  (x.ld.rxEn = .disabled → ∀ c < 9, c ≠ 6 → c ≠ 7 → x.ld.ie.getLsbD c = false) ∧
  (x.ld.txEn = .disabled → x.ld.ie.getLsbD 6 = false ∧ x.ld.ie.getLsbD 7 = false) ∧
  1 ≤ x.par.ovs ∧ (x.ld.mant.isSome = x.ld.frac.isSome) ∧
  (∀ f, x.ld.frac = some f → f < x.par.ovs) ∧
  (x.ld.rxEn = .enabled ∨ x.ld.txEn = .enabled → x.ld.dataBits.isSome = true)

/-- Every LineDriver keeps its invariant. -/
def State.DriversInv (s : State) : Prop := ∀ x ∈ s.uarts, x.DriverInv

/-- The write side of a stream (R204, R46 (d)). -/
def Uart.WriteSideInv (x : Uart) : Prop :=
  x.bs.tx.ix.Inv ∧
  (x.bs.txInFlight = 0 → x.bs.tx.ix.used = 0) ∧
  (x.bs.txInFlight ≠ 0 →
    x.txch.count = x.bs.txInFlight ∧
    x.bs.txInFlight ≤ min x.bs.tx.ix.used (x.bs.tx.ix.n - x.bs.tx.ix.rd) ∧
    x.txch.maddr = x.bs.tx.base + x.bs.tx.ix.rd)

/-- Every stream's write side keeps its invariant. -/
def State.WriteSidesInv (s : State) : Prop := ∀ x ∈ s.uarts, x.WriteSideInv

/-- The inbound channel of a stream is circular over the read ring's storage, and both counts the
coalescer compares lie in `[1, RXN]` (R210, R297). -/
def Uart.CountdownInv (x : Uart) : Prop :=
  x.par.hasRxDma = true →
    x.rxch.circular = true ∧ x.rxch.count = x.bs.rx.ix.n ∧ x.rxch.maddr = x.bs.rx.base ∧
    (1 ≤ x.rxch.remaining ∧ x.rxch.remaining ≤ x.bs.rx.ix.n) ∧
    (1 ≤ x.bs.prevCount ∧ x.bs.prevCount ≤ x.bs.rx.ix.n)

/-- Every bound inbound channel counts down in range, and the coalescer has never faulted on it. -/
def State.CountdownsInv (s : State) : Prop :=
  (∀ x ∈ s.uarts, x.CountdownInv) ∧ s.faults.delta = false

/-- A bus engine: Idle with an empty queue, the peripheral and both DMA enables off; or not Idle with
the transaction in flight at the head of the queue and its scratch fields set (R35, R46 (f)). -/
def Engine.SequencerInv (e : Engine) : Prop :=
  (e.st = .idle → e.q.ix.used = 0 ∧ e.periphEn = false ∧ e.dmaTxEn = false ∧ e.dmaRxEn = false) ∧
  (e.st ≠ .idle → 1 ≤ e.q.ix.used ∧ e.periphEn = true ∧ e.phase.isSome = true ∧
    e.byteCount.isSome = true ∧ e.autoStop.isSome = true) ∧
  (e.st = .dataPhaseWrite → e.phase = some .w) ∧ (e.st = .dataPhaseRead → e.phase = some .r)

/-- Every bus engine keeps its invariant. -/
def State.SequencersInv (s : State) : Prop := ∀ e ∈ s.engines, e.SequencerInv

/-- `CSR` summarises the sticky sets and the hold (R21, R40, R342), and the global mask is off
(R39). -/
def State.PortInv (s : State) : Prop :=
  s.csr.fault = (s.faults.delta || s.faults.rbOverflow || s.faults.rbUnderflow) ∧
  s.csr.refused = (s.refusals.xReserved || s.refusals.xAgent || s.refusals.xOperand ||
    s.refusals.xState || s.refusals.xNoDma || s.refusals.xMem || s.refusals.xEmptyTxn) ∧
  s.csr.hold = s.held.isSome ∧
  (s.csr.fault = true → ∃ f, s.faults.has f = true ∧ s.csr.code = f.code) ∧
  (s.csr.fault = false → s.csr.refused = true →
    ∃ c, s.refusals.has c = true ∧ s.csr.code = c.code) ∧
  (s.csr.fault = false → s.csr.refused = false → s.csr.code = 0#8) ∧
  s.irqMask = false

end Sys2Proof.Machine
end

