-- ==== Sys2Proof/Certificates/Slice0/Obligations.lean ====
section
/-! DEFINITION. The statements for the provers: what the operations, a step, reset and the encoding do,
each from the rules of spec/ its docstring names. A statement with a next state written out as a record
update is also its own frame: every field it does not name is unchanged. -/

open Sys2Proof Sys2Proof.Machine

/-! ### Encoding (30_encoding) -/

/-- Decoding the word of any operation gives it back, with every field at every value (R91, R93, R96). -/
def Obligations.DecodeOfEncode : Prop := ∀ i : Instr, decode (encode i) = .ok i

/-- A word that decodes has no bit the operation does not carry: encoding it gives the word back (R91,
R98 (b), (c)). -/
def Obligations.EncodeOfDecode : Prop :=
  ∀ (w : Word) (i : Instr), decode w = .ok i → encode i = w

/-- Decoding is total and unambiguous (R97): no two rows of the opcode table select one word, and a word
decodes exactly when some row selects it. -/
def Obligations.EveryWordSelectsOneRowOrIsReserved : Prop :=
  (opcodeTable.Pairwise fun r q => ∀ w : Word, ¬(r.selects w = true ∧ q.selects w = true)) ∧
  ∀ w : Word, (∃ i, decode w = .ok i) ↔ ∃ r ∈ opcodeTable, r.selects w = true

/-- The thirteen worked encodings of R101. -/
def Obligations.WorkedEncodings : Prop :=
  decode 0x20000000#32 = .ok (.ldSetSpeed 0 .fg) ∧
  decode 0x21000080#32 = .ok (.ldSetFrame 0 .fg 0 0 8) ∧
  decode 0x23100002#32 = .ok (.ldEnable 1 .fg 2) ∧
  decode 0x27040000#32 = .ok (.ldIrq 0 .pirq) ∧
  decode 0x32000000#32 = .ok (.bsReadNb 0 .fg) ∧
  decode 0x33080000#32 = .ok (.bsTxDone 0 .dirq) ∧
  decode 0x10000000#32 = .ok (.rbWrite 0 .fg) ∧
  decode 0x12080000#32 = .ok (.rbPop 0 .dirq) ∧
  decode 0x40000000#32 = .ok (.bteSubmit 0 .fg) ∧
  decode 0x45040012#32 = .ok (.bteEvErr 0 .pirq 0x12) ∧
  decode 0x500C0001#32 = .ok (.lineRx 0 .env 1) ∧
  decode 0x540C0003#32 = .ok (.dmaMove 0 .env 3) ∧
  decode 0x02000004#32 = .ok (.memSt 0 .fg 4)

/-! ### The step (00_scope R9 to R12, 30_encoding R90, 60_exceptions R342) -/

/-- With no command holding, the next step takes the oldest entry of the trace, puts its operands into
the issuer's port, and does what the decoded operation does there (R90, R314). -/
def Obligations.StepRunsDecodedOperation : Prop :=
  ∀ (s : State) (w a0 a1 a2 : Word) (rest : List Act) (i : Instr),
    s.held = none → s.acts = .issue w a0 a1 a2 :: rest → decode w = .ok i →
    step s = exec i
      (({ s with acts := rest } : State).setPort i.agentOf
        { s.port i.agentOf with arg0 := a0, arg1 := a1, arg2 := a2 })

/-- A word that selects no row is refused `X_RESERVED` (R98 (a), (b), (c)); reading a result register
changes nothing, and one that no operation has written is refused `X_STATE` (R20, R44). -/
def Obligations.StepOfReservedWordsAndResultReads : Prop :=
  (∀ (s : State) (w a0 a1 a2 : Word) (rest : List Act) (e : DecodeError),
    s.held = none → s.acts = .issue w a0 a1 a2 :: rest → decode w = .error e →
    step s = .next (markRefused .xReserved
      (({ s with acts := rest } : State).setPort (issuerOf w)
        { s.port (issuerOf w) with arg0 := a0, arg1 := a1, arg2 := a2 }))) ∧
  (∀ (s : State) (g : Agent) (rest : List Act),
    s.held = none → s.acts = .readRes g .res0 :: rest →
    ((s.port g).res0.isSome = true → step s = .next { s with acts := rest }) ∧
    ((s.port g).res0 = none → step s = .next (markRefused .xState { s with acts := rest }))) ∧
  (∀ (s : State) (g : Agent) (rest : List Act),
    s.held = none → s.acts = .readRes g .res1 :: rest →
    ((s.port g).res1.isSome = true → step s = .next { s with acts := rest }) ∧
    ((s.port g).res1 = none → step s = .next (markRefused .xState { s with acts := rest })))

/-- Nothing halts the block: from every state the step answers a next state (R330, R9). -/
def Obligations.StepNeverStops : Prop := ∀ s : State, ∃ t, step s = .next t

/-- While FG holds and its condition is false, FG issues nothing and its entries wait in order, its `RES`
reads included (R342; that they are passed over is assumptions 3 and 11). A wake-up re-tests and changes
nothing (R356), and what another agent issues next proceeds: an operation, a reserved word, a read of a
result. -/
def Obligations.HoldingForegroundIssuesNothing : Prop :=
  ∀ (s : State) (h : Held), s.held = some h → s.lifted h = false →
    ((∀ x ∈ s.acts, x.byFg = true) → step s = .next s) ∧
    ∀ before after : List Act, (∀ x ∈ before, x.byFg = true) →
      let rest : State := { s with acts := before ++ after }
      (s.acts = before ++ .wake :: after → step s = .next rest) ∧
      (∀ (w a0 a1 a2 : Word) (i : Instr),
        s.acts = before ++ .issue w a0 a1 a2 :: after → decode w = .ok i → i.agentOf ≠ .fg →
        step s = exec i (rest.setPort i.agentOf
          { s.port i.agentOf with arg0 := a0, arg1 := a1, arg2 := a2 })) ∧
      (∀ (w a0 a1 a2 : Word) (e : DecodeError),
        s.acts = before ++ .issue w a0 a1 a2 :: after → decode w = .error e → issuerOf w ≠ .fg →
        step s = .next (markRefused .xReserved (rest.setPort (issuerOf w)
          { s.port (issuerOf w) with arg0 := a0, arg1 := a1, arg2 := a2 }))) ∧
      (∀ (g : Agent) (k : ResReg), s.acts = before ++ .readRes g k :: after → g ≠ .fg →
        let held := if k = .res0 then (s.port g).res0 else (s.port g).res1
        (held.isSome = true → step s = .next rest) ∧
        (held = none → step s = .next (markRefused .xState rest)))

/-- When the condition of a hold is true the waiting command executes from the line after its `hold`,
and `CSR.HOLD` is 0 (R342): at a wake-up (R356), at the end of the trace, or before FG's next entry, be
it an operation word or a `RES` read (assumptions 3 and 11). A raw wait changes nothing else (R170,
R171), a blocking read drains exactly its length (R205), or is refused `X_MEM` and no longer waits
(assumption 11). Another agent's operation that comes first in the trace still runs first (R12). -/
def Obligations.HoldLiftsWhenConditionHolds : Prop :=
  (∀ (s : State) (u : Nat) (x : Uart) (rest : List Act),
    s.uarts[u]? = some x →
    (s.acts = .wake :: rest ∨
      (s.acts = rest ∧ (rest = [] ∨ ∃ y ys, rest = y :: ys ∧ y.byFg = true))) →
    let lifted : State := { s with acts := rest, held := none, csr := { s.csr with hold := false } }
    let dst := s.portFg.arg0.toNat
    let len := s.portFg.arg1.toNat
    let rx := x.bs.rx
    (s.held = some (.waitTc u) → x.line.sr.getLsbD 7 = true → step s = .next lifted) ∧
    (s.held = some (.waitRxne u) → x.line.sr.getLsbD 5 = true → step s = .next lifted) ∧
    (s.held = some (.readB u) → len ≤ rx.ix.used → SpanAllowed s dst len →
      (∀ k < len, ByteReadable s (rx.unreadAddr k)) →
      step s = .next
        { lifted with
          portFg := { s.portFg with res0 := some s.portFg.arg1 }
          mem := copied s.mem rx.unreadAddr (dst + ·) len
          uarts := s.uarts.set u
            { x with bs := { x.bs with rx := { rx with ix := { rx.ix with
              rd := (rx.ix.rd + len) % rx.ix.n
              used := rx.ix.used - len } } } } }) ∧
    (s.held = some (.readB u) → len ≤ rx.ix.used →
      (¬ SpanAllowed s dst len ∨ ∃ k < len, ¬ ByteReadable s (rx.unreadAddr k)) →
      step s = .next (markRefused .xMem lifted))) ∧
  ∀ (s : State) (h : Held) (w a0 a1 a2 : Word) (rest : List Act) (i : Instr),
    s.held = some h → s.lifted h = true → s.acts = .issue w a0 a1 a2 :: rest → decode w = .ok i →
    i.agentOf ≠ .fg →
    step s = exec i
      (({ s with acts := rest } : State).setPort i.agentOf
        { s.port i.agentOf with arg0 := a0, arg1 := a1, arg2 := a2 })

/-! ### Reset (10_state R44, 70_reset_and_hazards R370 to R373) -/

/-- The values R44 gives, for every set of parameters: one unit for each parameter entry (R6, R370), the
port's results hold no value, `CSR` and the sticky sets are clear, the logs are empty, MEM holds no
value, every ring is empty, every direction Disabled, the divisor and the data register hold no value,
frame shape and flow control are the construction arguments (assumption 16), the transmit channel is
stopped, a bound receive channel runs circularly over the whole read ring, every line is enabled and
bound, every bus engine is Idle with everything off. -/
def Obligations.ResetLeavesTheStateOfR44 : Prop :=
  ∀ c : Config,
    let s := State.ofConfig c
    s.regions = c.regions ∧ s.dataBitsLegal = c.dataBitsLegal ∧
    s.uarts.map (·.par) = c.uarts ∧ s.engines.map (·.par) = c.engines ∧
    s.rings.map (fun b => (⟨b.ring.ix.n, b.ring.base, b.prod, b.cons⟩ : RingPar)) = c.rings ∧
    (∀ g, (s.port g).res0 = none ∧ (s.port g).res1 = none) ∧
    s.csr.word = 0#32 ∧ s.correct ∧ s.held = none ∧ s.irqMask = false ∧
    s.evq = [] ∧ s.notif = [] ∧ (∀ a, Memory.read s.mem a = none) ∧ s.clkFreq = c.clk0 ∧
    (∀ b ∈ s.rings, b.ring.ix.rd = 0 ∧ b.ring.ix.wr = 0 ∧ b.ring.ix.used = 0) ∧
    (∀ x ∈ s.uarts,
      x.ld.rxEn = .disabled ∧ x.ld.txEn = .disabled ∧ x.ld.periphEn = false ∧ x.ld.ie = 0#9 ∧
      x.ld.speed = 0#32 ∧ x.ld.mant = none ∧ x.ld.frac = none ∧
      x.ld.dataBits = x.par.frame0.map (·.dataBits) ∧ x.ld.parity = x.par.frame0.map (·.parity) ∧
      x.ld.stopBits = x.par.frame0.map (·.stopBits) ∧ x.ld.flow = x.par.flow0 ∧
      x.line = ⟨0#9, none, []⟩ ∧ x.tb = ⟨false, false⟩ ∧
      x.bs.tx = ⟨⟨x.par.txN, 0, 0, 0⟩, x.par.txBase⟩ ∧
      x.bs.rx = ⟨⟨x.par.rxN, 0, 0, 0⟩, x.par.rxBase⟩ ∧
      x.bs.txInFlight = 0 ∧ x.bs.prevCount = x.par.rxN ∧ x.bs.pend = ⟨0#32, 0#32, 0#32⟩ ∧
      x.txch.dir = .memToPeriph ∧ x.txch.width = 1 ∧ x.txch.burst = 1 ∧ x.txch.circular = false ∧
      x.txch.running = false ∧ x.txch.done = false ∧ x.txch.count = 0 ∧ x.txch.remaining = 0 ∧
      x.txch.maddr = x.par.txBase ∧
      (x.par.hasRxDma = true →
        x.rxch.dir = .periphToMem ∧ x.rxch.width = 1 ∧ x.rxch.burst = 1 ∧ x.rxch.circular = true ∧
        x.rxch.maddr = x.par.rxBase ∧ x.rxch.count = x.par.rxN ∧ x.rxch.remaining = x.par.rxN ∧
        x.rxch.running = true ∧ x.rxch.done = false) ∧
      (∀ l ∈ [x.irq, x.txdmaIrq, x.rxdmaIrq], l.enabled = true ∧ l.bound = true)) ∧
    (∀ e ∈ s.engines,
      e.st = .idle ∧ e.q.ix = ⟨e.par.qN, 0, 0, 0⟩ ∧ e.q.store = List.replicate e.par.qN none ∧ e.periphEn = false ∧ e.dmaTxEn = false ∧
      e.dmaRxEn = false ∧ e.phase = none ∧ e.byteCount = none ∧ e.autoStop = none ∧
      (∀ ch ∈ [e.txch, e.rxch], ch.width = 1 ∧ ch.burst = 1 ∧ ch.circular = false ∧
        ch.running = false ∧ ch.done = false ∧ ch.count = 0 ∧ ch.remaining = 0) ∧
      e.txch.dir = .memToPeriph ∧ e.rxch.dir = .periphToMem ∧
      (∀ l ∈ [e.evIrq, e.errIrq, e.txdmaIrq, e.rxdmaIrq], l.enabled = true ∧ l.bound = true) ∧
      e.busLog = [] ∧ e.errLog = [])

/-- The invariants of R46 hold right after reset, for every set of parameters R6 allows, of as many units
as the parameters name. -/
def Obligations.ResetSatisfiesTheInvariants : Prop :=
  ∀ c : Config, c.valid = true →
    let s := State.ofConfig c
    s.uarts.length = c.uarts.length ∧ s.engines.length = c.engines.length ∧
      s.rings.length = c.rings.length ∧ Memory.wf s.mem = true ∧ s.RingsInv ∧ s.DriversInv ∧ s.WriteSidesInv ∧ s.CountdownsInv ∧
      s.SequencersInv ∧ s.PortInv

/-! ### Refusal and fault (60_exceptions R340, R341, R344; 30_encoding R94, R98) -/

/-- The checks made before any other, in the order of R344, for every operation of the table: a reserved
field value is `X_RESERVED`; else a wrong context is `X_AGENT` where R94 requires one; else a unit that
does not exist is `X_OPERAND`; else a context that is not wired to that side of a ring is `X_AGENT`
(R122). -/
def Obligations.ReservedFieldsWrongAgentsAndMissingUnitsAreRefused : Prop :=
  ∀ (i : Instr) (s : State),
    (i.fieldsOk = false → Refuses i s .xReserved) ∧
    (i.fieldsOk = true → i.agentOk = false → Refuses i s .xAgent) ∧
    (i.wellFormed = true → ¬ s.hasTarget i → Refuses i s .xOperand) ∧
    (∀ r b, s.rings[r.toNat]? = some b →
      (∀ g, g ≠ .env → g ≠ b.prod →
        Refuses (.rbWrite r g) s .xAgent ∧ Refuses (.rbCommit r g) s .xAgent) ∧
      (∀ g, g ≠ .env → g ≠ b.cons →
        Refuses (.rbRead r g) s .xAgent ∧ Refuses (.rbPop r g) s .xAgent ∧
        Refuses (.rbSkip r g) s .xAgent ∧ Refuses (.rbPeek r g) s .xAgent) ∧
      (∀ g, g ≠ .env → g ≠ b.prod → g ≠ b.cons → Refuses (.rbUsed r g) s .xAgent))

/-- What a refusal and a fault record, and how `CSR` reads (R21, R340, R341): the sticky member, the
sticky bit, the code only if it is the first; nothing else changes. -/
def Obligations.RefusalAndFaultRecords : Prop :=
  (∀ (c : RefuseCode) (s : State),
    let t := markRefused c s
    (∀ d, t.refusals.has d = (s.refusals.has d || d == c)) ∧ t.csr.refused = true ∧
    t.csr.code = (if s.csr.fault = false ∧ s.csr.refused = false then c.code else s.csr.code) ∧
    { t with
      refusals := s.refusals
      csr := { t.csr with refused := s.csr.refused, code := s.csr.code } } = s) ∧
  (∀ (f : FaultCode) (s : State),
    let t := raiseFault f s
    (∀ g, t.faults.has g = (s.faults.has g || g == f)) ∧ t.csr.fault = true ∧
    t.csr.code = (if s.csr.fault = false then f.code else s.csr.code) ∧
    { t with
      faults := s.faults
      csr := { t.csr with fault := s.csr.fault, code := s.csr.code } } = s) ∧
  (∀ c : Csr, c.word.getLsbD 0 = c.fault ∧ c.word.getLsbD 1 = c.refused ∧ c.word.getLsbD 2 = c.hold ∧
    c.word.extractLsb' 8 8 = c.code ∧ (∀ k, 3 ≤ k → k < 8 → c.word.getLsbD k = false) ∧
    ∀ k, 16 ≤ k → c.word.getLsbD k = false)

/-! ### Host access to MEM (44_external_interfaces R315, R316) -/

/-- `MEM.ST` stores the low `n` bytes of `ARG1` little-endian at `ARG0` and touches no other byte; a value
too wide is `X_OPERAND`; an address misaligned or not admitted is `X_MEM` (R316, R344). -/
def Obligations.MemStoreWritesItsBytes : Prop :=
  ∀ n ∈ [1, 2, 4], ∀ s : State,
    let a := s.portFg.arg0.toNat
    let v := s.portFg.arg1.toNat
    let i : Instr := .memSt 0#4 .fg (BitVec.ofNat 3 n)
    (v < 2 ^ (8 * n) → a % n = 0 → InRegion s a n →
      ∃ m, exec i s = .next { s with mem := m } ∧
        ∀ c, Memory.read m c =
          if a ≤ c ∧ c < a + n then some (BitVec.ofNat 8 (v >>> (8 * (c - a))))
          else Memory.read s.mem c) ∧
    (2 ^ (8 * n) ≤ v → Refuses i s .xOperand) ∧
    (v < 2 ^ (8 * n) → (a % n ≠ 0 ∨ ¬ InRegion s a n) → Refuses i s .xMem)

/-- `MEM.LD` answers the little-endian value of the `n` bytes at `ARG0`, zero-extended; misaligned, not
admitted, or a byte without a value is `X_MEM` (R315). -/
def Obligations.MemLoadReadsLittleEndian : Prop :=
  ∀ n ∈ [1, 2, 4], ∀ s : State,
    let a := s.portFg.arg0.toNat
    let i : Instr := .memLd 0#4 .fg (BitVec.ofNat 3 n)
    (a % n = 0 → InRegion s a n → ∀ b : Nat → Byte,
      (∀ k < n, Memory.read s.mem (a + k) = some (b k)) →
      exec i s = .next { s with portFg := { s.portFg with
        res0 := some (BitVec.ofNat 32 ((List.range n).map fun k => (b k).toNat * 256 ^ k).sum) } }) ∧
    ((a % n ≠ 0 ∨ ¬ InRegion s a n ∨ ∃ k < n, Memory.read s.mem (a + k) = none) →
      Refuses i s .xMem)

/-! ### Free-standing rings (40_ringbuffer R123 to R132) -/

/-- `RB.WRITE` accepts the first `min(count, N - used)` bytes of the span and no more (R123): indices,
count returned, bytes copied one by one, every other byte of MEM as it was; a span of accepted bytes
that cannot be read is `X_MEM`. -/
def Obligations.RbWriteAcceptsAPrefix : Prop :=
  ∀ (r : BitVec 4) (s : State) (b : FreeRing), s.rings[r.toNat]? = some b → b.prod ≠ .env →
    let src := (s.port b.prod).arg0.toNat
    let n := min (s.port b.prod).arg1.toNat (b.ring.ix.n - b.ring.ix.used)
    let i : Instr := .rbWrite r b.prod
    (SpanHolds s src n → (∀ k < n, InRegion s (b.ring.freeAddr k) 1) →
      exec i s = .next
        (State.setPort
          { s with
            rings := s.rings.set r.toNat { b with ring := { b.ring with ix := { b.ring.ix with
              wr := (b.ring.ix.wr + n) % b.ring.ix.n, used := b.ring.ix.used + n } } }
            mem := copied s.mem (src + ·) b.ring.freeAddr n }
          b.prod { s.port b.prod with res0 := some (BitVec.ofNat 32 n) }) ∧
      (∀ c, (∀ k < n, c ≠ b.ring.freeAddr k) →
        Memory.read (copied s.mem (src + ·) b.ring.freeAddr n) c = Memory.read s.mem c) ∧
      (b.ring.ix.Inv → b.ring.clearOf src n → ∀ k < n,
        Memory.read (copied s.mem (src + ·) b.ring.freeAddr n) (b.ring.freeAddr k) =
          Memory.read s.mem (src + k))) ∧
    ((¬ SpanHolds s src n ∨ ∃ k < n, ¬ InRegion s (b.ring.freeAddr k) 1) → Refuses i s .xMem)

/-- `RB.READ` delivers `min(count, used)` bytes, oldest first (R124). -/
def Obligations.RbReadDeliversTheOldest : Prop :=
  ∀ (r : BitVec 4) (s : State) (b : FreeRing), s.rings[r.toNat]? = some b → b.cons ≠ .env →
    let dst := (s.port b.cons).arg0.toNat
    let n := min (s.port b.cons).arg1.toNat b.ring.ix.used
    let i : Instr := .rbRead r b.cons
    (SpanAllowed s dst n → (∀ k < n, ByteReadable s (b.ring.unreadAddr k)) →
      exec i s = .next
        (State.setPort
          { s with
            rings := s.rings.set r.toNat { b with ring := { b.ring with ix := { b.ring.ix with
              rd := (b.ring.ix.rd + n) % b.ring.ix.n, used := b.ring.ix.used - n } } }
            mem := copied s.mem b.ring.unreadAddr (dst + ·) n }
          b.cons { s.port b.cons with res0 := some (BitVec.ofNat 32 n) }) ∧
      (∀ c, c < dst ∨ dst + n ≤ c →
        Memory.read (copied s.mem b.ring.unreadAddr (dst + ·) n) c = Memory.read s.mem c) ∧
      (b.ring.ix.Inv → b.ring.clearOf dst n → ∀ k < n,
        Memory.read (copied s.mem b.ring.unreadAddr (dst + ·) n) (dst + k) =
          Memory.read s.mem (b.ring.unreadAddr k))) ∧
    ((¬ SpanAllowed s dst n ∨ ∃ k < n, ¬ ByteReadable s (b.ring.unreadAddr k)) → Refuses i s .xMem)

/-- `RB.POP` (R125), `RB.PEEK` (R127) and `RB.USED` (R129). -/
def Obligations.RbPopPeekUsed : Prop :=
  ∀ (r : BitVec 4) (s : State) (b : FreeRing), s.rings[r.toNat]? = some b → b.cons ≠ .env →
    (b.ring.ix.used = 0 →
      exec (.rbPop r b.cons) s =
        .next (s.setPort b.cons { s.port b.cons with res0 := some 0#32 })) ∧
    (∀ v : Byte, b.ring.ix.used ≠ 0 → InRegion s (b.ring.base + b.ring.ix.rd) 1 →
      Memory.read s.mem (b.ring.base + b.ring.ix.rd) = some v →
      exec (.rbPop r b.cons) s = .next
        (State.setPort
          { s with rings := s.rings.set r.toNat { b with ring := { b.ring with ix := { b.ring.ix with
              rd := (b.ring.ix.rd + 1) % b.ring.ix.n, used := b.ring.ix.used - 1 } } } }
          b.cons { s.port b.cons with res0 := some 1#32, res1 := some (v.setWidth 32) })) ∧
    (b.ring.ix.used ≠ 0 → ¬ ByteReadable s (b.ring.base + b.ring.ix.rd) →
      Refuses (.rbPop r b.cons) s .xMem) ∧
    exec (.rbPeek r b.cons) s = .next (s.setPort b.cons { s.port b.cons with
      res0 := some (BitVec.ofNat 32 (b.ring.base + b.ring.ix.rd))
      res1 := some (BitVec.ofNat 32 (min b.ring.ix.used (b.ring.ix.n - b.ring.ix.rd))) }) ∧
    (∀ g, g ≠ .env → (g = b.prod ∨ g = b.cons) →
      exec (.rbUsed r g) s = .next (s.setPort g { s.port g with
        res0 := some (BitVec.ofNat 32 b.ring.ix.used) }))

/-- `RB.SKIP` (R126) and `RB.COMMIT` (R128): the advance, or the fault that changes nothing but its
record. -/
def Obligations.RbSkipAndCommitAdvanceOrFault : Prop :=
  ∀ (r : BitVec 4) (s : State) (b : FreeRing), s.rings[r.toNat]? = some b →
    (b.cons ≠ .env →
      let n := (s.port b.cons).arg0.toNat
      (n ≤ b.ring.ix.used → exec (.rbSkip r b.cons) s = .next
        { s with rings := s.rings.set r.toNat { b with ring := { b.ring with ix := { b.ring.ix with
            rd := (b.ring.ix.rd + n) % b.ring.ix.n, used := b.ring.ix.used - n } } } }) ∧
      (b.ring.ix.used < n → exec (.rbSkip r b.cons) s = .next (raiseFault .rbUnderflow s))) ∧
    (b.prod ≠ .env →
      let n := (s.port b.prod).arg0.toNat
      (b.ring.ix.used + n ≤ b.ring.ix.n → exec (.rbCommit r b.prod) s = .next
        { s with rings := s.rings.set r.toNat { b with ring := { b.ring with ix := { b.ring.ix with
            wr := (b.ring.ix.wr + n) % b.ring.ix.n, used := b.ring.ix.used + n } } } }) ∧
      (b.ring.ix.n < b.ring.ix.used + n →
        exec (.rbCommit r b.prod) s = .next (raiseFault .rbOverflow s)))

/-- Elements leave a ring in the order they entered (R132): with the caller's buffer apart from the
storage (R381), a write appends the accepted bytes to the ring's contents, a commit the bytes already in
the storage; a read takes them off the front into the buffer, a pop the first of them into `RES1`, a
skip drops them from the front. -/
def Obligations.RingIsFirstInFirstOut : Prop :=
  ∀ (r : BitVec 4) (s : State) (b : FreeRing), s.rings[r.toNat]? = some b → b.ring.ix.Inv →
    (∀ k < b.ring.ix.n, InRegion s (b.ring.base + k) 1) →
    (b.prod ≠ .env →
      let src := (s.port b.prod).arg0.toNat
      let n := min (s.port b.prod).arg1.toNat (b.ring.ix.n - b.ring.ix.used)
      SpanHolds s src n → b.ring.clearOf src n →
      ∃ t b', exec (.rbWrite r b.prod) s = .next t ∧ t.rings[r.toNat]? = some b' ∧
        b'.ring.contents t.mem =
          b.ring.contents s.mem ++ (List.range n).map fun k => Memory.read s.mem (src + k)) ∧
    (b.cons ≠ .env →
      let dst := (s.port b.cons).arg0.toNat
      let n := min (s.port b.cons).arg1.toNat b.ring.ix.used
      SpanAllowed s dst n → b.ring.clearOf dst n →
      (∀ k < b.ring.ix.used, (Memory.read s.mem (b.ring.unreadAddr k)).isSome = true) →
      ∃ t b', exec (.rbRead r b.cons) s = .next t ∧ t.rings[r.toNat]? = some b' ∧
        (List.range n).map (fun k => Memory.read t.mem (dst + k)) = (b.ring.contents s.mem).take n ∧
        b'.ring.contents t.mem = (b.ring.contents s.mem).drop n) ∧
    (b.cons ≠ .env → (s.port b.cons).arg0.toNat ≤ b.ring.ix.used →
      ∃ t b', exec (.rbSkip r b.cons) s = .next t ∧ t.rings[r.toNat]? = some b' ∧
        b'.ring.contents t.mem = (b.ring.contents s.mem).drop (s.port b.cons).arg0.toNat) ∧
    (∀ v : Byte, b.cons ≠ .env → b.ring.ix.used ≠ 0 →
      Memory.read s.mem (b.ring.unreadAddr 0) = some v →
      ∃ t b', exec (.rbPop r b.cons) s = .next t ∧ t.rings[r.toNat]? = some b' ∧
        (b.ring.contents s.mem).head? = some (some v) ∧
        (t.port b.cons).res1 = some (v.setWidth 32) ∧
        b'.ring.contents t.mem = (b.ring.contents s.mem).drop 1) ∧
    (b.prod ≠ .env →
      let n := (s.port b.prod).arg0.toNat
      b.ring.ix.used + n ≤ b.ring.ix.n →
      ∃ t b', exec (.rbCommit r b.prod) s = .next t ∧ t.rings[r.toNat]? = some b' ∧
        b'.ring.contents t.mem = b.ring.contents s.mem ++
          (List.range n).map fun k => Memory.read s.mem (b.ring.freeAddr k))

/-! ### LineDriver (41_linedriver) -/

/-- `LD.SETSPEED` (R151): both divisor fields and the cached speed, the achieved rate returned; a zero
speed and a zero divisor are `X_OPERAND`. -/
def Obligations.LdSetSpeedSetsTheDivisor : Prop :=
  ∀ (u : BitVec 4) (s : State) (x : Uart) (clock : Nat),
    s.uarts[u.toNat]? = some x → s.clkFreq[x.par.clkCh]? = some clock →
    let bps := s.portFg.arg0.toNat
    let d := (clock + bps / 2) / bps
    let i : Instr := .ldSetSpeed u .fg
    (bps ≠ 0 → d ≠ 0 → exec i s = .next
      { s with
        uarts := s.uarts.set u.toNat { x with ld := { x.ld with
          speed := s.portFg.arg0, mant := some (d / x.par.ovs), frac := some (d % x.par.ovs) } }
        portFg := { s.portFg with res0 := some (BitVec.ofNat 32 (clock / d)) } }) ∧
    (bps = 0 → Refuses i s .xOperand) ∧
    (bps ≠ 0 → d = 0 → Refuses i s .xOperand)

/-- The divisor is the clock over the speed rounded to nearest, ties up, and its two fields are its
quotient and remainder by the oversampling factor (R152). -/
def Obligations.DivisorRoundsToNearest : Prop :=
  ∀ clock speed ovs : Nat, 1 ≤ speed → 1 ≤ ovs →
    let d := divisor clock speed
    d * speed ≤ clock + speed / 2 ∧ clock + speed / 2 < (d + 1) * speed ∧
    d = mantissa d ovs * ovs + fraction d ovs ∧ fraction d ovs < ovs

/-- `LD.SETFRAME` (R153) and `LD.SETFLOW` (R154): the fields, only while both directions are Disabled
(R155); a word length that is not legal is `X_OPERAND`, also with a direction Enabled: R344's order,
not that of R153's lines (assumption 8). -/
def Obligations.LdFrameAndFlowWhileDisabled : Prop :=
  ∀ (u : BitVec 4) (p sb : BitVec 2) (db : BitVec 8) (fl : BitVec 2) (s : State) (x : Uart),
    s.uarts[u.toNat]? = some x →
    (p ≠ 3#2 → db.toNat ∈ s.dataBitsLegal → x.ld.rxEn = .disabled → x.ld.txEn = .disabled →
      exec (.ldSetFrame u .fg p sb db) s = .next
        { s with uarts := s.uarts.set u.toNat { x with ld := { x.ld with
            dataBits := some db.toNat
            parity := some (if p = 0 then .none else if p = 1 then .even else .odd)
            stopBits := some (if sb = 0 then .one else if sb = 1 then .half
              else if sb = 2 then .two else .oneAndHalf) } } }) ∧
    (p ≠ 3#2 → db.toNat ∉ s.dataBitsLegal → Refuses (.ldSetFrame u .fg p sb db) s .xOperand) ∧
    (x.ld.rxEn = .disabled → x.ld.txEn = .disabled →
      exec (.ldSetFlow u .fg fl) s = .next
        { s with uarts := s.uarts.set u.toNat { x with ld := { x.ld with
            flow := some (if fl = 0 then .none else if fl = 1 then .cts
              else if fl = 2 then .rts else .ctsRts) } } }) ∧
    (x.ld.rxEn = .enabled ∨ x.ld.txEn = .enabled →
      (p ≠ 3#2 → db.toNat ∈ s.dataBitsLegal → Refuses (.ldSetFrame u .fg p sb db) s .xState) ∧
      Refuses (.ldSetFlow u .fg fl) s .xState)

/-- `LD.ENABLE` (R157) and `LD.DISABLE` (R158): part 0 names the read direction, 1 the write direction,
2 both; disabling clears the matching interrupt enables, and only `Both` shuts the peripheral down. -/
def Obligations.LdEnableAndDisableMoveTheDirections : Prop :=
  ∀ (u : BitVec 4) (p : BitVec 2) (s : State) (x : Uart), s.uarts[u.toNat]? = some x → p ≠ 3#2 →
    (x.ld.dataBits.isSome = true →
      exec (.ldEnable u .fg p) s = .next
        { s with uarts := s.uarts.set u.toNat { x with ld := { x.ld with
            rxEn := if p = 1 then x.ld.rxEn else .enabled
            txEn := if p = 0 then x.ld.txEn else .enabled
            periphEn := true } } }) ∧
    (x.ld.dataBits = none → Refuses (.ldEnable u .fg p) s .xState) ∧
    ∃ ie : BitVec 9,
      exec (.ldDisable u .fg p) s = .next
        { s with uarts := s.uarts.set u.toNat { x with ld := { x.ld with
            rxEn := if p = 1 then x.ld.rxEn else .disabled
            txEn := if p = 0 then x.ld.txEn else .disabled
            periphEn := if p = 2 then false else x.ld.periphEn
            ie := ie } } } ∧
      ∀ c < 9, ie.getLsbD c =
        (x.ld.ie.getLsbD c && if c = 6 ∨ c = 7 then decide (p = 0) else decide (p = 1))

/-- `LD.ARMIRQ` (R159) and `LD.DISARMIRQ` (R160): one interrupt-enable bit and no other; arming in a
Disabled direction is `X_STATE`, disarming is admitted in every state. -/
def Obligations.LdArmAndDisarmOneCondition : Prop :=
  ∀ (u c : BitVec 4) (s : State) (x : Uart), s.uarts[u.toNat]? = some x → c.toNat ≤ 8 →
    ((if c.toNat = 6 ∨ c.toNat = 7 then x.ld.txEn else x.ld.rxEn) = .enabled →
      ∃ ie : BitVec 9,
        exec (.ldArmIrq u .fg c) s =
          .next { s with uarts := s.uarts.set u.toNat { x with ld := { x.ld with ie := ie } } } ∧
        ∀ k < 9, ie.getLsbD k = (x.ld.ie.getLsbD k || decide (k = c.toNat))) ∧
    ((if c.toNat = 6 ∨ c.toNat = 7 then x.ld.txEn else x.ld.rxEn) = .disabled →
      Refuses (.ldArmIrq u .fg c) s .xState) ∧
    ∃ ie : BitVec 9,
      exec (.ldDisarmIrq u .fg c) s =
        .next { s with uarts := s.uarts.set u.toNat { x with ld := { x.ld with ie := ie } } } ∧
      ∀ k < 9, ie.getLsbD k = (x.ld.ie.getLsbD k && decide (k ≠ c.toNat))

/-- The instance after one entry of the serial handler without the coalescer: the status word as the net
effect of R164 says. -/
abbrev irqServed (x : Uart) : Uart :=
  let sr := x.line.sr
  { x with line := { x.line with
    sr := sr &&& ~~~(sr &&& 0b110010100#9) &&&
      ~~~(if sr.getLsbD 0 || sr.getLsbD 1 || sr.getLsbD 3 then 0b000101011#9 else 0#9) } }

/-- What one entry of the serial handler does to everything but the coalescer (R162 to R166, R214): each
condition of the sample notified once in the fixed order, each error forwarded to the PendingRead if
one exists, the status word as the net effect of R164 says. -/
abbrev irqEffect (u : Nat) (s : State) (x : Uart) : State :=
  let sr := x.line.sr
  let raised := ([(0, Kind.overrunError), (1, .framingError), (2, .parityError), (3, .noiseDetected),
    (4, .lineBreak), (5, .dataAvailable), (6, .transmitReady), (7, .transmitComplete),
    (8, .idleLine)] : List (Nat × Kind)).filter fun c => sr.getLsbD c.1
  { s with
    notif := s.notif ++ raised.map fun c => (u, c.2)
    evq := s.evq ++
      if x.bs.pend.rem = 0#32 then []
      else (raised.filter fun c => decide (c.1 ≤ 4)).map fun c => (x.bs.pend.handle, c.2)
    uarts := s.uarts.set u (irqServed x) }

/-- The coalescer's wrapped difference over the integers (R210). -/
abbrev wrappedDelta (prev cur size : Nat) : Int :=
  if prev < cur then (prev : Int) - cur + size else prev - cur

/-- `LD.IRQ` where the coalescer does not run: no idle condition in the sample, or no inbound channel
bound (R162, R163, R164, R165, R211, R214, R215). -/
def Obligations.LdIrqNotifiesInOrderAndClears : Prop :=
  ∀ (u : BitVec 4) (s : State) (x : Uart), s.uarts[u.toNat]? = some x → s.irqMask = false →
    (x.irq.enabled = true → x.irq.bound = true →
      (x.line.sr.getLsbD 8 = false ∨ x.par.hasRxDma = false) →
      exec (.ldIrq u .pirq) s = .next (irqEffect u.toNat s x)) ∧
    ((x.irq.enabled = false ∨ x.irq.bound = false) → Refuses (.ldIrq u .pirq) s .xState)

/-- `LD.IRQ` with the idle condition in the sample and an inbound channel: after everything else, the
coalescer accounts for the units stored since its last run (R162, R210, R211) and satisfies the
PendingRead if enough bytes are buffered: drained oldest first, cleared, posted with Success (R212). A
drain that cannot move its bytes refuses the whole entry (R341; assumption 20). A fault keeps the
effects made before it (R340): those of the entry without the coalescer, all of them made by then
because the idle condition is the last test (assumption 21). -/
def Obligations.LdIrqIdleRunsTheCoalescer : Prop :=
  ∀ (u : BitVec 4) (s : State) (x : Uart), s.uarts[u.toNat]? = some x → s.irqMask = false →
    x.irq.enabled = true → x.irq.bound = true → x.line.sr.getLsbD 8 = true →
    x.par.hasRxDma = true →
    let rx := x.bs.rx
    let size := rx.ix.n
    let cur := x.rxch.remaining
    let pend := x.bs.pend
    let wrapped := wrappedDelta x.bs.prevCount cur size
    let s1 := irqEffect u.toNat s x
    let y := irqServed x
    let i : Instr := .ldIrq u .pirq
    (wrapped < 0 ∨ (size : Int) ≤ wrapped → exec i s = .next (raiseFault .delta s1)) ∧
    ∀ delta : Nat, (delta : Int) = wrapped → delta < size →
      let used := rx.ix.used + delta
      let wr := (rx.ix.wr + delta) % size
      (used ≤ size → (pend.rem = 0#32 ∨ used < pend.rem.toNat) →
        exec i s = .next
          { s1 with uarts := s.uarts.set u.toNat { y with bs := { x.bs with
              prevCount := cur
              rx := { rx with ix := { rx.ix with wr := wr, used := used } } } } }) ∧
      (used ≤ size → pend.rem ≠ 0#32 → pend.rem.toNat ≤ used →
        SpanAllowed s pend.dst.toNat pend.rem.toNat →
        (∀ k < pend.rem.toNat, ByteReadable s (rx.unreadAddr k)) →
        exec i s = .next
          { s1 with
            mem := copied s.mem rx.unreadAddr (pend.dst.toNat + ·) pend.rem.toNat
            evq := s1.evq ++ [(pend.handle, .success)]
            uarts := s.uarts.set u.toNat { y with bs := { x.bs with
              prevCount := cur
              pend := ⟨0#32, 0#32, 0#32⟩
              rx := { rx with ix := { rx.ix with
                wr := wr, rd := (rx.ix.rd + pend.rem.toNat) % size
                used := used - pend.rem.toNat } } } } }) ∧
      (used ≤ size → pend.rem ≠ 0#32 → pend.rem.toNat ≤ used →
        (¬ SpanAllowed s pend.dst.toNat pend.rem.toNat ∨
          ∃ k < pend.rem.toNat, ¬ ByteReadable s (rx.unreadAddr k)) → Refuses i s .xMem) ∧
      (size < used → exec i s = .next (raiseFault .rbOverflow s1))

/-- `LD.RDUNIT` (R168) and `LD.WRUNIT` (R169) and the admission of the raw path (R167). -/
def Obligations.LdRawUnits : Prop :=
  ∀ (u : BitVec 4) (s : State) (x : Uart), s.uarts[u.toNat]? = some x →
    let readPath := x.ld.rxEn = .enabled ∧ x.ld.periphEn = true ∧
      ¬(x.par.hasRxDma = true ∧ x.tb.dmaRxEn = true)
    let writePath := x.ld.txEn = .enabled ∧ x.ld.periphEn = true ∧
      ¬(x.par.hasTxDma = true ∧ x.tb.dmaTxEn = true)
    (∀ v, readPath → x.line.sr.getLsbD 5 = true → x.line.rdr = some v →
      exec (.ldRdUnit u .fg) s = .next
        { s with
          uarts := s.uarts.set u.toNat { x with line := { x.line with
            sr := x.line.sr &&& ~~~0b000100000#9 } }
          portFg := { s.portFg with res0 := some v } }) ∧
    (¬ readPath ∨ x.line.sr.getLsbD 5 = false → Refuses (.ldRdUnit u .fg) s .xState) ∧
    (∀ d, x.ld.dataBits = some d →
      (s.portFg.arg0.toNat < 2 ^ d → writePath → x.line.sr.getLsbD 6 = true →
        exec (.ldWrUnit u .fg) s = .next
          { s with uarts := s.uarts.set u.toNat { x with line := { x.line with
              txLine := x.line.txLine ++ [s.portFg.arg0]
              sr := x.line.sr &&& ~~~0b011000000#9 } } }) ∧
      (2 ^ d ≤ s.portFg.arg0.toNat → Refuses (.ldWrUnit u .fg) s .xOperand) ∧
      (s.portFg.arg0.toNat < 2 ^ d → (¬ writePath ∨ x.line.sr.getLsbD 6 = false) →
        Refuses (.ldWrUnit u .fg) s .xState))

/-- `LD.WAITTC` (R170) and `LD.WAITRXNE` (R171): with the flag set they execute at once and change
nothing; else they hold; off the raw path they are `X_STATE` (R167). -/
def Obligations.LdWaitsExecuteOrHold : Prop :=
  ∀ (u : BitVec 4) (s : State) (x : Uart), s.uarts[u.toNat]? = some x →
    let readPath := x.ld.rxEn = .enabled ∧ x.ld.periphEn = true ∧
      ¬(x.par.hasRxDma = true ∧ x.tb.dmaRxEn = true)
    let writePath := x.ld.txEn = .enabled ∧ x.ld.periphEn = true ∧
      ¬(x.par.hasTxDma = true ∧ x.tb.dmaTxEn = true)
    (writePath →
      (x.line.sr.getLsbD 7 = true → exec (.ldWaitTc u .fg) s = .next s) ∧
      (x.line.sr.getLsbD 7 = false → exec (.ldWaitTc u .fg) s =
        .next { s with held := some (.waitTc u.toNat), csr := { s.csr with hold := true } })) ∧
    (¬ writePath → Refuses (.ldWaitTc u .fg) s .xState) ∧
    (readPath →
      (x.line.sr.getLsbD 5 = true → exec (.ldWaitRxne u .fg) s = .next s) ∧
      (x.line.sr.getLsbD 5 = false → exec (.ldWaitRxne u .fg) s =
        .next { s with held := some (.waitRxne u.toNat), csr := { s.csr with hold := true } })) ∧
    (¬ readPath → Refuses (.ldWaitRxne u .fg) s .xState)

/-- `LD.CLKCHG` (R174): nothing at about-to-change; at changed the frequency, and the divisor of exactly
those drivers of the channel that were given a speed; refused as a whole if one divisor were 0. -/
def Obligations.LdClkChgRederivesDivisors : Prop :=
  ∀ (c : BitVec 4) (s : State), c.toNat < s.clkFreq.length →
    let f := s.portFg.arg0.toNat
    let follows := fun x : Uart => x.par.clkCh = c.toNat ∧ x.ld.speed ≠ 0#32
    let d := fun x : Uart => (f + x.ld.speed.toNat / 2) / x.ld.speed.toNat
    exec (.ldClkChg c .fg 0#1) s = .next s ∧
    ((∀ x ∈ s.uarts, follows x → d x ≠ 0) →
      ∃ us : List Uart, exec (.ldClkChg c .fg 1#1) s =
          .next { s with clkFreq := s.clkFreq.set c.toNat f, uarts := us } ∧
        us.length = s.uarts.length ∧
        ∀ (v : Nat) (x : Uart), s.uarts[v]? = some x →
          (follows x → us[v]? = some { x with ld := { x.ld with
            mant := some (d x / x.par.ovs), frac := some (d x % x.par.ovs) } }) ∧
          (¬ follows x → us[v]? = some x)) ∧
    ((∃ x ∈ s.uarts, follows x ∧ d x = 0) → Refuses (.ldClkChg c .fg 1#1) s .xOperand)

/-! ### BufferedStream and TransferBinding (42_bufferedstream) -/

/-- `BS.WRITE` (R201, R202): the accepted prefix joins the write ring; with nothing in flight, the run
from the oldest byte to the end of storage is handed to the outbound channel at once. -/
def Obligations.BsWriteQueuesAndStarts : Prop :=
  ∀ (u : BitVec 4) (s : State) (x : Uart), s.uarts[u.toNat]? = some x →
    let tx := x.bs.tx
    let src := s.portFg.arg0.toNat
    let n := min s.portFg.arg1.toNat (tx.ix.n - tx.ix.used)
    let run := min (tx.ix.used + n) (tx.ix.n - tx.ix.rd)
    let i : Instr := .bsWrite u .fg
    (x.par.hasTxDma = true → SpanHolds s src n → (∀ k < n, InRegion s (tx.freeAddr k) 1) →
      exec i s = .next
        { s with
          mem := copied s.mem (src + ·) tx.freeAddr n
          portFg := { s.portFg with res0 := some (BitVec.ofNat 32 n) }
          uarts := s.uarts.set u.toNat { x with
            bs := { x.bs with
              tx := { tx with ix := { tx.ix with
                wr := (tx.ix.wr + n) % tx.ix.n, used := tx.ix.used + n } }
              txInFlight := if x.bs.txInFlight = 0 then run else x.bs.txInFlight }
            txch := if x.bs.txInFlight = 0 ∧ run ≠ 0 then
                { x.txch with
                  maddr := tx.base + tx.ix.rd, count := run, remaining := run
                  running := true, done := false }
              else x.txch } }) ∧
    (x.par.hasTxDma = false → Refuses i s .xNoDma) ∧
    (x.par.hasTxDma = true →
      (¬ SpanHolds s src n ∨ ∃ k < n, ¬ InRegion s (tx.freeAddr k) 1) → Refuses i s .xMem)

/-- `BS.TXDONE` (R203): the finished run is released, and the next one is started if bytes are queued.
Without an outbound channel it is `X_NODMA` (R200), whatever the rest of the state (assumption 9). -/
def Obligations.BsTxDoneChainsTheNextRun : Prop :=
  ∀ (u : BitVec 4) (s : State) (x : Uart), s.uarts[u.toNat]? = some x →
    let tx := x.bs.tx
    let k := x.bs.txInFlight
    let rd := (tx.ix.rd + k) % tx.ix.n
    let run := min (tx.ix.used - k) (tx.ix.n - rd)
    let i : Instr := .bsTxDone u .dirq
    let ready := x.txdmaIrq.enabled = true ∧ x.txch.done = true ∧ k ≠ 0
    (x.par.hasTxDma = true → ready → k ≤ tx.ix.used →
      exec i s = .next
        { s with uarts := s.uarts.set u.toNat { x with
            bs := { x.bs with
              tx := { tx with ix := { tx.ix with rd := rd, used := tx.ix.used - k } }
              txInFlight := run }
            txch := if run = 0 then { x.txch with done := false }
              else { x.txch with
                maddr := tx.base + rd, count := run, remaining := run
                running := true, done := false } } }) ∧
    (x.par.hasTxDma = true → ¬ ready → Refuses i s .xState) ∧
    (x.par.hasTxDma = false → Refuses i s .xNoDma)

/-- `BS.READB` (R205, R207): enough buffered, it drains exactly its length, oldest first; else it
supersedes any PendingRead and holds. The destination must be admitted (R341). -/
def Obligations.BsReadBlockingDrainsOrHolds : Prop :=
  ∀ (u : BitVec 4) (s : State) (x : Uart), s.uarts[u.toNat]? = some x →
    let dst := s.portFg.arg0.toNat
    let len := s.portFg.arg1.toNat
    let rx := x.bs.rx
    let i : Instr := .bsReadB u .fg
    (x.par.hasRxDma = true → SpanAllowed s dst len → len ≤ rx.ix.used →
      (∀ k < len, ByteReadable s (rx.unreadAddr k)) →
      exec i s = .next
        { s with
          mem := copied s.mem rx.unreadAddr (dst + ·) len
          portFg := { s.portFg with res0 := some s.portFg.arg1 }
          uarts := s.uarts.set u.toNat { x with bs := { x.bs with
            rx := { rx with ix := { rx.ix with
              rd := (rx.ix.rd + len) % rx.ix.n, used := rx.ix.used - len } }
            pend := ⟨0#32, 0#32, 0#32⟩ } } }) ∧
    (x.par.hasRxDma = true → SpanAllowed s dst len → rx.ix.used < len →
      exec i s = .next
        { s with
          held := some (.readB u.toNat)
          csr := { s.csr with hold := true }
          uarts := s.uarts.set u.toNat { x with bs := { x.bs with pend := ⟨0#32, 0#32, 0#32⟩ } } }) ∧
    (x.par.hasRxDma = false → Refuses i s .xNoDma) ∧
    (x.par.hasRxDma = true → ¬ SpanAllowed s dst len → Refuses i s .xMem) ∧
    (x.par.hasRxDma = true → len ≤ rx.ix.used →
      (∃ k < len, ¬ ByteReadable s (rx.unreadAddr k)) → Refuses i s .xMem)

/-- `BS.READNB` (R206, R207): enough buffered, it drains like the blocking read and posts nothing; else
it records the PendingRead, superseding any other, and returns 0. Handle 0 is `X_OPERAND` also where no
channel is bound (R344; assumption 8), and no channel is `X_NODMA` (R200). -/
def Obligations.BsReadNonBlockingDrainsOrPends : Prop :=
  ∀ (u : BitVec 4) (s : State) (x : Uart), s.uarts[u.toNat]? = some x →
    let dst := s.portFg.arg0.toNat
    let len := s.portFg.arg1.toNat
    let rx := x.bs.rx
    let i : Instr := .bsReadNb u .fg
    (s.portFg.arg2 ≠ 0#32 → x.par.hasRxDma = true → len ≤ rx.ix.used → SpanAllowed s dst len →
      (∀ k < len, ByteReadable s (rx.unreadAddr k)) →
      exec i s = .next
        { s with
          mem := copied s.mem rx.unreadAddr (dst + ·) len
          portFg := { s.portFg with res0 := some s.portFg.arg1 }
          uarts := s.uarts.set u.toNat { x with bs := { x.bs with
            rx := { rx with ix := { rx.ix with
              rd := (rx.ix.rd + len) % rx.ix.n, used := rx.ix.used - len } }
            pend := ⟨0#32, 0#32, 0#32⟩ } } }) ∧
    (s.portFg.arg2 ≠ 0#32 → x.par.hasRxDma = true → rx.ix.used < len →
      exec i s = .next
        { s with
          portFg := { s.portFg with res0 := some 0#32 }
          uarts := s.uarts.set u.toNat { x with bs := { x.bs with
            pend := ⟨s.portFg.arg0, s.portFg.arg1, s.portFg.arg2⟩ } } }) ∧
    (s.portFg.arg2 = 0#32 → Refuses i s .xOperand) ∧
    (s.portFg.arg2 ≠ 0#32 → x.par.hasRxDma = false → Refuses i s .xNoDma) ∧
    (s.portFg.arg2 ≠ 0#32 → x.par.hasRxDma = true → len ≤ rx.ix.used →
      (¬ SpanAllowed s dst len ∨ ∃ k < len, ¬ ByteReadable s (rx.unreadAddr k)) → Refuses i s .xMem)

/-- `BS.RXDONE` (R210, R212, R213): the completion is acknowledged, the units stored since the last run
are committed at once, and the PendingRead is satisfied if enough bytes are buffered: drained oldest
first, cleared, posted with Success. A drain that cannot move its bytes refuses the whole entry (R341;
assumption 20); a wrapped difference out of range or a ring with no room faults with the completion
alone cleared (R340; assumption 21). -/
def Obligations.BsRxDoneCommitsAndSatisfies : Prop :=
  ∀ (u : BitVec 4) (s : State) (x : Uart), s.uarts[u.toNat]? = some x → s.irqMask = false →
    let rx := x.bs.rx
    let size := rx.ix.n
    let cur := x.rxch.remaining
    let pend := x.bs.pend
    let ready := x.rxdmaIrq.enabled = true ∧ x.rxch.done = true
    let wrapped := wrappedDelta x.bs.prevCount cur size
    let acked : Uart := { x with rxch := { x.rxch with done := false } }
    let i : Instr := .bsRxDone u .dirq
    (x.par.hasRxDma = true → ready → (wrapped < 0 ∨ (size : Int) ≤ wrapped) →
      exec i s = .next (raiseFault .delta { s with uarts := s.uarts.set u.toNat acked })) ∧
    (x.par.hasRxDma = false → Refuses i s .xNoDma) ∧
    (x.par.hasRxDma = true → ¬ ready → Refuses i s .xState) ∧
    ∀ delta : Nat, x.par.hasRxDma = true → ready → (delta : Int) = wrapped → delta < size →
      let used := rx.ix.used + delta
      let wr := (rx.ix.wr + delta) % size
      (used ≤ size → (pend.rem = 0#32 ∨ used < pend.rem.toNat) →
        exec i s = .next
          { s with uarts := s.uarts.set u.toNat { acked with bs := { x.bs with
              prevCount := cur
              rx := { rx with ix := { rx.ix with wr := wr, used := used } } } } }) ∧
      (used ≤ size → pend.rem ≠ 0#32 → pend.rem.toNat ≤ used →
        SpanAllowed s pend.dst.toNat pend.rem.toNat →
        (∀ k < pend.rem.toNat, ByteReadable s (rx.unreadAddr k)) →
        exec i s = .next
          { s with
            mem := copied s.mem rx.unreadAddr (pend.dst.toNat + ·) pend.rem.toNat
            evq := s.evq ++ [(pend.handle, .success)]
            uarts := s.uarts.set u.toNat { acked with bs := { x.bs with
              prevCount := cur
              pend := ⟨0#32, 0#32, 0#32⟩
              rx := { rx with ix := { rx.ix with
                wr := wr, rd := (rx.ix.rd + pend.rem.toNat) % size
                used := used - pend.rem.toNat } } } } }) ∧
      (used ≤ size → pend.rem ≠ 0#32 → pend.rem.toNat ≤ used →
        (¬ SpanAllowed s pend.dst.toNat pend.rem.toNat ∨
          ∃ k < pend.rem.toNat, ¬ ByteReadable s (rx.unreadAddr k)) → Refuses i s .xMem) ∧
      (size < used →
        exec i s = .next (raiseFault .rbOverflow { s with uarts := s.uarts.set u.toNat acked }))

/-- The coalescer's difference (R210): with both counts in `[1, bufferSize]` it lies in
`[0, bufferSize)` and is the number of units stored modulo the buffer size: `previousCount` less it,
wrapped into `[1, bufferSize]`, is `currentCount`. -/
def Obligations.CoalescedDeltaIsInRangeAndExact : Prop :=
  ∀ prev cur size : Nat, 1 ≤ prev → prev ≤ size → 1 ≤ cur → cur ≤ size →
    let delta := coalescedDelta prev cur size
    0 ≤ delta ∧ delta < size ∧ ((prev : Int) - delta - cur) % size = 0 ∧
    ∀ k : Nat, k < size → (k : Int) ≠ delta → ((prev : Int) - k - cur) % size ≠ 0

/-- `TB.ENABLE` (R216) and `TB.DISABLE` (R217): part 0 is the inbound request enable, 1 the outbound, 2
both; enabling a channel the instance does not have is `X_NODMA`. -/
def Obligations.TbEnableAndDisableTheRequests : Prop :=
  ∀ (u : BitVec 4) (p : BitVec 2) (s : State) (x : Uart), s.uarts[u.toNat]? = some x → p ≠ 3#2 →
    ((p ≠ 1#2 → x.par.hasRxDma = true) ∧ (p ≠ 0#2 → x.par.hasTxDma = true) →
      exec (.tbEnable u .fg p) s = .next
        { s with uarts := s.uarts.set u.toNat { x with tb :=
          { dmaRxEn := if p = 1 then x.tb.dmaRxEn else true
            dmaTxEn := if p = 0 then x.tb.dmaTxEn else true } } }) ∧
    ((p ≠ 1#2 ∧ x.par.hasRxDma = false) ∨ (p ≠ 0#2 ∧ x.par.hasTxDma = false) →
      Refuses (.tbEnable u .fg p) s .xNoDma) ∧
    exec (.tbDisable u .fg p) s = .next
      { s with uarts := s.uarts.set u.toNat { x with tb :=
        { dmaRxEn := if p = 1 then x.tb.dmaRxEn else false
          dmaTxEn := if p = 0 then x.tb.dmaTxEn else false } } }

/-! ### Bus engine (43_bus_engine) -/

/-- A channel armed at `p` for `n` units (R243). -/
abbrev armedChannel (ch : DmaChan) (p n : Word) : DmaChan :=
  { ch with maddr := p.toNat, count := n.toNat, remaining := n.toNat, running := true, done := false }

/-- The engine after `start` of a transaction that writes first (R243). -/
abbrev startedWriting (e : Engine) (wbuf wlen rlen addr : Word) : Engine :=
  { e with
    periphEn := true
    dmaTxEn := true
    txch := armedChannel e.txch wbuf wlen
    busLog := e.busLog ++ [.start addr .wr (decide (e.par.addrW = .bits10))]
    byteCount := some wlen.toNat
    phase := some .w
    autoStop := some (decide (rlen.toNat = 0))
    st := .addressPhase }

/-- The engine after `start` of a transaction that only reads (R243). -/
abbrev startedReading (e : Engine) (rbuf rlen addr : Word) : Engine :=
  { e with
    periphEn := true
    dmaRxEn := true
    rxch := armedChannel e.rxch rbuf rlen
    busLog := e.busLog ++ [.start addr .rd (decide (e.par.addrW = .bits10))]
    byteCount := some rlen.toNat
    phase := some .r
    autoStop := some true
    st := .addressPhase }

/-- The engine after `finish` with nothing left in the queue: `shutdown` (R250, R251). -/
abbrev endedAndShutDown (e : Engine) : Engine :=
  { e with
    txch := { e.txch with running := false }
    rxch := { e.rxch with running := false }
    q := { e.q with ix := { e.q.ix with
      rd := (e.q.ix.rd + 1) % e.q.ix.n, used := e.q.ix.used - 1 } }
    st := .idle
    periphEn := false
    dmaTxEn := false
    dmaRxEn := false }

/-- The engine after `finish`, before the next transaction starts (R250, R252). -/
abbrev ended (e : Engine) : Engine :=
  { e with
    txch := { e.txch with running := false }
    rxch := { e.rxch with running := false }
    q := { e.q with ix := { e.q.ix with
      rd := (e.q.ix.rd + 1) % e.q.ix.n, used := e.q.ix.used - 1 } }
    st := .idle }

/-- `t` is the reference at the head of the queue. -/
abbrev headIs (e : Engine) (t : Word) : Prop := e.q.store[e.q.ix.rd]? = some (some t)

/-- A descriptor whose transaction cannot start (R243, R341): a length or the address cannot be read, or
the buffer pointer of the phase that begins cannot. -/
abbrev startUnreadable (s : State) (t : Word) : Prop :=
  (∃ j ∈ [4, 12, 16], ∀ w, ¬ HoldsWord s (t.toNat + j) w) ∨
  (∃ wlen, HoldsWord s (t.toNat + 4) wlen ∧ 0 < wlen.toNat ∧ ∀ w, ¬ HoldsWord s t.toNat w) ∨
  (HoldsWord s (t.toNat + 4) 0#32 ∧ ∀ w, ¬ HoldsWord s (t.toNat + 8) w)

/-- `start` (R243) on the head of the queue: the outbound channel if there is a write phase, otherwise
the inbound one; no auto-stop exactly when both phases are present. A descriptor that cannot be read
refuses the operation `X_MEM`. -/
def Obligations.StartSequenceOfTheHead : Prop :=
  ∀ (e : Engine) (s : State) (t : Word), headIs e t →
    (∀ wlen rlen addr : Word, HoldsWord s (t.toNat + 4) wlen → HoldsWord s (t.toNat + 12) rlen →
      HoldsWord s (t.toNat + 16) addr →
      (∀ wbuf, 0 < wlen.toNat → HoldsWord s t.toNat wbuf →
        e.startHead s = .ok (startedWriting e wbuf wlen rlen addr)) ∧
      (∀ rbuf, wlen.toNat = 0 → HoldsWord s (t.toNat + 8) rbuf →
        e.startHead s = .ok (startedReading e rbuf rlen addr))) ∧
    (startUnreadable s t → e.startHead s = .error (.refuse .xMem))

/-- `BTE.SUBMIT` (R241, R242): a valid reference joins the queue; on an idle bus its transaction starts
at once; a full queue answers 0 and changes nothing else. An address that can be read and is out of
bound is `X_OPERAND` also where another word cannot be read (R344; assumption 8). -/
def Obligations.BteSubmitQueuesOrStarts : Prop :=
  ∀ (n : BitVec 4) (s : State) (e : Engine) (wbuf wlen rbuf rlen addr handle : Word),
    s.engines[n.toNat]? = some e →
    let t := s.portFg.arg0
    let i : Instr := .bteSubmit n .fg
    let bound := if e.par.addrW = .bits10 then 2 ^ 10 else 2 ^ 7
    let readable := HoldsWord s t.toNat wbuf ∧ HoldsWord s (t.toNat + 4) wlen ∧
      HoldsWord s (t.toNat + 8) rbuf ∧ HoldsWord s (t.toNat + 12) rlen ∧
      HoldsWord s (t.toNat + 16) addr ∧ HoldsWord s (t.toNat + 20) handle
    let queued : Engine := { e with q :=
      { ix := { e.q.ix with wr := (e.q.ix.wr + 1) % e.q.ix.n, used := e.q.ix.used + 1 }
        store := e.q.store.set e.q.ix.wr (some t) } }
    let valid := t.toNat % 4 = 0 ∧ readable ∧ addr.toNat < bound ∧ (wlen ≠ 0#32 ∨ rlen ≠ 0#32)
    (valid → e.q.ix.used = e.q.ix.n →
      exec i s = .next { s with portFg := { s.portFg with res0 := some 0#32 } }) ∧
    (valid → e.q.ix.used ≠ e.q.ix.n → e.st ≠ .idle →
      exec i s = .next
        { s with
          engines := s.engines.set n.toNat queued
          portFg := { s.portFg with res0 := some 1#32 } }) ∧
    (valid → e.q.ix.used ≠ e.q.ix.n → e.st = .idle → e.q.ix.wr = e.q.ix.rd →
      e.q.ix.wr < e.q.store.length →
      exec i s = .next
        { s with
          engines := s.engines.set n.toNat
            (if wlen = 0#32 then startedReading queued rbuf rlen addr
              else startedWriting queued wbuf wlen rlen addr)
          portFg := { s.portFg with res0 := some 1#32 } }) ∧
    (t.toNat % 4 ≠ 0 → Refuses i s .xMem) ∧
    (t.toNat % 4 = 0 → (∀ w, ¬ HoldsWord s (t.toNat + 16) w) → Refuses i s .xMem) ∧
    (t.toNat % 4 = 0 → HoldsWord s (t.toNat + 16) addr → bound ≤ addr.toNat →
      Refuses i s .xOperand) ∧
    (t.toNat % 4 = 0 → HoldsWord s (t.toNat + 16) addr → addr.toNat < bound →
      (∃ j < 6, ∀ w, ¬ HoldsWord s (t.toNat + 4 * j) w) → Refuses i s .xMem) ∧
    (t.toNat % 4 = 0 → readable → addr.toNat < bound → wlen = 0#32 → rlen = 0#32 →
      Refuses i s .xEmptyTxn)

/-- `BTE.EVADDR` (R245) and `BTE.EVTC` (R246): the address phase ends; the read phase begins with a
repeated start and no stop. Against the transition table both are `X_STATE` (R244, R253). With a word of
the read phase that cannot be read `BTE.EVTC` is refused `X_MEM` as a whole (R341, R345; assumption
20). -/
def Obligations.BteAddressAndPhaseChange : Prop :=
  ∀ (n : BitVec 4) (s : State) (e : Engine), s.engines[n.toNat]? = some e →
    let admitted := e.evIrq.enabled = true ∧ (e.st = .addressPhase ∨ e.st = .dataPhaseWrite) ∧
        e.phase = some .w ∧ e.autoStop = some false ∧ e.txch.running = false
    (e.evIrq.enabled = true → e.st = .addressPhase →
      (e.phase = some .w → exec (.bteEvAddr n .pirq) s =
        .next { s with engines := s.engines.set n.toNat { e with st := .dataPhaseWrite } }) ∧
      (e.phase = some .r → exec (.bteEvAddr n .pirq) s =
        .next { s with engines := s.engines.set n.toNat { e with st := .dataPhaseRead } })) ∧
    (e.evIrq.enabled = false ∨ e.st ≠ .addressPhase → Refuses (.bteEvAddr n .pirq) s .xState) ∧
    (∀ t rbuf rlen addr, admitted → headIs e t → HoldsWord s (t.toNat + 8) rbuf →
        HoldsWord s (t.toNat + 12) rlen → HoldsWord s (t.toNat + 16) addr →
        exec (.bteEvTc n .pirq) s = .next
          { s with
            engines := s.engines.set n.toNat
              { e with
                dmaTxEn := false
                rxch := armedChannel e.rxch rbuf rlen
                dmaRxEn := true
                byteCount := some rlen.toNat
                autoStop := some true
                busLog := e.busLog ++ [.rstart addr .rd (decide (e.par.addrW = .bits10))]
                phase := some .r
                st := .dataPhaseRead } }) ∧
    (∀ t, admitted → headIs e t → (∃ j ∈ [8, 12, 16], ∀ w, ¬ HoldsWord s (t.toNat + j) w) →
      Refuses (.bteEvTc n .pirq) s .xMem) ∧
    (¬ admitted → Refuses (.bteEvTc n .pirq) s .xState)

/-- `BTE.EVSTOP` (R247, R250, R251, R252, R256): the stop is logged, the transaction popped, Success
posted if it has a handle; then the engine shuts down, or the next queued transaction starts. Where its
own handle or the next descriptor cannot be read the whole event is refused `X_MEM` (R341, R345;
assumption 20). -/
def Obligations.BteStopCompletesTheTransaction : Prop :=
  ∀ (n : BitVec 4) (s : State) (e : Engine), s.engines[n.toNat]? = some e → s.irqMask = false →
    let i : Instr := .bteEvStop n .pirq
    let admitted := e.evIrq.enabled = true ∧ e.st ≠ .idle ∧ e.autoStop = some true ∧
      ((e.phase = some .w ∧ e.txch.running = false) ∨ (e.phase = some .r ∧ e.rxch.running = false))
    let logged : Engine := { e with busLog := e.busLog ++ [.stop] }
    (∀ t h, admitted → headIs e t → HoldsWord s (t.toNat + 20) h → 1 ≤ e.q.ix.used →
      let evq := if h = 0#32 then s.evq else s.evq ++ [(h, Kind.success)]
      (e.q.ix.used = 1 → exec i s = .next
        { s with evq := evq, engines := s.engines.set n.toNat (endedAndShutDown logged) }) ∧
      (∀ e', 2 ≤ e.q.ix.used → (ended logged).startHead s = .ok e' →
        exec i s = .next { s with evq := evq, engines := s.engines.set n.toNat e' })) ∧
    (∀ t, admitted → headIs e t → (∀ w, ¬ HoldsWord s (t.toNat + 20) w) → Refuses i s .xMem) ∧
    (∀ t t', admitted → headIs e t → 2 ≤ e.q.ix.used → headIs (ended logged) t' →
      startUnreadable s t' → Refuses i s .xMem) ∧
    (¬ admitted → Refuses i s .xState)

/-- `BTE.EVNACK` (R248) and `BTE.EVERR` (R249): the in-flight transaction alone is dropped and nothing is
posted; an error is logged and resets the peripheral enable; then shutdown or the next transaction.
Where the next descriptor cannot be read the whole event is refused `X_MEM` (R341, R345; assumption
20). -/
def Obligations.BteFailuresDropOnlyTheInFlight : Prop :=
  ∀ (n : BitVec 4) (s : State) (e : Engine), s.engines[n.toNat]? = some e →
    (e.evIrq.enabled = true → e.st ≠ .idle → 1 ≤ e.q.ix.used →
      let logged : Engine := { e with busLog := e.busLog ++ [.nack] }
      (e.q.ix.used = 1 → exec (.bteEvNack n .pirq) s =
        .next { s with engines := s.engines.set n.toNat (endedAndShutDown logged) }) ∧
      (∀ e', 2 ≤ e.q.ix.used → (ended logged).startHead s = .ok e' →
        exec (.bteEvNack n .pirq) s = .next { s with engines := s.engines.set n.toNat e' }) ∧
      (∀ t, 2 ≤ e.q.ix.used → headIs (ended logged) t → startUnreadable s t →
        Refuses (.bteEvNack n .pirq) s .xMem)) ∧
    (e.evIrq.enabled = false ∨ e.st = .idle → Refuses (.bteEvNack n .pirq) s .xState) ∧
    ∀ c ∈ [((0x11#8 : BitVec 8), Kind.busError), (0x12#8, .arbitrationLost),
        (0x14#8, .overrunUnderrun), (0x15#8, .timingError), (0x16#8, .protocolAlert)],
      (e.errIrq.enabled = true → e.st ≠ .idle → 1 ≤ e.q.ix.used →
        let logged : Engine := { e with
          errLog := e.errLog ++ [c.2], busLog := e.busLog ++ [.preset], periphEn := true }
        (e.q.ix.used = 1 → exec (.bteEvErr n .pirq c.1) s =
          .next { s with engines := s.engines.set n.toNat (endedAndShutDown logged) }) ∧
        (∀ e', 2 ≤ e.q.ix.used → (ended logged).startHead s = .ok e' →
          exec (.bteEvErr n .pirq c.1) s = .next { s with engines := s.engines.set n.toNat e' }) ∧
        (∀ t, 2 ≤ e.q.ix.used → headIs (ended logged) t → startUnreadable s t →
          Refuses (.bteEvErr n .pirq c.1) s .xMem)) ∧
      (e.errIrq.enabled = false ∨ e.st = .idle → Refuses (.bteEvErr n .pirq c.1) s .xState)

/-- `BTE.DMADONE` (R254): the channel's `done` is cleared, in every state of the bus, and nothing else
happens. -/
def Obligations.BteDmaDoneOnlyAcknowledges : Prop :=
  ∀ (n : BitVec 4) (s : State) (e : Engine), s.engines[n.toNat]? = some e →
    (e.txdmaIrq.enabled = true → e.txch.done = true → exec (.bteDmaDone n .dirq 0#1) s =
      .next
        { s with
          engines := s.engines.set n.toNat
            { e with txch := { e.txch with done := false } } }) ∧
    (e.txdmaIrq.enabled = false ∨ e.txch.done = false →
      Refuses (.bteDmaDone n .dirq 0#1) s .xState) ∧
    (e.rxdmaIrq.enabled = true → e.rxch.done = true → exec (.bteDmaDone n .dirq 1#1) s =
      .next
        { s with
          engines := s.engines.set n.toNat
            { e with rxch := { e.rxch with done := false } } }) ∧
    (e.rxdmaIrq.enabled = false ∨ e.rxch.done = false →
      Refuses (.bteDmaDone n .dirq 1#1) s .xState)

/-! ### Environment (44_external_interfaces) -/

/-- `LINE.RX` (R300, R301): lost with the receiver off or an error latched; overrun if a unit still
waits; otherwise the unit waits with the error flags that came with it. With no frame shape there is no
bound, also with the receiver on, which no run reaches (R157): the model's reading (assumption 18). -/
def Obligations.LineRxDeliversOverrunsOrIsLost : Prop :=
  ∀ (u flags : BitVec 4) (s : State) (x : Uart), s.uarts[u.toNat]? = some x →
    let v := s.portEnv.arg0
    let i : Instr := .lineRx u .env flags
    let fits := ∀ d, x.ld.dataBits = some d → v.toNat < 2 ^ d
    let on := x.ld.rxEn = .enabled ∧ x.ld.periphEn = true
    let latch := x.line.sr.getLsbD 0 = true ∨ x.line.sr.getLsbD 1 = true ∨ x.line.sr.getLsbD 3 = true
    (¬ fits → Refuses i s .xOperand) ∧
    (fits → (¬ on ∨ latch) → exec i s = .next s) ∧
    (fits → on → ¬ latch → x.line.sr.getLsbD 5 = true →
      exec i s = .next
        { s with
          uarts := s.uarts.set u.toNat
            { x with line := { x.line with sr := x.line.sr ||| 0b000000001#9 } } }) ∧
    (fits → on → ¬ latch → x.line.sr.getLsbD 5 = false →
      ∃ sr : BitVec 9,
        exec i s = .next
          { s with
            uarts := s.uarts.set u.toNat
              { x with line := { x.line with rdr := some v, sr := sr } } } ∧
        ∀ c < 9, sr.getLsbD c = (x.line.sr.getLsbD c || decide (c = 5) ||
          (decide (c = 1) && flags.getLsbD 0) || (decide (c = 2) && flags.getLsbD 1) ||
          (decide (c = 3) && flags.getLsbD 2) || (decide (c = 4) && flags.getLsbD 3)))

/-- `LINE.TXREADY` (R305), `LINE.TXCOMPLETE` (R306) and `LINE.IDLE` (R302): the one flag each sets, and
when each is `X_STATE` or without effect. -/
def Obligations.LineTransmitterAndIdle : Prop :=
  ∀ (u : BitVec 4) (s : State) (x : Uart), s.uarts[u.toNat]? = some x →
    let txOn := x.ld.txEn = .enabled ∧ x.ld.periphEn = true
    let rxOn := x.ld.rxEn = .enabled ∧ x.ld.periphEn = true
    let setting := fun bits : BitVec 9 =>
      { s with uarts := s.uarts.set u.toNat { x with line := { x.line with sr := x.line.sr ||| bits } } }
    (txOn → x.line.sr.getLsbD 6 = false →
      exec (.lineTxReady u .env) s = .next (setting 0b001000000#9)) ∧
    (¬ txOn ∨ x.line.sr.getLsbD 6 = true → Refuses (.lineTxReady u .env) s .xState) ∧
    (txOn → x.line.sr.getLsbD 6 = true → x.line.sr.getLsbD 7 = false →
      exec (.lineTxComplete u .env) s = .next (setting 0b010000000#9)) ∧
    (¬ txOn ∨ x.line.sr.getLsbD 6 = false ∨ x.line.sr.getLsbD 7 = true →
      Refuses (.lineTxComplete u .env) s .xState) ∧
    (rxOn → exec (.lineIdle u .env) s = .next (setting 0b100000000#9)) ∧
    (¬ rxOn → exec (.lineIdle u .env) s = .next s)

/-- `DMA.MOVE` on a serial instance (R296, R303, R304): one byte from MEM to the line, or the waiting unit
to MEM as one byte, at `maddr + (count - remaining)`; the channel advances (R297). With `dataBits > 8`
the instance can use only the raw operations and both are `X_STATE` (R65); so is the inbound one of a
unit wider than 8 bits that a change of frame shape left waiting, because no such unit reaches MEM
(R63). That the refusal is `X_STATE` is assumption 23.
`freeCount` is the model's own counter of free values (assumption 7). -/
def Obligations.DmaMovesOneSerialUnit : Prop :=
  ∀ (u : BitVec 4) (s : State) (x : Uart), s.uarts[u.toNat]? = some x →
    let used := fun ch : DmaChan => if ch.remaining = 0 then s.freeCount + 1 else s.freeCount
    let ta := x.txch.maddr + x.txch.count - x.txch.remaining
    let ra := x.rxch.maddr + x.rxch.count - x.rxch.remaining
    let byteUnits := ∀ d, x.ld.dataBits = some d → d ≤ 8
    let txReady := byteUnits ∧ x.par.hasTxDma = true ∧ x.txch.running = true ∧ x.tb.dmaTxEn = true ∧
      x.ld.txEn = .enabled ∧ x.ld.periphEn = true ∧ x.line.sr.getLsbD 6 = true
    let unitIsByte := ∀ v, x.line.rdr = some v → v.toNat < 256
    let rxReady := byteUnits ∧ unitIsByte ∧ x.par.hasRxDma = true ∧ x.rxch.running = true ∧ x.tb.dmaRxEn = true ∧
      x.ld.rxEn = .enabled ∧ x.ld.periphEn = true ∧ x.line.sr.getLsbD 5 = true
    (∀ b : Byte, txReady → x.txch.remaining ≤ x.txch.count →
      InRegion s ta 1 → Memory.read s.mem ta = some b →
      exec (.dmaMove u .env 0#2) s = .next
        { s with
          freeCount := used x.txch
          uarts := s.uarts.set u.toNat { x with
            line := { x.line with
              txLine := x.line.txLine ++ [b.setWidth 32], sr := x.line.sr &&& ~~~0b011000000#9 }
            txch := x.txch.advance s.freeCount } }) ∧
    (¬ txReady → Refuses (.dmaMove u .env 0#2) s .xState) ∧
    (txReady → x.txch.remaining ≤ x.txch.count → ¬ ByteReadable s ta →
      Refuses (.dmaMove u .env 0#2) s .xMem) ∧
    (∀ v : Word, rxReady → x.line.rdr = some v → x.rxch.remaining ≤ x.rxch.count →
      InRegion s ra 1 →
      ∃ m, exec (.dmaMove u .env 1#2) s = .next
          { s with
            freeCount := used x.rxch
            mem := m
            uarts := s.uarts.set u.toNat { x with
              line := { x.line with sr := x.line.sr &&& ~~~0b000100000#9 }
              rxch := x.rxch.advance s.freeCount } } ∧
        (v.extractLsb' 0 8).toNat = v.toNat ∧
        ∀ a, Memory.read m a = if a = ra then some (v.extractLsb' 0 8) else Memory.read s.mem a) ∧
    (¬ rxReady → Refuses (.dmaMove u .env 1#2) s .xState) ∧
    (∀ v : Word, rxReady → x.line.rdr = some v → x.rxch.remaining ≤ x.rxch.count →
      ¬ InRegion s ra 1 → Refuses (.dmaMove u .env 1#2) s .xMem)

/-- `DMA.MOVE` on a bus engine (R255, R296): one byte from MEM to the bus, or the byte the target
supplies to MEM, and its item in `BUSLOG`; the channel advances (R297). `freeCount` is the model's own
counter of free values (assumption 7). -/
def Obligations.DmaMovesOneBusByte : Prop :=
  ∀ (n : BitVec 4) (s : State) (e : Engine), s.engines[n.toNat]? = some e →
    let used := fun ch : DmaChan => if ch.remaining = 0 then s.freeCount + 1 else s.freeCount
    let ta := e.txch.maddr + e.txch.count - e.txch.remaining
    let ra := e.rxch.maddr + e.rxch.count - e.rxch.remaining
    let v := s.portEnv.arg0
    let txReady := e.st ≠ .idle ∧ e.phase = some .w ∧ e.dmaTxEn = true ∧ e.txch.running = true
    let rxReady := e.st ≠ .idle ∧ e.phase = some .r ∧ e.dmaRxEn = true ∧ e.rxch.running = true
    (∀ b : Byte, txReady → e.txch.remaining ≤ e.txch.count →
      InRegion s ta 1 → Memory.read s.mem ta = some b →
      exec (.dmaMove n .env 2#2) s = .next
        { s with
          freeCount := used e.txch
          engines := s.engines.set n.toNat
            { e with busLog := e.busLog ++ [.w b], txch := e.txch.advance s.freeCount } }) ∧
    (¬ txReady → Refuses (.dmaMove n .env 2#2) s .xState) ∧
    (txReady → e.txch.remaining ≤ e.txch.count → ¬ ByteReadable s ta →
      Refuses (.dmaMove n .env 2#2) s .xMem) ∧
    (rxReady → v.toNat < 256 → e.rxch.remaining ≤ e.rxch.count → InRegion s ra 1 →
      ∃ m, exec (.dmaMove n .env 3#2) s = .next
          { s with
            freeCount := used e.rxch
            mem := m
            engines := s.engines.set n.toNat
              { e with
                busLog := e.busLog ++ [.r (v.extractLsb' 0 8)]
                rxch := e.rxch.advance s.freeCount } } ∧
        ∀ a, Memory.read m a = if a = ra then some (v.extractLsb' 0 8) else Memory.read s.mem a) ∧
    (256 ≤ v.toNat → Refuses (.dmaMove n .env 3#2) s .xOperand) ∧
    (v.toNat < 256 → ¬ rxReady → Refuses (.dmaMove n .env 3#2) s .xState) ∧
    (v.toNat < 256 → rxReady → e.rxch.remaining ≤ e.rxch.count → ¬ InRegion s ra 1 →
      Refuses (.dmaMove n .env 3#2) s .xMem)

/-- `advance` (R297): one unit fewer remains; at 0 the channel is done, and a circular one reloads its
count and keeps running while another stops. From 0, which R320 excludes and the hazard of R382 can
reach, the value is free: the statement holds for some value `v`, whichever it is (assumption 7). -/
def Obligations.DmaCountsDownAndReloads : Prop :=
  ∀ (ch : DmaChan) (k : Nat),
    (2 ≤ ch.remaining → ch.advance k = { ch with remaining := ch.remaining - 1 }) ∧
    (ch.remaining = 1 → ch.circular = true →
      ch.advance k = { ch with remaining := ch.count, done := true }) ∧
    (ch.remaining = 1 → ch.circular = false →
      ch.advance k = { ch with remaining := 0, done := true, running := false }) ∧
    (ch.remaining = 0 → ∃ v < 2 ^ 32, ch.advance k =
      if v ≠ 0 then { ch with remaining := v }
      else if ch.circular = true then { ch with remaining := ch.count, done := true }
      else { ch with done := true, running := false })

/-! ### Requests (60_exceptions R335) -/

/-- A request is a level condition on the state (R161, R298, R335): the serial one is the peripheral
enabled and some condition both present and armed; a channel's is its `done`. -/
def Obligations.RequestsAreLevelConditions : Prop :=
  ∀ s : State,
    (∀ u, s.pending (.serial u) = true ↔ ∃ x, s.uarts[u]? = some x ∧ x.ld.periphEn = true ∧
      ∃ c < 9, x.line.sr.getLsbD c = true ∧ x.ld.ie.getLsbD c = true) ∧
    (∀ u, s.pending (.uartTxDma u) = true ↔ ∃ x, s.uarts[u]? = some x ∧ x.txch.done = true) ∧
    (∀ u, s.pending (.uartRxDma u) = true ↔ ∃ x, s.uarts[u]? = some x ∧ x.rxch.done = true) ∧
    (∀ e, s.pending (.busTxDma e) = true ↔ ∃ y, s.engines[e]? = some y ∧ y.txch.done = true) ∧
    (∀ e, s.pending (.busRxDma e) = true ↔ ∃ y, s.engines[e]? = some y ∧ y.rxch.done = true)

/-! ### Invariants every step keeps (10_state R46) -/

/-- MEM stays in its one canonical form. -/
def Obligations.StepKeepsMemoryCanonical : Prop :=
  ∀ s t : State, Memory.wf s.mem = true → step s = .next t → Memory.wf t.mem = true

/-- Every ring keeps `used ≤ N` and `wr = (rd + used) mod N`, faulting operations included (R23, R133,
R46 (a)). -/
def Obligations.StepKeepsEveryRing : Prop :=
  ∀ s t : State, s.RingsInv → step s = .next t → t.RingsInv

/-- Interrupt enables stay gated by their direction, the fine divisor field below the oversampling
factor, and no direction is Enabled before the frame shape is set (R27, R46 (b), (c), R157). -/
def Obligations.StepKeepsEveryLineDriver : Prop :=
  ∀ s t : State, s.DriversInv → step s = .next t → t.DriversInv

/-- Bytes queued for transmission always have a transfer in flight, and the transfer in flight is the
contiguous run at the ring's oldest byte (R204, R46 (d)). -/
def Obligations.StepKeepsEveryWriteSide : Prop :=
  ∀ s t : State, s.WriteSidesInv → step s = .next t → t.WriteSidesInv

/-- The counts the coalescer compares stay in `[1, RXN]`, so its range test never fires: `F_DELTA` is
never recorded (R210, R297). -/
def Obligations.CoalescerNeverFaultsOnItsRange : Prop :=
  ∀ s t : State, s.CountdownsInv → step s = .next t → t.CountdownsInv

/-- A bus engine is Idle exactly when its queue is empty, and Idle it has the peripheral and its DMA
enables off (R35, R46 (f), R252). -/
def Obligations.StepKeepsEverySequencer : Prop :=
  ∀ s t : State, s.RingsInv → s.SequencersInv → step s = .next t → t.SequencersInv

/-- `CSR` stays the summary of the sticky sets and of the hold, and the global mask is off between
operations (R21, R39, R40, R342, R46 (h)). -/
def Obligations.StepKeepsTheCommandPort : Prop :=
  ∀ s t : State, s.PortInv → step s = .next t → t.PortInv

/-- What construction fixed stays: no step changes a parameter, resizes, re-wires or destroys anything
(R6, R42, R336). The frame shape, flow control and speed of a driver are no part of it. -/
def Obligations.StepKeepsWhatConstructionFixed : Prop :=
  ∀ s t : State, step s = .next t →
    t.regions = s.regions ∧ t.dataBitsLegal = s.dataBitsLegal ∧
    t.rings.map FreeRing.fixedPart = s.rings.map FreeRing.fixedPart ∧
    t.uarts.map Uart.fixedPart = s.uarts.map Uart.fixedPart ∧
    t.engines.map Engine.fixedPart = s.engines.map Engine.fixedPart ∧
    t.clkFreq.length = s.clkFreq.length

/-- No step removes a member of `FAULTS` or `REFUSALS` (R40), clears their `CSR` bits (R21), takes an
item off a log (R37) or a unit off a line (R29, R304). -/
def Obligations.StickySetsAndLogsOnlyGrow : Prop :=
  ∀ s t : State, step s = .next t →
    (∀ f, s.faults.has f = true → t.faults.has f = true) ∧
    (∀ c, s.refusals.has c = true → t.refusals.has c = true) ∧
    (s.csr.fault = true → t.csr.fault = true ∧ t.csr.code = s.csr.code) ∧
    (s.csr.refused = true → t.csr.refused = true) ∧
    s.evq <+: t.evq ∧ s.notif <+: t.notif ∧
    (∀ (u : Nat) (x y : Uart), s.uarts[u]? = some x → t.uarts[u]? = some y →
      x.line.txLine <+: y.line.txLine) ∧
    (∀ (n : Nat) (e d : Engine), s.engines[n]? = some e → t.engines[n]? = some d →
      e.busLog <+: d.busLog ∧ e.errLog <+: d.errLog)

/-! ### What an operation may not change -/

/-- Only the operations the rules name change these (R20, R38, R60, R156, R162, R310, R325): a direction's
enable state, `RES0`, `RES1`, a byte of MEM, a completion, a notification, a clock frequency; and no
operation writes an `ARG` register. -/
def Obligations.OnlyTheNamedOperationsChangeIt : Prop :=
  ∀ (i : Instr) (s t : State), exec i s = .next t →
    (movesEnableState i = false →
      t.uarts.map (fun x => (x.ld.rxEn, x.ld.txEn)) = s.uarts.map fun x => (x.ld.rxEn, x.ld.txEn)) ∧
    (writesRes0 i = false → ∀ g, (t.port g).res0 = (s.port g).res0) ∧
    (writesRes1 i = false → ∀ g, (t.port g).res1 = (s.port g).res1) ∧
    (∀ g, (t.port g).arg0 = (s.port g).arg0 ∧ (t.port g).arg1 = (s.port g).arg1 ∧
      (t.port g).arg2 = (s.port g).arg2) ∧
    (writesMem i = false → t.mem = s.mem) ∧
    (posts i = false → t.evq = s.evq) ∧
    (notifies i = false → t.notif = s.notif) ∧
    (changesClock i = false → t.clkFreq = s.clkFreq)

/-- An operation on one unit changes no other: not another serial instance (a clock change, which
concerns every driver of the channel, set apart), not another bus engine, not another free-standing
ring, and not the port of another agent (R314, R354). -/
def Obligations.UnitsDoNotDisturbEachOther : Prop :=
  ∀ (i : Instr) (s t : State), exec i s = .next t →
    (∀ v, target i ≠ .uart v → changesClock i = false → t.uarts[v]? = s.uarts[v]?) ∧
    (∀ v, target i ≠ .engine v → t.engines[v]? = s.engines[v]?) ∧
    (∀ v, target i ≠ .ring v → t.rings[v]? = s.rings[v]?) ∧
    (∀ g, g ≠ i.agentOf → t.port g = s.port g)
end

