-- ==== Sys2Proof/Laws/State.lean ====
section
/-! SUPPORT. One lemma per field of `State` and per named update: which fields an update leaves alone,
and what it writes. No later proof unfolds a record update. -/

namespace Sys2Proof.Machine

/-! ### `State.setPort` -/

@[simp] theorem State.setPort_regions (s : State) (a : Agent) (p : Port) :
    (s.setPort a p).regions = s.regions := by cases a <;> rfl
@[simp] theorem State.setPort_dataBitsLegal (s : State) (a : Agent) (p : Port) :
    (s.setPort a p).dataBitsLegal = s.dataBitsLegal := by cases a <;> rfl
@[simp] theorem State.setPort_csr (s : State) (a : Agent) (p : Port) :
    (s.setPort a p).csr = s.csr := by cases a <;> rfl
@[simp] theorem State.setPort_faults (s : State) (a : Agent) (p : Port) :
    (s.setPort a p).faults = s.faults := by cases a <;> rfl
@[simp] theorem State.setPort_refusals (s : State) (a : Agent) (p : Port) :
    (s.setPort a p).refusals = s.refusals := by cases a <;> rfl
@[simp] theorem State.setPort_rings (s : State) (a : Agent) (p : Port) :
    (s.setPort a p).rings = s.rings := by cases a <;> rfl
@[simp] theorem State.setPort_uarts (s : State) (a : Agent) (p : Port) :
    (s.setPort a p).uarts = s.uarts := by cases a <;> rfl
@[simp] theorem State.setPort_engines (s : State) (a : Agent) (p : Port) :
    (s.setPort a p).engines = s.engines := by cases a <;> rfl
@[simp] theorem State.setPort_clkFreq (s : State) (a : Agent) (p : Port) :
    (s.setPort a p).clkFreq = s.clkFreq := by cases a <;> rfl
@[simp] theorem State.setPort_irqMask (s : State) (a : Agent) (p : Port) :
    (s.setPort a p).irqMask = s.irqMask := by cases a <;> rfl
@[simp] theorem State.setPort_evq (s : State) (a : Agent) (p : Port) :
    (s.setPort a p).evq = s.evq := by cases a <;> rfl
@[simp] theorem State.setPort_notif (s : State) (a : Agent) (p : Port) :
    (s.setPort a p).notif = s.notif := by cases a <;> rfl
@[simp] theorem State.setPort_mem (s : State) (a : Agent) (p : Port) :
    (s.setPort a p).mem = s.mem := by cases a <;> rfl
@[simp] theorem State.setPort_held (s : State) (a : Agent) (p : Port) :
    (s.setPort a p).held = s.held := by cases a <;> rfl
@[simp] theorem State.setPort_acts (s : State) (a : Agent) (p : Port) :
    (s.setPort a p).acts = s.acts := by cases a <;> rfl
@[simp] theorem State.setPort_freeCount (s : State) (a : Agent) (p : Port) :
    (s.setPort a p).freeCount = s.freeCount := by cases a <;> rfl

/-! ### `State.setRes0` -/

@[simp] theorem State.setRes0_regions (s : State) (a : Agent) (v : Word) :
    (s.setRes0 a v).regions = s.regions := by cases a <;> rfl
@[simp] theorem State.setRes0_dataBitsLegal (s : State) (a : Agent) (v : Word) :
    (s.setRes0 a v).dataBitsLegal = s.dataBitsLegal := by cases a <;> rfl
@[simp] theorem State.setRes0_csr (s : State) (a : Agent) (v : Word) :
    (s.setRes0 a v).csr = s.csr := by cases a <;> rfl
@[simp] theorem State.setRes0_faults (s : State) (a : Agent) (v : Word) :
    (s.setRes0 a v).faults = s.faults := by cases a <;> rfl
@[simp] theorem State.setRes0_refusals (s : State) (a : Agent) (v : Word) :
    (s.setRes0 a v).refusals = s.refusals := by cases a <;> rfl
@[simp] theorem State.setRes0_rings (s : State) (a : Agent) (v : Word) :
    (s.setRes0 a v).rings = s.rings := by cases a <;> rfl
@[simp] theorem State.setRes0_uarts (s : State) (a : Agent) (v : Word) :
    (s.setRes0 a v).uarts = s.uarts := by cases a <;> rfl
@[simp] theorem State.setRes0_engines (s : State) (a : Agent) (v : Word) :
    (s.setRes0 a v).engines = s.engines := by cases a <;> rfl
@[simp] theorem State.setRes0_clkFreq (s : State) (a : Agent) (v : Word) :
    (s.setRes0 a v).clkFreq = s.clkFreq := by cases a <;> rfl
@[simp] theorem State.setRes0_irqMask (s : State) (a : Agent) (v : Word) :
    (s.setRes0 a v).irqMask = s.irqMask := by cases a <;> rfl
@[simp] theorem State.setRes0_evq (s : State) (a : Agent) (v : Word) :
    (s.setRes0 a v).evq = s.evq := by cases a <;> rfl
@[simp] theorem State.setRes0_notif (s : State) (a : Agent) (v : Word) :
    (s.setRes0 a v).notif = s.notif := by cases a <;> rfl
@[simp] theorem State.setRes0_mem (s : State) (a : Agent) (v : Word) :
    (s.setRes0 a v).mem = s.mem := by cases a <;> rfl
@[simp] theorem State.setRes0_held (s : State) (a : Agent) (v : Word) :
    (s.setRes0 a v).held = s.held := by cases a <;> rfl
@[simp] theorem State.setRes0_acts (s : State) (a : Agent) (v : Word) :
    (s.setRes0 a v).acts = s.acts := by cases a <;> rfl
@[simp] theorem State.setRes0_freeCount (s : State) (a : Agent) (v : Word) :
    (s.setRes0 a v).freeCount = s.freeCount := by cases a <;> rfl

/-! ### `State.setRes1` -/

@[simp] theorem State.setRes1_regions (s : State) (a : Agent) (v : Word) :
    (s.setRes1 a v).regions = s.regions := by cases a <;> rfl
@[simp] theorem State.setRes1_dataBitsLegal (s : State) (a : Agent) (v : Word) :
    (s.setRes1 a v).dataBitsLegal = s.dataBitsLegal := by cases a <;> rfl
@[simp] theorem State.setRes1_csr (s : State) (a : Agent) (v : Word) :
    (s.setRes1 a v).csr = s.csr := by cases a <;> rfl
@[simp] theorem State.setRes1_faults (s : State) (a : Agent) (v : Word) :
    (s.setRes1 a v).faults = s.faults := by cases a <;> rfl
@[simp] theorem State.setRes1_refusals (s : State) (a : Agent) (v : Word) :
    (s.setRes1 a v).refusals = s.refusals := by cases a <;> rfl
@[simp] theorem State.setRes1_rings (s : State) (a : Agent) (v : Word) :
    (s.setRes1 a v).rings = s.rings := by cases a <;> rfl
@[simp] theorem State.setRes1_uarts (s : State) (a : Agent) (v : Word) :
    (s.setRes1 a v).uarts = s.uarts := by cases a <;> rfl
@[simp] theorem State.setRes1_engines (s : State) (a : Agent) (v : Word) :
    (s.setRes1 a v).engines = s.engines := by cases a <;> rfl
@[simp] theorem State.setRes1_clkFreq (s : State) (a : Agent) (v : Word) :
    (s.setRes1 a v).clkFreq = s.clkFreq := by cases a <;> rfl
@[simp] theorem State.setRes1_irqMask (s : State) (a : Agent) (v : Word) :
    (s.setRes1 a v).irqMask = s.irqMask := by cases a <;> rfl
@[simp] theorem State.setRes1_evq (s : State) (a : Agent) (v : Word) :
    (s.setRes1 a v).evq = s.evq := by cases a <;> rfl
@[simp] theorem State.setRes1_notif (s : State) (a : Agent) (v : Word) :
    (s.setRes1 a v).notif = s.notif := by cases a <;> rfl
@[simp] theorem State.setRes1_mem (s : State) (a : Agent) (v : Word) :
    (s.setRes1 a v).mem = s.mem := by cases a <;> rfl
@[simp] theorem State.setRes1_held (s : State) (a : Agent) (v : Word) :
    (s.setRes1 a v).held = s.held := by cases a <;> rfl
@[simp] theorem State.setRes1_acts (s : State) (a : Agent) (v : Word) :
    (s.setRes1 a v).acts = s.acts := by cases a <;> rfl
@[simp] theorem State.setRes1_freeCount (s : State) (a : Agent) (v : Word) :
    (s.setRes1 a v).freeCount = s.freeCount := by cases a <;> rfl

/-! ### `State.loadArgs` -/

@[simp] theorem State.loadArgs_regions (s : State) (a : Agent) (v w x : Word) :
    (s.loadArgs a v w x).regions = s.regions := by cases a <;> rfl
@[simp] theorem State.loadArgs_dataBitsLegal (s : State) (a : Agent) (v w x : Word) :
    (s.loadArgs a v w x).dataBitsLegal = s.dataBitsLegal := by cases a <;> rfl
@[simp] theorem State.loadArgs_csr (s : State) (a : Agent) (v w x : Word) :
    (s.loadArgs a v w x).csr = s.csr := by cases a <;> rfl
@[simp] theorem State.loadArgs_faults (s : State) (a : Agent) (v w x : Word) :
    (s.loadArgs a v w x).faults = s.faults := by cases a <;> rfl
@[simp] theorem State.loadArgs_refusals (s : State) (a : Agent) (v w x : Word) :
    (s.loadArgs a v w x).refusals = s.refusals := by cases a <;> rfl
@[simp] theorem State.loadArgs_rings (s : State) (a : Agent) (v w x : Word) :
    (s.loadArgs a v w x).rings = s.rings := by cases a <;> rfl
@[simp] theorem State.loadArgs_uarts (s : State) (a : Agent) (v w x : Word) :
    (s.loadArgs a v w x).uarts = s.uarts := by cases a <;> rfl
@[simp] theorem State.loadArgs_engines (s : State) (a : Agent) (v w x : Word) :
    (s.loadArgs a v w x).engines = s.engines := by cases a <;> rfl
@[simp] theorem State.loadArgs_clkFreq (s : State) (a : Agent) (v w x : Word) :
    (s.loadArgs a v w x).clkFreq = s.clkFreq := by cases a <;> rfl
@[simp] theorem State.loadArgs_irqMask (s : State) (a : Agent) (v w x : Word) :
    (s.loadArgs a v w x).irqMask = s.irqMask := by cases a <;> rfl
@[simp] theorem State.loadArgs_evq (s : State) (a : Agent) (v w x : Word) :
    (s.loadArgs a v w x).evq = s.evq := by cases a <;> rfl
@[simp] theorem State.loadArgs_notif (s : State) (a : Agent) (v w x : Word) :
    (s.loadArgs a v w x).notif = s.notif := by cases a <;> rfl
@[simp] theorem State.loadArgs_mem (s : State) (a : Agent) (v w x : Word) :
    (s.loadArgs a v w x).mem = s.mem := by cases a <;> rfl
@[simp] theorem State.loadArgs_held (s : State) (a : Agent) (v w x : Word) :
    (s.loadArgs a v w x).held = s.held := by cases a <;> rfl
@[simp] theorem State.loadArgs_acts (s : State) (a : Agent) (v w x : Word) :
    (s.loadArgs a v w x).acts = s.acts := by cases a <;> rfl
@[simp] theorem State.loadArgs_freeCount (s : State) (a : Agent) (v w x : Word) :
    (s.loadArgs a v w x).freeCount = s.freeCount := by cases a <;> rfl

/-! ### `State.hold` -/

@[simp] theorem State.hold_regions (s : State) (h : Held) :
    (s.hold h).regions = s.regions := rfl
@[simp] theorem State.hold_dataBitsLegal (s : State) (h : Held) :
    (s.hold h).dataBitsLegal = s.dataBitsLegal := rfl
@[simp] theorem State.hold_portFg (s : State) (h : Held) :
    (s.hold h).portFg = s.portFg := rfl
@[simp] theorem State.hold_portPirq (s : State) (h : Held) :
    (s.hold h).portPirq = s.portPirq := rfl
@[simp] theorem State.hold_portDirq (s : State) (h : Held) :
    (s.hold h).portDirq = s.portDirq := rfl
@[simp] theorem State.hold_portEnv (s : State) (h : Held) :
    (s.hold h).portEnv = s.portEnv := rfl
@[simp] theorem State.hold_faults (s : State) (h : Held) :
    (s.hold h).faults = s.faults := rfl
@[simp] theorem State.hold_refusals (s : State) (h : Held) :
    (s.hold h).refusals = s.refusals := rfl
@[simp] theorem State.hold_rings (s : State) (h : Held) :
    (s.hold h).rings = s.rings := rfl
@[simp] theorem State.hold_uarts (s : State) (h : Held) :
    (s.hold h).uarts = s.uarts := rfl
@[simp] theorem State.hold_engines (s : State) (h : Held) :
    (s.hold h).engines = s.engines := rfl
@[simp] theorem State.hold_clkFreq (s : State) (h : Held) :
    (s.hold h).clkFreq = s.clkFreq := rfl
@[simp] theorem State.hold_irqMask (s : State) (h : Held) :
    (s.hold h).irqMask = s.irqMask := rfl
@[simp] theorem State.hold_evq (s : State) (h : Held) :
    (s.hold h).evq = s.evq := rfl
@[simp] theorem State.hold_notif (s : State) (h : Held) :
    (s.hold h).notif = s.notif := rfl
@[simp] theorem State.hold_mem (s : State) (h : Held) :
    (s.hold h).mem = s.mem := rfl
@[simp] theorem State.hold_acts (s : State) (h : Held) :
    (s.hold h).acts = s.acts := rfl
@[simp] theorem State.hold_freeCount (s : State) (h : Held) :
    (s.hold h).freeCount = s.freeCount := rfl
@[simp] theorem State.hold_port (s : State) (h : Held) (ag : Agent) :
    (s.hold h).port ag = s.port ag := by cases ag <;> rfl

/-! ### `State.release` -/

@[simp] theorem State.release_regions (s : State) :
    (s.release).regions = s.regions := rfl
@[simp] theorem State.release_dataBitsLegal (s : State) :
    (s.release).dataBitsLegal = s.dataBitsLegal := rfl
@[simp] theorem State.release_portFg (s : State) :
    (s.release).portFg = s.portFg := rfl
@[simp] theorem State.release_portPirq (s : State) :
    (s.release).portPirq = s.portPirq := rfl
@[simp] theorem State.release_portDirq (s : State) :
    (s.release).portDirq = s.portDirq := rfl
@[simp] theorem State.release_portEnv (s : State) :
    (s.release).portEnv = s.portEnv := rfl
@[simp] theorem State.release_faults (s : State) :
    (s.release).faults = s.faults := rfl
@[simp] theorem State.release_refusals (s : State) :
    (s.release).refusals = s.refusals := rfl
@[simp] theorem State.release_rings (s : State) :
    (s.release).rings = s.rings := rfl
@[simp] theorem State.release_uarts (s : State) :
    (s.release).uarts = s.uarts := rfl
@[simp] theorem State.release_engines (s : State) :
    (s.release).engines = s.engines := rfl
@[simp] theorem State.release_clkFreq (s : State) :
    (s.release).clkFreq = s.clkFreq := rfl
@[simp] theorem State.release_irqMask (s : State) :
    (s.release).irqMask = s.irqMask := rfl
@[simp] theorem State.release_evq (s : State) :
    (s.release).evq = s.evq := rfl
@[simp] theorem State.release_notif (s : State) :
    (s.release).notif = s.notif := rfl
@[simp] theorem State.release_mem (s : State) :
    (s.release).mem = s.mem := rfl
@[simp] theorem State.release_acts (s : State) :
    (s.release).acts = s.acts := rfl
@[simp] theorem State.release_freeCount (s : State) :
    (s.release).freeCount = s.freeCount := rfl
@[simp] theorem State.release_port (s : State) (ag : Agent) :
    (s.release).port ag = s.port ag := by cases ag <;> rfl

/-! ### `State.setRing` -/

@[simp] theorem State.setRing_regions (s : State) (r : Nat) (b : FreeRing) :
    (s.setRing r b).regions = s.regions := rfl
@[simp] theorem State.setRing_dataBitsLegal (s : State) (r : Nat) (b : FreeRing) :
    (s.setRing r b).dataBitsLegal = s.dataBitsLegal := rfl
@[simp] theorem State.setRing_portFg (s : State) (r : Nat) (b : FreeRing) :
    (s.setRing r b).portFg = s.portFg := rfl
@[simp] theorem State.setRing_portPirq (s : State) (r : Nat) (b : FreeRing) :
    (s.setRing r b).portPirq = s.portPirq := rfl
@[simp] theorem State.setRing_portDirq (s : State) (r : Nat) (b : FreeRing) :
    (s.setRing r b).portDirq = s.portDirq := rfl
@[simp] theorem State.setRing_portEnv (s : State) (r : Nat) (b : FreeRing) :
    (s.setRing r b).portEnv = s.portEnv := rfl
@[simp] theorem State.setRing_csr (s : State) (r : Nat) (b : FreeRing) :
    (s.setRing r b).csr = s.csr := rfl
@[simp] theorem State.setRing_faults (s : State) (r : Nat) (b : FreeRing) :
    (s.setRing r b).faults = s.faults := rfl
@[simp] theorem State.setRing_refusals (s : State) (r : Nat) (b : FreeRing) :
    (s.setRing r b).refusals = s.refusals := rfl
@[simp] theorem State.setRing_uarts (s : State) (r : Nat) (b : FreeRing) :
    (s.setRing r b).uarts = s.uarts := rfl
@[simp] theorem State.setRing_engines (s : State) (r : Nat) (b : FreeRing) :
    (s.setRing r b).engines = s.engines := rfl
@[simp] theorem State.setRing_clkFreq (s : State) (r : Nat) (b : FreeRing) :
    (s.setRing r b).clkFreq = s.clkFreq := rfl
@[simp] theorem State.setRing_irqMask (s : State) (r : Nat) (b : FreeRing) :
    (s.setRing r b).irqMask = s.irqMask := rfl
@[simp] theorem State.setRing_evq (s : State) (r : Nat) (b : FreeRing) :
    (s.setRing r b).evq = s.evq := rfl
@[simp] theorem State.setRing_notif (s : State) (r : Nat) (b : FreeRing) :
    (s.setRing r b).notif = s.notif := rfl
@[simp] theorem State.setRing_mem (s : State) (r : Nat) (b : FreeRing) :
    (s.setRing r b).mem = s.mem := rfl
@[simp] theorem State.setRing_held (s : State) (r : Nat) (b : FreeRing) :
    (s.setRing r b).held = s.held := rfl
@[simp] theorem State.setRing_acts (s : State) (r : Nat) (b : FreeRing) :
    (s.setRing r b).acts = s.acts := rfl
@[simp] theorem State.setRing_freeCount (s : State) (r : Nat) (b : FreeRing) :
    (s.setRing r b).freeCount = s.freeCount := rfl
@[simp] theorem State.setRing_port (s : State) (r : Nat) (b : FreeRing) (ag : Agent) :
    (s.setRing r b).port ag = s.port ag := by cases ag <;> rfl

/-! ### `State.setUart` -/

@[simp] theorem State.setUart_regions (s : State) (u : Nat) (x : Uart) :
    (s.setUart u x).regions = s.regions := rfl
@[simp] theorem State.setUart_dataBitsLegal (s : State) (u : Nat) (x : Uart) :
    (s.setUart u x).dataBitsLegal = s.dataBitsLegal := rfl
@[simp] theorem State.setUart_portFg (s : State) (u : Nat) (x : Uart) :
    (s.setUart u x).portFg = s.portFg := rfl
@[simp] theorem State.setUart_portPirq (s : State) (u : Nat) (x : Uart) :
    (s.setUart u x).portPirq = s.portPirq := rfl
@[simp] theorem State.setUart_portDirq (s : State) (u : Nat) (x : Uart) :
    (s.setUart u x).portDirq = s.portDirq := rfl
@[simp] theorem State.setUart_portEnv (s : State) (u : Nat) (x : Uart) :
    (s.setUart u x).portEnv = s.portEnv := rfl
@[simp] theorem State.setUart_csr (s : State) (u : Nat) (x : Uart) :
    (s.setUart u x).csr = s.csr := rfl
@[simp] theorem State.setUart_faults (s : State) (u : Nat) (x : Uart) :
    (s.setUart u x).faults = s.faults := rfl
@[simp] theorem State.setUart_refusals (s : State) (u : Nat) (x : Uart) :
    (s.setUart u x).refusals = s.refusals := rfl
@[simp] theorem State.setUart_rings (s : State) (u : Nat) (x : Uart) :
    (s.setUart u x).rings = s.rings := rfl
@[simp] theorem State.setUart_engines (s : State) (u : Nat) (x : Uart) :
    (s.setUart u x).engines = s.engines := rfl
@[simp] theorem State.setUart_clkFreq (s : State) (u : Nat) (x : Uart) :
    (s.setUart u x).clkFreq = s.clkFreq := rfl
@[simp] theorem State.setUart_irqMask (s : State) (u : Nat) (x : Uart) :
    (s.setUart u x).irqMask = s.irqMask := rfl
@[simp] theorem State.setUart_evq (s : State) (u : Nat) (x : Uart) :
    (s.setUart u x).evq = s.evq := rfl
@[simp] theorem State.setUart_notif (s : State) (u : Nat) (x : Uart) :
    (s.setUart u x).notif = s.notif := rfl
@[simp] theorem State.setUart_mem (s : State) (u : Nat) (x : Uart) :
    (s.setUart u x).mem = s.mem := rfl
@[simp] theorem State.setUart_held (s : State) (u : Nat) (x : Uart) :
    (s.setUart u x).held = s.held := rfl
@[simp] theorem State.setUart_acts (s : State) (u : Nat) (x : Uart) :
    (s.setUart u x).acts = s.acts := rfl
@[simp] theorem State.setUart_freeCount (s : State) (u : Nat) (x : Uart) :
    (s.setUart u x).freeCount = s.freeCount := rfl
@[simp] theorem State.setUart_port (s : State) (u : Nat) (x : Uart) (ag : Agent) :
    (s.setUart u x).port ag = s.port ag := by cases ag <;> rfl

/-! ### `State.setEngine` -/

@[simp] theorem State.setEngine_regions (s : State) (n : Nat) (e : Engine) :
    (s.setEngine n e).regions = s.regions := rfl
@[simp] theorem State.setEngine_dataBitsLegal (s : State) (n : Nat) (e : Engine) :
    (s.setEngine n e).dataBitsLegal = s.dataBitsLegal := rfl
@[simp] theorem State.setEngine_portFg (s : State) (n : Nat) (e : Engine) :
    (s.setEngine n e).portFg = s.portFg := rfl
@[simp] theorem State.setEngine_portPirq (s : State) (n : Nat) (e : Engine) :
    (s.setEngine n e).portPirq = s.portPirq := rfl
@[simp] theorem State.setEngine_portDirq (s : State) (n : Nat) (e : Engine) :
    (s.setEngine n e).portDirq = s.portDirq := rfl
@[simp] theorem State.setEngine_portEnv (s : State) (n : Nat) (e : Engine) :
    (s.setEngine n e).portEnv = s.portEnv := rfl
@[simp] theorem State.setEngine_csr (s : State) (n : Nat) (e : Engine) :
    (s.setEngine n e).csr = s.csr := rfl
@[simp] theorem State.setEngine_faults (s : State) (n : Nat) (e : Engine) :
    (s.setEngine n e).faults = s.faults := rfl
@[simp] theorem State.setEngine_refusals (s : State) (n : Nat) (e : Engine) :
    (s.setEngine n e).refusals = s.refusals := rfl
@[simp] theorem State.setEngine_rings (s : State) (n : Nat) (e : Engine) :
    (s.setEngine n e).rings = s.rings := rfl
@[simp] theorem State.setEngine_uarts (s : State) (n : Nat) (e : Engine) :
    (s.setEngine n e).uarts = s.uarts := rfl
@[simp] theorem State.setEngine_clkFreq (s : State) (n : Nat) (e : Engine) :
    (s.setEngine n e).clkFreq = s.clkFreq := rfl
@[simp] theorem State.setEngine_irqMask (s : State) (n : Nat) (e : Engine) :
    (s.setEngine n e).irqMask = s.irqMask := rfl
@[simp] theorem State.setEngine_evq (s : State) (n : Nat) (e : Engine) :
    (s.setEngine n e).evq = s.evq := rfl
@[simp] theorem State.setEngine_notif (s : State) (n : Nat) (e : Engine) :
    (s.setEngine n e).notif = s.notif := rfl
@[simp] theorem State.setEngine_mem (s : State) (n : Nat) (e : Engine) :
    (s.setEngine n e).mem = s.mem := rfl
@[simp] theorem State.setEngine_held (s : State) (n : Nat) (e : Engine) :
    (s.setEngine n e).held = s.held := rfl
@[simp] theorem State.setEngine_acts (s : State) (n : Nat) (e : Engine) :
    (s.setEngine n e).acts = s.acts := rfl
@[simp] theorem State.setEngine_freeCount (s : State) (n : Nat) (e : Engine) :
    (s.setEngine n e).freeCount = s.freeCount := rfl
@[simp] theorem State.setEngine_port (s : State) (n : Nat) (e : Engine) (ag : Agent) :
    (s.setEngine n e).port ag = s.port ag := by cases ag <;> rfl

/-! ### `State.setMem` -/

@[simp] theorem State.setMem_regions (s : State) (m : Memory) :
    (s.setMem m).regions = s.regions := rfl
@[simp] theorem State.setMem_dataBitsLegal (s : State) (m : Memory) :
    (s.setMem m).dataBitsLegal = s.dataBitsLegal := rfl
@[simp] theorem State.setMem_portFg (s : State) (m : Memory) :
    (s.setMem m).portFg = s.portFg := rfl
@[simp] theorem State.setMem_portPirq (s : State) (m : Memory) :
    (s.setMem m).portPirq = s.portPirq := rfl
@[simp] theorem State.setMem_portDirq (s : State) (m : Memory) :
    (s.setMem m).portDirq = s.portDirq := rfl
@[simp] theorem State.setMem_portEnv (s : State) (m : Memory) :
    (s.setMem m).portEnv = s.portEnv := rfl
@[simp] theorem State.setMem_csr (s : State) (m : Memory) :
    (s.setMem m).csr = s.csr := rfl
@[simp] theorem State.setMem_faults (s : State) (m : Memory) :
    (s.setMem m).faults = s.faults := rfl
@[simp] theorem State.setMem_refusals (s : State) (m : Memory) :
    (s.setMem m).refusals = s.refusals := rfl
@[simp] theorem State.setMem_rings (s : State) (m : Memory) :
    (s.setMem m).rings = s.rings := rfl
@[simp] theorem State.setMem_uarts (s : State) (m : Memory) :
    (s.setMem m).uarts = s.uarts := rfl
@[simp] theorem State.setMem_engines (s : State) (m : Memory) :
    (s.setMem m).engines = s.engines := rfl
@[simp] theorem State.setMem_clkFreq (s : State) (m : Memory) :
    (s.setMem m).clkFreq = s.clkFreq := rfl
@[simp] theorem State.setMem_irqMask (s : State) (m : Memory) :
    (s.setMem m).irqMask = s.irqMask := rfl
@[simp] theorem State.setMem_evq (s : State) (m : Memory) :
    (s.setMem m).evq = s.evq := rfl
@[simp] theorem State.setMem_notif (s : State) (m : Memory) :
    (s.setMem m).notif = s.notif := rfl
@[simp] theorem State.setMem_held (s : State) (m : Memory) :
    (s.setMem m).held = s.held := rfl
@[simp] theorem State.setMem_acts (s : State) (m : Memory) :
    (s.setMem m).acts = s.acts := rfl
@[simp] theorem State.setMem_freeCount (s : State) (m : Memory) :
    (s.setMem m).freeCount = s.freeCount := rfl
@[simp] theorem State.setMem_port (s : State) (m : Memory) (ag : Agent) :
    (s.setMem m).port ag = s.port ag := by cases ag <;> rfl

/-! ### `State.countFree` -/

@[simp] theorem State.countFree_regions (s : State) (ch : DmaChan) :
    (s.countFree ch).regions = s.regions := by unfold State.countFree; split <;> rfl
@[simp] theorem State.countFree_dataBitsLegal (s : State) (ch : DmaChan) :
    (s.countFree ch).dataBitsLegal = s.dataBitsLegal := by unfold State.countFree; split <;> rfl
@[simp] theorem State.countFree_portFg (s : State) (ch : DmaChan) :
    (s.countFree ch).portFg = s.portFg := by unfold State.countFree; split <;> rfl
@[simp] theorem State.countFree_portPirq (s : State) (ch : DmaChan) :
    (s.countFree ch).portPirq = s.portPirq := by unfold State.countFree; split <;> rfl
@[simp] theorem State.countFree_portDirq (s : State) (ch : DmaChan) :
    (s.countFree ch).portDirq = s.portDirq := by unfold State.countFree; split <;> rfl
@[simp] theorem State.countFree_portEnv (s : State) (ch : DmaChan) :
    (s.countFree ch).portEnv = s.portEnv := by unfold State.countFree; split <;> rfl
@[simp] theorem State.countFree_csr (s : State) (ch : DmaChan) :
    (s.countFree ch).csr = s.csr := by unfold State.countFree; split <;> rfl
@[simp] theorem State.countFree_faults (s : State) (ch : DmaChan) :
    (s.countFree ch).faults = s.faults := by unfold State.countFree; split <;> rfl
@[simp] theorem State.countFree_refusals (s : State) (ch : DmaChan) :
    (s.countFree ch).refusals = s.refusals := by unfold State.countFree; split <;> rfl
@[simp] theorem State.countFree_rings (s : State) (ch : DmaChan) :
    (s.countFree ch).rings = s.rings := by unfold State.countFree; split <;> rfl
@[simp] theorem State.countFree_uarts (s : State) (ch : DmaChan) :
    (s.countFree ch).uarts = s.uarts := by unfold State.countFree; split <;> rfl
@[simp] theorem State.countFree_engines (s : State) (ch : DmaChan) :
    (s.countFree ch).engines = s.engines := by unfold State.countFree; split <;> rfl
@[simp] theorem State.countFree_clkFreq (s : State) (ch : DmaChan) :
    (s.countFree ch).clkFreq = s.clkFreq := by unfold State.countFree; split <;> rfl
@[simp] theorem State.countFree_irqMask (s : State) (ch : DmaChan) :
    (s.countFree ch).irqMask = s.irqMask := by unfold State.countFree; split <;> rfl
@[simp] theorem State.countFree_evq (s : State) (ch : DmaChan) :
    (s.countFree ch).evq = s.evq := by unfold State.countFree; split <;> rfl
@[simp] theorem State.countFree_notif (s : State) (ch : DmaChan) :
    (s.countFree ch).notif = s.notif := by unfold State.countFree; split <;> rfl
@[simp] theorem State.countFree_mem (s : State) (ch : DmaChan) :
    (s.countFree ch).mem = s.mem := by unfold State.countFree; split <;> rfl
@[simp] theorem State.countFree_held (s : State) (ch : DmaChan) :
    (s.countFree ch).held = s.held := by unfold State.countFree; split <;> rfl
@[simp] theorem State.countFree_acts (s : State) (ch : DmaChan) :
    (s.countFree ch).acts = s.acts := by unfold State.countFree; split <;> rfl
@[simp] theorem State.countFree_port (s : State) (ch : DmaChan) (ag : Agent) :
    (s.countFree ch).port ag = s.port ag := by cases ag <;> simp [State.port]

/-! ### `post` -/

@[simp] theorem post_regions (h : Word) (k : Kind) (s : State) :
    (post h k s).regions = s.regions := rfl
@[simp] theorem post_dataBitsLegal (h : Word) (k : Kind) (s : State) :
    (post h k s).dataBitsLegal = s.dataBitsLegal := rfl
@[simp] theorem post_portFg (h : Word) (k : Kind) (s : State) :
    (post h k s).portFg = s.portFg := rfl
@[simp] theorem post_portPirq (h : Word) (k : Kind) (s : State) :
    (post h k s).portPirq = s.portPirq := rfl
@[simp] theorem post_portDirq (h : Word) (k : Kind) (s : State) :
    (post h k s).portDirq = s.portDirq := rfl
@[simp] theorem post_portEnv (h : Word) (k : Kind) (s : State) :
    (post h k s).portEnv = s.portEnv := rfl
@[simp] theorem post_csr (h : Word) (k : Kind) (s : State) :
    (post h k s).csr = s.csr := rfl
@[simp] theorem post_faults (h : Word) (k : Kind) (s : State) :
    (post h k s).faults = s.faults := rfl
@[simp] theorem post_refusals (h : Word) (k : Kind) (s : State) :
    (post h k s).refusals = s.refusals := rfl
@[simp] theorem post_rings (h : Word) (k : Kind) (s : State) :
    (post h k s).rings = s.rings := rfl
@[simp] theorem post_uarts (h : Word) (k : Kind) (s : State) :
    (post h k s).uarts = s.uarts := rfl
@[simp] theorem post_engines (h : Word) (k : Kind) (s : State) :
    (post h k s).engines = s.engines := rfl
@[simp] theorem post_clkFreq (h : Word) (k : Kind) (s : State) :
    (post h k s).clkFreq = s.clkFreq := rfl
@[simp] theorem post_notif (h : Word) (k : Kind) (s : State) :
    (post h k s).notif = s.notif := rfl
@[simp] theorem post_mem (h : Word) (k : Kind) (s : State) :
    (post h k s).mem = s.mem := rfl
@[simp] theorem post_held (h : Word) (k : Kind) (s : State) :
    (post h k s).held = s.held := rfl
@[simp] theorem post_acts (h : Word) (k : Kind) (s : State) :
    (post h k s).acts = s.acts := rfl
@[simp] theorem post_freeCount (h : Word) (k : Kind) (s : State) :
    (post h k s).freeCount = s.freeCount := rfl
@[simp] theorem post_port (h : Word) (k : Kind) (s : State) (ag : Agent) :
    (post h k s).port ag = s.port ag := by cases ag <;> rfl

/-! ### `raiseFault` -/

@[simp] theorem raiseFault_regions (f : FaultCode) (s : State) :
    (raiseFault f s).regions = s.regions := rfl
@[simp] theorem raiseFault_dataBitsLegal (f : FaultCode) (s : State) :
    (raiseFault f s).dataBitsLegal = s.dataBitsLegal := rfl
@[simp] theorem raiseFault_portFg (f : FaultCode) (s : State) :
    (raiseFault f s).portFg = s.portFg := rfl
@[simp] theorem raiseFault_portPirq (f : FaultCode) (s : State) :
    (raiseFault f s).portPirq = s.portPirq := rfl
@[simp] theorem raiseFault_portDirq (f : FaultCode) (s : State) :
    (raiseFault f s).portDirq = s.portDirq := rfl
@[simp] theorem raiseFault_portEnv (f : FaultCode) (s : State) :
    (raiseFault f s).portEnv = s.portEnv := rfl
@[simp] theorem raiseFault_refusals (f : FaultCode) (s : State) :
    (raiseFault f s).refusals = s.refusals := rfl
@[simp] theorem raiseFault_rings (f : FaultCode) (s : State) :
    (raiseFault f s).rings = s.rings := rfl
@[simp] theorem raiseFault_uarts (f : FaultCode) (s : State) :
    (raiseFault f s).uarts = s.uarts := rfl
@[simp] theorem raiseFault_engines (f : FaultCode) (s : State) :
    (raiseFault f s).engines = s.engines := rfl
@[simp] theorem raiseFault_clkFreq (f : FaultCode) (s : State) :
    (raiseFault f s).clkFreq = s.clkFreq := rfl
@[simp] theorem raiseFault_irqMask (f : FaultCode) (s : State) :
    (raiseFault f s).irqMask = s.irqMask := rfl
@[simp] theorem raiseFault_evq (f : FaultCode) (s : State) :
    (raiseFault f s).evq = s.evq := rfl
@[simp] theorem raiseFault_notif (f : FaultCode) (s : State) :
    (raiseFault f s).notif = s.notif := rfl
@[simp] theorem raiseFault_mem (f : FaultCode) (s : State) :
    (raiseFault f s).mem = s.mem := rfl
@[simp] theorem raiseFault_held (f : FaultCode) (s : State) :
    (raiseFault f s).held = s.held := rfl
@[simp] theorem raiseFault_acts (f : FaultCode) (s : State) :
    (raiseFault f s).acts = s.acts := rfl
@[simp] theorem raiseFault_freeCount (f : FaultCode) (s : State) :
    (raiseFault f s).freeCount = s.freeCount := rfl
@[simp] theorem raiseFault_port (f : FaultCode) (s : State) (ag : Agent) :
    (raiseFault f s).port ag = s.port ag := by cases ag <;> rfl

/-! ### `markRefused` -/

@[simp] theorem markRefused_regions (c : RefuseCode) (s : State) :
    (markRefused c s).regions = s.regions := rfl
@[simp] theorem markRefused_dataBitsLegal (c : RefuseCode) (s : State) :
    (markRefused c s).dataBitsLegal = s.dataBitsLegal := rfl
@[simp] theorem markRefused_portFg (c : RefuseCode) (s : State) :
    (markRefused c s).portFg = s.portFg := rfl
@[simp] theorem markRefused_portPirq (c : RefuseCode) (s : State) :
    (markRefused c s).portPirq = s.portPirq := rfl
@[simp] theorem markRefused_portDirq (c : RefuseCode) (s : State) :
    (markRefused c s).portDirq = s.portDirq := rfl
@[simp] theorem markRefused_portEnv (c : RefuseCode) (s : State) :
    (markRefused c s).portEnv = s.portEnv := rfl
@[simp] theorem markRefused_faults (c : RefuseCode) (s : State) :
    (markRefused c s).faults = s.faults := rfl
@[simp] theorem markRefused_rings (c : RefuseCode) (s : State) :
    (markRefused c s).rings = s.rings := rfl
@[simp] theorem markRefused_uarts (c : RefuseCode) (s : State) :
    (markRefused c s).uarts = s.uarts := rfl
@[simp] theorem markRefused_engines (c : RefuseCode) (s : State) :
    (markRefused c s).engines = s.engines := rfl
@[simp] theorem markRefused_clkFreq (c : RefuseCode) (s : State) :
    (markRefused c s).clkFreq = s.clkFreq := rfl
@[simp] theorem markRefused_irqMask (c : RefuseCode) (s : State) :
    (markRefused c s).irqMask = s.irqMask := rfl
@[simp] theorem markRefused_evq (c : RefuseCode) (s : State) :
    (markRefused c s).evq = s.evq := rfl
@[simp] theorem markRefused_notif (c : RefuseCode) (s : State) :
    (markRefused c s).notif = s.notif := rfl
@[simp] theorem markRefused_mem (c : RefuseCode) (s : State) :
    (markRefused c s).mem = s.mem := rfl
@[simp] theorem markRefused_held (c : RefuseCode) (s : State) :
    (markRefused c s).held = s.held := rfl
@[simp] theorem markRefused_acts (c : RefuseCode) (s : State) :
    (markRefused c s).acts = s.acts := rfl
@[simp] theorem markRefused_freeCount (c : RefuseCode) (s : State) :
    (markRefused c s).freeCount = s.freeCount := rfl
@[simp] theorem markRefused_port (c : RefuseCode) (s : State) (ag : Agent) :
    (markRefused c s).port ag = s.port ag := by cases ag <;> rfl

/-! ### What the updates write -/

@[simp] theorem State.setPort_port_self (s : State) (a : Agent) (p : Port) :
    (s.setPort a p).port a = p := by cases a <;> rfl
theorem State.setPort_port_other (s : State) (a c : Agent) (p : Port) (h : c ≠ a) :
    (s.setPort a p).port c = s.port c := by cases a <;> cases c <;> first | rfl | exact absurd rfl h
@[simp] theorem State.setRes0_port_self (s : State) (a : Agent) (v : Word) :
    (s.setRes0 a v).port a = { s.port a with res0 := some v } := by cases a <;> rfl
@[simp] theorem State.setRes1_port_self (s : State) (a : Agent) (v : Word) :
    (s.setRes1 a v).port a = { s.port a with res1 := some v } := by cases a <;> rfl
@[simp] theorem State.loadArgs_port_self (s : State) (a : Agent) (v w x : Word) :
    (s.loadArgs a v w x).port a = { s.port a with arg0 := v, arg1 := w, arg2 := x } := by
  cases a <;> rfl
theorem State.setRes0_port_other (s : State) (a c : Agent) (v : Word) (h : c ≠ a) :
    (s.setRes0 a v).port c = s.port c := State.setPort_port_other s a c _ h
theorem State.setRes1_port_other (s : State) (a c : Agent) (v : Word) (h : c ≠ a) :
    (s.setRes1 a v).port c = s.port c := State.setPort_port_other s a c _ h
theorem State.loadArgs_port_other (s : State) (a c : Agent) (v w x : Word) (h : c ≠ a) :
    (s.loadArgs a v w x).port c = s.port c := State.setPort_port_other s a c _ h
@[simp] theorem State.hold_held (s : State) (h : Held) : (s.hold h).held = some h := rfl
@[simp] theorem State.hold_csr (s : State) (h : Held) : (s.hold h).csr = { s.csr with hold := true } := rfl
@[simp] theorem State.release_held (s : State) : s.release.held = none := rfl
@[simp] theorem State.release_csr (s : State) : s.release.csr = { s.csr with hold := false } := rfl
@[simp] theorem State.setRing_rings (s : State) (r : Nat) (b : FreeRing) :
    (s.setRing r b).rings = s.rings.set r b := rfl
@[simp] theorem State.setUart_uarts (s : State) (u : Nat) (x : Uart) :
    (s.setUart u x).uarts = s.uarts.set u x := rfl
@[simp] theorem State.setEngine_engines (s : State) (n : Nat) (e : Engine) :
    (s.setEngine n e).engines = s.engines.set n e := rfl
@[simp] theorem State.setMem_mem (s : State) (m : Memory) : (s.setMem m).mem = m := rfl
@[simp] theorem post_evq (h : Word) (k : Kind) (s : State) : (post h k s).evq = s.evq ++ [(h, k)] := rfl
@[simp] theorem post_irqMask (h : Word) (k : Kind) (s : State) : (post h k s).irqMask = false := rfl
@[simp] theorem raiseFault_faults (f : FaultCode) (s : State) :
    (raiseFault f s).faults = s.faults.insert f := rfl
@[simp] theorem raiseFault_csr (f : FaultCode) (s : State) :
    (raiseFault f s).csr =
      { s.csr with fault := true, code := if s.csr.fault then s.csr.code else f.code } := rfl
@[simp] theorem markRefused_refusals (c : RefuseCode) (s : State) :
    (markRefused c s).refusals = s.refusals.insert c := rfl
@[simp] theorem markRefused_csr (c : RefuseCode) (s : State) :
    (markRefused c s).csr =
      { s.csr with refused := true, code := if s.csr.fault || s.csr.refused then s.csr.code else c.code } :=
  rfl

end Sys2Proof.Machine
end

