-- ==== Sys2Proof/Laws/Construction.lean ====
section
/-! SUPPORT. Construction in the source's terms (70_reset_and_hazards R371): the calls it makes leave the
units as R44 tabulates them. -/

namespace Sys2Proof.Machine

/-- The serial receive channel: configured, then put in circular mode over the read ring's storage and
started (R371 (b)). -/
theorem rxch_constructed (ch : DmaChan) (base paddr n : Nat) :
    (ch.configure .periphToMem 1 1).map (fun c =>
        ((((c.setPeriphAddress paddr).setCircular true).setMemAddress base).setTransferCount n).start) =
      .ok (DmaChan.freeRunning base paddr n) := rfl

/-- A channel whose configuration asks for a unit wider than a byte is refused (R65, R290). -/
theorem configure_refuses (ch : DmaChan) (d : DmaDir) (w b : Nat) (h : w ≠ 1) :
    ch.configure d w b = refuse .xOperand := by simp [DmaChan.configure, h]

/-- Every interrupt line gets its callback and is enabled (R371 (c)). -/
theorem irqLine_constructed (l : IrqLine) : l.setCallback.enable = .reset l.lineIndex := rfl

/-- `prevCount = rxch.remaining = RXN` after construction (R371 (b)). -/
theorem prevCount_constructed (p : UartPar) (h : p.hasRxDma = true) :
    (Uart.reset p).bs.prevCount = p.rxN ∧ (Uart.reset p).rxch.remaining = p.rxN := by
  simp [Uart.reset, h, DmaChan.freeRunning]

end Sys2Proof.Machine
end

