-- ==== Sys2Proof/Laws/Decode.lean ====
section
/-! SUPPORT. The fields of a packed operation word (30_encoding R91), and the rows of the opcode table
they select. -/

namespace Sys2Proof

@[simp] theorem agentOfCode_agentCode (a : Agent) : agentOfCode (agentCode a) = a := by
  cases a <;> rfl

@[simp] theorem agentCode_agentOfCode (c : BitVec 2) : agentCode (agentOfCode c) = c := by
  revert c
  decide

@[simp] theorem opcField_packWord (o : BitVec 8) (i : BitVec 4) (a : BitVec 2) (m : BitVec 16) :
    opcField (packWord o i a m) = o := by
  apply BitVec.eq_of_getLsbD_eq
  intro k hk
  simp only [opcField, packWord, BitVec.getLsbD_extractLsb', BitVec.getLsbD_append, hk, decide_true, Bool.true_and]
  repeat' split
  all_goals first | omega | rfl | (congr 1; omega)

@[simp] theorem instField_packWord (o : BitVec 8) (i : BitVec 4) (a : BitVec 2) (m : BitVec 16) :
    instField (packWord o i a m) = i := by
  apply BitVec.eq_of_getLsbD_eq
  intro k hk
  simp only [instField, packWord, BitVec.getLsbD_extractLsb', BitVec.getLsbD_append, hk, decide_true, Bool.true_and]
  repeat' split
  all_goals first | omega | rfl | (congr 1; omega)

@[simp] theorem agentField_packWord (o : BitVec 8) (i : BitVec 4) (a : BitVec 2) (m : BitVec 16) :
    agentField (packWord o i a m) = a := by
  apply BitVec.eq_of_getLsbD_eq
  intro k hk
  simp only [agentField, packWord, BitVec.getLsbD_extractLsb', BitVec.getLsbD_append, hk, decide_true, Bool.true_and]
  repeat' split
  all_goals first | omega | rfl | (congr 1; omega)

@[simp] theorem reservedField_packWord (o : BitVec 8) (i : BitVec 4) (a : BitVec 2) (m : BitVec 16) :
    reservedField (packWord o i a m) = 0#2 := by
  apply BitVec.eq_of_getLsbD_eq
  intro k hk
  simp only [reservedField, packWord, BitVec.getLsbD_extractLsb', BitVec.getLsbD_append, hk, decide_true, Bool.true_and]
  repeat' split
  all_goals first | omega | rfl | (congr 1; omega)

@[simp] theorem immField_packWord (o : BitVec 8) (i : BitVec 4) (a : BitVec 2) (m : BitVec 16) :
    immField (packWord o i a m) = m := by
  apply BitVec.eq_of_getLsbD_eq
  intro k hk
  simp only [immField, packWord, BitVec.getLsbD_extractLsb', BitVec.getLsbD_append, hk, decide_true, Bool.true_and]
  repeat' split
  all_goals first | omega | rfl | (congr 1; omega)

/-- The issuer of an encoded operation is its agent (R91, R314). -/
@[simp] theorem issuerOf_encode (i : Instr) : issuerOf (encode i) = i.agentOf := by
  simp [issuerOf, encode]

end Sys2Proof
end

