-- ==== Sys2Proof/Laws/Memory.lean ====
section
/-! SUPPORT. The laws of MEM: a read after a write, the canonical form, multi-byte accesses, copies, and
the admission of spans. -/

namespace Sys2Proof.Machine

/-! ### One byte -/

@[simp] theorem Memory.read_write_self (m : Memory) (a : Nat) (v : Byte) :
    Memory.read (Memory.write m a v) a = some v := by
  induction m with
  | nil => simp [Memory.write, Memory.read]
  | cons e m ih =>
    obtain ⟨x, b⟩ := e
    simp only [Memory.write]
    split
    · simp [Memory.read]
    · split
      · simp [Memory.read]
      · next h1 h2 => simp [Memory.read, h2, ih]

theorem Memory.read_write_other (m : Memory) (a c : Nat) (v : Byte) (h : c ≠ a) :
    Memory.read (Memory.write m a v) c = Memory.read m c := by
  induction m with
  | nil => simp [Memory.write, Memory.read, h]
  | cons e m ih =>
    obtain ⟨x, b⟩ := e
    simp only [Memory.write]
    split
    · simp [Memory.read, h]
    · split
      · next h1 h2 => subst h2; simp [Memory.read, h]
      · simp [Memory.read, ih]

theorem Memory.read_write (m : Memory) (a c : Nat) (v : Byte) :
    Memory.read (Memory.write m a v) c = if c = a then some v else Memory.read m c := by
  split
  · next h => subst h; simp
  · next h => exact Memory.read_write_other m a c v h

/-! ### The canonical form -/

theorem Memory.wf_nil : Memory.wf [] = true := by decide

theorem Memory.mem_write_fst {m : Memory} {a : Nat} {v : Byte} {e : Host.Cell}
    (h : e ∈ Memory.write m a v) : e.1 = a ∨ e ∈ m := by
  induction m with
  | nil => simp [Memory.write] at h; exact .inl (by rw [h])
  | cons c m ih =>
    obtain ⟨x, b⟩ := c
    simp only [Memory.write] at h
    split at h
    · rcases List.mem_cons.1 h with rfl | h
      · exact .inl rfl
      · exact .inr h
    · split at h
      · rcases List.mem_cons.1 h with rfl | h
        · exact .inl rfl
        · exact .inr (List.mem_cons_of_mem _ h)
      · rcases List.mem_cons.1 h with rfl | h
        · exact .inr (by simp)
        · rcases ih h with h | h
          · exact .inl h
          · exact .inr (List.mem_cons_of_mem _ h)

theorem Memory.wf_iff (m : Memory) :
    Memory.wf m = true ↔ m.Pairwise (fun x y => x.1 < y.1) ∧ ∀ e ∈ m, e.1 < addressSpan := by
  simp [Memory.wf]

/-- A write below `2^AW` keeps the canonical form. -/
theorem Memory.wf_write {m : Memory} {a : Nat} (v : Byte) (hm : Memory.wf m = true)
    (ha : a < addressSpan) : Memory.wf (Memory.write m a v) = true := by
  rw [Memory.wf_iff] at hm ⊢
  obtain ⟨hp, hb⟩ := hm
  refine ⟨?_, fun e he => ?_⟩
  · clear hb
    induction m with
    | nil => simp [Memory.write]
    | cons c m ih =>
      obtain ⟨x, b⟩ := c
      rw [List.pairwise_cons] at hp
      simp only [Memory.write]
      split
      · next h =>
        rw [List.pairwise_cons]
        refine ⟨fun e he => ?_, List.pairwise_cons.2 hp⟩
        rcases List.mem_cons.1 he with rfl | he
        · exact h
        · exact lt_trans h (hp.1 e he)
      · split
        · next h1 h2 =>
          subst h2
          exact List.pairwise_cons.2 hp
        · next h1 h2 =>
          rw [List.pairwise_cons]
          refine ⟨fun e he => ?_, ih hp.2⟩
          rcases Memory.mem_write_fst he with h | he
          · show x < e.1
            omega
          · exact hp.1 e he
  · rcases Memory.mem_write_fst he with h | he
    · omega
    · exact hb e he

/-! ### Little-endian accesses -/

theorem Memory.read_writeLE_other (m : Memory) (a n v c : Nat) (h : c < a ∨ a + n ≤ c) :
    Memory.read (Memory.writeLE m a n v) c = Memory.read m c := by
  induction n generalizing m a v with
  | zero => rfl
  | succ n ih =>
    rw [Memory.writeLE, ih _ _ _ (by omega), Memory.read_write_other _ _ _ _ (by omega)]

/-- Byte `i` of a little-endian store is bits `8i+7 .. 8i` of the value (R63, R316). -/
theorem Memory.read_writeLE_self (m : Memory) (a n v i : Nat) (h : i < n) :
    Memory.read (Memory.writeLE m a n v) (a + i) = some (BitVec.ofNat 8 (v / 256 ^ i)) := by
  induction n generalizing m a v i with
  | zero => omega
  | succ n ih =>
    rw [Memory.writeLE]
    cases i with
    | zero =>
      rw [Memory.read_writeLE_other _ _ _ _ _ (by omega)]
      simp
    | succ i =>
      have := ih (Memory.write m a (BitVec.ofNat 8 v)) (a + 1) (v / 256) i (by omega)
      rw [show a + (i + 1) = a + 1 + i by omega, this, Nat.div_div_eq_div_mul, pow_succ, mul_comm]

theorem Memory.wf_writeLE {m : Memory} {a n : Nat} (v : Nat) (hm : Memory.wf m = true)
    (h : a + n ≤ addressSpan) : Memory.wf (Memory.writeLE m a n v) = true := by
  induction n generalizing m a v with
  | zero => exact hm
  | succ n ih => exact ih _ (Memory.wf_write _ hm (by omega)) (by omega)

/-- A little-endian read answers exactly when every byte holds a value. -/
theorem Memory.readLE_isSome (m : Memory) (a n : Nat) :
    (Memory.readLE m a n).isSome = true ↔ ∀ i < n, (Memory.read m (a + i)).isSome = true := by
  induction n generalizing a with
  | zero => simp [Memory.readLE]
  | succ n ih =>
    have hshift : (∀ i < n + 1, (Memory.read m (a + i)).isSome = true) ↔
        (Memory.read m a).isSome = true ∧ ∀ i < n, (Memory.read m (a + 1 + i)).isSome = true := by
      constructor
      · intro h
        refine ⟨h 0 (by omega), fun i hi => ?_⟩
        have := h (i + 1) (by omega)
        rwa [show a + (i + 1) = a + 1 + i by omega] at this
      · rintro ⟨h0, h1⟩ i hi
        cases i with
        | zero => exact h0
        | succ i =>
          rw [show a + (i + 1) = a + 1 + i by omega]
          exact h1 i (by omega)
    rw [hshift, ← ih, Memory.readLE]
    cases Memory.read m a <;> cases Memory.readLE m (a + 1) n <;> simp

/-- A little-endian value of `n` bytes is below `256^n`. -/
theorem Memory.readLE_lt {m : Memory} {a n v : Nat} (h : Memory.readLE m a n = some v) :
    v < 256 ^ n := by
  induction n generalizing a v with
  | zero => simp [Memory.readLE] at h; omega
  | succ n ih =>
    rw [Memory.readLE] at h
    split at h
    · next b w hb hw =>
      have := ih hw
      have := b.isLt
      simp only [Option.some.injEq] at h
      rw [pow_succ]
      omega
    · simp at h

/-! ### Copies -/

theorem copyBytes_succ (m : Memory) (src dst : Nat → Nat) (k : Nat) :
    copyBytes m src dst (k + 1) =
      match Memory.read (copyBytes m src dst k) (src k) with
      | some b => Memory.write (copyBytes m src dst k) (dst k) b
      | none => copyBytes m src dst k := rfl

/-- A copy changes no byte outside its destinations. -/
theorem read_copyBytes_other (m : Memory) (src dst : Nat → Nat) (k c : Nat)
    (h : ∀ i < k, dst i ≠ c) : Memory.read (copyBytes m src dst k) c = Memory.read m c := by
  induction k with
  | zero => rfl
  | succ k ih =>
    have ih := ih fun i hi => h i (by omega)
    rw [copyBytes_succ]
    split
    · rw [Memory.read_write_other _ _ _ _ (Ne.symm (h k (by omega))), ih]
    · exact ih

/-- Where destinations are distinct and apart from the sources, element `i` arrives at `dst i`. -/
theorem read_copyBytes_dst (m : Memory) (src dst : Nat → Nat) (k i : Nat) (hi : i < k)
    (hinj : ∀ p < k, ∀ q < k, dst p = dst q → p = q)
    (hapart : ∀ p < k, ∀ q < k, dst p ≠ src q)
    (hval : (Memory.read m (src i)).isSome = true) :
    Memory.read (copyBytes m src dst k) (dst i) = Memory.read m (src i) := by
  induction k with
  | zero => omega
  | succ k ih =>
    have hsrc : ∀ q < k + 1, Memory.read (copyBytes m src dst k) (src q) = Memory.read m (src q) :=
      fun q hq => read_copyBytes_other _ _ _ _ _ fun p hp => hapart p (by omega) q hq
    have hinj' : ∀ p < k, ∀ q < k, dst p = dst q → p = q :=
      fun p hp q hq => hinj p (by omega) q (by omega)
    have hapart' : ∀ p < k, ∀ q < k, dst p ≠ src q :=
      fun p hp q hq => hapart p (by omega) q (by omega)
    rw [copyBytes_succ]
    rcases Nat.lt_succ_iff_lt_or_eq.1 hi with hlt | rfl
    · have hne : dst i ≠ dst k := fun e => by
        have := hinj i (by omega) k (by omega) e
        omega
      split
      · rw [Memory.read_write_other _ _ _ _ hne]
        exact ih hlt hinj' hapart'
      · exact ih hlt hinj' hapart'
    · rw [hsrc i (by omega)]
      obtain ⟨b, hb⟩ := Option.isSome_iff_exists.1 hval
      simp [hb]

theorem wf_copyBytes {m : Memory} (src dst : Nat → Nat) (k : Nat) (hm : Memory.wf m = true)
    (hd : ∀ i < k, dst i < addressSpan) : Memory.wf (copyBytes m src dst k) = true := by
  induction k with
  | zero => exact hm
  | succ k ih =>
    have ih := ih fun i hi => hd i (by omega)
    rw [copyBytes_succ]
    split
    · exact Memory.wf_write _ ih (hd k (by omega))
    · exact ih

/-! ### Admission -/

/-- An admitted non-empty access ends below `2^AW`. -/
theorem admitted_bound {rs : List Region} {a n : Nat} (h : admitted rs a n = true) (hn : 0 < n) :
    a + n ≤ addressSpan := by
  simp only [admitted, Bool.or_eq_true, Bool.and_eq_true, decide_eq_true_eq, beq_iff_eq] at h
  omega

/-- A one-byte access is admitted exactly when its address lies in some region, below `2^AW` (R69). -/
theorem admitted_one (rs : List Region) (a : Nat) :
    admitted rs a 1 = true ↔ a < addressSpan ∧ ∃ r ∈ rs, r.lo ≤ a ∧ a < r.hi := by
  simp only [admitted, Bool.or_eq_true, Bool.and_eq_true, decide_eq_true_eq, beq_iff_eq,
    List.any_eq_true, Nat.succ_le_iff]
  constructor
  · rintro (h | ⟨h, r, hr, h1, h2⟩)
    · omega
    · exact ⟨by omega, r, hr, h1, h2⟩
  · rintro ⟨h, r, hr, h1, h2⟩
    exact .inr ⟨by omega, r, hr, h1, h2⟩

theorem coveredFrom_sound {f : Nat} {rs : List Region} {a b x : Nat}
    (h : coveredFrom f rs a b = true) (hax : a ≤ x) (hxb : x < b) :
    ∃ r ∈ rs, r.lo ≤ x ∧ x < r.hi := by
  induction f generalizing a with
  | zero => simp [coveredFrom] at h; omega
  | succ f ih =>
    rw [coveredFrom] at h
    split at h
    · omega
    · split at h
      · simp at h
      · next r hr =>
        have hm := List.mem_of_find?_eq_some hr
        have hp := List.find?_some hr
        simp only [Bool.and_eq_true, decide_eq_true_eq] at hp
        by_cases hx : x < r.hi
        · exact ⟨r, hm, by omega, hx⟩
        · exact ih h (by omega)

theorem coveredFrom_complete {f : Nat} {rs : List Region} {a b : Nat}
    (hf : (rs.filter fun r => decide (a < r.hi)).length ≤ f)
    (h : ∀ x, a ≤ x → x < b → ∃ r ∈ rs, r.lo ≤ x ∧ x < r.hi) : coveredFrom f rs a b = true := by
  induction f generalizing a with
  | zero =>
    simp only [coveredFrom, decide_eq_true_eq]
    by_contra hlt
    obtain ⟨r, hr, h1, h2⟩ := h a le_rfl (by omega)
    have : r ∈ rs.filter fun r => decide (a < r.hi) := List.mem_filter.2 ⟨hr, by simpa using h2⟩
    have := List.length_pos_of_mem this
    omega
  | succ f ih =>
    rw [coveredFrom]
    split
    · rfl
    · next hab =>
      obtain ⟨r0, hr0, h1, h2⟩ := h a le_rfl (by omega)
      split
      · next hnone =>
        have := List.find?_eq_none.1 hnone r0 hr0
        simp [h1, h2] at this
      · next r hr =>
        have hm := List.mem_of_find?_eq_some hr
        have hp := List.find?_some hr
        simp only [Bool.and_eq_true, decide_eq_true_eq] at hp
        refine ih ?_ fun x hx hxb => h x (by omega) hxb
        have hsub : (rs.filter fun q => decide (r.hi < q.hi)).length <
            (rs.filter fun q => decide (a < q.hi)).length := by
          have hss : List.Sublist (rs.filter fun q => decide (r.hi < q.hi))
              (rs.filter fun q => decide (a < q.hi)) := by
            refine List.monotone_filter_right rs fun q hq => ?_
            simp only [decide_eq_true_eq] at hq ⊢
            omega
          rcases Nat.lt_or_ge (rs.filter fun q => decide (r.hi < q.hi)).length
              (rs.filter fun q => decide (a < q.hi)).length with hlt | hge
          · exact hlt
          · have heq := hss.eq_of_length_le hge
            have hin : r ∈ rs.filter fun q => decide (r.hi < q.hi) := by
              rw [heq]
              exact List.mem_filter.2 ⟨hm, by simpa using hp.2⟩
            have := (List.mem_filter.1 hin).2
            simp at this
        omega

/-- A span is admitted exactly when it does not pass `2^AW` and every byte of it is (R69, R123). -/
theorem spanAdmitted_iff (rs : List Region) (a n : Nat) :
    spanAdmitted rs a n = true ↔
      a + n ≤ addressSpan ∧ ∀ i < n, admitted rs (a + i) 1 = true := by
  simp only [spanAdmitted, Bool.and_eq_true, decide_eq_true_eq]
  constructor
  · rintro ⟨h, hc⟩
    refine ⟨h, fun i hi => (admitted_one _ _).2 ⟨by omega, ?_⟩⟩
    exact coveredFrom_sound hc (by omega) (by omega)
  · rintro ⟨h, hc⟩
    refine ⟨h, coveredFrom_complete (List.length_filter_le _ _) fun x hax hxb => ?_⟩
    have := ((admitted_one rs (a + (x - a))).1 (hc (x - a) (by omega))).2
    rwa [show a + (x - a) = x by omega] at this

/-- A span is readable exactly when it is admitted and every byte of it holds a value (R69, R123). -/
theorem spanReadable_iff (rs : List Region) (m : Memory) (a n : Nat) :
    spanReadable rs m a n = true ↔
      a + n ≤ addressSpan ∧
        ∀ i < n, admitted rs (a + i) 1 = true ∧ (Memory.read m (a + i)).isSome = true := by
  simp only [spanReadable, Bool.and_eq_true, spanAdmitted_iff, List.all_eq_true, List.mem_range]
  constructor
  · rintro ⟨⟨h, h1⟩, h2⟩
    exact ⟨h, fun i hi => ⟨h1 i hi, h2 i hi⟩⟩
  · rintro ⟨h, h1⟩
    exact ⟨⟨h, fun i hi => (h1 i hi).1⟩, fun i hi => (h1 i hi).2⟩

end Sys2Proof.Machine
end

