-- ==== Sys2Proof/Laws/Ops.lean ====
section
/-! SUPPORT. One lemma per shared operation that says once everything it can do: when a procedure
answers, what it answers, how an operation ends. A proof about an operation cites these and unfolds
none of them. -/

namespace Sys2Proof.Machine

/-! ### Procedures -/

@[simp] theorem refuse_bind {α β : Type} (c : RefuseCode) (f : α → Proc β) :
    (refuse c >>= f) = refuse c := rfl
@[simp] theorem raise_bind {α β : Type} (g : FaultCode) (s : State) (f : α → Proc β) :
    (raise g s >>= f) = raise g s := rfl
@[simp] theorem proc_ok_bind {α β : Type} (a : α) (f : α → Proc β) :
    ((Except.ok a : Proc α) >>= f) = f a := rfl
@[simp] theorem proc_error_bind {α β : Type} (e : Stop) (f : α → Proc β) :
    ((Except.error e : Proc α) >>= f) = .error e := rfl

@[simp] theorem require_true (c : RefuseCode) : require true c = .ok () := rfl
@[simp] theorem require_false (c : RefuseCode) : require false c = refuse c := rfl

@[simp] theorem valueOf_some {α : Type} (a : α) : valueOf (some a) = .ok a := rfl
@[simp] theorem valueOf_none {α : Type} : valueOf (none : Option α) = refuse .xState := rfl
@[simp] theorem field_some {α : Type} (a : α) : field (some a) = .ok a := rfl
@[simp] theorem field_none {α : Type} : field (none : Option α) = refuse .xReserved := rfl

@[simp] theorem require_eq_ok (b : Bool) (c : RefuseCode) (a : Unit) :
    require b c = .ok a ↔ b = true := by cases b <;> simp [require, refuse]
@[simp] theorem require_eq_error (b : Bool) (c : RefuseCode) (e : Stop) :
    require b c = .error e ↔ b = false ∧ e = .refuse c := by
  cases b <;> simp [require, refuse, eq_comm]
@[simp] theorem refuse_eq_ok {α : Type} (c : RefuseCode) (a : α) :
    (refuse c = .ok a) ↔ False := by simp [refuse]
@[simp] theorem raise_eq_ok {α : Type} (g : FaultCode) (s : State) (a : α) :
    (raise g s = .ok a) ↔ False := by simp [raise]

@[simp] theorem valueOf_eq_ok {α : Type} (o : Option α) (a : α) :
    valueOf o = .ok a ↔ o = some a := by cases o <;> simp [valueOf, refuse]
@[simp] theorem field_eq_ok {α : Type} (o : Option α) (a : α) :
    field o = .ok a ↔ o = some a := by cases o <;> simp [field, refuse]

/-- A sequence answers exactly when its parts do. -/
theorem bind_eq_ok {α β : Type} (x : Proc α) (f : α → Proc β) (t : β) :
    (x >>= f) = .ok t ↔ ∃ a, x = .ok a ∧ f a = .ok t := by
  cases x <;> simp

/-- A sequence stops in its first part, or after it. -/
theorem bind_eq_error {α β : Type} (x : Proc α) (f : α → Proc β) (e : Stop) :
    (x >>= f) = .error e ↔ x = .error e ∨ ∃ a, x = .ok a ∧ f a = .error e := by
  cases x <;> simp

@[simp] theorem conclude_ok (s t : State) : conclude s (.ok t) = .next t := rfl
@[simp] theorem conclude_refuse (s : State) (c : RefuseCode) :
    conclude s (refuse c) = .next (markRefused c s) := rfl
@[simp] theorem conclude_raise (s t : State) (f : FaultCode) :
    conclude s (raise f t) = .next (raiseFault f t) := rfl

/-- How an operation can end: its next state, a fault recorded in the state it had reached, or a refusal
recorded in the state it was issued in (R340, R341). -/
theorem conclude_cases {s t : State} {p : Proc State} (h : conclude s p = .next t) :
    p = .ok t ∨ (∃ f s', p = .error (.fault f s') ∧ t = raiseFault f s') ∨
      ∃ c, p = .error (.refuse c) ∧ t = markRefused c s := by
  match p, h with
  | .ok _, h => simp [conclude] at h; simp [h]
  | .error (.fault f s'), h => simp [conclude] at h; exact .inr (.inl ⟨f, s', rfl, h.symm⟩)
  | .error (.refuse c), h => simp [conclude] at h; exact .inr (.inr ⟨c, rfl, h.symm⟩)

/-- An operation never stops the machine. -/
theorem conclude_next (s : State) (p : Proc State) : ∃ t, conclude s p = .next t := by
  match p with
  | .ok t => exact ⟨t, rfl⟩
  | .error (.fault f t) => exact ⟨_, rfl⟩
  | .error (.refuse c) => exact ⟨_, rfl⟩

/-! ### Units -/

theorem ringAt_eq_ok (s : State) (r : Nat) (b : FreeRing) : ringAt s r = .ok b ↔ s.rings[r]? = some b := by
  unfold ringAt; cases s.rings[r]? <;> simp
theorem uartAt_eq_ok (s : State) (u : Nat) (x : Uart) : uartAt s u = .ok x ↔ s.uarts[u]? = some x := by
  unfold uartAt; cases s.uarts[u]? <;> simp
theorem engineAt_eq_ok (s : State) (e : Nat) (y : Engine) :
    engineAt s e = .ok y ↔ s.engines[e]? = some y := by
  unfold engineAt; cases s.engines[e]? <;> simp
theorem frequency_eq_ok (s : State) (c f : Nat) : frequency s c = .ok f ↔ s.clkFreq[c]? = some f := by
  unfold frequency; cases s.clkFreq[c]? <;> simp

/-- A ring operation is admitted exactly for a wired context on an existing ring (R122). -/
theorem ringFor_eq_ok (s : State) (i : BitVec 4) (a : Agent) (sd : Side) (b : FreeRing) :
    ringFor s i a sd = .ok b ↔
      a ≠ .env ∧ s.rings[i.toNat]? = some b ∧ b.admits sd a = true := by
  simp only [ringFor, bind_eq_ok, ringAt_eq_ok, require_eq_ok, bne_iff_ne, exists_const,
    Except.ok.injEq]
  constructor
  · rintro ⟨h0, c, hc, h1, h2⟩
    cases h2
    exact ⟨h0, hc, h1⟩
  · rintro ⟨h0, hc, h1⟩
    exact ⟨h0, b, hc, h1, rfl⟩

/-- An operation on a serial instance is admitted exactly for its agent and an existing instance. -/
theorem uartFor_eq_ok (s : State) (i : BitVec 4) (a want : Agent) (x : Uart) :
    uartFor s i a want = .ok x ↔ a = want ∧ s.uarts[i.toNat]? = some x := by
  simp [uartFor, requireAgent, bind_eq_ok, uartAt_eq_ok]

/-- An operation on a bus engine is admitted exactly for its agent and an existing engine. -/
theorem engineFor_eq_ok (s : State) (i : BitVec 4) (a want : Agent) (e : Engine) :
    engineFor s i a want = .ok e ↔ a = want ∧ s.engines[i.toNat]? = some e := by
  simp [engineFor, requireAgent, bind_eq_ok, engineAt_eq_ok]

/-! ### MEM -/

theorem admitted_iff (s : State) (a n : Nat) (hn : 0 < n) :
    admitted s.regions a n = true ↔ InRegion s a n := by
  simp only [admitted, InRegion, Bool.or_eq_true, Bool.and_eq_true, decide_eq_true_eq, beq_iff_eq,
    List.any_eq_true]
  constructor
  · rintro (h | h)
    · omega
    · exact ⟨by have := h.1; omega, h.2⟩
  · exact fun h => .inr ⟨by have := h.1; omega, h.2⟩

theorem spanAdmitted_iff_allowed (s : State) (a n : Nat) :
    spanAdmitted s.regions a n = true ↔ SpanAllowed s a n := by
  rw [spanAdmitted_iff]
  exact ⟨fun h => ⟨by have := h.1; omega, fun i hi => (admitted_iff _ _ _ (by omega)).1 (h.2 i hi)⟩,
    fun h => ⟨by have := h.1; omega, fun i hi => (admitted_iff _ _ _ (by omega)).2 (h.2 i hi)⟩⟩

theorem spanReadable_iff_holds (s : State) (a n : Nat) :
    spanReadable s.regions s.mem a n = true ↔ SpanHolds s a n := by
  rw [spanReadable_iff]
  exact ⟨fun h => ⟨by have := h.1; omega,
      fun i hi => ⟨(admitted_iff _ _ _ (by omega)).1 (h.2 i hi).1, (h.2 i hi).2⟩⟩,
    fun h => ⟨by have := h.1; omega,
      fun i hi => ⟨(admitted_iff _ _ _ (by omega)).2 (h.2 i hi).1, (h.2 i hi).2⟩⟩⟩

/-- One byte is read exactly when it is admitted and holds a value (R69). -/
theorem readByte_eq_ok (s : State) (a : Nat) (b : Byte) :
    readByte s a = .ok b ↔ InRegion s a 1 ∧ Memory.read s.mem a = some b := by
  rw [readByte, ← admitted_iff s a 1 (by omega)]
  by_cases h : admitted s.regions a 1 = true
  · cases Memory.read s.mem a <;> simp [h]
  · simp [h]

/-- Reading one byte never faults; what stops it is `X_MEM`. -/
theorem readByte_cases (s : State) (a : Nat) :
    (∃ b, readByte s a = .ok b) ∨ readByte s a = refuse .xMem := by
  unfold readByte
  split
  · split
    · exact .inl ⟨_, rfl⟩
    · exact .inr rfl
  · exact .inr rfl

theorem readByte_refused {s : State} {a : Nat} (h : ¬ ByteReadable s a) :
    readByte s a = refuse .xMem := by
  rcases readByte_cases s a with ⟨b, hb⟩ | h'
  · have := (readByte_eq_ok _ _ _).1 hb
    exact absurd ⟨this.1, by simp [this.2]⟩ h
  · exact h'

/-- Four bytes in a row, read little-endian, are the word whose bytes they are (R63). -/
theorem Memory.readLE_four (m : Memory) (a : Nat) (w : Word)
    (h : ∀ i < 4, Memory.read m (a + i) = some (w.extractLsb' (8 * i) 8)) :
    Memory.readLE m a 4 = some w.toNat := by
  have h0 := h 0 (by omega)
  have h1 := h 1 (by omega)
  have h2 := h 2 (by omega)
  have h3 := h 3 (by omega)
  have hw := w.isLt
  simp only [Nat.add_zero, Nat.mul_zero, Nat.mul_one] at h0 h1
  simp only [Memory.readLE, h0, h1, Nat.add_assoc, Nat.reduceAdd, h2, h3]
  simp only [Option.some.injEq, BitVec.extractLsb'_toNat, Nat.shiftRight_eq_div_pow]
  omega

/-- A little-endian value of four bytes determines the bytes. -/
theorem Memory.read_of_readLE_four {m : Memory} {a v : Nat} (h : Memory.readLE m a 4 = some v) :
    ∀ i < 4, Memory.read m (a + i) = some ((zext32 v).extractLsb' (8 * i) 8) := by
  have hs := (Memory.readLE_isSome m a 4).1 (by simp [h])
  have hlt := Memory.readLE_lt h
  obtain ⟨b0, h0⟩ := Option.isSome_iff_exists.1 (hs 0 (by omega))
  obtain ⟨b1, h1⟩ := Option.isSome_iff_exists.1 (hs 1 (by omega))
  obtain ⟨b2, h2⟩ := Option.isSome_iff_exists.1 (hs 2 (by omega))
  obtain ⟨b3, h3⟩ := Option.isSome_iff_exists.1 (hs 3 (by omega))
  have l0 := b0.isLt
  have l1 := b1.isLt
  have l2 := b2.isLt
  have l3 := b3.isLt
  have hv : v = b0.toNat + 256 * (b1.toNat + 256 * (b2.toNat + 256 * b3.toNat)) := by
    simp only [Nat.add_zero] at h0
    simp only [Memory.readLE, h0, h1, Nat.add_assoc, Nat.reduceAdd, h2, h3, Option.some.injEq] at h
    omega
  intro i hi
  have hi' : i = 0 ∨ i = 1 ∨ i = 2 ∨ i = 3 := by omega
  rcases hi' with rfl | rfl | rfl | rfl
  · rw [h0]; congr 1; apply BitVec.eq_of_toNat_eq
    simp only [BitVec.extractLsb'_toNat, BitVec.toNat_ofNat, Nat.shiftRight_eq_div_pow]; omega
  · rw [h1]; congr 1; apply BitVec.eq_of_toNat_eq
    simp only [BitVec.extractLsb'_toNat, BitVec.toNat_ofNat, Nat.shiftRight_eq_div_pow]; omega
  · rw [h2]; congr 1; apply BitVec.eq_of_toNat_eq
    simp only [BitVec.extractLsb'_toNat, BitVec.toNat_ofNat, Nat.shiftRight_eq_div_pow]; omega
  · rw [h3]; congr 1; apply BitVec.eq_of_toNat_eq
    simp only [BitVec.extractLsb'_toNat, BitVec.toNat_ofNat, Nat.shiftRight_eq_div_pow]; omega

/-- A descriptor word is read exactly when its four bytes are admitted and hold it (R65, R67). -/
theorem readWord_eq_ok (s : State) (a : Nat) (w : Word) : readWord s a = .ok w ↔ HoldsWord s a w := by
  rw [readWord, HoldsWord, ← admitted_iff s a 4 (by omega)]
  by_cases h : admitted s.regions a 4 = true
  · cases hv : Memory.readLE s.mem a 4 with
    | none =>
      simp only [h, if_true, refuse_eq_ok, true_and, false_iff]
      intro hc
      simp [Memory.readLE_four _ _ _ hc] at hv
    | some v =>
      simp only [h, if_true, Except.ok.injEq, true_and]
      constructor
      · rintro rfl
        exact Memory.read_of_readLE_four hv
      · intro hc
        have := Memory.readLE_four _ _ _ hc
        rw [hv] at this
        cases this
        simp [zext32]
  · simp [h]

/-- Reading a descriptor word never faults; what stops it is `X_MEM`. -/
theorem readWord_cases (s : State) (a : Nat) :
    (∃ w, readWord s a = .ok w) ∨ readWord s a = refuse .xMem := by
  unfold readWord
  split
  · split
    · exact .inl ⟨_, rfl⟩
    · exact .inr rfl
  · exact .inr rfl

theorem readWord_refused {s : State} {a : Nat} (h : ∀ w, ¬ HoldsWord s a w) :
    readWord s a = refuse .xMem := by
  rcases readWord_cases s a with ⟨w, hw⟩ | h'
  · exact absurd ((readWord_eq_ok _ _ _).1 hw) (h w)
  · exact h'

theorem copyBytes_eq_copied (m : Memory) (src dst : Nat → Nat) (n : Nat) :
    copyBytes m src dst n = copied m src dst n := by
  induction n with
  | zero => rfl
  | succ n ih =>
    rw [copyBytes_succ, ih]
    exact (show copied m src dst (n + 1) = _ by
      unfold copied
      exact (congrArg (List.foldl _ m) List.range_succ).trans List.foldl_append).symm

/-! ### Rings -/

theorem Ring.commit_of_le {r : Ring} {s : State} {n : Nat} (h : r.used + n ≤ r.n) :
    r.commit s n = .ok { r with wr := (r.wr + n) % r.n, used := r.used + n } := by
  simp [Ring.commit, Nat.not_lt.2 h, Ring.produce]
theorem Ring.commit_of_lt {r : Ring} {s : State} {n : Nat} (h : r.n < r.used + n) :
    r.commit s n = raise .rbOverflow s := by simp [Ring.commit, h]
theorem Ring.skip_of_le {r : Ring} {s : State} {n : Nat} (h : n ≤ r.used) :
    r.skip s n = .ok { r with rd := (r.rd + n) % r.n, used := r.used - n } := by
  simp [Ring.skip, Nat.not_lt.2 h, Ring.consume]
theorem Ring.skip_of_lt {r : Ring} {s : State} {n : Nat} (h : r.used < n) :
    r.skip s n = raise .rbUnderflow s := by simp [Ring.skip, h]

/-- When `B.write` answers, and what it answers (R123). -/
theorem ByteRing.write_eq_ok (b : ByteRing) (s : State) (src count : Nat)
    (r : Nat × ByteRing × Memory) :
    b.write s src count = .ok r ↔
      SpanHolds s src (b.accepts count) ∧
      (∀ k < b.accepts count, InRegion s (b.freeAddr k) 1) ∧
      r = (b.accepts count, { b with ix := b.ix.produce (b.accepts count) },
        copied s.mem (fun i => src + i) b.freeAddr (b.accepts count)) := by
  simp only [ByteRing.write, bind_eq_ok, require_eq_ok, spanReadable_iff_holds, List.all_eq_true,
    List.mem_range, admitted_iff s _ 1 (Nat.succ_pos 0), copyBytes_eq_copied, Except.ok.injEq,
    exists_const, eq_comm (b := r)]
  exact Iff.rfl

/-- When `B.read` answers, and what it answers (R124). -/
theorem ByteRing.read_eq_ok (b : ByteRing) (s : State) (dst count : Nat)
    (r : Nat × ByteRing × Memory) :
    b.read s dst count = .ok r ↔
      SpanAllowed s dst (b.delivers count) ∧
      (∀ k < b.delivers count, ByteReadable s (b.unreadAddr k)) ∧
      r = (b.delivers count, { b with ix := b.ix.consume (b.delivers count) },
        copied s.mem b.unreadAddr (fun i => dst + i) (b.delivers count)) := by
  simp only [ByteRing.read, bind_eq_ok, require_eq_ok, spanAdmitted_iff_allowed, List.all_eq_true,
    List.mem_range, Bool.and_eq_true, admitted_iff s _ 1 (Nat.succ_pos 0), copyBytes_eq_copied,
    Except.ok.injEq, exists_const, eq_comm (b := r)]
  exact Iff.rfl

/-- `B.write` never faults; what stops it is `X_MEM`. -/
theorem ByteRing.write_cases (b : ByteRing) (s : State) (src count : Nat) :
    (∃ r, b.write s src count = .ok r) ∨ b.write s src count = refuse .xMem := by
  simp only [ByteRing.write, require]
  split
  · split
    · exact .inl ⟨_, rfl⟩
    · exact .inr rfl
  · exact .inr rfl

/-- `B.read` never faults; what stops it is `X_MEM`. -/
theorem ByteRing.read_cases (b : ByteRing) (s : State) (dst count : Nat) :
    (∃ r, b.read s dst count = .ok r) ∨ b.read s dst count = refuse .xMem := by
  simp only [ByteRing.read, require]
  split
  · split
    · exact .inl ⟨_, rfl⟩
    · exact .inr rfl
  · exact .inr rfl

theorem ByteRing.write_refused {b : ByteRing} {s : State} {src count : Nat}
    (h : ¬ SpanHolds s src (b.accepts count) ∨
      ∃ k < b.accepts count, ¬ InRegion s (b.freeAddr k) 1) :
    b.write s src count = refuse .xMem := by
  rcases b.write_cases s src count with ⟨r, hr⟩ | h'
  · have := (b.write_eq_ok s src count r).1 hr
    rcases h with h | ⟨k, hk, h⟩
    · exact absurd this.1 h
    · exact absurd (this.2.1 k hk) h
  · exact h'

theorem ByteRing.read_refused {b : ByteRing} {s : State} {dst count : Nat}
    (h : ¬ SpanAllowed s dst (b.delivers count) ∨
      ∃ k < b.delivers count, ¬ ByteReadable s (b.unreadAddr k)) :
    b.read s dst count = refuse .xMem := by
  rcases b.read_cases s dst count with ⟨r, hr⟩ | h'
  · have := (b.read_eq_ok s dst count r).1 hr
    rcases h with h | ⟨k, hk, h⟩
    · exact absurd this.1 h
    · exact absurd (this.2.1 k hk) h
  · exact h'

theorem Ring.Inv.pos {r : Ring} (h : r.Inv) : 0 < r.n := by have := h.1; omega

/-- A producer-side advance within the capacity keeps the invariant (R130). -/
theorem Ring.Inv.produce {r : Ring} (h : r.Inv) {k : Nat} (hk : r.used + k ≤ r.n) :
    (r.produce k).Inv := by
  obtain ⟨h1, h2, h3⟩ := h
  refine ⟨h1, hk, ?_⟩
  show (r.wr + k) % r.n = (r.rd + (r.used + k)) % r.n
  rw [h3, Nat.mod_add_mod, Nat.add_assoc]

/-- A consumer-side advance within the used count keeps the invariant (R130). -/
theorem Ring.Inv.consume {r : Ring} (h : r.Inv) {k : Nat} (hk : k ≤ r.used) :
    (r.consume k).Inv := by
  obtain ⟨h1, h2, h3⟩ := h
  refine ⟨Nat.mod_lt _ (by omega), ?_, ?_⟩
  · show r.used - k ≤ r.n
    omega
  · show r.wr = ((r.rd + k) % r.n + (r.used - k)) % r.n
    rw [Nat.mod_add_mod, h3]
    congr 1
    omega

/-- Distinct elements of a ring have distinct addresses. -/
theorem ring_addr_inj {n p q base x : Nat} (hp : p < n) (hq : q < n)
    (h : base + (x + p) % n = base + (x + q) % n) : p = q := by
  have h' : (x + p) ≡ (x + q) [MOD n] := by unfold Nat.ModEq; omega
  have := Nat.ModEq.add_left_cancel' x h'
  unfold Nat.ModEq at this
  rwa [Nat.mod_eq_of_lt hp, Nat.mod_eq_of_lt hq] at this

/-- A copy changes no byte outside its destinations. -/
theorem read_copied_other (m : Memory) (src dst : Nat → Nat) (k c : Nat)
    (h : ∀ i < k, dst i ≠ c) : Memory.read (copied m src dst k) c = Memory.read m c := by
  rw [← copyBytes_eq_copied]
  exact read_copyBytes_other m src dst k c h

/-- Where destinations are distinct and apart from the sources, element `i` arrives at `dst i`. -/
theorem read_copied_dst (m : Memory) (src dst : Nat → Nat) (k i : Nat) (hi : i < k)
    (hinj : ∀ p < k, ∀ q < k, dst p = dst q → p = q)
    (hapart : ∀ p < k, ∀ q < k, dst p ≠ src q)
    (hval : (Memory.read m (src i)).isSome = true) :
    Memory.read (copied m src dst k) (dst i) = Memory.read m (src i) := by
  rw [← copyBytes_eq_copied]
  exact read_copyBytes_dst m src dst k i hi hinj hapart hval

theorem wf_copied {m : Memory} (src dst : Nat → Nat) (k : Nat) (hm : Memory.wf m = true)
    (hd : ∀ i < k, dst i < addressSpan) : Memory.wf (copied m src dst k) = true := by
  rw [← copyBytes_eq_copied]
  exact wf_copyBytes src dst k hm hd

end Sys2Proof.Machine
end

