-- ==== Sys2Proof/Laws/PerInstr.lean ====
section
/-! SUPPORT. Facts about every operation as syntax, one lemma per constructor: the fields its word
carries (30_encoding R91, R93). -/

namespace Sys2Proof.Laws

/-- The word of an operation carries its opcode, its instance and its agent, and 0 in the reserved bits
17:16 (R91). -/
def EncodeFields.Statement (i : Instr) : Prop :=
  opcField (encode i) = opcodeOf i ∧ instField (encode i) = i.instOf ∧
    issuerOf (encode i) = i.agentOf ∧ reservedField (encode i) = 0#2 ∧ immField (encode i) = immOf i

/-- The fields of a packed word, for any operation. -/
theorem encode_fields (i : Instr) : EncodeFields.Statement i := by
  simp [EncodeFields.Statement, encode, issuerOf]

theorem EncodeFields.memLd (inst : BitVec 4) (agent : Agent) (n : BitVec 3) : EncodeFields.Statement (.memLd inst agent n) :=
  encode_fields _
theorem EncodeFields.memSt (inst : BitVec 4) (agent : Agent) (n : BitVec 3) : EncodeFields.Statement (.memSt inst agent n) :=
  encode_fields _
theorem EncodeFields.rbWrite (inst : BitVec 4) (agent : Agent) : EncodeFields.Statement (.rbWrite inst agent) :=
  encode_fields _
theorem EncodeFields.rbRead (inst : BitVec 4) (agent : Agent) : EncodeFields.Statement (.rbRead inst agent) :=
  encode_fields _
theorem EncodeFields.rbPop (inst : BitVec 4) (agent : Agent) : EncodeFields.Statement (.rbPop inst agent) :=
  encode_fields _
theorem EncodeFields.rbSkip (inst : BitVec 4) (agent : Agent) : EncodeFields.Statement (.rbSkip inst agent) :=
  encode_fields _
theorem EncodeFields.rbPeek (inst : BitVec 4) (agent : Agent) : EncodeFields.Statement (.rbPeek inst agent) :=
  encode_fields _
theorem EncodeFields.rbCommit (inst : BitVec 4) (agent : Agent) : EncodeFields.Statement (.rbCommit inst agent) :=
  encode_fields _
theorem EncodeFields.rbUsed (inst : BitVec 4) (agent : Agent) : EncodeFields.Statement (.rbUsed inst agent) :=
  encode_fields _
theorem EncodeFields.ldSetSpeed (inst : BitVec 4) (agent : Agent) : EncodeFields.Statement (.ldSetSpeed inst agent) :=
  encode_fields _
theorem EncodeFields.ldSetFrame (inst : BitVec 4) (agent : Agent) (parity : BitVec 2) (stopBits : BitVec 2) (dataBits : BitVec 8) : EncodeFields.Statement (.ldSetFrame inst agent parity stopBits dataBits) :=
  encode_fields _
theorem EncodeFields.ldSetFlow (inst : BitVec 4) (agent : Agent) (flow : BitVec 2) : EncodeFields.Statement (.ldSetFlow inst agent flow) :=
  encode_fields _
theorem EncodeFields.ldEnable (inst : BitVec 4) (agent : Agent) (part : BitVec 2) : EncodeFields.Statement (.ldEnable inst agent part) :=
  encode_fields _
theorem EncodeFields.ldDisable (inst : BitVec 4) (agent : Agent) (part : BitVec 2) : EncodeFields.Statement (.ldDisable inst agent part) :=
  encode_fields _
theorem EncodeFields.ldArmIrq (inst : BitVec 4) (agent : Agent) (cond : BitVec 4) : EncodeFields.Statement (.ldArmIrq inst agent cond) :=
  encode_fields _
theorem EncodeFields.ldDisarmIrq (inst : BitVec 4) (agent : Agent) (cond : BitVec 4) : EncodeFields.Statement (.ldDisarmIrq inst agent cond) :=
  encode_fields _
theorem EncodeFields.ldIrq (inst : BitVec 4) (agent : Agent) : EncodeFields.Statement (.ldIrq inst agent) :=
  encode_fields _
theorem EncodeFields.ldRdUnit (inst : BitVec 4) (agent : Agent) : EncodeFields.Statement (.ldRdUnit inst agent) :=
  encode_fields _
theorem EncodeFields.ldWrUnit (inst : BitVec 4) (agent : Agent) : EncodeFields.Statement (.ldWrUnit inst agent) :=
  encode_fields _
theorem EncodeFields.ldWaitTc (inst : BitVec 4) (agent : Agent) : EncodeFields.Statement (.ldWaitTc inst agent) :=
  encode_fields _
theorem EncodeFields.ldWaitRxne (inst : BitVec 4) (agent : Agent) : EncodeFields.Statement (.ldWaitRxne inst agent) :=
  encode_fields _
theorem EncodeFields.ldClkChg (inst : BitVec 4) (agent : Agent) (phase : BitVec 1) : EncodeFields.Statement (.ldClkChg inst agent phase) :=
  encode_fields _
theorem EncodeFields.bsWrite (inst : BitVec 4) (agent : Agent) : EncodeFields.Statement (.bsWrite inst agent) :=
  encode_fields _
theorem EncodeFields.bsReadB (inst : BitVec 4) (agent : Agent) : EncodeFields.Statement (.bsReadB inst agent) :=
  encode_fields _
theorem EncodeFields.bsReadNb (inst : BitVec 4) (agent : Agent) : EncodeFields.Statement (.bsReadNb inst agent) :=
  encode_fields _
theorem EncodeFields.bsTxDone (inst : BitVec 4) (agent : Agent) : EncodeFields.Statement (.bsTxDone inst agent) :=
  encode_fields _
theorem EncodeFields.bsRxDone (inst : BitVec 4) (agent : Agent) : EncodeFields.Statement (.bsRxDone inst agent) :=
  encode_fields _
theorem EncodeFields.tbEnable (inst : BitVec 4) (agent : Agent) (part : BitVec 2) : EncodeFields.Statement (.tbEnable inst agent part) :=
  encode_fields _
theorem EncodeFields.tbDisable (inst : BitVec 4) (agent : Agent) (part : BitVec 2) : EncodeFields.Statement (.tbDisable inst agent part) :=
  encode_fields _
theorem EncodeFields.bteSubmit (inst : BitVec 4) (agent : Agent) : EncodeFields.Statement (.bteSubmit inst agent) :=
  encode_fields _
theorem EncodeFields.bteEvAddr (inst : BitVec 4) (agent : Agent) : EncodeFields.Statement (.bteEvAddr inst agent) :=
  encode_fields _
theorem EncodeFields.bteEvTc (inst : BitVec 4) (agent : Agent) : EncodeFields.Statement (.bteEvTc inst agent) :=
  encode_fields _
theorem EncodeFields.bteEvStop (inst : BitVec 4) (agent : Agent) : EncodeFields.Statement (.bteEvStop inst agent) :=
  encode_fields _
theorem EncodeFields.bteEvNack (inst : BitVec 4) (agent : Agent) : EncodeFields.Statement (.bteEvNack inst agent) :=
  encode_fields _
theorem EncodeFields.bteEvErr (inst : BitVec 4) (agent : Agent) (kind : BitVec 8) : EncodeFields.Statement (.bteEvErr inst agent kind) :=
  encode_fields _
theorem EncodeFields.bteDmaDone (inst : BitVec 4) (agent : Agent) (channel : BitVec 1) : EncodeFields.Statement (.bteDmaDone inst agent channel) :=
  encode_fields _
theorem EncodeFields.lineRx (inst : BitVec 4) (agent : Agent) (flags : BitVec 4) : EncodeFields.Statement (.lineRx inst agent flags) :=
  encode_fields _
theorem EncodeFields.lineTxReady (inst : BitVec 4) (agent : Agent) : EncodeFields.Statement (.lineTxReady inst agent) :=
  encode_fields _
theorem EncodeFields.lineTxComplete (inst : BitVec 4) (agent : Agent) : EncodeFields.Statement (.lineTxComplete inst agent) :=
  encode_fields _
theorem EncodeFields.lineIdle (inst : BitVec 4) (agent : Agent) : EncodeFields.Statement (.lineIdle inst agent) :=
  encode_fields _
theorem EncodeFields.dmaMove (inst : BitVec 4) (agent : Agent) (channel : BitVec 2) : EncodeFields.Statement (.dmaMove inst agent channel) :=
  encode_fields _

end Sys2Proof.Laws
end

