-- ==== Sys2Proof/Laws/Units.lean ====
section
/-! SUPPORT. One lemma per shared procedure of the serial instance and of the bus engine that says once
everything it can do: the coalescer, the drain of a pending read, the notification, the start sequence,
the end of a transaction, the validation of a descriptor, the move address and admission, the DMA
countdown, the turn. -/

namespace Sys2Proof.Machine

/-- A check followed by the rest of an operation. -/
theorem require_bind {α : Type} (b : Bool) (c : RefuseCode) (f : Unit → Proc α) :
    (require b c >>= f) = if b then f () else refuse c := by cases b <;> rfl

theorem uartFor_of {s : State} {i : BitVec 4} {x : Uart} {a : Agent} (h : s.uarts[i.toNat]? = some x) :
    uartFor s i a a = .ok x := (uartFor_eq_ok _ _ _ _ _).2 ⟨rfl, h⟩

theorem engineFor_of {s : State} {i : BitVec 4} {e : Engine} {a : Agent}
    (h : s.engines[i.toNat]? = some e) : engineFor s i a a = .ok e :=
  (engineFor_eq_ok _ _ _ _ _).2 ⟨rfl, h⟩

theorem uartAt_of {s : State} {u : Nat} {x : Uart} (h : s.uarts[u]? = some x) :
    uartAt s u = .ok x := (uartAt_eq_ok _ _ _).2 h

theorem engineAt_of {s : State} {n : Nat} {e : Engine} (h : s.engines[n]? = some e) :
    engineAt s n = .ok e := (engineAt_eq_ok _ _ _).2 h

/-- The instance just stored is the one found. -/
theorem uarts_setUart {s : State} {u : Nat} {x : Uart} (h : s.uarts[u]? = some x) (y : Uart) :
    (s.setUart u y).uarts[u]? = some y := by
  have : u < s.uarts.length := by
    by_contra hn
    rw [List.getElem?_eq_none (by omega)] at h
    cases h
  simp [State.setUart, this]

/-- Storing an instance over the one that is there changes nothing. -/
theorem setUart_self {s : State} {u : Nat} {x : Uart} (h : s.uarts[u]? = some x) : s.setUart u x = s := by
  have : s.uarts.set u x = s.uarts := by
    apply List.ext_getElem?
    intro i
    rw [List.getElem?_set]
    split
    · next q =>
      subst q
      rw [h]
      rw [List.getElem?_eq_some_iff] at h
      simp [h.1]
    · rfl
  simp [State.setUart, this]

/-! ### Completions and notifications -/

/-- A completion is one entry appended to `EVQ`; the global mask is off after it (R310). -/
theorem post_eq (h : Word) (k : Kind) (s : State) :
    post h k s = { s with irqMask := false, evq := s.evq ++ [(h, k)] } := rfl

/-- Everything the reaction to a line error can do (R214). -/
theorem forwardError_eq_ok (u : Nat) (k : Kind) (s t : State) :
    forwardError u k s = .ok t ↔ ∃ x, s.uarts[u]? = some x ∧
      ((x.bs.pend.rem = 0#32 ∧ t = s) ∨ (x.bs.pend.rem ≠ 0#32 ∧ t = post x.bs.pend.handle k s)) := by
  simp only [forwardError, bind_eq_ok, uartAt_eq_ok]
  refine exists_congr fun x => and_congr_right fun _ => ?_
  by_cases h : x.bs.pend.rem = 0#32 <;> simp [h, eq_comm]

/-! ### The coalescer (R210, R212) -/

/-- With both counts in range the wrapped difference is a natural below the size (R210). -/
theorem coalescedDelta_of_range {p c n : Nat} (h2 : p ≤ n) (h3 : 1 ≤ c) (h4 : c ≤ n) (h1 : 1 ≤ p) :
    coalescedDelta p c n = ((if p < c then p + n - c else p - c : Nat) : Int) ∧
      (if p < c then p + n - c else p - c) < n := by
  unfold coalescedDelta
  simp only
  split <;> split <;> omega

/-- Everything `trySatisfy` can do when it answers (R212). -/
theorem trySatisfy_eq_ok (u : Nat) (s t : State) :
    trySatisfy u s = .ok t ↔ ∃ x, s.uarts[u]? = some x ∧
      ((¬(x.bs.pend.rem ≠ 0#32 ∧ x.bs.pend.rem.toNat ≤ x.bs.rx.ix.used) ∧ t = s) ∨
       ((x.bs.pend.rem ≠ 0#32 ∧ x.bs.pend.rem.toNat ≤ x.bs.rx.ix.used) ∧
        ∃ r, x.bs.rx.read s x.bs.pend.dst.toNat x.bs.pend.rem.toNat = .ok r ∧
          t = post x.bs.pend.handle .success
            ((s.setUart u { x with bs := { x.bs with rx := r.2.1, pend := ⟨0#32, 0#32, 0#32⟩ } }).setMem
              r.2.2))) := by
  simp only [trySatisfy, bind_eq_ok, uartAt_eq_ok]
  refine exists_congr fun x => and_congr_right fun _ => ?_
  by_cases h : x.bs.pend.rem ≠ 0#32 ∧ x.bs.pend.rem.toNat ≤ x.bs.rx.ix.used
  · rw [if_pos h]
    rw [bind_eq_ok]
    constructor
    · rintro ⟨⟨_, _, _⟩, hr, ht⟩
      exact .inr ⟨h, _, hr, (Except.ok.inj ht).symm⟩
    · rintro (⟨hn, -⟩ | ⟨-, ⟨_, _, _⟩, hr, rfl⟩)
      · exact absurd h hn
      · exact ⟨_, hr, rfl⟩
  · rw [if_neg h]
    constructor
    · intro ht
      exact .inl ⟨h, (Except.ok.inj ht).symm⟩
    · rintro (⟨-, rfl⟩ | ⟨hc, -⟩)
      · rfl
      · exact absurd hc h

/-- `trySatisfy` never faults. -/
theorem trySatisfy_stops (u : Nat) (s : State) (e : Stop) (h : trySatisfy u s = .error e) :
    e = .refuse .xOperand ∨ e = .refuse .xMem := by
  simp only [trySatisfy, uartAt] at h
  split at h
  · next x _ =>
    simp only [proc_ok_bind] at h
    split at h
    · rcases ByteRing.read_cases x.bs.rx s x.bs.pend.dst.toNat x.bs.pend.rem.toNat with ⟨r, hr⟩ | hr
      · rw [hr] at h
        simp at h
      · rw [hr] at h
        cases h
        exact .inr rfl
    · cases h
  · cases h
    exact .inl rfl

/-- `rxSync` with its queries of the channel written out (R210, R294). -/
theorem rxSync_unfold (u : Nat) (s : State) :
    rxSync u s = (uartAt s u >>= fun x =>
      if coalescedDelta x.bs.prevCount x.rxch.remaining x.bs.rx.ix.n < 0 ∨
          (x.bs.rx.ix.n : Int) ≤ coalescedDelta x.bs.prevCount x.rxch.remaining x.bs.rx.ix.n then
        raise .delta s
      else
        x.bs.rx.ix.commit s (coalescedDelta x.bs.prevCount x.rxch.remaining x.bs.rx.ix.n).toNat >>=
          fun ix => trySatisfy u (s.setUart u { x with bs := { x.bs with
            rx := { x.bs.rx with ix := ix }
            prevCount := x.rxch.remaining } })) := rfl

/-- Everything `rxSync` can do when it answers (R210): the range test passes, the units are committed,
the counts replaced, the pending read tried. -/
theorem rxSync_eq_ok (u : Nat) (s t : State) :
    rxSync u s = .ok t ↔ ∃ x, s.uarts[u]? = some x ∧
      let delta := coalescedDelta x.bs.prevCount x.rxch.remaining x.bs.rx.ix.n
      0 ≤ delta ∧ delta < x.bs.rx.ix.n ∧ x.bs.rx.ix.used + delta.toNat ≤ x.bs.rx.ix.n ∧
      trySatisfy u (s.setUart u { x with bs := { x.bs with
        rx := { x.bs.rx with ix := x.bs.rx.ix.produce delta.toNat }
        prevCount := x.rxch.remaining } }) = .ok t := by
  simp only [rxSync_unfold, bind_eq_ok, uartAt_eq_ok]
  refine exists_congr fun x => and_congr_right fun _ => ?_
  by_cases h : coalescedDelta x.bs.prevCount x.rxch.remaining x.bs.rx.ix.n < 0 ∨
      (x.bs.rx.ix.n : Int) ≤ coalescedDelta x.bs.prevCount x.rxch.remaining x.bs.rx.ix.n
  · rw [if_pos h]
    simp only [raise_eq_ok, false_iff]
    rintro ⟨h1, h2, -⟩
    omega
  · rw [if_neg h]
    simp only [bind_eq_ok, Ring.commit]
    by_cases h2 : x.bs.rx.ix.n < x.bs.rx.ix.used +
        (coalescedDelta x.bs.prevCount x.rxch.remaining x.bs.rx.ix.n).toNat
    · rw [if_pos h2]
      simp only [raise_eq_ok, false_and, exists_false, false_iff]
      rintro ⟨-, -, h3, -⟩
      omega
    · rw [if_neg h2]
      simp only [Except.ok.injEq, exists_eq_left']
      exact ⟨fun ht => ⟨by omega, by omega, by omega, ht⟩, fun ht => ht.2.2.2⟩

/-- The faults of `rxSync` (R210, R128): the range test, or the commit, each before any effect. -/
theorem rxSync_fault (u : Nat) (s s' : State) (f : FaultCode) (h : rxSync u s = .error (.fault f s')) :
    s' = s ∧ ∃ x, s.uarts[u]? = some x ∧
      let delta := coalescedDelta x.bs.prevCount x.rxch.remaining x.bs.rx.ix.n
      ((f = .delta ∧ (delta < 0 ∨ (x.bs.rx.ix.n : Int) ≤ delta)) ∨
       (f = .rbOverflow ∧ 0 ≤ delta ∧ delta < x.bs.rx.ix.n ∧ x.bs.rx.ix.n < x.bs.rx.ix.used + delta.toNat)) := by
  simp only [rxSync_unfold, bind_eq_error, uartAt_eq_ok] at h
  rcases h with h | ⟨x, hx, h⟩
  · simp only [uartAt] at h
    split at h <;> simp [refuse] at h
  · by_cases hc : coalescedDelta x.bs.prevCount x.rxch.remaining x.bs.rx.ix.n < 0 ∨
        (x.bs.rx.ix.n : Int) ≤ coalescedDelta x.bs.prevCount x.rxch.remaining x.bs.rx.ix.n
    · rw [if_pos hc] at h
      cases h
      exact ⟨rfl, x, hx, .inl ⟨rfl, hc⟩⟩
    · rw [if_neg hc] at h
      simp only [Ring.commit] at h
      by_cases h2 : x.bs.rx.ix.n < x.bs.rx.ix.used +
        (coalescedDelta x.bs.prevCount x.rxch.remaining x.bs.rx.ix.n).toNat
      · rw [if_pos h2] at h
        simp only [raise_bind] at h
        cases h
        exact ⟨rfl, x, hx, .inr ⟨rfl, by omega, by omega, h2⟩⟩
      · rw [if_neg h2] at h
        simp only [proc_ok_bind] at h
        rcases trySatisfy_stops _ _ _ h with h | h <;> cases h

/-- Everything the drain of a read can do when it answers (R205). -/
theorem drainRead_eq_ok (u : Nat) (a : Agent) (s t : State) :
    drainRead u a s = .ok t ↔ ∃ x, s.uarts[u]? = some x ∧
      ∃ r, x.bs.rx.read s (s.port a).arg0.toNat (s.port a).arg1.toNat = .ok r ∧
        t = ((s.setUart u { x with bs := { x.bs with rx := r.2.1 } }).setMem r.2.2).setRes0 a
          (zext32 r.1) := by
  simp only [drainRead, bind_eq_ok, uartAt_eq_ok, Except.ok.injEq]
  refine exists_congr fun x => and_congr_right fun _ => exists_congr fun r => and_congr_right fun _ => ?_
  obtain ⟨_, _, _⟩ := r
  exact eq_comm

/-- Everything one test of the serial handler can do when it answers (R162). -/
theorem irqTest_eq_ok (u : Nat) (sample : BitVec 9) (e : IrqEntry) (s t : State) :
    irqTest u sample e s = .ok t ↔
      (sample.getLsbD e.bit = false ∧ t = s) ∨
      (sample.getLsbD e.bit = true ∧ ∃ s' x, notify u e.kind s = .ok s' ∧ s'.uarts[u]? = some x ∧
        t = s'.setUart u { x with line := e.access x.line }) := by
  unfold irqTest
  rcases h : sample.getLsbD e.bit
  · simp [eq_comm]
  · simp only [if_true, bind_eq_ok, uartAt_eq_ok, Except.ok.injEq, reduceCtorEq, false_and, false_or, true_and]
    constructor
    · rintro ⟨s', h1, x, h2, h3⟩
      exact ⟨s', x, h1, h2, h3.symm⟩
    · rintro ⟨s', x, h1, h2, h3⟩
      exact ⟨s', h1, x, h2, h3.symm⟩

/-! ### The bus engine -/

theorem Queue.head_eq (q : Queue) (t : Word) : q.head = some t ↔ q.store[q.ix.rd]? = some (some t) := by
  unfold Queue.head
  rcases q.store[q.ix.rd]? with _ | _ | _ <;> simp

/-- Everything `start` can do when it answers (R243). -/
theorem startHead_eq_ok (e e' : Engine) (s : State) :
    e.startHead s = .ok e' ↔ ∃ t wl rl a, e.q.head = some t ∧ HoldsWord s (t.toNat + 4) wl ∧
      HoldsWord s (t.toNat + 12) rl ∧ HoldsWord s (t.toNat + 16) a ∧
      ((0 < wl.toNat ∧ ∃ p, HoldsWord s t.toNat p ∧
          e' = { e with
            periphEn := true, dmaTxEn := true, txch := e.txch.arm p.toNat wl.toNat
            busLog := e.busLog ++ [.start a .wr e.ext], phase := some .w, byteCount := some wl.toNat
            autoStop := some (!(decide (0 < rl.toNat))), st := .addressPhase }) ∨
       (wl.toNat = 0 ∧ ∃ p, HoldsWord s (t.toNat + 8) p ∧
          e' = { e with
            periphEn := true, dmaRxEn := true, rxch := e.rxch.arm p.toNat rl.toNat
            busLog := e.busLog ++ [.start a .rd e.ext], phase := some .r, byteCount := some rl.toNat
            autoStop := some true, st := .addressPhase })) := by
  simp only [Engine.startHead, bind_eq_ok, valueOf_eq_ok, descWlen, descRlen, descAddr, descWbuf, descRbuf,
    readWord_eq_ok]
  constructor
  · rintro ⟨t, ht, wl, hw, rl, hr, a, ha, h⟩
    refine ⟨t, wl, rl, a, ht, hw, hr, ha, ?_⟩
    by_cases h0 : 0 < wl.toNat
    · rw [if_pos h0] at h
      simp only [bind_eq_ok, readWord_eq_ok, Except.ok.injEq] at h
      obtain ⟨p, hp, rfl⟩ := h
      exact .inl ⟨h0, p, hp, rfl⟩
    · rw [if_neg h0] at h
      simp only [bind_eq_ok, readWord_eq_ok, Except.ok.injEq] at h
      obtain ⟨p, hp, rfl⟩ := h
      exact .inr ⟨by omega, p, hp, rfl⟩
  · rintro ⟨t, wl, rl, a, ht, hw, hr, ha, h⟩
    refine ⟨t, ht, wl, hw, rl, hr, a, ha, ?_⟩
    rcases h with ⟨h0, p, hp, rfl⟩ | ⟨h0, p, hp, rfl⟩
    · rw [if_pos h0]
      simp only [bind_eq_ok, readWord_eq_ok, Except.ok.injEq]
      exact ⟨p, hp, rfl⟩
    · rw [if_neg (by omega)]
      simp only [bind_eq_ok, readWord_eq_ok, Except.ok.injEq]
      exact ⟨p, hp, rfl⟩

/-- The start sequence never faults: it answers or is refused. -/
theorem startHead_stops (e : Engine) (s : State) (x : Stop) (h : e.startHead s = .error x) :
    ∃ c, x = .refuse c := by
  have hw : ∀ a y, readWord s a = .error y → ∃ c, y = .refuse c := by
    intro a y hy
    rcases readWord_cases s a with ⟨w, q⟩ | q
    · rw [q] at hy
      cases hy
    · rw [q] at hy
      cases hy
      exact ⟨_, rfl⟩
  simp only [Engine.startHead, bind_eq_error, descWlen, descRlen, descAddr, descWbuf, descRbuf] at h
  rcases h with h | ⟨t, -, h⟩
  · rcases hq : e.q.head with _ | w
    · rw [hq] at h
      cases h
      exact ⟨_, rfl⟩
    · rw [hq] at h
      cases h
  · rcases h with h | ⟨wl, -, h | ⟨rl, -, h | ⟨a, -, h⟩⟩⟩
    · exact hw _ _ h
    · exact hw _ _ h
    · exact hw _ _ h
    · split at h
      · simp only [bind_eq_error, reduceCtorEq, and_false, exists_const, or_false] at h
        exact hw _ _ h
      · simp only [bind_eq_error, reduceCtorEq, and_false, exists_const, or_false] at h
        exact hw _ _ h

/-- The end of the only transaction queued: shutdown (R250, R251, R252). -/
theorem finish_next_of_one {e : Engine} (s : State) (h : e.q.ix.used = 1) :
    e.finish.next s = .ok { e with
      txch := { e.txch with running := false }
      rxch := { e.rxch with running := false }
      q := { e.q with ix := { e.q.ix with rd := (e.q.ix.rd + 1) % e.q.ix.n, used := 0 } }
      st := .idle, periphEn := false, dmaTxEn := false, dmaRxEn := false } := by
  simp [Engine.finish, Engine.next, Queue.pop, Ring.consume, h, DmaChan.stop, Engine.shutdown]

/-- The end of a transaction with others queued behind it: the next one starts (R250, R252). -/
theorem finish_next_of_more {e : Engine} (s : State) (h : 2 ≤ e.q.ix.used) :
    e.finish.next s = Engine.startHead { e with
      txch := { e.txch with running := false }
      rxch := { e.rxch with running := false }
      q := { e.q with ix := { e.q.ix with
        rd := (e.q.ix.rd + 1) % e.q.ix.n, used := e.q.ix.used - 1 } }
      st := .idle } s := by
  have h1 : e.q.ix.used ≠ 0 := by omega
  have h2 : 0 < e.q.ix.used - 1 := by omega
  simp only [Engine.finish, Engine.next, Queue.pop, h1, if_false, Ring.consume, DmaChan.stop, h2, if_true]

/-! ### DMA -/

/-- The address of a move while the channel counts within its programmed length (R296). -/
theorem moveAddress_of_le {ch : DmaChan} (h : ch.remaining ≤ ch.count) :
    moveAddress ch = .ok (ch.maddr + ch.count - ch.remaining) := by
  simp [moveAddress, DmaChan.address, show ch.remaining ≤ ch.maddr + ch.count by omega]

/-- What a store by a channel answers (R69, R296). -/
theorem moveStore_eq_ok (s t : State) (a : Nat) (b : Byte) :
    moveStore s a b = .ok t ↔ InRegion s a 1 ∧ t = s.setMem (Memory.write s.mem a b) := by
  simp only [moveStore, bind_eq_ok, require_eq_ok, admitted_iff s a 1 (Nat.succ_pos 0), Except.ok.injEq,
    exists_const, eq_comm (b := t)]

/-- A channel after one unit: everything but the countdown stands (R297). -/
theorem advance_fixed (ch : DmaChan) (k : Nat) :
    (ch.advance k).dir = ch.dir ∧ (ch.advance k).width = ch.width ∧ (ch.advance k).burst = ch.burst ∧
      (ch.advance k).maddr = ch.maddr ∧ (ch.advance k).paddr = ch.paddr ∧
      (ch.advance k).count = ch.count ∧ (ch.advance k).circular = ch.circular := by
  unfold DmaChan.advance DmaChan.settle
  split <;> simp

/-! ### Frames wider than a byte -/

/-- A channel may move the units of an instance unless its frames are wider than a byte (R65). -/
theorem byteUnits_iff (l : LineDriver) : l.byteUnits = true ↔ ∀ d, l.dataBits = some d → d ≤ 8 := by
  unfold LineDriver.byteUnits
  split <;> simp [*]

/-- When the serial transmit channel may move (R65, R296). -/
theorem txMoveOk_iff (x : Uart) : x.txMoveOk = true ↔
    (∀ d, x.ld.dataBits = some d → d ≤ 8) ∧ x.par.hasTxDma = true ∧ x.txch.running = true ∧
      x.tb.dmaTxEn = true ∧ x.ld.transmitterOn = true ∧ x.line.flag bitTXE = true := by
  rw [← byteUnits_iff]
  simp only [Uart.txMoveOk, Bool.and_eq_true]
  tauto

/-- The waiting unit is at most a byte (R63). -/
theorem waitsByte_iff (p : Line) : p.waitsByte = true ↔ ∀ v, p.rdr = some v → v.toNat < 256 := by
  unfold Line.waitsByte
  split <;> simp [*]

/-- The byte a receive channel stores is the whole unit (R63, R296). -/
theorem waitsByte_stores_whole {p : Line} {v : Word} (h : p.waitsByte = true) (hv : p.rdr = some v) :
    (v.extractLsb' 0 8).toNat = v.toNat := by
  have := (waitsByte_iff p).1 h v hv
  simp only [BitVec.extractLsb'_toNat, Nat.shiftRight_zero]
  omega

/-- When the serial receive channel may move (R63, R65, R296). -/
theorem rxMoveOk_iff (x : Uart) : x.rxMoveOk = true ↔
    (∀ d, x.ld.dataBits = some d → d ≤ 8) ∧ (∀ v, x.line.rdr = some v → v.toNat < 256) ∧ x.par.hasRxDma = true ∧ x.rxch.running = true ∧
      x.tb.dmaRxEn = true ∧ x.ld.receiverOn = true ∧ x.line.flag bitRXNE = true := by
  rw [← byteUnits_iff, ← waitsByte_iff]
  simp only [Uart.rxMoveOk, Bool.and_eq_true]
  tauto

/-! ### Validation of a descriptor -/

/-- `validate` answers exactly for an aligned, readable, addressable descriptor with a phase (R242). -/
theorem validate_eq_ok (e : Engine) (s : State) (t : Word) :
    e.validate s t = .ok () ↔ t.toNat % 4 = 0 ∧ ∃ wbuf wlen rbuf rlen addr handle,
      HoldsWord s t.toNat wbuf ∧ HoldsWord s (t.toNat + 4) wlen ∧ HoldsWord s (t.toNat + 8) rbuf ∧
      HoldsWord s (t.toNat + 12) rlen ∧ HoldsWord s (t.toNat + 16) addr ∧
      HoldsWord s (t.toNat + 20) handle ∧ addr.toNat < e.addressBound ∧
      (wlen ≠ 0#32 ∨ rlen ≠ 0#32) := by
  simp only [Engine.validate, bind_eq_ok, require_eq_ok, descWbuf, descWlen, descRbuf, descRlen, descAddr,
    descHandle, readWord_eq_ok, beq_iff_eq, decide_eq_true_eq, Bool.or_eq_true, bne_iff_ne, exists_const]
  constructor
  · rintro ⟨h0, a, ha, hb, wb, hwb, wl, hwl, rb, hrb, rl, hrl, h, hh, hp⟩
    exact ⟨h0, wb, wl, rb, rl, a, h, hwb, hwl, hrb, hrl, ha, hh, hb, hp⟩
  · rintro ⟨h0, wb, wl, rb, rl, a, h, hwb, hwl, hrb, hrl, ha, hh, hb, hp⟩
    exact ⟨h0, a, ha, hb, wb, hwb, wl, hwl, rb, hrb, rl, hrl, h, hh, hp⟩

/-! ### Whose turn it is -/

/-- With nothing but FG's entries there is no other agent's to take (R342). -/
theorem takeOther_of_all_byFg {l : List Act} (h : ∀ x ∈ l, x.byFg = true) : takeOther l = none := by
  induction l with
  | nil => rfl
  | cons x xs ih => simp [takeOther, h x (by simp), ih (fun y hy => h y (by simp [hy]))]

/-- The first entry that is not FG's is taken, and the others keep their order (R342). -/
theorem takeOther_append {before after : List Act} {x : Act} (h : ∀ y ∈ before, y.byFg = true)
    (hx : x.byFg = false) : takeOther (before ++ x :: after) = some (x, before ++ after) := by
  induction before with
  | nil => simp [takeOther, hx]
  | cons y ys ih => simp [takeOther, h y (by simp), ih (fun z hz => h z (by simp [hz]))]

end Sys2Proof.Machine
end

