-- ==== Sys2Proof/Tests/Slice0.lean ====
section
/-! SUPPORT. The model's own tests: ill-formed terms the checks refuse; a word of every operation written
out from the spec's encoding; single steps with the results 95_test_vectors gives (the vector is named
in each docstring); and for every statement with hypotheses a concrete state that meets them. -/

namespace Sys2Proof.Tests

open Sys2Proof Sys2Proof.Machine

/-! ### Small states -/

/-- The next state of an outcome. -/
def out : Host.Outcome State Fault Refusal → Option State
  | .next t => some t
  | .fault _ => none
  | .refused _ => none

/-- The code `CSR` shows after an operation from a state with nothing recorded: 0 if it ended normally. -/
def code (i : Instr) (s : State) : Option (BitVec 8) := (out (exec i s)).map (·.csr.code)

/-- The serial instance of the harness, after reset. -/
def u0 : Uart := .reset (Config.harness.uarts[0]'(by decide))

/-- The bus engine of the harness, after reset. -/
def e0 : Engine := .reset (Config.harness.engines[0]'(by decide))

/-- A ring of 4 elements at `0x2000`, wired FG to DIRQ (V-RB). -/
def r0 : FreeRing := .reset ⟨4, 0x2000, .fg, .dirq⟩

/-- Sixteen bytes `0x10 ..` at `0x1000`. -/
def m0 : Memory := (List.range 16).map fun k => (0x1000 + k, BitVec.ofNat 8 (0x10 + k))

/-- Reset, but for one serial instance, MEM, and FG's operands. -/
def sU (x : Uart) (a0 a1 a2 : Word := 0#32) : State :=
  { State.reset with uarts := [x], mem := m0, portFg := ⟨a0, a1, a2, none, none⟩ }

/-- Reset, but for one bus engine, MEM, and FG's operands. -/
def sE (e : Engine) (m : Memory) (a0 : Word := 0#32) : State :=
  { State.reset with engines := [e], mem := m, portFg := ⟨a0, 0#32, 0#32, none, none⟩ }

/-- Reset, but for one free-standing ring, MEM, and the operands of both sides. -/
def sR (b : FreeRing) (m : Memory) (a0 a1 : Word) : State :=
  { State.reset with
    rings := [b]
    mem := m
    portFg := ⟨a0, a1, 0#32, none, none⟩
    portDirq := ⟨a0, a1, 0#32, none, none⟩ }

/-- Reset, but for MEM and FG's operands. -/
def sM (m : Memory) (a0 a1 : Word) : State :=
  { State.reset with mem := m, portFg := ⟨a0, a1, 0#32, none, none⟩ }

/-- A ring's indices replaced. -/
def ring (rd wr used : Nat) : FreeRing := { r0 with ring := { r0.ring with ix := ⟨4, rd, wr, used⟩ } }

/-- The instance with both directions on, 8 data bits, and a status word. -/
def live (sr : BitVec 9) (x : Uart := u0) : Uart :=
  { x with
    ld := { x.ld with dataBits := some 8, rxEn := .enabled, txEn := .enabled, periphEn := true }
    line := { x.line with sr := sr, rdr := some 0x41#32 } }

/-- The instance with no DMA channel. -/
def bare (x : Uart) : Uart := { x with par := { x.par with hasTxDma := false, hasRxDma := false } }

/-- A four-byte little-endian word in MEM. -/
def word (a : Nat) (w : Nat) : Memory :=
  (List.range 4).map fun k => (a + k, BitVec.ofNat 8 (w >>> (8 * k)))

/-- A descriptor at `a` (R67). -/
def desc (a wbuf wlen rbuf rlen addr handle : Nat) : Memory :=
  word a wbuf ++ word (a + 4) wlen ++ word (a + 8) rbuf ++ word (a + 12) rlen ++ word (a + 16) addr ++
    word (a + 20) handle

/-- The combined transaction of P3 at `0x4020`, after the two bytes it writes. -/
def m3 : Memory := [(0x3000, 0x10#8), (0x3001, 0x20#8)] ++ desc 0x4020 0x3000 2 0x3100 3 0x50 0xB7

/-- An engine with that transaction in flight. -/
def busy (st : BusState) (ph : BusPhase) (auto : Bool) : Engine :=
  { e0 with
    q := ⟨⟨4, 0, 1, 1⟩, [some 0x4020#32, none, none, none]⟩
    st := st, phase := some ph, byteCount := some 2, autoStop := some auto
    periphEn := true, dmaTxEn := true, dmaRxEn := true }

/-! ### WellFormed smoke: one ill-formed term for each check, which its meaning refuses -/

/-- `X_RESERVED`, `X_AGENT` as codes. -/
theorem test_illFormed_accessSize :
    (Instr.memLd 0 .fg 3).wellFormed = false ∧ code (.memLd 0 .fg 3) .reset = some 0x01#8 := by decide
theorem test_illFormed_accessSize_store :
    (Instr.memSt 0 .fg 0).wellFormed = false ∧ code (.memSt 0 .fg 0) .reset = some 0x01#8 := by decide
theorem test_illFormed_ringOfEnvironment :
    (Instr.rbUsed 0 .env).wellFormed = false ∧ code (.rbUsed 0 .env) .reset = some 0x01#8 := by decide
theorem test_illFormed_parity :
    (Instr.ldSetFrame 0 .fg 3 0 8).wellFormed = false ∧
      code (.ldSetFrame 0 .fg 3 0 8) .reset = some 0x01#8 := by decide
theorem test_illFormed_part :
    (Instr.ldEnable 0 .fg 3).wellFormed = false ∧ code (.ldEnable 0 .fg 3) .reset = some 0x01#8 ∧
      code (.ldDisable 0 .fg 3) .reset = some 0x01#8 ∧ code (.tbEnable 0 .fg 3) .reset = some 0x01#8 ∧
      code (.tbDisable 0 .fg 3) .reset = some 0x01#8 := by decide
theorem test_illFormed_condition :
    (Instr.ldArmIrq 0 .fg 9).wellFormed = false ∧ code (.ldArmIrq 0 .fg 9) .reset = some 0x01#8 ∧
      code (.ldDisarmIrq 0 .fg 15) .reset = some 0x01#8 := by decide
theorem test_illFormed_busErrorKind :
    (Instr.bteEvErr 0 .pirq 0x13).wellFormed = false ∧
      code (.bteEvErr 0 .pirq 0x13) .reset = some 0x01#8 := by decide
theorem test_illFormed_agent :
    (Instr.ldIrq 0 .fg).wellFormed = false ∧ code (.ldIrq 0 .fg) .reset = some 0x02#8 := by decide

/-! ### Decoding: words written out from R91, R93, R96 -/

theorem test_decode_mem :
    decode 0x01000004#32 = .ok (.memLd 0 .fg 4) ∧ decode 0x02000001#32 = .ok (.memSt 0 .fg 1) := by decide
theorem test_decode_rb :
    decode 0x10200000#32 = .ok (.rbWrite 2 .fg) ∧ decode 0x11080000#32 = .ok (.rbRead 0 .dirq) ∧
    decode 0x12F80000#32 = .ok (.rbPop 15 .dirq) ∧ decode 0x13040000#32 = .ok (.rbSkip 0 .pirq) ∧
    decode 0x14080000#32 = .ok (.rbPeek 0 .dirq) ∧ decode 0x15000000#32 = .ok (.rbCommit 0 .fg) ∧
    decode 0x160C0000#32 = .ok (.rbUsed 0 .env) := by decide
theorem test_decode_ld_setup :
    decode 0x20100000#32 = .ok (.ldSetSpeed 1 .fg) ∧
    decode 0x21000089#32 = .ok (.ldSetFrame 0 .fg 1 2 8) ∧
    decode 0x22000003#32 = .ok (.ldSetFlow 0 .fg 3) ∧ decode 0x23000002#32 = .ok (.ldEnable 0 .fg 2) ∧
    decode 0x24000001#32 = .ok (.ldDisable 0 .fg 1) ∧ decode 0x25000008#32 = .ok (.ldArmIrq 0 .fg 8) ∧
    decode 0x26000007#32 = .ok (.ldDisarmIrq 0 .fg 7) := by decide
theorem test_decode_ld_data :
    decode 0x27040000#32 = .ok (.ldIrq 0 .pirq) ∧ decode 0x28000000#32 = .ok (.ldRdUnit 0 .fg) ∧
    decode 0x29000000#32 = .ok (.ldWrUnit 0 .fg) ∧ decode 0x2A000000#32 = .ok (.ldWaitTc 0 .fg) ∧
    decode 0x2B000000#32 = .ok (.ldWaitRxne 0 .fg) ∧
    decode 0x2C000001#32 = .ok (.ldClkChg 0 .fg 1) := by decide
theorem test_decode_bs :
    decode 0x30000000#32 = .ok (.bsWrite 0 .fg) ∧ decode 0x31000000#32 = .ok (.bsReadB 0 .fg) ∧
    decode 0x32000000#32 = .ok (.bsReadNb 0 .fg) ∧ decode 0x33080000#32 = .ok (.bsTxDone 0 .dirq) ∧
    decode 0x34080000#32 = .ok (.bsRxDone 0 .dirq) ∧ decode 0x38000002#32 = .ok (.tbEnable 0 .fg 2) ∧
    decode 0x39000000#32 = .ok (.tbDisable 0 .fg 0) := by decide
theorem test_decode_bte :
    decode 0x40000000#32 = .ok (.bteSubmit 0 .fg) ∧ decode 0x41040000#32 = .ok (.bteEvAddr 0 .pirq) ∧
    decode 0x42040000#32 = .ok (.bteEvTc 0 .pirq) ∧ decode 0x43040000#32 = .ok (.bteEvStop 0 .pirq) ∧
    decode 0x44040000#32 = .ok (.bteEvNack 0 .pirq) ∧
    decode 0x45040012#32 = .ok (.bteEvErr 0 .pirq 0x12) ∧
    decode 0x46080001#32 = .ok (.bteDmaDone 0 .dirq 1) := by decide
theorem test_decode_line :
    decode 0x500C0008#32 = .ok (.lineRx 0 .env 8) ∧ decode 0x510C0000#32 = .ok (.lineTxReady 0 .env) ∧
    decode 0x520C0000#32 = .ok (.lineTxComplete 0 .env) ∧ decode 0x530C0000#32 = .ok (.lineIdle 0 .env) ∧
    decode 0x540C0003#32 = .ok (.dmaMove 0 .env 3) := by decide
/-- V-EN: an unused opcode, a bit of 17:16, an `IMM` bit the row does not define. -/
theorem test_decode_rejects :
    decode 0x17000000#32 = .error .reservedOpcode ∧ decode 0x00000000#32 = .error .reservedOpcode ∧
    decode 0x10010000#32 = .error .reservedBits ∧ decode 0x10000001#32 = .error .undefinedImm ∧
    decode 0x23000010#32 = .error .undefinedImm := by decide
theorem test_encode :
    encode (.ldSetFrame 0 .fg 1 2 8) = 0x21000089#32 ∧ encode (.rbPop 15 .dirq) = 0x12F80000#32 := by decide
theorem test_decodeTableWord : decodeTableWord 32 0x25000008 = some (.ldArmIrq 0 .fg 8) := by decide
/-- The word placed is the one the next step issues. -/
theorem test_withFetchWord :
    (out (step (State.reset.withFetchWord 32 0x21000080))).map (·.uarts.map (·.ld.dataBits)) =
      some [some 8] := by decide

/-! ### Reset -/

theorem test_reset_memory : Memory.wf State.reset.mem = true := by decide
theorem test_reset_valid : Config.harness.valid = true := by decide
theorem test_reset_csr : State.reset.csr.word = 0#32 := by decide

/-! ### Single steps -/

/-- V-EX: a word read back little-endian; a misaligned one is refused `X_MEM`. -/
theorem test_memLd :
    (out (exec (.memLd 0 .fg 4) (sM m0 0x1004#32 0#32))).map (·.portFg.res0) = some (some 0x17161514#32) ∧
    code (.memLd 0 .fg 4) (sM m0 0x1002#32 0#32) = some 0x06#8 := by decide
/-- R316: the low byte at the lowest address; a byte too wide is `X_OPERAND`. -/
theorem test_memSt :
    (out (exec (.memSt 0 .fg 4) (sM [] 0x1004#32 0x11223344#32))).map (·.mem) =
      some [(0x1004, 0x44#8), (0x1005, 0x33#8), (0x1006, 0x22#8), (0x1007, 0x11#8)] ∧
    code (.memSt 0 .fg 1) (sM [] 0x1000#32 0x100#32) = some 0x03#8 := by decide

/-- V-RB1: three bytes enter an empty ring. -/
theorem test_rbWrite :
    (out (exec (.rbWrite 0 .fg) (sR r0 m0 0x1000#32 3#32))).map
      (fun t => (t.portFg.res0, t.rings.map (·.ring.ix), Memory.read t.mem 0x2002)) =
      some (some 3#32, [⟨4, 0, 3, 3⟩], some 0x12#8) := by decide
/-- V-RB2: the consumer may not write. -/
theorem test_rbWrite_consumer : code (.rbWrite 0 .dirq) (sR r0 m0 0x1000#32 1#32) = some 0x02#8 := by decide
/-- R124, R121: a read across the end of storage. -/
theorem test_rbRead_wraps :
    (out (exec (.rbRead 0 .dirq) (sR (ring 3 1 2) [(0x2000, 0xB#8), (0x2003, 0xA#8)] 0x1100#32 5#32))).map
      (fun t => (t.portDirq.res0, t.rings.map (·.ring.ix), Memory.read t.mem 0x1100, Memory.read t.mem 0x1101)) =
      some (some 2#32, [⟨4, 1, 1, 0⟩], some 0xA#8, some 0xB#8) := by decide
/-- R125: an empty ring answers 0 and leaves `RES1`. -/
theorem test_rbPop_empty :
    (out (exec (.rbPop 0 .dirq) (sR r0 [] 0#32 0#32))).map (fun t => (t.portDirq.res0, t.portDirq.res1)) =
      some (some 0#32, none) := by decide
theorem test_rbPop :
    (out (exec (.rbPop 0 .dirq) (sR (ring 3 0 1) [(0x2003, 0x77#8)] 0#32 0#32))).map
      (fun t => (t.portDirq.res0, t.portDirq.res1, t.rings.map (·.ring.ix.rd))) =
      some (some 1#32, some 0x77#32, [0]) := by decide
/-- V-RB6: the fault, nothing moved. -/
theorem test_rbSkip_underflow :
    (out (exec (.rbSkip 0 .dirq) (sR (ring 0 3 3) [] 4#32 0#32))).map
      (fun t => (t.csr.code, t.faults.rbUnderflow, t.rings.map (·.ring.ix))) =
      some (0x83#8, true, [⟨4, 0, 3, 3⟩]) := by decide
/-- V-RB10: a full ring. -/
theorem test_rbPeek :
    (out (exec (.rbPeek 0 .dirq) (sR (ring 0 0 4) [] 0#32 0#32))).map
      (fun t => (t.portDirq.res0, t.portDirq.res1)) = some (some 0x2000#32, some 4#32) := by decide
/-- V-RB9: the write index wraps and the ring is full. -/
theorem test_rbCommit :
    (out (exec (.rbCommit 0 .fg) (sR (ring 0 3 3) [] 1#32 0#32))).map (·.rings.map (·.ring.ix)) =
      some [⟨4, 0, 0, 4⟩] := by decide
/-- V-RB8. -/
theorem test_rbCommit_overflow : code (.rbCommit 0 .fg) (sR (ring 0 3 3) [] 2#32 0#32) = some 0x82#8 := by
  decide
/-- V-RB7, V-RB11. -/
theorem test_rbUsed :
    (out (exec (.rbUsed 0 .dirq) (sR (ring 0 3 3) [] 0#32 0#32))).map (·.portDirq.res0) =
      some (some 3#32) ∧
    code (.rbUsed 1 .fg) (sR r0 [] 0#32 0#32) = some 0x03#8 := by decide

/-- E5: 115200 from 16 MHz. -/
theorem test_ldSetSpeed :
    (out (exec (.ldSetSpeed 0 .fg) (sU u0 115200#32))).map
      (fun t => (t.portFg.res0, t.uarts.map fun x => (x.ld.mant, x.ld.frac))) =
      some (some 115107#32, [(some 17, some 3)]) := by decide
/-- V-LD7, V-LD8: a half rounds up, less rounds to 0. -/
theorem test_divisor : divisor 15 10 = 2 ∧ divisor 4 10 = 0 ∧ divisor 4294967295 3 = 1431655765 := by decide
/-- V-LD23, V-LD21. -/
theorem test_ldSetFrame :
    (out (exec (.ldSetFrame 0 .fg 1 2 8) (sU u0))).map
      (fun t => t.uarts.map fun x => (x.ld.dataBits, x.ld.parity, x.ld.stopBits)) =
      some [(some 8, some .even, some .two)] ∧
    code (.ldSetFrame 0 .fg 0 0 7) (sU u0) = some 0x03#8 := by decide
/-- V-LD35, V-LD31. -/
theorem test_ldSetFlow :
    (out (exec (.ldSetFlow 0 .fg 3) (sU u0))).map (·.uarts.map (·.ld.flow)) = some [some .ctsRts] ∧
    code (.ldSetFlow 0 .fg 3) (sU (live 0)) = some 0x04#8 := by decide
/-- V-LD24, V-LD20. -/
theorem test_ldEnable :
    (out (exec (.ldEnable 0 .fg 0) (sU { u0 with ld := { u0.ld with dataBits := some 8 } }))).map
      (fun t => t.uarts.map fun x => (x.ld.rxEn, x.ld.txEn, x.ld.periphEn)) =
      some [(.enabled, .disabled, true)] ∧
    code (.ldEnable 0 .fg 2) (sU u0) = some 0x04#8 := by decide
/-- V-LD32: the read-side enables go, `periphEn` stays. -/
theorem test_ldDisable :
    (out (exec (.ldDisable 0 .fg 0)
        (sU { live 0 with ld := { (live 0).ld with ie := 0b101000001#9 } }))).map
      (fun t => t.uarts.map fun x => (x.ld.rxEn, x.ld.txEn, x.ld.periphEn, x.ld.ie)) =
      some [(.disabled, .enabled, true, 0b001000000#9)] := by decide
/-- V-LD25, V-LD27. -/
theorem test_ldArmIrq :
    (out (exec (.ldArmIrq 0 .fg 8) (sU (live 0)))).map (·.uarts.map (·.ld.ie)) = some [0b100000000#9] ∧
    code (.ldArmIrq 0 .fg 6) (sU u0) = some 0x04#8 := by decide
theorem test_ldDisarmIrq :
    (out (exec (.ldDisarmIrq 0 .fg 6)
        (sU { live 0 with ld := { (live 0).ld with ie := 0b101000001#9 } }))).map (·.uarts.map (·.ld.ie)) =
      some [0b100000001#9] := by decide
/-- V-LD40: all nine conditions, in the fixed order; TXE alone stays. -/
theorem test_ldIrq :
    (out (exec (.ldIrq 0 .pirq) (sU (live 0b111111111#9)))).map
      (fun t => (t.notif.map (·.2), t.uarts.map (·.line.sr))) =
      some ([.overrunError, .framingError, .parityError, .noiseDetected, .lineBreak, .dataAvailable,
        .transmitReady, .transmitComplete, .idleLine], [0b001000000#9]) := by decide
/-- V-BS8: both errors reach the pending read's handle. -/
theorem test_ldIrq_forwards :
    (out (exec (.ldIrq 0 .pirq)
        (sU { live 0b000100110#9 with bs := { u0.bs with pend := ⟨0x3000#32, 4#32, 0x77#32⟩ } }))).map
      (·.evq) = some [(0x77#32, .framingError), (0x77#32, .parityError)] := by decide
/-- V-LD46. -/
theorem test_ldRdUnit :
    (out (exec (.ldRdUnit 0 .fg) (sU (live 0b000100000#9)))).map
      (fun t => (t.portFg.res0, t.uarts.map (·.line.sr))) = some (some 0x41#32, [0#9]) := by decide
/-- V-LD55, V-LD52. -/
theorem test_ldWrUnit :
    (out (exec (.ldWrUnit 0 .fg) (sU (live 0b011000000#9) 0x55#32))).map
      (fun t => t.uarts.map fun x => (x.line.txLine, x.line.sr)) = some [([0x55#32], 0#9)] ∧
    code (.ldWrUnit 0 .fg) (sU (live 0) 0x55#32) = some 0x04#8 := by decide
/-- V-LD56: a hold. -/
theorem test_ldWaitTc :
    (out (exec (.ldWaitTc 0 .fg) (sU (live 0)))).map (fun t => (t.held, t.csr.hold)) =
      some (some (.waitTc 0), true) := by decide
/-- R171: with the unit there, nothing happens. -/
theorem test_ldWaitRxne :
    out (exec (.ldWaitRxne 0 .fg) (sU (live 0b000100000#9))) = some (sU (live 0b000100000#9)) := by decide
/-- V-LD71, V-LD72. -/
theorem test_ldClkChg :
    (out (exec (.ldClkChg 0 .fg 1) (sU { u0 with ld := { u0.ld with speed := 115200#32 } } 8000000#32))).map
      (fun t => (t.clkFreq, t.uarts.map fun x => (x.ld.mant, x.ld.frac))) =
      some ([8000000], [(some 8, some 5)]) ∧
    code (.ldClkChg 0 .fg 1) (sU { u0 with ld := { u0.ld with speed := 115200#32 } } 50000#32) =
      some 0x03#8 := by decide

/-- P4 step 17: six bytes queued, the run handed to the channel. -/
theorem test_bsWrite :
    (out (exec (.bsWrite 0 .fg) (sU u0 0x1000#32 6#32))).map
      (fun t => (t.portFg.res0, t.uarts.map fun x => (x.bs.tx.ix, x.bs.txInFlight, x.txch.maddr, x.txch.count))) =
      some (some 6#32, [(⟨8, 0, 6, 6⟩, 6, 0x2000, 6)]) := by decide
/-- V-LD63. -/
theorem test_bsWrite_noChannel : code (.bsWrite 0 .fg) (sU (bare u0) 0x1000#32 0#32) = some 0x05#8 := by decide

/-- The write side of P4 before step 37: 8 bytes queued from index 6, 2 in flight and moved. -/
def sending : Uart :=
  { u0 with
    bs := { u0.bs with tx := ⟨⟨8, 6, 6, 8⟩, 0x2000⟩, txInFlight := 2 }
    txch := { u0.txch with maddr := 0x2006, count := 2, remaining := 0, done := true } }
/-- P4 step 37: two bytes released, the run at the start of storage chained. -/
theorem test_bsTxDone :
    (out (exec (.bsTxDone 0 .dirq) (sU sending))).map
      (fun t => t.uarts.map fun x => (x.bs.tx.ix, x.bs.txInFlight, x.txch.maddr, x.txch.count, x.txch.done)) =
      some [(⟨8, 0, 6, 6⟩, 6, 0x2000, 6, false)] := by decide

/-- Two bytes received and committed. -/
def received : Uart := { u0 with bs := { u0.bs with rx := ⟨⟨64, 0, 2, 2⟩, 0x1000⟩ } }
/-- R205: exactly the length asked for. -/
theorem test_bsReadB :
    (out (exec (.bsReadB 0 .fg) (sU received 0x3000#32 1#32))).map
      (fun t => (t.portFg.res0, t.uarts.map (·.bs.rx.ix), Memory.read t.mem 0x3000)) =
      some (some 1#32, [⟨64, 1, 2, 1⟩], some 0x10#8) := by decide
/-- V-BS7: too little buffered, the command holds. -/
theorem test_bsReadB_holds :
    (out (exec (.bsReadB 0 .fg) (sU received 0x3000#32 3#32))).map (fun t => (t.held, t.csr.hold)) =
      some (some (.readB 0), true) := by decide
/-- V-BS1, E6: the request is recorded and 0 returned. -/
theorem test_bsReadNb :
    (out (exec (.bsReadNb 0 .fg) (sU u0 0x3000#32 10#32 0xA1#32))).map
      (fun t => (t.portFg.res0, t.uarts.map (·.bs.pend))) =
      some (some 0#32, [⟨0x3000#32, 10#32, 0xA1#32⟩]) := by decide

/-- A receive channel of 4 elements with a completion to acknowledge. -/
def rxReady (prev cur used : Nat) (pend : PendingRead) : Uart :=
  { u0 with
    rxch := { u0.rxch with count := 4, remaining := cur, done := true }
    bs := { u0.bs with rx := ⟨⟨4, 0, used % 4, used⟩, 0x1000⟩, prevCount := prev, pend := pend } }
/-- E3 with `RXN = 4`: from 1 to 3 is two units, across the reload. -/
theorem test_bsRxDone :
    (out (exec (.bsRxDone 0 .dirq) (sU (rxReady 1 3 1 ⟨0#32, 0#32, 0#32⟩)))).map
      (fun t => t.uarts.map fun x => (x.bs.rx.ix, x.bs.prevCount, x.rxch.done)) =
      some [(⟨4, 0, 3, 3⟩, 3, false)] := by decide
/-- V-BS4: a count of 0 is outside the countdown's range. -/
theorem test_bsRxDone_delta : code (.bsRxDone 0 .dirq) (sU (rxReady 4 0 0 ⟨0#32, 0#32, 0#32⟩)) = some 0x81#8 := by
  decide
/-- R216, R217. -/
theorem test_tbEnable :
    (out (exec (.tbEnable 0 .fg 1) (sU u0))).map (·.uarts.map (·.tb)) = some [⟨true, false⟩] ∧
    code (.tbEnable 0 .fg 0) (sU (bare u0)) = some 0x05#8 := by decide
theorem test_tbDisable :
    (out (exec (.tbDisable 0 .fg 0) (sU { u0 with tb := ⟨true, true⟩ }))).map (·.uarts.map (·.tb)) =
      some [⟨true, false⟩] := by decide

/-- P3: an idle engine starts the transaction with its write phase. -/
theorem test_bteSubmit :
    (out (exec (.bteSubmit 0 .fg) (sE e0 m3 0x4020#32))).map
      (·.engines.map fun e => (e.busLog, e.autoStop, e.txch.maddr, e.txch.remaining)) =
      some [([.start 0x50#32 .wr false], some false, 0x3000, 2)] := by decide
/-- R242: no phase at all. R344: of an address out of bound and a word never written, the lower code. -/
theorem test_bteSubmit_refused :
    code (.bteSubmit 0 .fg) (sE e0 (desc 0x4000 0 0 0 0 0x51 0) 0x4000#32) = some 0x07#8 ∧
    code (.bteSubmit 0 .fg) (sE e0 (word 0x4010 0x80) 0x4000#32) = some 0x03#8 ∧
    code (.bteSubmit 0 .fg) (sE e0 (word 0x4010 0x7F) 0x4000#32) = some 0x06#8 := by decide
theorem test_bteEvAddr :
    (out (exec (.bteEvAddr 0 .pirq) (sE (busy .addressPhase .w false) m3))).map (·.engines.map (·.st)) =
      some [.dataPhaseWrite] := by decide
/-- P3 step 23: repeated start, read phase, no stop. -/
theorem test_bteEvTc :
    (out (exec (.bteEvTc 0 .pirq) (sE (busy .dataPhaseWrite .w false) m3))).map
      (·.engines.map fun e => (e.busLog, e.autoStop, e.rxch.maddr, e.rxch.remaining)) =
      some [([.rstart 0x50#32 .rd false], some true, 0x3100, 3)] := by decide
/-- P3 step 27: stop, pop, completion, shutdown. -/
theorem test_bteEvStop :
    (out (exec (.bteEvStop 0 .pirq) (sE (busy .dataPhaseRead .r true) m3))).map
      (fun t => (t.evq, t.engines.map fun e => (e.busLog, e.periphEn))) =
      some ([(0xB7#32, .success)], [([.stop], false)]) := by decide
theorem test_bteEvNack :
    (out (exec (.bteEvNack 0 .pirq) (sE (busy .addressPhase .w false) m3))).map
      (fun t => (t.evq, t.engines.map fun e => (e.st, e.busLog))) = some ([], [(.idle, [.nack])]) := by decide
/-- V-BTE2: the error is logged and resets the peripheral enable. -/
theorem test_bteEvErr :
    (out (exec (.bteEvErr 0 .pirq 0x12) (sE (busy .dataPhaseWrite .w false) m3))).map
      (·.engines.map fun e => (e.st, e.errLog, e.busLog)) =
      some [(.idle, [.arbitrationLost], [.preset])] := by decide
theorem test_bteDmaDone :
    (out (exec (.bteDmaDone 0 .dirq 1) (sE { e0 with rxch := { e0.rxch with done := true } } m3))).map
      (·.engines.map (·.rxch.done)) = some [false] ∧
    code (.bteDmaDone 0 .dirq 0) (sE e0 m3) = some 0x04#8 := by decide

/-- The environment's operand. -/
def env (a0 : Word) (s : State) : State := { s with portEnv := ⟨a0, 0#32, 0#32, none, none⟩ }
/-- V-LD43: the second unit is lost and overrun is set. -/
theorem test_lineRx_overrun :
    (out (exec (.lineRx 0 .env 0) (env 0x42#32 (sU (live 0b000100000#9))))).map
      (·.uarts.map (·.line)) = some [⟨0b000100001#9, some 0x41#32, []⟩] := by decide
/-- V-LD42: a unit with the line-break flag. -/
theorem test_lineRx :
    (out (exec (.lineRx 0 .env 8) (env 0#32 (sU (live 0))))).map (·.uarts.map (·.line)) =
      some [⟨0b000110000#9, some 0#32, []⟩] := by decide
theorem test_lineTxReady :
    (out (exec (.lineTxReady 0 .env) (sU (live 0)))).map (·.uarts.map (·.line.sr)) =
      some [0b001000000#9] := by decide
/-- V-LD57, V-LD58. -/
theorem test_lineTxComplete :
    (out (exec (.lineTxComplete 0 .env) (sU (live 0b001000000#9)))).map (·.uarts.map (·.line.sr)) =
      some [0b011000000#9] ∧
    code (.lineTxComplete 0 .env) (sU (live 0)) = some 0x04#8 := by decide
theorem test_lineIdle :
    (out (exec (.lineIdle 0 .env) (sU (live 0)))).map (·.uarts.map (·.line.sr)) =
      some [0b100000000#9] := by decide

/-- A unit waiting, the inbound channel enabled and one unit from its reload. -/
def arriving : Uart :=
  { live 0b000100000#9 with
    tb := ⟨true, true⟩
    rxch := { u0.rxch with maddr := 0x2100, count := 4, remaining := 1 } }
/-- R296, R297: the last element is stored, the count reloads, the channel keeps running. R65, R63:
a channel moves neither in frames of 9 data bits nor a 9-bit unit that such a frame left waiting. -/
theorem test_dmaMove_rx :
    (out (exec (.dmaMove 0 .env 1) (sU arriving))).map
      (fun t => (Memory.read t.mem 0x2103, t.uarts.map fun x => (x.rxch.remaining, x.rxch.done, x.rxch.running, x.line.sr))) =
      some (some 0x41#8, [(4, true, true, 0#9)]) ∧
    code (.dmaMove 0 .env 1) (sU { arriving with ld := { arriving.ld with dataBits := some 9 } }) =
      some 0x04#8 ∧
    code (.dmaMove 0 .env 1) (sU { arriving with line := { arriving.line with rdr := some 0x1FF#32 } }) =
      some 0x04#8 := by decide
/-- P3 step 20: a byte goes to the bus. -/
theorem test_dmaMove_busTx :
    (out (exec (.dmaMove 0 .env 2)
        (sE { busy .dataPhaseWrite .w false with txch := e0.txch.arm 0x3000 2 } m3))).map
      (·.engines.map fun e => (e.busLog, e.txch.remaining, e.txch.done)) =
      some [([.w 0x10#8], 1, false)] := by decide

/-! ### Witnesses: for each statement with hypotheses, concrete data that meets them, clause by clause -/

/-- The trace's first entry is one operation word. -/
def issuing (w : Word) (s : State := .reset) : State := { s with acts := [.issue w 0#32 0#32 0#32] }

theorem witness_EncodeOfDecode : decode 0x21000089#32 = .ok (.ldSetFrame 0 .fg 1 2 8) := by decide
theorem witness_StepRunsDecodedOperation :
    (issuing 0x21000080#32).held = none ∧
    (issuing 0x21000080#32).acts = .issue 0x21000080#32 0#32 0#32 0#32 :: [] ∧
    decode 0x21000080#32 = .ok (.ldSetFrame 0 .fg 0 0 8) := by decide
theorem witness_StepOfReservedWords :
    (issuing 0x17000000#32).held = none ∧
    (issuing 0x17000000#32).acts = .issue 0x17000000#32 0#32 0#32 0#32 :: [] ∧
    decode 0x17000000#32 = .error .reservedOpcode := by decide
/-- A port with both results written, and the port after reset. -/
theorem witness_ResultReads :
    ({ State.reset with acts := [.readRes .fg .res0], portFg := ⟨0, 0, 0, some 1#32, some 2#32⟩ } : State).held =
      none ∧
    (({ State.reset with portFg := ⟨0, 0, 0, some 1#32, some 2#32⟩ } : State).port .fg).res0.isSome = true ∧
    (({ State.reset with portFg := ⟨0, 0, 0, some 1#32, some 2#32⟩ } : State).port .fg).res1.isSome = true ∧
    (State.reset.port .dirq).res0 = none ∧ (State.reset.port .env).res1 = none := by decide

/-- FG waits for a transmit completion that is not there; PIRQ's entry stands behind one of FG's. -/
def waiting (sr : BitVec 9) (h : Held) (acts : List Act) : State :=
  { (sU (live sr) 0x3000#32 2#32).hold h with acts := acts }

theorem witness_HoldingForeground :
    (waiting 0 (.waitTc 0) [.readRes .fg .res0]).held = some (.waitTc 0) ∧
    (waiting 0 (.waitTc 0) [.readRes .fg .res0]).lifted (.waitTc 0) = false ∧
    (∀ x ∈ (waiting 0 (.waitTc 0) [.readRes .fg .res0]).acts, x.byFg = true) ∧
    (waiting 0 (.waitTc 0) [.readRes .fg .res0, .issue 0x27040000#32 0 0 0]).acts =
      [.readRes .fg .res0] ++ .issue 0x27040000#32 0 0 0 :: [] ∧
    (∀ x ∈ [Act.readRes .fg .res0], x.byFg = true) ∧
    decode 0x27040000#32 = .ok (.ldIrq 0 .pirq) ∧ (Instr.ldIrq 0 .pirq).agentOf ≠ .fg := by decide
/-- A wake-up, a reserved word and two result reads, each behind one of FG's entries. -/
theorem witness_HoldingForeground_others :
    let w := waiting 0 (.waitTc 0)
    (w [.readRes .fg .res0, .wake]).acts = [.readRes .fg .res0] ++ .wake :: [] ∧
    (w [.readRes .fg .res0, .issue 0x17040000#32 0 0 0]).acts =
      [.readRes .fg .res0] ++ .issue 0x17040000#32 0 0 0 :: [] ∧
    decode 0x17040000#32 = .error .reservedOpcode ∧ issuerOf 0x17040000#32 ≠ .fg ∧
    (w [.readRes .dirq .res0]).acts = [] ++ .readRes .dirq .res0 :: [] ∧ Agent.dirq ≠ .fg ∧
    ((w []).port .dirq).res0 = none ∧
    ((({ w [] with portDirq := ⟨0, 0, 0, none, some 1#32⟩ } : State).port .dirq).res1).isSome = true := by
  decide
theorem witness_HoldLifts_flags :
    (waiting 0b010000000#9 (.waitTc 0) []).uarts[0]? = some (live 0b010000000#9) ∧
    (waiting 0b010000000#9 (.waitTc 0) []).acts = [] ∧
    (waiting 0b010000000#9 (.waitTc 0) [.wake]).acts = .wake :: [] ∧
    (Act.readRes .fg .res0).byFg = true ∧
    (live 0b010000000#9).line.sr.getLsbD 7 = true ∧ (live 0b000100000#9).line.sr.getLsbD 5 = true ∧
    issuerOf 0x28000000#32 = .fg := by decide
/-- The length is exactly what is buffered. -/
theorem witness_HoldLifts_read :
    let s : State := (sU received 0x3000#32 2#32).hold (.readB 0)
    s.held = some (.readB 0) ∧ s.uarts[0]? = some received ∧ s.acts = [] ∧
    s.portFg.arg1.toNat ≤ received.bs.rx.ix.used ∧
    SpanAllowed s s.portFg.arg0.toNat s.portFg.arg1.toNat ∧
    (∀ k < s.portFg.arg1.toNat, ByteReadable s (received.bs.rx.unreadAddr k)) := by decide
/-- A destination of which the last byte alone lies outside MEM; and PIRQ's entry before FG's. -/
theorem witness_HoldLifts_refused :
    let s : State := (sU received 0x5FFF#32 2#32).hold (.readB 0)
    s.held = some (.readB 0) ∧ s.portFg.arg1.toNat ≤ received.bs.rx.ix.used ∧
    ¬ SpanAllowed s s.portFg.arg0.toNat s.portFg.arg1.toNat := by decide
theorem witness_HoldLifts_other :
    let s := waiting 0b010000000#9 (.waitTc 0) [.issue 0x27040000#32 0 0 0, .readRes .fg .res0]
    s.held = some (.waitTc 0) ∧ s.lifted (.waitTc 0) = true ∧
    s.acts = .issue 0x27040000#32 0 0 0 :: [.readRes .fg .res0] ∧
    decode 0x27040000#32 = .ok (.ldIrq 0 .pirq) ∧ (Instr.ldIrq 0 .pirq).agentOf ≠ .fg := by decide
theorem witness_ResetLeavesTheStateOfR44 :
    ∃ x ∈ (State.ofConfig .harness).uarts, x.par.hasRxDma = true := ⟨u0, by decide, by decide⟩
theorem witness_ResetSatisfiesTheInvariants : Config.harness.valid = true := by decide

theorem witness_Reserved :
    (Instr.ldArmIrq 0 .fg 9).fieldsOk = false ∧
    ((Instr.ldIrq 0 .dirq).fieldsOk = true ∧ (Instr.ldIrq 0 .dirq).agentOk = false) ∧
    ((Instr.rbUsed 1 .fg).wellFormed = true ∧ ¬ 1 < (sR r0 [] 0 0).rings.length) ∧
    (sR r0 [] 0 0).rings[(0#4).toNat]? = some r0 ∧
    (Agent.pirq ≠ .env ∧ Agent.pirq ≠ r0.prod ∧ Agent.pirq ≠ r0.cons) := by decide
/-- The last word of MEM, the last byte of it and the byte after it; a value one too wide. -/
theorem witness_MemStore :
    let s := sM m0 0x5FFC#32 0xFFFF#32
    (s.portFg.arg1.toNat < 2 ^ (8 * 4) ∧ s.portFg.arg0.toNat % 4 = 0 ∧ InRegion s s.portFg.arg0.toNat 4) ∧
    2 ^ (8 * 1) ≤ (sM m0 0x1000#32 0x100#32).portFg.arg1.toNat ∧
    (0xFF < 2 ^ (8 * 1) ∧ ¬ InRegion s 0x6000 1) ∧ (0x5FFE % 4 ≠ 0 ∧ 0xFFFF < 2 ^ (8 * 4)) := by decide
theorem witness_MemLoad :
    let s := sM m0 0x100C#32 0#32
    let b : Nat → Byte := fun k => BitVec.ofNat 8 (0x1C + k)
    s.portFg.arg0.toNat % 4 = 0 ∧ InRegion s s.portFg.arg0.toNat 4 ∧
    (∀ k < 4, Memory.read s.mem (s.portFg.arg0.toNat + k) = some (b k)) ∧
    (∃ k < 4, Memory.read s.mem (0x100E + k) = none) := by decide

/-- Two bytes of room, at the end of storage and at its start; three asked for. -/
theorem witness_RbWrite :
    let b := ring 1 3 2
    let s := sR b m0 0x1000#32 3#32
    s.rings[(0#4).toNat]? = some b ∧ b.prod ≠ .env ∧ SpanHolds s 0x1000 2 ∧
    (∀ k < 2, InRegion s (b.ring.freeAddr k) 1) ∧ b.ring.clearOf 0x1000 2 ∧
    ¬ SpanHolds (sR b [] 0x1000#32 3#32) 0x1000 2 := by decide
theorem witness_RbWrite_ring : (ring 1 3 2).ring.ix.Inv := by simp [Ring.Inv, ring]
/-- Two bytes to deliver, across the end of storage; three asked for. -/
theorem witness_RbRead :
    let b := ring 3 1 2
    let s := sR b [(0x2000, 0xB#8), (0x2003, 0xA#8)] 0x1100#32 3#32
    s.rings[(0#4).toNat]? = some b ∧ b.cons ≠ .env ∧ SpanAllowed s 0x1100 2 ∧
    (∀ k < 2, ByteReadable s (b.ring.unreadAddr k)) ∧ b.ring.clearOf 0x1100 2 ∧
    ¬ SpanAllowed s 0x5FFF 2 ∧ ¬ ByteReadable s 0x2001 := by decide
theorem witness_RbRead_ring : (ring 3 1 2).ring.ix.Inv := by simp [Ring.Inv, ring]
theorem witness_RbPop :
    let b := ring 3 0 1
    let s := sR b [(0x2003, 0x77#8)] 0#32 0#32
    s.rings[(0#4).toNat]? = some b ∧ b.cons ≠ .env ∧ (ring 3 3 0).ring.ix.used = 0 ∧
    b.ring.ix.used ≠ 0 ∧ InRegion s (b.ring.base + b.ring.ix.rd) 1 ∧
    Memory.read s.mem (b.ring.base + b.ring.ix.rd) = some 0x77#8 ∧
    ¬ ByteReadable (sR b [] 0#32 0#32) (b.ring.base + b.ring.ix.rd) ∧
    Agent.fg ≠ .env ∧ Agent.fg = b.prod := by decide
/-- Exactly what is there, and one more; exactly the room, and one more. -/
theorem witness_RbSkipAndCommit :
    let b := ring 1 0 3
    (sR b [] 3#32 0#32).rings[(0#4).toNat]? = some b ∧ b.cons ≠ .env ∧ b.prod ≠ .env ∧
    ((sR b [] 3#32 0#32).port b.cons).arg0.toNat ≤ b.ring.ix.used ∧
    b.ring.ix.used < ((sR b [] 4#32 0#32).port b.cons).arg0.toNat ∧
    b.ring.ix.used + ((sR b [] 1#32 0#32).port b.prod).arg0.toNat ≤ b.ring.ix.n ∧
    b.ring.ix.n < b.ring.ix.used + ((sR b [] 2#32 0#32).port b.prod).arg0.toNat := by decide
theorem witness_RingIsFirstInFirstOut :
    let b := ring 3 1 2
    let s := sR b ([(0x1000, 1#8), (0x1001, 2#8)] ++ [(0x2000, 0xB#8), (0x2003, 0xA#8)]) 0x1000#32 2#32
    s.rings[(0#4).toNat]? = some b ∧ (∀ k < b.ring.ix.n, InRegion s (b.ring.base + k) 1) ∧
    SpanHolds s 0x1000 2 ∧ b.ring.clearOf 0x1000 2 ∧ SpanAllowed s 0x1000 2 ∧
    (∀ k < b.ring.ix.used, (Memory.read s.mem (b.ring.unreadAddr k)).isSome = true) ∧
    ((sR b [] 2#32 0#32).port b.cons).arg0.toNat ≤ b.ring.ix.used ∧ b.ring.ix.used ≠ 0 ∧
    Memory.read s.mem (b.ring.unreadAddr 0) = some 0xA#8 ∧ b.prod ≠ .env ∧
    b.ring.ix.used + ((sR b [] 2#32 0#32).port b.prod).arg0.toNat ≤ b.ring.ix.n := by decide

/-- 32000000 divides to 1, 32000001 to 0 (V-LD11, V-LD12). -/
theorem witness_LdSetSpeed :
    let s := sU u0 32000000#32
    s.uarts[(0#4).toNat]? = some u0 ∧ s.clkFreq[u0.par.clkCh]? = some 16000000 ∧
    (s.portFg.arg0.toNat ≠ 0 ∧ (16000000 + s.portFg.arg0.toNat / 2) / s.portFg.arg0.toNat ≠ 0) ∧
    (sU u0 0#32).portFg.arg0.toNat = 0 ∧ (16000000 + 32000001 / 2) / 32000001 = 0 := by decide
theorem witness_DivisorRoundsToNearest : 1 ≤ 10 ∧ 1 ≤ 8 ∧ divisor 15 10 = 2 := by decide
theorem witness_LdFrameAndFlow :
    (sU u0).uarts[(0#4).toNat]? = some u0 ∧ (2#2 : BitVec 2) ≠ 3#2 ∧
    (9#8).toNat ∈ (sU u0).dataBitsLegal ∧ (7#8).toNat ∉ (sU u0).dataBitsLegal ∧
    u0.ld.rxEn = .disabled ∧ u0.ld.txEn = .disabled ∧ (live 0).ld.rxEn = .enabled := by decide
theorem witness_LdEnableAndDisable :
    (sU (live 0)).uarts[(0#4).toNat]? = some (live 0) ∧ (2#2 : BitVec 2) ≠ 3#2 ∧
    (live 0).ld.dataBits.isSome = true ∧ u0.ld.dataBits = none := by decide
/-- Condition 8, the last of the read side, and 6, the first of the write side. -/
theorem witness_LdArmAndDisarm :
    (sU (live 0)).uarts[(0#4).toNat]? = some (live 0) ∧ (8#4).toNat ≤ 8 ∧
    (if (8#4).toNat = 6 ∨ (8#4).toNat = 7 then (live 0).ld.txEn else (live 0).ld.rxEn) = .enabled ∧
    (if (6#4).toNat = 6 ∨ (6#4).toNat = 7 then u0.ld.txEn else u0.ld.rxEn) = .disabled := by decide
theorem witness_LdIrq :
    let x := live 0b000100110#9
    (sU x).uarts[(0#4).toNat]? = some x ∧ (sU x).irqMask = false ∧ x.irq.enabled = true ∧
    x.irq.bound = true ∧ x.line.sr.getLsbD 8 = false ∧
    ({ x.irq with enabled := false } : IrqLine).enabled = false := by decide
/-- The idle instance with a read ring of 4, of which `used` are buffered; the counts and the PendingRead
given. -/
def idling (prev cur used : Nat) (pend : PendingRead) : Uart :=
  { rxReady prev cur used pend with
    ld := (live 0).ld, line := ⟨0b100000000#9, some 0x41#32, []⟩ }
/-- Three units committed into an empty ring of 4; a read of exactly their number, and one whose buffer
is not in MEM; three units where two fit; a count of 0, which is out of range. -/
theorem witness_LdIrqIdle :
    let x := idling 4 1 0 ⟨0#32, 0#32, 0#32⟩
    let y := idling 4 1 0 ⟨0x3000#32, 3#32, 7#32⟩
    let s := sU y
    (sU x).uarts[(0#4).toNat]? = some x ∧ (sU x).irqMask = false ∧ x.irq.enabled = true ∧
    x.irq.bound = true ∧ x.line.sr.getLsbD 8 = true ∧ x.par.hasRxDma = true ∧
    ((3 : Nat) : Int) = wrappedDelta x.bs.prevCount x.rxch.remaining 4 ∧ 3 < 4 ∧
    x.bs.rx.ix.used + 3 ≤ 4 ∧ x.bs.pend.rem = 0#32 ∧
    y.bs.pend.rem ≠ 0#32 ∧ y.bs.pend.rem.toNat ≤ y.bs.rx.ix.used + 3 ∧
    SpanAllowed s 0x3000 3 ∧ (∀ k < 3, ByteReadable s (y.bs.rx.unreadAddr k)) ∧
    ¬ SpanAllowed s 0x5FFE 3 ∧
    4 < (idling 4 1 2 ⟨0#32, 0#32, 0#32⟩).bs.rx.ix.used + 3 ∧
    (4 : Int) ≤ wrappedDelta 4 (idling 4 0 0 ⟨0#32, 0#32, 0#32⟩).rxch.remaining 4 := by decide
theorem witness_LdRawUnits :
    let x := bare (live 0b001100000#9)
    let s := sU x 0xFF#32
    s.uarts[(0#4).toNat]? = some x ∧
    (x.ld.rxEn = .enabled ∧ x.ld.periphEn = true ∧ ¬(x.par.hasRxDma = true ∧ x.tb.dmaRxEn = true)) ∧
    x.line.sr.getLsbD 5 = true ∧ x.line.rdr = some 0x41#32 ∧
    (x.ld.txEn = .enabled ∧ x.ld.periphEn = true ∧ ¬(x.par.hasTxDma = true ∧ x.tb.dmaTxEn = true)) ∧
    x.line.sr.getLsbD 6 = true ∧ x.ld.dataBits = some 8 ∧ s.portFg.arg0.toNat < 2 ^ 8 ∧
    2 ^ 8 ≤ (sU x 0x100#32).portFg.arg0.toNat ∧ (live 0).line.sr.getLsbD 5 = false ∧
    (live 0).line.sr.getLsbD 6 = false := by decide
theorem witness_LdWaits :
    (sU (live 0)).uarts[(0#4).toNat]? = some (live 0) ∧
    ((live 0).ld.txEn = .enabled ∧ (live 0).ld.periphEn = true ∧
      ¬((live 0).par.hasTxDma = true ∧ (live 0).tb.dmaTxEn = true)) ∧
    (live 0).line.sr.getLsbD 7 = false ∧ (live 0b010000000#9).line.sr.getLsbD 7 = true ∧
    (live 0).line.sr.getLsbD 5 = false ∧ (live 0b000100000#9).line.sr.getLsbD 5 = true ∧
    u0.ld.txEn ≠ .enabled ∧ u0.ld.rxEn ≠ .enabled := by decide
/-- 57600 Hz over 115200 is a half and rounds up to 1; 57599 Hz rounds to 0. -/
theorem witness_LdClkChg :
    let x := { u0 with ld := { u0.ld with speed := 115200#32 } }
    (0#4).toNat < (sU x).clkFreq.length ∧ (x.par.clkCh = (0#4).toNat ∧ x.ld.speed ≠ 0#32) ∧
    (57600 + x.ld.speed.toNat / 2) / x.ld.speed.toNat ≠ 0 ∧
    (57599 + x.ld.speed.toNat / 2) / x.ld.speed.toNat = 0 ∧ x ∈ (sU x 57599#32).uarts := by decide

/-- Room for all six bytes; nothing in flight; a channel, and none. -/
theorem witness_BsWrite :
    let s := sU u0 0x1000#32 6#32
    s.uarts[(0#4).toNat]? = some u0 ∧ u0.par.hasTxDma = true ∧ SpanHolds s 0x1000 6 ∧
    (∀ k < 6, InRegion s (u0.bs.tx.freeAddr k) 1) ∧ (bare u0).par.hasTxDma = false ∧
    ¬ SpanHolds s 0x100F 2 := by decide
theorem witness_BsTxDone :
    (sU sending).uarts[(0#4).toNat]? = some sending ∧ sending.par.hasTxDma = true ∧
    (sending.txdmaIrq.enabled = true ∧ sending.txch.done = true ∧ sending.bs.txInFlight ≠ 0) ∧
    sending.bs.txInFlight ≤ sending.bs.tx.ix.used ∧ u0.txch.done ≠ true ∧
    (bare sending).par.hasTxDma = false := by decide
/-- Exactly what is buffered, and one byte more. -/
theorem witness_BsReadB :
    let s := sU received 0x3000#32 2#32
    s.uarts[(0#4).toNat]? = some received ∧ received.par.hasRxDma = true ∧ SpanAllowed s 0x3000 2 ∧
    2 ≤ received.bs.rx.ix.used ∧ (∀ k < 2, ByteReadable s (received.bs.rx.unreadAddr k)) ∧
    received.bs.rx.ix.used < 3 ∧ SpanAllowed s 0x3000 3 ∧ (bare received).par.hasRxDma = false ∧
    ¬ SpanAllowed s 0x5FFF 2 ∧
    ¬ ByteReadable { s with mem := [] } (received.bs.rx.unreadAddr 0) := by decide
theorem witness_BsReadNb :
    let s := sU received 0x3000#32 2#32 0xA1#32
    s.uarts[(0#4).toNat]? = some received ∧ s.portFg.arg2 ≠ 0#32 ∧ received.par.hasRxDma = true ∧
    s.portFg.arg1.toNat ≤ received.bs.rx.ix.used ∧ SpanAllowed s 0x3000 2 ∧
    (∀ k < 2, ByteReadable s (received.bs.rx.unreadAddr k)) ∧ received.bs.rx.ix.used < 3 ∧
    (sU received).portFg.arg2 = 0#32 ∧ (bare received).par.hasRxDma = false ∧
    ¬ SpanAllowed s 0x5FFF 2 := by decide
/-- Two units across the reload, with no read pending, with one of exactly their number, with one whose
buffer is not in MEM; a ring with no room for them; wrapped differences above and below the range. -/
theorem witness_BsRxDone :
    let x := rxReady 1 3 0 ⟨0#32, 0#32, 0#32⟩
    let y := rxReady 1 3 0 ⟨0x3000#32, 2#32, 7#32⟩
    let s := sU y
    (sU x).uarts[(0#4).toNat]? = some x ∧ (sU x).irqMask = false ∧ x.par.hasRxDma = true ∧
    (x.rxdmaIrq.enabled = true ∧ x.rxch.done = true) ∧
    ((2 : Nat) : Int) = wrappedDelta x.bs.prevCount x.rxch.remaining 4 ∧ 2 < 4 ∧
    x.bs.rx.ix.used + (1 + 4 - 3) ≤ 4 ∧ x.bs.pend.rem = 0#32 ∧
    y.bs.pend.rem ≠ 0#32 ∧ y.bs.pend.rem.toNat ≤ y.bs.rx.ix.used + (1 + 4 - 3) ∧
    SpanAllowed s 0x3000 2 ∧ (∀ k < 2, ByteReadable s (y.bs.rx.unreadAddr k)) ∧
    ¬ SpanAllowed s 0x7000 2 ∧
    4 < (rxReady 1 3 3 ⟨0#32, 0#32, 0#32⟩).bs.rx.ix.used + (1 + 4 - 3) ∧
    (4 : Int) ≤ wrappedDelta 4 (rxReady 4 0 0 ⟨0#32, 0#32, 0#32⟩).rxch.remaining 4 ∧
    wrappedDelta 0 (rxReady 0 5 0 ⟨0#32, 0#32, 0#32⟩).rxch.remaining 4 < 0 ∧
    (bare x).par.hasRxDma = false ∧ u0.rxch.done ≠ true := by decide
theorem witness_CoalescedDelta : 1 ≤ 1 ∧ 1 ≤ 64 ∧ 1 ≤ 64 ∧ 64 ≤ 64 ∧ coalescedDelta 1 64 64 = 1 := by decide
theorem witness_TbEnableAndDisable :
    (sU u0).uarts[(0#4).toNat]? = some u0 ∧ (2#2 : BitVec 2) ≠ 3#2 ∧ u0.par.hasRxDma = true ∧
    u0.par.hasTxDma = true ∧ (bare u0).par.hasRxDma = false ∧ (bare u0).par.hasTxDma = false := by decide

/-- The combined transaction of P3 and a reading one (V-BTE1). -/
theorem witness_StartSequence :
    let e := busy .addressPhase .w false
    let s := sE e m3
    let r := sE e (desc 0x4020 0 0 0x3100 2 0x22 0)
    headIs e 0x4020#32 ∧ HoldsWord s 0x4024 2#32 ∧ HoldsWord s 0x402C 3#32 ∧ HoldsWord s 0x4030 0x50#32 ∧
    0 < (2#32).toNat ∧ HoldsWord s 0x4020 0x3000#32 ∧
    HoldsWord r 0x4024 0#32 ∧ HoldsWord r 0x402C 2#32 ∧ HoldsWord r 0x4030 0x22#32 ∧
    HoldsWord r 0x4028 0x3100#32 := by decide
/-- Nothing is ever read at an address no byte was written to. -/
theorem holdsWord_absent {s : State} {a : Nat} (h : Memory.read s.mem a = none) : ∀ w, ¬ HoldsWord s a w :=
  fun _ hw => by simpa [h] using hw.2 0 (by decide)
/-- A descriptor whose second word was never written, one whose first was not, one whose third was
not. -/
theorem witness_StartSequence_unreadable :
    let e := busy .addressPhase .w false
    headIs e 0x4020#32 ∧ startUnreadable (sE e []) 0x4020#32 ∧
    startUnreadable (sE e (word 0x4024 2)) 0x4020#32 ∧ startUnreadable (sE e (word 0x4024 0)) 0x4020#32 :=
  ⟨by decide, .inl ⟨4, by decide, holdsWord_absent rfl⟩,
    .inr (.inl ⟨2#32, by decide, by decide, holdsWord_absent (by decide)⟩),
    .inr (.inr ⟨by decide, holdsWord_absent (by decide)⟩)⟩
/-- A valid reference with the queue full, with room on a busy bus, on an idle bus; a misaligned one; an
address one past the 7-bit bound and the last below it; no phase at all. -/
theorem witness_BteSubmit :
    let s := sE e0 m3 0x4020#32
    let full := { busy .addressPhase .w false with
      q := ⟨⟨4, 0, 0, 4⟩, [some 0x4020#32, some 0x4020#32, some 0x4020#32, some 0x4020#32]⟩ }
    s.engines[(0#4).toNat]? = some e0 ∧ s.portFg.arg0.toNat % 4 = 0 ∧
    (HoldsWord s 0x4020 0x3000#32 ∧ HoldsWord s 0x4024 2#32 ∧ HoldsWord s 0x4028 0x3100#32 ∧
      HoldsWord s 0x402C 3#32 ∧ HoldsWord s 0x4030 0x50#32 ∧ HoldsWord s 0x4034 0xB7#32) ∧
    (0x50#32).toNat < (if e0.par.addrW = .bits10 then 2 ^ 10 else 2 ^ 7) ∧ (2#32 : Word) ≠ 0#32 ∧
    full.q.ix.used = full.q.ix.n ∧
    ((busy .addressPhase .w false).q.ix.used ≠ 4 ∧ (busy .addressPhase .w false).st ≠ .idle) ∧
    (e0.q.ix.used ≠ e0.q.ix.n ∧ e0.st = .idle ∧ e0.q.ix.wr = e0.q.ix.rd ∧ e0.q.ix.wr < e0.q.store.length) ∧
    (0x4022#32).toNat % 4 ≠ 0 := by decide
theorem witness_BteSubmit_emptyOrOutOfBound :
    let z := sE e0 (desc 0x4000 0 0 0 0 0x7F 0) 0x4000#32
    let y := sE e0 (desc 0x4000 0 1 0 0 0x80 0) 0x4000#32
    (HoldsWord z 0x4000 0#32 ∧ HoldsWord z 0x4004 0#32 ∧ HoldsWord z 0x4008 0#32 ∧
      HoldsWord z 0x400C 0#32 ∧ HoldsWord z 0x4010 0x7F#32 ∧ HoldsWord z 0x4014 0#32) ∧
    (0x7F#32).toNat < (if e0.par.addrW = .bits10 then 2 ^ 10 else 2 ^ 7) ∧
    HoldsWord y 0x4004 1#32 ∧ HoldsWord y 0x4010 0x80#32 ∧
    (if e0.par.addrW = .bits10 then 2 ^ 10 else 2 ^ 7) ≤ (0x80#32).toNat := by decide
/-- No address to read; an address out of bound, and one in bound, with another word never written. -/
theorem witness_BteSubmit_unreadable :
    let y := sE e0 (word 0x4010 0x80) 0x4000#32
    let z := sE e0 (word 0x4010 0x7F) 0x4000#32
    (0x4000#32).toNat % 4 = 0 ∧ (∀ w, ¬ HoldsWord (sE e0 [] 0x4000#32) 0x4010 w) ∧
    HoldsWord y 0x4010 0x80#32 ∧ HoldsWord z 0x4010 0x7F#32 ∧
    ∃ j < 6, ∀ w, ¬ HoldsWord z ((0x4000#32).toNat + 4 * j) w :=
  ⟨by decide, holdsWord_absent rfl, by decide, by decide, 5, by decide, holdsWord_absent (by decide)⟩
theorem witness_BteAddressAndPhaseChange :
    let e := busy .addressPhase .w false
    let s := sE e m3
    s.engines[(0#4).toNat]? = some e ∧ e.evIrq.enabled = true ∧ e.st = .addressPhase ∧ e.phase = some .w ∧
    (busy .addressPhase .r true).phase = some .r ∧
    (e.autoStop = some false ∧ e.txch.running = false) ∧ headIs e 0x4020#32 ∧
    HoldsWord s 0x4028 0x3100#32 ∧ HoldsWord s 0x402C 3#32 ∧ HoldsWord s 0x4030 0x50#32 ∧
    (busy .dataPhaseRead .r true).st ≠ .addressPhase ∧ e0.st = .idle := by decide
theorem witness_BteEvTc_unreadable :
    ∃ j ∈ [8, 12, 16], ∀ w, ¬ HoldsWord (sE (busy .addressPhase .w false) []) ((0x4020#32).toNat + j) w :=
  ⟨16, by decide, holdsWord_absent rfl⟩
/-- Two transactions queued, and neither descriptor there any more. -/
theorem witness_BteEvents_unreadable :
    let two := { busy .dataPhaseRead .r true with
      q := ⟨⟨4, 3, 1, 2⟩, [some 0x4020#32, none, none, some 0x4040#32]⟩ }
    two.evIrq.enabled = true ∧ two.errIrq.enabled = true ∧ two.st ≠ .idle ∧ two.autoStop = some true ∧
    (two.phase = some .r ∧ two.rxch.running = false) ∧ headIs two 0x4040#32 ∧
    (∀ w, ¬ HoldsWord (sE two []) ((0x4040#32).toNat + 20) w) ∧ 2 ≤ two.q.ix.used ∧
    headIs (ended two) 0x4020#32 ∧ startUnreadable (sE two []) 0x4020#32 :=
  ⟨by decide, by decide, by decide, by decide, by decide, by decide, holdsWord_absent rfl, by decide,
    by decide, .inl ⟨16, by decide, holdsWord_absent rfl⟩⟩
/-- The last transaction, and one with a second queued behind it whose start answers. -/
theorem witness_BteStop :
    let e := busy .dataPhaseRead .r true
    let two := { e with q := ⟨⟨4, 3, 1, 2⟩, [some 0x4020#32, none, none, some 0x4020#32]⟩ }
    let logged : Engine := { two with busLog := two.busLog ++ [.stop] }
    let s := sE e m3
    s.engines[(0#4).toNat]? = some e ∧ s.irqMask = false ∧
    (e.evIrq.enabled = true ∧ e.st ≠ .idle ∧ e.autoStop = some true ∧ e.phase = some .r ∧
      e.rxch.running = false) ∧
    headIs e 0x4020#32 ∧ HoldsWord s 0x4034 0xB7#32 ∧ e.q.ix.used = 1 ∧ headIs two 0x4020#32 ∧
    2 ≤ two.q.ix.used ∧ (ended logged).startHead s = .ok (startedWriting (ended logged) 0x3000#32 2#32 3#32 0x50#32) ∧
    (busy .dataPhaseWrite .w false).autoStop ≠ some true := by
  refine ⟨by decide, by decide, by decide, by decide, by decide, by decide, by decide, by decide, rfl, by decide⟩
theorem witness_BteFailures :
    let e := busy .addressPhase .w false
    let two := { e with q := ⟨⟨4, 3, 1, 2⟩, [some 0x4020#32, none, none, some 0x4020#32]⟩ }
    let nacked : Engine := { two with busLog := two.busLog ++ [.nack] }
    let failed : Engine := { two with
      errLog := two.errLog ++ [.busError], busLog := two.busLog ++ [.preset], periphEn := true }
    let s := sE e m3
    s.engines[(0#4).toNat]? = some e ∧ e.evIrq.enabled = true ∧ e.errIrq.enabled = true ∧ e.st ≠ .idle ∧
    e.q.ix.used = 1 ∧ 2 ≤ two.q.ix.used ∧
    (ended nacked).startHead s = .ok (startedWriting (ended nacked) 0x3000#32 2#32 3#32 0x50#32) ∧
    (ended failed).startHead s = .ok (startedWriting (ended failed) 0x3000#32 2#32 3#32 0x50#32) ∧
    e0.st = .idle := by
  refine ⟨by decide, by decide, by decide, by decide, by decide, by decide, rfl, rfl, by decide⟩
theorem witness_BteDmaDone :
    let e := { e0 with txch := { e0.txch with done := true }, rxch := { e0.rxch with done := true } }
    (sE e []).engines[(0#4).toNat]? = some e ∧ e.txdmaIrq.enabled = true ∧ e.txch.done = true ∧
    e.rxdmaIrq.enabled = true ∧ e.rxch.done = true ∧ e0.txch.done = false ∧ e0.rxch.done = false := by
  decide

/-- A unit delivered, an overrun, a lost unit; the largest 8-bit unit and the first too wide. -/
theorem witness_LineRx :
    let x := live 0
    let s := env 0xFF#32 (sU x)
    s.uarts[(0#4).toNat]? = some x ∧ x.ld.dataBits = some 8 ∧ s.portEnv.arg0.toNat < 2 ^ 8 ∧
    2 ^ 8 ≤ (env 0x100#32 s).portEnv.arg0.toNat ∧ (x.ld.rxEn = .enabled ∧ x.ld.periphEn = true) ∧
    ¬ (x.line.sr.getLsbD 0 = true ∨ x.line.sr.getLsbD 1 = true ∨ x.line.sr.getLsbD 3 = true) ∧
    x.line.sr.getLsbD 5 = false ∧ (live 0b000100000#9).line.sr.getLsbD 5 = true ∧
    (live 0b000001000#9).line.sr.getLsbD 3 = true ∧ u0.ld.rxEn ≠ .enabled := by decide
theorem witness_LineTransmitterAndIdle :
    (sU (live 0)).uarts[(0#4).toNat]? = some (live 0) ∧
    ((live 0).ld.txEn = .enabled ∧ (live 0).ld.rxEn = .enabled ∧ (live 0).ld.periphEn = true) ∧
    (live 0).line.sr.getLsbD 6 = false ∧ (live 0b001000000#9).line.sr.getLsbD 6 = true ∧
    (live 0b001000000#9).line.sr.getLsbD 7 = false ∧ u0.ld.txEn ≠ .enabled ∧ u0.ld.rxEn ≠ .enabled := by
  decide
/-- The first unit of a run of 2 and, inbound, the last of a run of 4. -/
theorem witness_DmaMovesOneSerialUnit :
    let x := { live 0b001100000#9 with
      tb := ⟨true, true⟩, txch := u0.txch.arm 0x1000 2
      rxch := { u0.rxch with maddr := 0x5FFC, count := 4, remaining := 1 } }
    let s := sU x
    s.uarts[(0#4).toNat]? = some x ∧ x.ld.dataBits = some 8 ∧ ¬ 9 ≤ 8 ∧
    (x.par.hasTxDma = true ∧ x.txch.running = true ∧ x.tb.dmaTxEn = true ∧ x.ld.txEn = .enabled ∧
      x.ld.periphEn = true ∧ x.line.sr.getLsbD 6 = true) ∧
    x.txch.remaining ≤ x.txch.count ∧ InRegion s (0x1000 + 2 - 2) 1 ∧
    Memory.read s.mem (0x1000 + 2 - 2) = some 0x10#8 ∧ u0.txch.running ≠ true ∧
    ¬ ByteReadable { s with mem := [] } 0x1000 ∧
    (x.par.hasRxDma = true ∧ x.rxch.running = true ∧ x.tb.dmaRxEn = true ∧ x.ld.rxEn = .enabled ∧
      x.line.sr.getLsbD 5 = true) ∧
    x.line.rdr = some 0x41#32 ∧ (0x41#32).toNat < 256 ∧ ¬ (0x100#32).toNat < 256 ∧
    x.rxch.remaining ≤ x.rxch.count ∧ InRegion s (0x5FFC + 4 - 1) 1 ∧
    u0.tb.dmaRxEn ≠ true ∧ ¬ InRegion s (0x5FFD + 4 - 1) 1 := by decide
theorem witness_DmaMovesOneBusByte :
    let e := { busy .dataPhaseWrite .w false with txch := e0.txch.arm 0x3000 2 }
    let r := { busy .dataPhaseRead .r true with rxch := e0.rxch.arm 0x5FFF 1 }
    let s := env 0xFF#32 (sE e m3)
    s.engines[(0#4).toNat]? = some e ∧
    (e.st ≠ .idle ∧ e.phase = some .w ∧ e.dmaTxEn = true ∧ e.txch.running = true) ∧
    e.txch.remaining ≤ e.txch.count ∧ InRegion s (0x3000 + 2 - 2) 1 ∧
    Memory.read s.mem (0x3000 + 2 - 2) = some 0x10#8 ∧ e0.st = .idle ∧
    ¬ ByteReadable { s with mem := [] } 0x3000 ∧
    (r.st ≠ .idle ∧ r.phase = some .r ∧ r.dmaRxEn = true ∧ r.rxch.running = true) ∧
    s.portEnv.arg0.toNat < 256 ∧ 256 ≤ (env 0x100#32 s).portEnv.arg0.toNat ∧
    r.rxch.remaining ≤ r.rxch.count ∧ InRegion s (0x5FFF + 1 - 1) 1 ∧ ¬ InRegion s (0x6000 + 1 - 1) 1 := by
  decide
theorem witness_DmaCountsDown :
    (2 ≤ (e0.txch.arm 0x3000 2).remaining ∧ (e0.txch.arm 0x3000 1).remaining = 1 ∧
      (e0.txch.arm 0x3000 1).circular = false) ∧
    (({ u0.rxch with remaining := 1 } : DmaChan).remaining = 1 ∧ u0.rxch.circular = true) ∧
    e0.txch.remaining = 0 := by decide

/-! Every step of reset answers, and reset meets every invariant: the two together witness each statement
that an invariant is kept, and the statements about any step or any operation. -/

theorem witness_steps : out (step (issuing 0x21000080#32)) ≠ none := by decide
theorem witness_exec : out (exec (.ldSetFrame 0 .fg 0 0 8) .reset) ≠ none := by decide
theorem witness_StepKeepsMemoryCanonical : Memory.wf (issuing 0x21000080#32).mem = true := by decide
theorem witness_RingsInv : (issuing 0x21000080#32).RingsInv := by
  refine ⟨?_, ?_, ?_⟩ <;> simp [issuing, State.reset, State.ofConfig, Config.harness, FreeRing.reset,
    Uart.reset, Engine.reset, Ring.empty, Ring.Inv]
theorem witness_DriversInv : (sU (live 0b000100000#9)).DriversInv := by
  intro x hx
  simp only [sU, List.mem_singleton] at hx
  subst hx
  refine ⟨by decide, by decide, by decide, by decide, ?_, by decide⟩
  simp [live, u0, Uart.reset, Config.harness]
/-- A transfer in flight up to the end of storage. -/
theorem witness_WriteSidesInv : (sU sending).WriteSidesInv := by
  intro x hx
  simp only [sU, List.mem_singleton] at hx
  subst hx
  refine ⟨⟨by decide, by decide, by decide⟩, by decide, fun _ => ⟨by decide, by decide, by decide⟩⟩
theorem witness_CountdownsInv : (sU u0).CountdownsInv := by
  refine ⟨?_, by decide⟩
  intro x hx
  simp only [sU, List.mem_singleton] at hx
  subst hx
  intro _
  decide
theorem witness_SequencersInv : (sE (busy .dataPhaseRead .r true) m3).SequencersInv := by
  intro e he
  simp only [sE, List.mem_singleton] at he
  subst he
  exact ⟨by decide, by decide, by decide, by decide⟩
/-- A state with a refusal recorded before a fault, and one with a command waiting. -/
theorem witness_PortInv : (raiseFault .rbOverflow (markRefused .xMem ((sU u0).hold (.waitTc 0)))).PortInv := by
  refine ⟨by decide, by decide, by decide, fun _ => ⟨.rbOverflow, by decide, by decide⟩,
    fun h => absurd h (by decide), fun h => absurd h (by decide), by decide⟩
theorem witness_OnlyTheNamedOperations :
    movesEnableState (.ldIrq 0 .pirq) = false ∧ writesRes0 (.rbCommit 0 .fg) = false ∧
    writesRes1 (.rbUsed 0 .fg) = false ∧ writesMem (.bsTxDone 0 .dirq) = false ∧
    posts (.bsWrite 0 .fg) = false ∧ notifies (.lineRx 0 .env 0) = false ∧
    changesClock (.ldSetSpeed 0 .fg) = false := by decide
theorem witness_UnitsDoNotDisturb :
    target (.ldIrq 0 .pirq) ≠ .uart 1 ∧ target (.dmaMove 0 .env 1) ≠ .engine 0 ∧
    target (.rbWrite 0 .fg) ≠ .ring 1 ∧ Agent.pirq ≠ (Instr.rbWrite 0 .fg).agentOf := by decide

end Sys2Proof.Tests
end

/-! Where the operations and a step end. `EndsIn P` says that a procedure meets `P` in every state it can
leave, by its answer or by a fault; its rules follow the procedures statement by statement, so that a proof
about an operation reads as the operation does. -/

namespace Sys2Proof.Machine

/-! ### Procedures that never fault -/

/-- The procedure answers or is refused; it never faults. -/
def Faultless {α : Type} (x : Proc α) : Prop := ∀ f s, x ≠ .error (.fault f s)

section
variable {α β : Type}

theorem Faultless.done (a : α) : Faultless (.ok a) := fun _ _ h => by simp at h

theorem Faultless.refused (c : RefuseCode) : Faultless (refuse c : Proc α) :=
  fun _ _ h => by simp [refuse] at h

theorem Faultless.bind {x : Proc α} {g : α → Proc β} (hx : Faultless x) (hg : ∀ a, Faultless (g a)) :
    Faultless (x >>= g) := by
  intro f s h
  rcases (bind_eq_error x g _).1 h with h | ⟨a, -, h⟩
  · exact hx f s h
  · exact hg a f s h

theorem Faultless.of_cases {x : Proc α} {c : RefuseCode} (h : (∃ a, x = .ok a) ∨ x = refuse c) :
    Faultless x := by
  rcases h with ⟨a, rfl⟩ | rfl
  · exact .done a
  · exact .refused c

theorem faultless_require (b : Bool) (c : RefuseCode) : Faultless (require b c) := by
  cases b
  · exact .refused c
  · exact .done ()

theorem faultless_valueOf (o : Option α) : Faultless (valueOf o) := by
  cases o
  · exact .refused _
  · exact .done _

theorem faultless_field (o : Option α) : Faultless (field o) := by
  cases o
  · exact .refused _
  · exact .done _

end

theorem faultless_ringAt (s : State) (r : Nat) : Faultless (ringAt s r) := by
  unfold ringAt
  split
  · exact .done _
  · exact .refused _

theorem faultless_uartAt (s : State) (u : Nat) : Faultless (uartAt s u) := by
  unfold uartAt
  split
  · exact .done _
  · exact .refused _

theorem faultless_engineAt (s : State) (n : Nat) : Faultless (engineAt s n) := by
  unfold engineAt
  split
  · exact .done _
  · exact .refused _

theorem faultless_frequency (s : State) (c : Nat) : Faultless (frequency s c) := by
  unfold frequency
  split
  · exact .done _
  · exact .refused _

theorem faultless_moveAddress (ch : DmaChan) : Faultless (moveAddress ch) := by
  unfold moveAddress
  split
  · exact .done _
  · exact .refused _

theorem faultless_moveStore (s : State) (addr : Nat) (b : Byte) : Faultless (moveStore s addr b) :=
  .bind (faultless_require _ _) fun _ => .done _

theorem faultless_ringFor (s : State) (i : BitVec 4) (a : Agent) (sd : Side) :
    Faultless (ringFor s i a sd) :=
  .bind (faultless_require _ _) fun _ => .bind (faultless_ringAt _ _) fun _ =>
    .bind (faultless_require _ _) fun _ => .done _

theorem faultless_uartFor (s : State) (i : BitVec 4) (a want : Agent) : Faultless (uartFor s i a want) :=
  .bind (faultless_require _ _) fun _ => faultless_uartAt _ _

theorem faultless_engineFor (s : State) (i : BitVec 4) (a want : Agent) :
    Faultless (engineFor s i a want) :=
  .bind (faultless_require _ _) fun _ => faultless_engineAt _ _

theorem faultless_readByte (s : State) (a : Nat) : Faultless (readByte s a) :=
  .of_cases (readByte_cases s a)

theorem faultless_readWord (s : State) (a : Nat) : Faultless (readWord s a) :=
  .of_cases (readWord_cases s a)

theorem ByteRing.faultless_write (b : ByteRing) (s : State) (src count : Nat) :
    Faultless (b.write s src count) := .of_cases (b.write_cases s src count)

theorem ByteRing.faultless_read (b : ByteRing) (s : State) (dst count : Nat) :
    Faultless (b.read s dst count) := .of_cases (b.read_cases s dst count)

theorem ByteRing.faultless_pop (b : ByteRing) (s : State) : Faultless (b.pop s) := by
  unfold ByteRing.pop
  split
  · exact .done _
  · exact .bind (faultless_readByte _ _) fun _ => .done _

theorem Engine.faultless_startHead (e : Engine) (s : State) : Faultless (e.startHead s) := by
  intro f t h
  obtain ⟨c, hc⟩ := startHead_stops e s _ h
  cases hc

theorem Engine.faultless_next (e : Engine) (s : State) : Faultless (e.next s) := by
  unfold Engine.next
  split
  · exact e.faultless_startHead s
  · exact .done _

theorem Engine.faultless_validate (e : Engine) (s : State) (t : Word) : Faultless (e.validate s t) :=
  .bind (faultless_require _ _) fun _ => .bind (faultless_readWord _ _) fun _ =>
    .bind (faultless_require _ _) fun _ => .bind (faultless_readWord _ _) fun _ =>
    .bind (faultless_readWord _ _) fun _ => .bind (faultless_readWord _ _) fun _ =>
    .bind (faultless_readWord _ _) fun _ => .bind (faultless_readWord _ _) fun _ =>
    faultless_require _ _

/-! ### Where a procedure ends -/

/-- Every state the procedure leaves meets `P`: the one it answers, and the one a fault is raised in. A
refusal leaves none (R341). -/
def EndsIn (P : State → Prop) (p : Proc State) : Prop :=
  (∀ t, p = .ok t → P t) ∧ ∀ f t, p = .error (.fault f t) → P t

section
variable {P : State → Prop} {α : Type}

theorem EndsIn.done {t : State} (h : P t) : EndsIn P (.ok t) :=
  ⟨fun _ ht => Except.ok.inj ht ▸ h, fun f s he => absurd he (Faultless.done t f s)⟩

theorem EndsIn.refused (c : RefuseCode) : EndsIn P (refuse c) :=
  ⟨fun t h => absurd h (by simp), fun f t h => absurd h (Faultless.refused c f t)⟩

theorem EndsIn.raised {f : FaultCode} {t : State} (h : P t) : EndsIn P (raise f t) := by
  refine ⟨fun t' ht => absurd ht (by simp), fun g t' ht => ?_⟩
  obtain ⟨-, rfl⟩ := Stop.fault.inj (Except.error.inj ht)
  exact h

theorem EndsIn.ite {c : Prop} [Decidable c] {p q : Proc State} (hp : c → EndsIn P p)
    (hq : ¬c → EndsIn P q) : EndsIn P (if c then p else q) := by
  split
  · exact hp ‹_›
  · exact hq ‹_›

/-- A sequence ends where its first part faults, or where its rest ends. -/
theorem EndsIn.bind {x : Proc α} {g : α → Proc State} (hx : ∀ f t, x = .error (.fault f t) → P t)
    (hg : ∀ a, x = .ok a → EndsIn P (g a)) : EndsIn P (x >>= g) := by
  constructor
  · intro t h
    obtain ⟨a, ha, h⟩ := (bind_eq_ok x g t).1 h
    exact (hg a ha).1 t h
  · intro f t h
    rcases (bind_eq_error x g _).1 h with h | ⟨a, ha, h⟩
    · exact hx f t h
    · exact (hg a ha).2 f t h

theorem EndsIn.seq {p : Proc State} {g : State → Proc State} (hp : EndsIn P p)
    (hg : ∀ t, P t → EndsIn P (g t)) : EndsIn P (p >>= g) :=
  .bind hp.2 fun t ht => hg t (hp.1 t ht)

theorem EndsIn.query {x : Proc α} {g : α → Proc State} (hx : Faultless x)
    (hg : ∀ a, x = .ok a → EndsIn P (g a)) : EndsIn P (x >>= g) :=
  .bind (fun f t h => absurd h (hx f t)) hg

theorem EndsIn.afterRequire {b : Bool} {c : RefuseCode} {g : Unit → Proc State}
    (hg : b = true → EndsIn P (g ())) : EndsIn P (require b c >>= g) :=
  .query (faultless_require b c) fun _ h => hg ((require_eq_ok _ _ _).1 h)

theorem EndsIn.afterValue {o : Option α} {g : α → Proc State}
    (hg : ∀ a, o = some a → EndsIn P (g a)) : EndsIn P (valueOf o >>= g) :=
  .query (faultless_valueOf o) fun a h => hg a ((valueOf_eq_ok _ _).1 h)

theorem EndsIn.afterField {o : Option α} {g : α → Proc State}
    (hg : ∀ a, o = some a → EndsIn P (g a)) : EndsIn P (field o >>= g) :=
  .query (faultless_field o) fun a h => hg a ((field_eq_ok _ _).1 h)

theorem EndsIn.afterRingFor {s : State} {i : BitVec 4} {a : Agent} {sd : Side}
    {g : FreeRing → Proc State} (hg : ∀ b, s.rings[i.toNat]? = some b → EndsIn P (g b)) :
    EndsIn P (ringFor s i a sd >>= g) :=
  .query (faultless_ringFor s i a sd) fun b h => hg b ((ringFor_eq_ok _ _ _ _ _).1 h).2.1

theorem EndsIn.afterUartFor {s : State} {i : BitVec 4} {a want : Agent} {g : Uart → Proc State}
    (hg : ∀ x, s.uarts[i.toNat]? = some x → EndsIn P (g x)) : EndsIn P (uartFor s i a want >>= g) :=
  .query (faultless_uartFor s i a want) fun x h => hg x ((uartFor_eq_ok _ _ _ _ _).1 h).2

theorem EndsIn.afterUartAt {s : State} {u : Nat} {g : Uart → Proc State}
    (hg : ∀ x, s.uarts[u]? = some x → EndsIn P (g x)) : EndsIn P (uartAt s u >>= g) :=
  .query (faultless_uartAt s u) fun x h => hg x ((uartAt_eq_ok _ _ _).1 h)

theorem EndsIn.afterEngineFor {s : State} {i : BitVec 4} {a want : Agent} {g : Engine → Proc State}
    (hg : ∀ e, s.engines[i.toNat]? = some e → EndsIn P (g e)) :
    EndsIn P (engineFor s i a want >>= g) :=
  .query (faultless_engineFor s i a want) fun e h => hg e ((engineFor_eq_ok _ _ _ _ _).1 h).2

theorem EndsIn.afterEngineAt {s : State} {n : Nat} {g : Engine → Proc State}
    (hg : ∀ e, s.engines[n]? = some e → EndsIn P (g e)) : EndsIn P (engineAt s n >>= g) :=
  .query (faultless_engineAt s n) fun e h => hg e ((engineAt_eq_ok _ _ _).1 h)

theorem EndsIn.afterWord {s : State} {a : Nat} {g : Word → Proc State}
    (hg : ∀ w, HoldsWord s a w → EndsIn P (g w)) : EndsIn P (readWord s a >>= g) :=
  .query (faultless_readWord s a) fun w h => hg w ((readWord_eq_ok _ _ _).1 h)

theorem EndsIn.afterMoveStore {s : State} {addr : Nat} {b : Byte} {g : State → Proc State}
    (hg : EndsIn P (g (s.setMem (Memory.write s.mem addr b)))) : EndsIn P (moveStore s addr b >>= g) :=
  .query (faultless_moveStore s addr b) fun _ h => ((moveStore_eq_ok _ _ _ _).1 h).2 ▸ hg

/-- `commit` faults in the state it was given (R128). -/
theorem EndsIn.afterCommit {r : Ring} {s : State} {n : Nat} {g : Ring → Proc State} (hs : P s)
    (hg : EndsIn P (g (r.produce n))) : EndsIn P (r.commit s n >>= g) := by
  unfold Ring.commit
  split
  · exact .raised hs
  · exact hg

/-- `skip` faults in the state it was given (R126). -/
theorem EndsIn.afterSkip {r : Ring} {s : State} {n : Nat} {g : Ring → Proc State} (hs : P s)
    (hg : EndsIn P (g (r.consume n))) : EndsIn P (r.skip s n >>= g) := by
  unfold Ring.skip
  split
  · exact .raised hs
  · exact hg

end

/-- Every next state the outcome can be meets `P`. -/
def LeadsTo (P : State → Prop) (o : Host.Outcome State Fault Refusal) : Prop := ∀ t, o = .next t → P t

/-- An operation's next state is one its procedure ends in, or carries the mark of a fault or a refusal
(R340, R341). -/
theorem EndsIn.conclude {P : State → Prop} {s : State} {p : Proc State} (h : EndsIn P p)
    (hfault : ∀ f t, P t → P (raiseFault f t)) (hrefuse : ∀ c, P (markRefused c s)) :
    LeadsTo P (conclude s p) := by
  intro t ht
  rcases conclude_cases ht with hok | ⟨f, s', he, rfl⟩ | ⟨c, -, rfl⟩
  · exact h.1 t hok
  · exact hfault f s' (h.2 f s' he)
  · exact hrefuse c

/-! ### Where a turn begins -/

/-- The state a turn is taken in. -/
def Turn.state : Turn → State
  | .idle s => s
  | .resume _ s => s
  | .issue _ s => s
  | .readRes _ _ s => s

/-- What taking a turn may do before the operation runs: consume entries of the trace, then load the
operands of the issuer (R314). -/
def TakesTurn (s t : State) : Prop :=
  ∃ rest, t = { s with acts := rest } ∨
    ∃ a a0 a1 a2, t = State.loadArgs { s with acts := rest } a a0 a1 a2

theorem Act.turn_state (x : Act) (s : State) (rest : List Act) :
    TakesTurn s (x.turn { s with acts := rest }).state := by
  cases x with
  | issue w a0 a1 a2 => exact ⟨rest, .inr ⟨issuerOf w, a0, a1, a2, rfl⟩⟩
  | wake => exact ⟨rest, .inl rfl⟩
  | readRes a k => exact ⟨rest, .inl rfl⟩

theorem freeTurn_state (s : State) : TakesTurn s (freeTurn s).state := by
  unfold freeTurn
  split
  · exact ⟨s.acts, .inl rfl⟩
  · exact Act.turn_state _ s _

theorem waitingTurn_state (s : State) : TakesTurn s (waitingTurn s).state := by
  unfold waitingTurn
  split
  · exact ⟨s.acts, .inl rfl⟩
  · exact Act.turn_state _ s _

theorem liftedTurn_state (h : Held) (s : State) : TakesTurn s (liftedTurn h s).state := by
  have stays : TakesTurn s (Turn.resume h s).state := ⟨s.acts, .inl rfl⟩
  unfold liftedTurn
  split
  · exact stays
  · exact ⟨_, .inl rfl⟩
  · split
    · exact stays
    · exact Act.turn_state (.issue _ _ _ _) s _
  · split
    · exact stays
    · exact Act.turn_state (.readRes _ _) s _

theorem nextTurn_state (s : State) : TakesTurn s (nextTurn s).state := by
  unfold nextTurn
  split
  · exact freeTurn_state s
  · split
    · exact liftedTurn_state _ s
    · exact waitingTurn_state s

/-- A step meets `P` if the state its turn is taken in does, and each of the four ways to go on from
there leads to `P`. -/
theorem step_leadsTo {P : State → Prop} {s : State} (hturn : P (nextTurn s).state)
    (hresume : ∀ h t, P t → LeadsTo P (execResume h t))
    (hread : ∀ a k t, P t → LeadsTo P (execReadRes a k t))
    (hreserved : ∀ e t, P t → LeadsTo P (execReserved e t))
    (hexec : ∀ i t, P t → LeadsTo P (exec i t)) : LeadsTo P (step s) := by
  unfold step
  split <;> rename_i hn <;> rw [hn] at hturn
  · exact fun _ ht => Host.Outcome.next.inj ht ▸ hturn
  · exact hresume _ _ hturn
  · exact hread _ _ _ hturn
  · split
    · exact hexec _ _ hturn
    · exact hreserved _ _ hturn

end Sys2Proof.Machine

/-! What construction fixed, and that every operation and every step keeps it (O57). One lemma per unit for
its fixed part, one per operation that follows its procedure. -/

namespace Sys2Proof.Machine

/-! ### What construction fixed (R6, R42, R336) -/

/-- `t` has what construction fixed in `s`. -/
structure SameConstruction (s t : State) : Prop where
  regions : t.regions = s.regions
  dataBitsLegal : t.dataBitsLegal = s.dataBitsLegal
  rings : t.rings.map FreeRing.fixedPart = s.rings.map FreeRing.fixedPart
  uarts : t.uarts.map Uart.fixedPart = s.uarts.map Uart.fixedPart
  engines : t.engines.map Engine.fixedPart = s.engines.map Engine.fixedPart
  clocks : t.clkFreq.length = s.clkFreq.length

/-- Storing over a list element one that agrees with it under `f` leaves the list as `f` shows it. -/
theorem map_set_of_agrees {α β : Type} {f : α → β} {l : List α} {n : Nat} {x y : α}
    (hx : l[n]? = some x) (hy : f y = f x) : (l.set n y).map f = l.map f := by
  obtain ⟨hn, rfl⟩ := List.getElem?_eq_some_iff.1 hx
  have hfx : f l[n] = (l.map f)[n]'(by simpa using hn) := by simp
  rw [List.map_set, hy, hfx, List.set_getElem_self]

section
variable {s t : State}

namespace SameConstruction

theorem refl (s : State) : SameConstruction s s := ⟨rfl, rfl, rfl, rfl, rfl, rfl⟩

theorem setActs (h : SameConstruction s t) (rest : List Act) :
    SameConstruction s { t with acts := rest } := { h with }

theorem setNotif (h : SameConstruction s t) (l : List (Nat × Kind)) :
    SameConstruction s { t with notif := l } := { h with }

theorem setPort (h : SameConstruction s t) (a : Agent) (p : Port) :
    SameConstruction s (t.setPort a p) := by
  cases a <;> exact { h with }

theorem setRes0 {a : Agent} {v : Word} (h : SameConstruction s t) :
    SameConstruction s (t.setRes0 a v) := h.setPort a _

theorem setRes1 {a : Agent} {v : Word} (h : SameConstruction s t) :
    SameConstruction s (t.setRes1 a v) := h.setPort a _

theorem loadArgs (h : SameConstruction s t) (a : Agent) (a0 a1 a2 : Word) :
    SameConstruction s (t.loadArgs a a0 a1 a2) := h.setPort a _

theorem hold {c : Held} (h : SameConstruction s t) : SameConstruction s (t.hold c) := { h with }

theorem release (h : SameConstruction s t) : SameConstruction s t.release := { h with }

theorem setMem {m : Memory} (h : SameConstruction s t) : SameConstruction s (t.setMem m) := { h with }

theorem post {w : Word} {k : Kind} (h : SameConstruction s t) : SameConstruction s (post w k t) :=
  { h with }

theorem countFree {ch : DmaChan} (h : SameConstruction s t) : SameConstruction s (t.countFree ch) := by
  unfold State.countFree
  split
  · exact { h with }
  · exact h

theorem raiseFault (h : SameConstruction s t) (f : FaultCode) : SameConstruction s (raiseFault f t) :=
  { h with }

theorem markRefused (h : SameConstruction s t) (c : RefuseCode) : SameConstruction s (markRefused c t) :=
  { h with }

theorem setRing {r : Nat} {b c : FreeRing} (h : SameConstruction s t) (hb : t.rings[r]? = some b)
    (hc : c.fixedPart = b.fixedPart) : SameConstruction s (t.setRing r c) :=
  { h with rings := (map_set_of_agrees hb hc).trans h.rings }

theorem setUart {u : Nat} {x y : Uart} (h : SameConstruction s t) (hx : t.uarts[u]? = some x)
    (hy : y.fixedPart = x.fixedPart) : SameConstruction s (t.setUart u y) :=
  { h with uarts := (map_set_of_agrees hx hy).trans h.uarts }

theorem setEngine {n : Nat} {e d : Engine} (h : SameConstruction s t) (he : t.engines[n]? = some e)
    (hd : d.fixedPart = e.fixedPart) : SameConstruction s (t.setEngine n d) :=
  { h with engines := (map_set_of_agrees he hd).trans h.engines }

theorem takesTurn {t' : State} (h : SameConstruction s t) (ht : TakesTurn t t') :
    SameConstruction s t' := by
  obtain ⟨rest, rfl | ⟨a, a0, a1, a2, rfl⟩⟩ := ht
  · exact h.setActs rest
  · exact (h.setActs rest).loadArgs a a0 a1 a2

/-- The mark of a fault or of a refusal is no part of the construction. -/
theorem conclude {p : Proc State} (h : SameConstruction s t) (hp : EndsIn (SameConstruction s) p) :
    LeadsTo (SameConstruction s) (conclude t p) :=
  hp.conclude (fun f _ ht => ht.raiseFault f) h.markRefused

end SameConstruction
end

/-! ### The fixed part of a unit -/

theorem DmaChan.advance_fixedPart (ch : DmaChan) (k : Nat) : (ch.advance k).fixedPart = ch.fixedPart := by
  obtain ⟨hdir, hwidth, hburst, -, hpaddr, -, hcirc⟩ := advance_fixed ch k
  simp only [DmaChan.fixedPart, hdir, hwidth, hburst, hpaddr, hcirc]

theorem ByteRing.write_fixed {b : ByteRing} {s : State} {src count : Nat} {r : Nat × ByteRing × Memory}
    (h : b.write s src count = .ok r) : r.2.1.ix.n = b.ix.n ∧ r.2.1.base = b.base := by
  obtain ⟨-, -, rfl⟩ := (b.write_eq_ok s src count r).1 h
  exact ⟨rfl, rfl⟩

theorem ByteRing.read_fixed {b : ByteRing} {s : State} {dst count : Nat} {r : Nat × ByteRing × Memory}
    (h : b.read s dst count = .ok r) : r.2.1.ix.n = b.ix.n ∧ r.2.1.base = b.base := by
  obtain ⟨-, -, rfl⟩ := (b.read_eq_ok s dst count r).1 h
  exact ⟨rfl, rfl⟩

theorem ByteRing.pop_fixed {b : ByteRing} {s : State} {r : Option Byte × ByteRing}
    (h : b.pop s = .ok r) : r.2.ix.n = b.ix.n ∧ r.2.base = b.base := by
  unfold ByteRing.pop at h
  split at h
  · cases h
    exact ⟨rfl, rfl⟩
  · obtain ⟨v, -, hv⟩ := (bind_eq_ok _ _ _).1 h
    cases hv
    exact ⟨rfl, rfl⟩

theorem FreeRing.fixedPart_setRing (b : FreeRing) {r : ByteRing}
    (hr : r.ix.n = b.ring.ix.n ∧ r.base = b.ring.base) :
    FreeRing.fixedPart { b with ring := r } = b.fixedPart := by
  simp only [FreeRing.fixedPart, hr]

theorem Uart.fixedPart_setTx (x : Uart) {r : ByteRing}
    (hr : r.ix.n = x.bs.tx.ix.n ∧ r.base = x.bs.tx.base) :
    Uart.fixedPart { x with bs := { x.bs with tx := r } } = x.fixedPart := by
  simp only [Uart.fixedPart, hr]

theorem Uart.fixedPart_setRx (x : Uart) {r : ByteRing}
    (hr : r.ix.n = x.bs.rx.ix.n ∧ r.base = x.bs.rx.base) :
    Uart.fixedPart { x with bs := { x.bs with rx := r } } = x.fixedPart := by
  simp only [Uart.fixedPart, hr]

theorem Uart.startTx_fixedPart (x : Uart) : x.startTx.fixedPart = x.fixedPart := by
  unfold Uart.startTx
  simp only
  split <;> rfl

theorem Uart.reclock_fixedPart (c f : Nat) (x : Uart) : (x.reclock c f).fixedPart = x.fixedPart := by
  unfold Uart.reclock
  split <;> rfl

theorem Uart.fixedPart_advanceTx (x : Uart) (l : Line) (k : Nat) :
    Uart.fixedPart { x with line := l, txch := x.txch.advance k } = x.fixedPart := by
  simp only [Uart.fixedPart, DmaChan.advance_fixedPart]

theorem Uart.fixedPart_advanceRx (x : Uart) (l : Line) (k : Nat) :
    Uart.fixedPart { x with line := l, rxch := x.rxch.advance k } = x.fixedPart := by
  simp only [Uart.fixedPart, DmaChan.advance_fixedPart]

theorem Engine.fixedPart_advanceTx (e : Engine) (l : List BusItem) (k : Nat) :
    Engine.fixedPart { e with busLog := l, txch := e.txch.advance k } = e.fixedPart := by
  simp only [Engine.fixedPart, DmaChan.advance_fixedPart]

theorem Engine.fixedPart_advanceRx (e : Engine) (l : List BusItem) (k : Nat) :
    Engine.fixedPart { e with busLog := l, rxch := e.rxch.advance k } = e.fixedPart := by
  simp only [Engine.fixedPart, DmaChan.advance_fixedPart]

theorem Engine.startHead_fixedPart {e d : Engine} {s : State} (h : e.startHead s = .ok d) :
    d.fixedPart = e.fixedPart := by
  obtain ⟨t, wl, rl, a, -, -, -, -, ⟨-, p, -, rfl⟩ | ⟨-, p, -, rfl⟩⟩ := (startHead_eq_ok e d s).1 h
  · rfl
  · rfl

theorem Engine.next_fixedPart {e d : Engine} {s : State} (h : e.next s = .ok d) :
    d.fixedPart = e.fixedPart := by
  unfold Engine.next at h
  split at h
  · exact startHead_fixedPart h
  · cases h
    rfl

theorem Engine.finish_fixedPart (e : Engine) : e.finish.fixedPart = e.fixedPart := by
  unfold Engine.finish Queue.pop
  split <;> rfl

theorem Engine.push_fixedPart (e : Engine) (t : Word) :
    Engine.fixedPart { e with q := e.q.push t } = e.fixedPart := by
  simp only [Engine.fixedPart, Queue.push, Ring.produce, List.length_set]

/-- A transaction ends and the next one starts, or the engine shuts down (R250, R252). -/
theorem Engine.finish_next_fixedPart {e d : Engine} {s : State} (h : e.finish.next s = .ok d) :
    d.fixedPart = e.fixedPart := (next_fixedPart h).trans e.finish_fixedPart

/-! ### Operations keep the construction -/

section
variable {s t : State} {u : Nat} {i : BitVec 4} {a : Agent} (hs : SameConstruction s t)
include hs

/-! Host access to MEM -/

theorem execReserved_construction (e : DecodeError) : LeadsTo (SameConstruction s) (execReserved e t) :=
  hs.conclude (.refused _)

theorem execReadRes_construction (k : ResReg) : LeadsTo (SameConstruction s) (execReadRes a k t) :=
  hs.conclude <| .afterValue fun _ _ => .done hs

theorem execMemLd_construction (n : BitVec 3) : LeadsTo (SameConstruction s) (execMemLd i a n t) := by
  refine hs.conclude <| .afterField fun k _ => .afterRequire fun _ => .afterRequire fun _ =>
    .afterRequire fun _ => ?_
  split
  · exact .done hs.setRes0
  · exact .refused _

theorem execMemSt_construction (n : BitVec 3) : LeadsTo (SameConstruction s) (execMemSt i a n t) :=
  hs.conclude <| .afterField fun _ _ => .afterRequire fun _ => .afterRequire fun _ =>
    .afterRequire fun _ => .afterRequire fun _ => .done hs.setMem

/-! Free-standing rings -/

theorem execRbWrite_construction : LeadsTo (SameConstruction s) (execRbWrite i a t) :=
  hs.conclude <| .afterRingFor fun b hb => .query (b.ring.faultless_write _ _ _) fun _ hr =>
    .done (hs.setRing hb (b.fixedPart_setRing (ByteRing.write_fixed hr))).setMem.setRes0

theorem execRbRead_construction : LeadsTo (SameConstruction s) (execRbRead i a t) :=
  hs.conclude <| .afterRingFor fun b hb => .query (b.ring.faultless_read _ _ _) fun _ hr =>
    .done (hs.setRing hb (b.fixedPart_setRing (ByteRing.read_fixed hr))).setMem.setRes0

theorem execRbPop_construction : LeadsTo (SameConstruction s) (execRbPop i a t) := by
  refine hs.conclude <| .afterRingFor fun b hb => .query (b.ring.faultless_pop _) fun ⟨v, _⟩ hr => ?_
  cases v with
  | some _ => exact .done (hs.setRing hb (b.fixedPart_setRing (ByteRing.pop_fixed hr))).setRes1.setRes0
  | none => exact .done hs.setRes0

theorem execRbSkip_construction : LeadsTo (SameConstruction s) (execRbSkip i a t) :=
  hs.conclude <| .afterRingFor fun _ hb => .afterSkip hs <| .done (hs.setRing hb rfl)

theorem execRbPeek_construction : LeadsTo (SameConstruction s) (execRbPeek i a t) :=
  hs.conclude <| .afterRingFor fun _ _ => .done hs.setRes0.setRes1

theorem execRbCommit_construction : LeadsTo (SameConstruction s) (execRbCommit i a t) :=
  hs.conclude <| .afterRingFor fun _ hb => .afterCommit hs <| .done (hs.setRing hb rfl)

theorem execRbUsed_construction : LeadsTo (SameConstruction s) (execRbUsed i a t) :=
  hs.conclude <| .afterRingFor fun _ _ => .done hs.setRes0

/-! BufferedStream and TransferBinding -/

theorem execBsWrite_construction : LeadsTo (SameConstruction s) (execBsWrite i a t) := by
  refine hs.conclude <| .afterUartFor fun x hx => .afterRequire fun _ =>
    .query (x.bs.tx.faultless_write _ _ _) fun _ hr => .done ?_
  have hw := x.fixedPart_setTx (ByteRing.write_fixed hr)
  refine (hs.setUart hx ?_).setMem.setRes0
  split
  · exact (Uart.startTx_fixedPart _).trans hw
  · exact hw

theorem execBsTxDone_construction : LeadsTo (SameConstruction s) (execBsTxDone i a t) :=
  hs.conclude <| .afterUartFor fun _ hx => .afterRequire fun _ => .afterRequire fun _ =>
    .afterSkip (hs.setUart hx rfl) <| .done (hs.setUart hx (Uart.startTx_fixedPart _))

theorem trySatisfy_construction : EndsIn (SameConstruction s) (trySatisfy u t) :=
  .afterUartAt fun x hx => .ite
    (fun _ => .query (x.bs.rx.faultless_read _ _ _) fun _ hr =>
      .done (.post (.setMem (hs.setUart hx (x.fixedPart_setRx (ByteRing.read_fixed hr))))))
    fun _ => .done hs

theorem rxSync_construction : EndsIn (SameConstruction s) (rxSync u t) :=
  .afterUartAt fun _ hx => .ite (fun _ => .raised hs) fun _ =>
    .afterCommit hs <| trySatisfy_construction (hs.setUart hx rfl)

theorem execBsRxDone_construction : LeadsTo (SameConstruction s) (execBsRxDone i a t) :=
  hs.conclude <| .afterUartFor fun _ hx => .afterRequire fun _ => .afterRequire fun _ =>
    rxSync_construction (hs.setUart hx rfl)

theorem drainRead_construction : EndsIn (SameConstruction s) (drainRead u a t) :=
  .afterUartAt fun x hx => .query (x.bs.rx.faultless_read _ _ _) fun _ hr =>
    .done (hs.setUart hx (x.fixedPart_setRx (ByteRing.read_fixed hr))).setMem.setRes0

theorem execBsReadB_construction : LeadsTo (SameConstruction s) (execBsReadB i a t) :=
  hs.conclude <| .afterUartFor fun _ hx => .afterRequire fun _ => .afterRequire fun _ =>
    .ite (fun _ => drainRead_construction (hs.setUart hx rfl)) fun _ => .done (.hold (hs.setUart hx rfl))

theorem execBsReadNb_construction : LeadsTo (SameConstruction s) (execBsReadNb i a t) :=
  hs.conclude <| .afterUartFor fun _ hx => .afterRequire fun _ => .afterRequire fun _ =>
    .ite (fun _ => drainRead_construction (hs.setUart hx rfl)) fun _ =>
      .done (.setRes0 (hs.setUart hx rfl))

theorem forwardError_construction (k : Kind) : EndsIn (SameConstruction s) (forwardError u k t) :=
  .afterUartAt fun _ _ => .ite (fun _ => .done hs.post) fun _ => .done hs

theorem idleReaction_construction : EndsIn (SameConstruction s) (idleReaction u t) :=
  .afterUartAt fun _ _ => .ite (fun _ => rxSync_construction hs) fun _ => .done hs

/-- Line errors are forwarded, an idle line runs the coalescer, every other kind does nothing (R165). -/
theorem react_construction (k : Kind) : EndsIn (SameConstruction s) (react u k t) := by
  cases k with
  | overrunError | framingError | parityError | noiseDetected | lineBreak =>
    exact forwardError_construction hs _
  | idleLine => exact idleReaction_construction hs
  | _ => exact .done hs

theorem notify_construction (k : Kind) : EndsIn (SameConstruction s) (notify u k t) :=
  react_construction (hs.setNotif _) k

theorem execTbEnable_construction (part : BitVec 2) :
    LeadsTo (SameConstruction s) (execTbEnable i a part t) :=
  hs.conclude <| .afterField fun _ _ => .afterUartFor fun _ hx => .afterRequire fun _ =>
    .afterRequire fun _ => .done (hs.setUart hx rfl)

theorem execTbDisable_construction (part : BitVec 2) :
    LeadsTo (SameConstruction s) (execTbDisable i a part t) :=
  hs.conclude <| .afterField fun _ _ => .afterUartFor fun _ hx => .done (hs.setUart hx rfl)

/-! LineDriver -/

theorem execLdSetSpeed_construction : LeadsTo (SameConstruction s) (execLdSetSpeed i a t) :=
  hs.conclude <| .afterUartFor fun _ hx => .query (faultless_frequency _ _) fun _ _ =>
    .afterRequire fun _ => .afterRequire fun _ => .done (.setRes0 (hs.setUart hx rfl))

theorem execLdSetFrame_construction (parity stopBits : BitVec 2) (dataBits : BitVec 8) :
    LeadsTo (SameConstruction s) (execLdSetFrame i a parity stopBits dataBits t) :=
  hs.conclude <| .afterField fun _ _ => .afterUartFor fun _ hx => .afterRequire fun _ =>
    .afterRequire fun _ => .done (hs.setUart hx rfl)

theorem execLdSetFlow_construction (flow : BitVec 2) :
    LeadsTo (SameConstruction s) (execLdSetFlow i a flow t) :=
  hs.conclude <| .afterUartFor fun _ hx => .afterRequire fun _ => .done (hs.setUart hx rfl)

theorem execLdEnable_construction (part : BitVec 2) :
    LeadsTo (SameConstruction s) (execLdEnable i a part t) :=
  hs.conclude <| .afterField fun _ _ => .afterUartFor fun _ hx => .afterRequire fun _ =>
    .done (hs.setUart hx rfl)

theorem execLdDisable_construction (part : BitVec 2) :
    LeadsTo (SameConstruction s) (execLdDisable i a part t) :=
  hs.conclude <| .afterField fun _ _ => .afterUartFor fun _ hx => .done (hs.setUart hx rfl)

theorem execLdArmIrq_construction (cond : BitVec 4) :
    LeadsTo (SameConstruction s) (execLdArmIrq i a cond t) :=
  hs.conclude <| .afterField fun _ _ => .afterUartFor fun _ hx => .afterRequire fun _ =>
    .done (hs.setUart hx rfl)

theorem execLdDisarmIrq_construction (cond : BitVec 4) :
    LeadsTo (SameConstruction s) (execLdDisarmIrq i a cond t) :=
  hs.conclude <| .afterField fun _ _ => .afterUartFor fun _ hx => .done (hs.setUart hx rfl)

theorem irqTest_construction (sample : BitVec 9) (e : IrqEntry) :
    EndsIn (SameConstruction s) (irqTest u sample e t) :=
  .ite (fun _ => .seq (notify_construction hs e.kind) fun _ hn => .afterUartAt fun _ hx =>
    .done (hn.setUart hx rfl)) fun _ => .done hs

omit hs in
theorem irqTests_construction (sample : BitVec 9) (l : List IrqEntry) :
    ∀ t, SameConstruction s t → EndsIn (SameConstruction s) (irqTests u sample l t) := by
  induction l with
  | nil => exact fun _ ht => .done ht
  | cons e es ih => exact fun _ ht => .seq (irqTest_construction ht sample e) ih

theorem execLdIrq_construction : LeadsTo (SameConstruction s) (execLdIrq i a t) :=
  hs.conclude <| .afterUartFor fun _ hx => .afterRequire fun _ =>
    irqTests_construction _ _ _ (hs.setUart hx rfl)

theorem execLdRdUnit_construction : LeadsTo (SameConstruction s) (execLdRdUnit i a t) :=
  hs.conclude <| .afterUartFor fun _ hx => .afterRequire fun _ => .afterRequire fun _ =>
    .afterValue fun _ _ => .done (.setRes0 (hs.setUart hx rfl))

theorem execLdWrUnit_construction : LeadsTo (SameConstruction s) (execLdWrUnit i a t) :=
  hs.conclude <| .afterUartFor fun _ hx => .afterRequire fun _ => .afterRequire fun _ =>
    .afterValue fun _ _ => .afterRequire fun _ => .done (hs.setUart hx rfl)

theorem execLdWaitTc_construction : LeadsTo (SameConstruction s) (execLdWaitTc i a t) := by
  refine hs.conclude <| .afterUartFor fun _ _ => .afterRequire fun _ => .done ?_
  split
  · exact hs
  · exact hs.hold

theorem execLdWaitRxne_construction : LeadsTo (SameConstruction s) (execLdWaitRxne i a t) := by
  refine hs.conclude <| .afterUartFor fun _ _ => .afterRequire fun _ => .done ?_
  split
  · exact hs
  · exact hs.hold

/-- A clock change re-derives divisors, which construction does not fix, and keeps the number of
clocks (R174). -/
theorem SameConstruction.reclock (c f : Nat) : SameConstruction s
    { t with clkFreq := t.clkFreq.set c f, uarts := t.uarts.map (Uart.reclock c f) } :=
  { hs with
    uarts := by
      rw [← hs.uarts, List.map_map]
      exact List.map_congr_left fun x _ => x.reclock_fixedPart c f
    clocks := List.length_set.trans hs.clocks }

theorem execLdClkChg_construction (phase : BitVec 1) :
    LeadsTo (SameConstruction s) (execLdClkChg i a phase t) :=
  hs.conclude <| .afterRequire fun _ => .afterRequire fun _ => .ite (fun _ => .done hs) fun _ =>
    .afterRequire fun _ => .done (hs.reclock _ _)

/-! Bus engine -/

theorem execBteSubmit_construction : LeadsTo (SameConstruction s) (execBteSubmit i a t) := by
  refine hs.conclude <| .afterEngineFor fun e he => .query (e.faultless_validate _ _) fun _ _ =>
    .ite (fun _ => .done hs.setRes0) fun _ => ?_
  have hq := e.push_fixedPart (t.port a).arg0
  split
  · exact .query (Engine.faultless_startHead _ _) fun _ hd =>
      .done (hs.setEngine he ((Engine.startHead_fixedPart hd).trans hq)).setRes0
  · exact .done (hs.setEngine he hq).setRes0

theorem execBteEvAddr_construction : LeadsTo (SameConstruction s) (execBteEvAddr i a t) :=
  hs.conclude <| .afterEngineFor fun _ he => .afterRequire fun _ => .afterValue fun _ _ =>
    .done (hs.setEngine he rfl)

theorem execBteEvTc_construction : LeadsTo (SameConstruction s) (execBteEvTc i a t) :=
  hs.conclude <| .afterEngineFor fun _ he => .afterRequire fun _ => .afterValue fun _ _ =>
    .afterWord fun _ _ => .afterWord fun _ _ => .afterWord fun _ _ => .done (hs.setEngine he rfl)

theorem execBteEvStop_construction : LeadsTo (SameConstruction s) (execBteEvStop i a t) := by
  refine hs.conclude <| .afterEngineFor fun _ he => .afterRequire fun _ => .afterValue fun _ _ =>
    .afterWord fun _ _ => .query (Engine.faultless_next _ _) fun _ hd => .done ?_
  have hfixed := Engine.finish_next_fixedPart hd
  split
  · exact hs.setEngine he hfixed
  · exact hs.post.setEngine he hfixed

theorem execBteEvNack_construction : LeadsTo (SameConstruction s) (execBteEvNack i a t) :=
  hs.conclude <| .afterEngineFor fun _ he => .afterRequire fun _ =>
    .query (Engine.faultless_next _ _) fun _ hd =>
      have hfixed := Engine.finish_next_fixedPart hd
      .done (hs.setEngine he hfixed)

theorem execBteEvErr_construction (kind : BitVec 8) :
    LeadsTo (SameConstruction s) (execBteEvErr i a kind t) :=
  hs.conclude <| .afterField fun _ _ => .afterEngineFor fun _ he => .afterRequire fun _ =>
    .query (Engine.faultless_next _ _) fun _ hd =>
      have hfixed := Engine.finish_next_fixedPart hd
      .done (hs.setEngine he hfixed)

theorem execBteDmaDone_construction (channel : BitVec 1) :
    LeadsTo (SameConstruction s) (execBteDmaDone i a channel t) :=
  hs.conclude <| .afterEngineFor fun _ he => .ite
    (fun _ => .afterRequire fun _ => .done (hs.setEngine he rfl))
    fun _ => .afterRequire fun _ => .done (hs.setEngine he rfl)

/-! Environment -/

theorem execLineRx_construction (flags : BitVec 4) :
    LeadsTo (SameConstruction s) (execLineRx i a flags t) := by
  refine hs.conclude <| .afterUartFor fun _ hx => .afterRequire fun _ => .done ?_
  split
  · exact hs.setUart hx rfl
  · exact hs

theorem execLineTxReady_construction : LeadsTo (SameConstruction s) (execLineTxReady i a t) :=
  hs.conclude <| .afterUartFor fun _ hx => .afterRequire fun _ => .done (hs.setUart hx rfl)

theorem execLineTxComplete_construction : LeadsTo (SameConstruction s) (execLineTxComplete i a t) :=
  hs.conclude <| .afterUartFor fun _ hx => .afterRequire fun _ => .done (hs.setUart hx rfl)

theorem execLineIdle_construction : LeadsTo (SameConstruction s) (execLineIdle i a t) := by
  refine hs.conclude <| .afterUartFor fun _ hx => .done ?_
  split
  · exact hs.setUart hx rfl
  · exact hs

theorem moveUartTx_construction : EndsIn (SameConstruction s) (moveUartTx u t) :=
  .afterUartAt fun x hx => .afterRequire fun _ => .query (faultless_moveAddress _) fun _ _ =>
    .query (faultless_readByte _ _) fun _ _ => .done <|
      hs.countFree.setUart (by simpa using hx) (x.fixedPart_advanceTx _ _)

theorem moveUartRx_construction : EndsIn (SameConstruction s) (moveUartRx u t) :=
  .afterUartAt fun x hx => .afterRequire fun _ => .afterValue fun _ _ =>
    .query (faultless_moveAddress _) fun _ _ => .afterMoveStore <| .done <|
      hs.setMem.countFree.setUart (by simpa using hx) (x.fixedPart_advanceRx _ _)

theorem moveBusTx_construction {n : Nat} : EndsIn (SameConstruction s) (moveBusTx n t) :=
  .afterEngineAt fun e he => .afterRequire fun _ => .query (faultless_moveAddress _) fun _ _ =>
    .query (faultless_readByte _ _) fun _ _ => .done <|
      hs.countFree.setEngine (by simpa using he) (e.fixedPart_advanceTx _ _)

theorem moveBusRx_construction {n : Nat} (v : Word) : EndsIn (SameConstruction s) (moveBusRx n v t) :=
  .afterEngineAt fun e he => .afterRequire fun _ => .afterRequire fun _ =>
    .query (faultless_moveAddress _) fun _ _ => .afterMoveStore <| .done <|
      hs.setMem.countFree.setEngine (by simpa using he) (e.fixedPart_advanceRx _ _)

theorem execDmaMove_construction (channel : BitVec 2) :
    LeadsTo (SameConstruction s) (execDmaMove i a channel t) :=
  hs.conclude <| .afterRequire fun _ => .ite (fun _ => moveUartTx_construction hs) fun _ =>
    .ite (fun _ => moveUartRx_construction hs) fun _ =>
    .ite (fun _ => moveBusTx_construction hs) fun _ => moveBusRx_construction hs _

/-! ### A step keeps the construction -/

/-- The lines a held command still has to run are a drain of the read ring, or none (R342). -/
theorem execResume_construction (h : Held) : LeadsTo (SameConstruction s) (execResume h t) := by
  refine hs.release.conclude ?_
  cases h with
  | waitTc _ | waitRxne _ => exact .done hs.release
  | readB _ => exact drainRead_construction hs.release

theorem exec_construction (i : Instr) : LeadsTo (SameConstruction s) (exec i t) := by
  cases i with
  | memLd _ _ _ => exact execMemLd_construction hs _
  | memSt _ _ _ => exact execMemSt_construction hs _
  | rbWrite _ _ => exact execRbWrite_construction hs
  | rbRead _ _ => exact execRbRead_construction hs
  | rbPop _ _ => exact execRbPop_construction hs
  | rbSkip _ _ => exact execRbSkip_construction hs
  | rbPeek _ _ => exact execRbPeek_construction hs
  | rbCommit _ _ => exact execRbCommit_construction hs
  | rbUsed _ _ => exact execRbUsed_construction hs
  | ldSetSpeed _ _ => exact execLdSetSpeed_construction hs
  | ldSetFrame _ _ _ _ _ => exact execLdSetFrame_construction hs _ _ _
  | ldSetFlow _ _ _ => exact execLdSetFlow_construction hs _
  | ldEnable _ _ _ => exact execLdEnable_construction hs _
  | ldDisable _ _ _ => exact execLdDisable_construction hs _
  | ldArmIrq _ _ _ => exact execLdArmIrq_construction hs _
  | ldDisarmIrq _ _ _ => exact execLdDisarmIrq_construction hs _
  | ldIrq _ _ => exact execLdIrq_construction hs
  | ldRdUnit _ _ => exact execLdRdUnit_construction hs
  | ldWrUnit _ _ => exact execLdWrUnit_construction hs
  | ldWaitTc _ _ => exact execLdWaitTc_construction hs
  | ldWaitRxne _ _ => exact execLdWaitRxne_construction hs
  | ldClkChg _ _ _ => exact execLdClkChg_construction hs _
  | bsWrite _ _ => exact execBsWrite_construction hs
  | bsReadB _ _ => exact execBsReadB_construction hs
  | bsReadNb _ _ => exact execBsReadNb_construction hs
  | bsTxDone _ _ => exact execBsTxDone_construction hs
  | bsRxDone _ _ => exact execBsRxDone_construction hs
  | tbEnable _ _ _ => exact execTbEnable_construction hs _
  | tbDisable _ _ _ => exact execTbDisable_construction hs _
  | bteSubmit _ _ => exact execBteSubmit_construction hs
  | bteEvAddr _ _ => exact execBteEvAddr_construction hs
  | bteEvTc _ _ => exact execBteEvTc_construction hs
  | bteEvStop _ _ => exact execBteEvStop_construction hs
  | bteEvNack _ _ => exact execBteEvNack_construction hs
  | bteEvErr _ _ _ => exact execBteEvErr_construction hs _
  | bteDmaDone _ _ _ => exact execBteDmaDone_construction hs _
  | lineRx _ _ _ => exact execLineRx_construction hs _
  | lineTxReady _ _ => exact execLineTxReady_construction hs
  | lineTxComplete _ _ => exact execLineTxComplete_construction hs
  | lineIdle _ _ => exact execLineIdle_construction hs
  | dmaMove _ _ _ => exact execDmaMove_construction hs _

end

theorem step_construction (s : State) : LeadsTo (SameConstruction s) (step s) :=
  step_leadsTo ((SameConstruction.refl s).takesTurn (nextTurn_state s))
    (fun h _ ht => execResume_construction ht h) (fun _ k _ ht => execReadRes_construction ht k)
    (fun e _ ht => execReserved_construction ht e) fun i _ ht => exec_construction ht i

/-- Settles O57: every operation, run to its end, fault or refusal, keeps what construction fixed, and
taking the turn before it touches only the trace and the issuer's port. -/
theorem stepKeepsWhatConstructionFixed : Obligations.StepKeepsWhatConstructionFixed := by
  intro s t h
  obtain ⟨hregions, hdata, hrings, huarts, hengines, hclocks⟩ := step_construction s t h
  exact ⟨hregions, hdata, hrings, huarts, hengines, hclocks⟩

end Sys2Proof.Machine

/-! What an operation can do to the state, said once. `Edit r s t` is one elementary update that some
operation makes, under the rights `r` of the operation; `exec_edits` is the inversion of every operation:
its next state is reached by edits under its own rights. The invariants of R46 and the frames of the block
are then cases over the edits, not over the 41 operations. -/

namespace Sys2Proof.Machine

/-! ### The edits -/

/-- What only the operations that the rules name may touch (R20, R38, R60, R156, R162, R310). -/
structure Rights where
  res0 : Bool
  res1 : Bool
  mem : Bool
  post : Bool
  notify : Bool
  clock : Bool
  enables : Bool

/-- The rights of an operation, read off the lists of the model. -/
def Rights.of (i : Instr) : Rights :=
  ⟨writesRes0 i, writesRes1 i, writesMem i, posts i, notifies i, changesClock i, movesEnableState i⟩

/-- No rights: a refused word, a read of a result. -/
def Rights.none : Rights := ⟨false, false, false, false, false, false, false⟩

/-- The rights of the lines below a hold, those of a drain (R205). -/
def Rights.drain : Rights := { Rights.none with res0 := true, mem := true }

/-- The two advances of a ring (R121, R130). A producer stays within the capacity if the used count was
within it; a consumer takes no more than is there. -/
inductive Ring.Advance (q : Ring) : Ring → Prop where
  | produce (k : Nat) (h : q.used ≤ q.n → q.used + k ≤ q.n) : Ring.Advance q (q.produce k)
  | consume (k : Nat) (h : k ≤ q.used) : Ring.Advance q (q.consume k)

/-- What an operation can do to a line driver with oversampling factor `ovs`. -/
inductive LineDriver.Change (r : Rights) (ovs : Nat) (l : LineDriver) : LineDriver → Prop where
  | divisor (d : Nat) (v : Word) : LineDriver.Change r ovs l { l.setDivisor d ovs with speed := v }
  | frame (n : Nat) (p : Parity) (b : StopBits) : LineDriver.Change r ovs l
      { l with dataBits := some n, parity := some p, stopBits := some b }
  | flow (f : Flow) : LineDriver.Change r ovs l { l with flow := some f }
  | enable (hr : r.enables = true) (p : Part) (h : l.dataBits.isSome = true) :
      LineDriver.Change r ovs l (l.enable p)
  | disable (hr : r.enables = true) (p : Part) : LineDriver.Change r ovs l (l.disable p)
  | arm (c : Nat) (h : l.mayArm c = true) : LineDriver.Change r ovs l (l.arm c)
  | disarm (c : Nat) : LineDriver.Change r ovs l (l.disarm c)

/-- The UART after a write of `k` bytes to its write ring: a transfer starts unless one is in flight
(R201). -/
def Uart.queued (x : Uart) (k : Nat) : Uart :=
  let written := { x with bs := { x.bs with tx := { x.bs.tx with ix := x.bs.tx.ix.produce k } } }
  if x.bs.txInFlight = 0 then written.startTx else written

/-- The UART after the finished run is released, before the next one starts (R203). -/
def Uart.released (x : Uart) : Uart :=
  { x with
    txch := { x.txch with done := false }
    bs := { x.bs with
      tx := { x.bs.tx with ix := x.bs.tx.ix.consume x.bs.txInFlight }
      txInFlight := 0 } }

/-- What an operation can do to a UART. -/
inductive Uart.Change (r : Rights) (x : Uart) : Uart → Prop where
  | same : Uart.Change r x x
  | driver {l : LineDriver} (h : x.ld.Change r x.par.ovs l) : Uart.Change r x { x with ld := l }
  | binding (b : Binding) : Uart.Change r x { x with tb := b }
  /-- Units pass and channels count or are acknowledged; the transmit channel keeps its programme. -/
  | traffic {p : Line} {tx rx : DmaChan} (hp : x.line.txLine <+: p.txLine)
      (hcount : tx.count = x.txch.count) (hmaddr : tx.maddr = x.txch.maddr) :
      Uart.Change r x { x with line := p, txch := tx, rxch := rx }
  | queue (k : Nat) (h : x.bs.tx.ix.used ≤ x.bs.tx.ix.n → x.bs.tx.ix.used + k ≤ x.bs.tx.ix.n) :
      Uart.Change r x (x.queued k)
  | release (h : x.bs.txInFlight ≤ x.bs.tx.ix.used) : Uart.Change r x x.released.startTx
  | sync (k c : Nat) (h : x.bs.rx.ix.used + k ≤ x.bs.rx.ix.n) : Uart.Change r x
      { x with bs := { x.bs with rx := { x.bs.rx with ix := x.bs.rx.ix.produce k }, prevCount := c } }
  | drain (k : Nat) (p : PendingRead) (h : k ≤ x.bs.rx.ix.used) : Uart.Change r x
      { x with bs := { x.bs with rx := { x.bs.rx with ix := x.bs.rx.ix.consume k }, pend := p } }
  | pend (p : PendingRead) : Uart.Change r x { x with bs := { x.bs with pend := p } }

/-- What an operation can do to a bus engine. -/
inductive Engine.Change (e : Engine) : Engine → Prop where
  | same : Engine.Change e e
  | queue (w : Word) (hroom : e.q.ix.used ≠ e.q.ix.n) (hst : e.st ≠ .idle) :
      Engine.Change e { e with q := e.q.push w }
  | start {d : Engine} (w : Word) (s : State) (hroom : e.q.ix.used ≠ e.q.ix.n) (hst : e.st = .idle)
      (h : Engine.startHead { e with q := e.q.push w } s = .ok d) : Engine.Change e d
  | data (p : BusPhase) (hst : e.st ≠ .idle) (hp : e.phase = some p) :
      Engine.Change e { e with st := if p = .w then .dataPhaseWrite else .dataPhaseRead }
  /-- The read phase begins with a repeated start (R246). -/
  | restart {l : List BusItem} (hst : e.st ≠ .idle) (hl : e.busLog <+: l) (ch : DmaChan) (n : Nat) :
      Engine.Change e { e with
        busLog := l, dmaTxEn := false, rxch := ch, dmaRxEn := true, phase := some .r
        byteCount := some n, autoStop := some true, st := .dataPhaseRead }
  /-- The transaction in flight ends, logged in `e'`, and the next one starts or the engine shuts down
  (R250, R252). -/
  | finish {e' d : Engine} (s : State) (hst : e.st ≠ .idle) (hq : e'.q = e.q)
      (hbus : e.busLog <+: e'.busLog) (herr : e.errLog <+: e'.errLog) (h : e'.finish.next s = .ok d) :
      Engine.Change e d
  | traffic {l : List BusItem} (tx rx : DmaChan) (hl : e.busLog <+: l) :
      Engine.Change e { e with busLog := l, txch := tx, rxch := rx }

/-- One elementary update an operation with the rights `r` makes. -/
inductive Edit (r : Rights) (s : State) : State → Prop where
  | res0 (hr : r.res0 = true) (a : Agent) (v : Word) : Edit r s (s.setRes0 a v)
  | res1 (hr : r.res1 = true) (a : Agent) (v : Word) : Edit r s (s.setRes1 a v)
  | mem (hr : r.mem = true) (m : Memory) : Edit r s (s.setMem m)
  | post (hr : r.post = true) (w : Word) (k : Kind) : Edit r s (post w k s)
  | notify (hr : r.notify = true) (u : Nat) (k : Kind) : Edit r s { s with notif := s.notif ++ [(u, k)] }
  | clock (hr : r.clock = true) (c f : Nat) : Edit r s
      { s with clkFreq := s.clkFreq.set c f, uarts := s.uarts.map (Uart.reclock c f) }
  | hold (h : Held) : Edit r s (s.hold h)
  | release : Edit r s s.release
  | countFree (ch : DmaChan) : Edit r s (s.countFree ch)
  | ring {n : Nat} {b : FreeRing} {q : Ring} (hb : s.rings[n]? = some b) (hq : b.ring.ix.Advance q) :
      Edit r s (s.setRing n { b with ring := { b.ring with ix := q } })
  | uart {u : Nat} {x y : Uart} (hx : s.uarts[u]? = some x) (hy : x.Change r y) : Edit r s (s.setUart u y)
  | engine {n : Nat} {e d : Engine} (he : s.engines[n]? = some e) (hd : e.Change d) :
      Edit r s (s.setEngine n d)
  | fault (f : FaultCode) : Edit r s (raiseFault f s)
  | refused (c : RefuseCode) : Edit r s (markRefused c s)

/-- `t` is reached from `s` by edits under the rights `r`. -/
abbrev Edits (r : Rights) : State → State → Prop := Relation.ReflTransGen (Edit r)

/-- What every edit keeps, a sequence of edits keeps. -/
theorem Edits.keep {r : Rights} {P : State → Prop} (hP : ∀ s t, Edit r s t → P s → P t) {s t : State}
    (h : Edits r s t) (hs : P s) : P t := by
  induction h with
  | refl => exact hs
  | tail _ hst ih => exact hP _ _ hst ih

/-! ### How procedures advance the rings -/

/-- A write accepts no more than there is room for (R123). -/
theorem ByteRing.accepts_le (b : ByteRing) (count : Nat) (h : b.ix.used ≤ b.ix.n) :
    b.ix.used + b.accepts count ≤ b.ix.n := by
  unfold ByteRing.accepts
  omega

/-- A read delivers no more than is there (R124). -/
theorem ByteRing.delivers_le (b : ByteRing) (count : Nat) : b.delivers count ≤ b.ix.used :=
  Nat.min_le_right _ _

/-- A pop that yields a byte takes one element (R125). -/
theorem ByteRing.pop_eq_some {b c : ByteRing} {s : State} {v : Byte} (h : b.pop s = .ok (some v, c)) :
    1 ≤ b.ix.used ∧ c = { b with ix := b.ix.consume 1 } := by
  unfold ByteRing.pop at h
  split at h
  · cases h
  · obtain ⟨w, -, hw⟩ := (bind_eq_ok _ _ _).1 h
    cases hw
    exact ⟨by omega, rfl⟩

/-- A commit that goes on stays within the capacity (R128). -/
theorem EndsIn.afterCommitWithin {P : State → Prop} {q : Ring} {s : State} {n : Nat}
    {g : Ring → Proc State} (hs : P s) (hg : q.used + n ≤ q.n → EndsIn P (g (q.produce n))) :
    EndsIn P (q.commit s n >>= g) := by
  unfold Ring.commit
  split
  · exact .raised hs
  · exact hg (by omega)

/-- A skip that goes on takes no more than is there (R126). -/
theorem EndsIn.afterSkipWithin {P : State → Prop} {q : Ring} {s : State} {n : Nat}
    {g : Ring → Proc State} (hs : P s) (hg : n ≤ q.used → EndsIn P (g (q.consume n))) :
    EndsIn P (q.skip s n >>= g) := by
  unfold Ring.skip
  split
  · exact .raised hs
  · exact hg (by omega)

/-! ### Sequences of edits -/

section
variable {r : Rights} {s t : State}

namespace Edits

/-- An operation's outcome is reached by edits if its procedure ends so: the marks of a fault and of a
refusal are edits too. -/
theorem conclude {p : Proc State} (h : Edits r s t) (hp : EndsIn (Edits r s) p) :
    LeadsTo (Edits r s) (conclude t p) :=
  hp.conclude (fun f _ ht => ht.tail (.fault f)) fun c => h.tail (.refused c)

theorem setRes0 {a : Agent} {v : Word} (h : Edits r s t) (hr : r.res0 = true) :
    Edits r s (t.setRes0 a v) := h.tail (.res0 hr a v)

theorem setRes1 {a : Agent} {v : Word} (h : Edits r s t) (hr : r.res1 = true) :
    Edits r s (t.setRes1 a v) := h.tail (.res1 hr a v)

theorem setMem {m : Memory} (h : Edits r s t) (hr : r.mem = true) : Edits r s (t.setMem m) :=
  h.tail (.mem hr m)

theorem post {w : Word} {k : Kind} (h : Edits r s t) (hr : r.post = true) : Edits r s (post w k t) :=
  h.tail (.post hr w k)

theorem hold {c : Held} (h : Edits r s t) : Edits r s (t.hold c) := h.tail (.hold c)

theorem countFree {ch : DmaChan} (h : Edits r s t) : Edits r s (t.countFree ch) := h.tail (.countFree ch)

theorem ring {n : Nat} {b : FreeRing} {q : Ring} (h : Edits r s t) (hb : t.rings[n]? = some b)
    (hq : b.ring.ix.Advance q) : Edits r s (t.setRing n { b with ring := { b.ring with ix := q } }) :=
  h.tail (.ring hb hq)

theorem uart {u : Nat} {x y : Uart} (h : Edits r s t) (hx : t.uarts[u]? = some x)
    (hy : x.Change r y) : Edits r s (t.setUart u y) := h.tail (.uart hx hy)

theorem engine {n : Nat} {e d : Engine} (h : Edits r s t) (he : t.engines[n]? = some e)
    (hd : e.Change d) : Edits r s (t.setEngine n d) := h.tail (.engine he hd)

end Edits

/-! ### Lines that only grow -/

/-- Clearing the line-break bit, a dummy read and no access leave the units of the line (R163). -/
theorem irqOrder_txLine : ∀ e ∈ irqOrder, ∀ p : Line, (e.access p).txLine = p.txLine := by
  intro e he p
  simp only [irqOrder, List.mem_cons, List.not_mem_nil, or_false] at he
  obtain rfl | rfl | rfl | rfl | rfl | rfl | rfl | rfl | rfl := he <;> rfl

theorem Line.setFlagIf_txLine (p : Line) (b : Bool) (c : Nat) : (p.setFlagIf b c).txLine = p.txLine := by
  cases b <;> rfl

/-- An arriving frame adds no unit to what was sent (R300). -/
theorem Line.receive_txLine (p : Line) (v : Word) (flags : BitVec 4) :
    (p.receive v flags).txLine = p.txLine := by
  unfold Line.receive
  split
  · rfl
  · split
    · rfl
    · simp only [Line.setFlagIf_txLine]
      rfl

theorem Line.prefix_of_eq {p q : Line} (h : q.txLine = p.txLine) : p.txLine <+: q.txLine :=
  h ▸ List.prefix_refl _

theorem Line.prefix_dataWrite (p : Line) (v : Word) : p.txLine <+: (p.dataWrite v).txLine :=
  List.prefix_append _ _

/-- A change of the line alone. -/
theorem Uart.Change.line {x : Uart} {p : Line} (hp : x.line.txLine <+: p.txLine) :
    x.Change r { x with line := p } := .traffic hp rfl rfl

/-- A change of the line that adds no unit. -/
theorem Uart.Change.lineFlags {x : Uart} {p : Line} (hp : p.txLine = x.line.txLine) :
    x.Change r { x with line := p } := .line (Line.prefix_of_eq hp)

/-- A new speed at the clock's frequency, or a new frequency at the speed (R151, R174). -/
theorem Uart.change_reclock (x : Uart) (c f : Nat) : x.Change r (x.reclock c f) := by
  unfold Uart.reclock
  split
  · exact .driver (.divisor (x.newDivisor f) x.ld.speed)
  · exact .same

/-! ### The shared procedures -/

section
variable {u : Nat} (hs : Edits r s t)
include hs

theorem trySatisfy_edits (hmem : r.mem = true) (hpost : r.post = true) :
    EndsIn (Edits r s) (trySatisfy u t) := by
  refine .afterUartAt fun x hx => .ite (fun _ => .query (x.bs.rx.faultless_read _ _ _) fun p hr => ?_)
    fun _ => .done hs
  obtain ⟨-, -, rfl⟩ := (x.bs.rx.read_eq_ok _ _ _ p).1 hr
  exact .done (((hs.uart hx (.drain _ _ (x.bs.rx.delivers_le _))).setMem hmem).post hpost)

theorem rxSync_edits (hmem : r.mem = true) (hpost : r.post = true) :
    EndsIn (Edits r s) (rxSync u t) :=
  .afterUartAt fun _ hx => .ite (fun _ => .raised hs) fun _ => .afterCommitWithin hs fun hle =>
    trySatisfy_edits (hs.uart hx (.sync _ _ hle)) hmem hpost

theorem drainRead_edits {a : Agent} (hmem : r.mem = true) (hres : r.res0 = true) :
    EndsIn (Edits r s) (drainRead u a t) := by
  refine .afterUartAt fun x hx => .query (x.bs.rx.faultless_read _ _ _) fun p hr => ?_
  obtain ⟨-, -, rfl⟩ := (x.bs.rx.read_eq_ok _ _ _ p).1 hr
  exact .done (((hs.uart hx (.drain _ x.bs.pend (x.bs.rx.delivers_le _))).setMem hmem).setRes0 hres)

theorem forwardError_edits (hpost : r.post = true) (k : Kind) :
    EndsIn (Edits r s) (forwardError u k t) :=
  .afterUartAt fun _ _ => .ite (fun _ => .done (hs.post hpost)) fun _ => .done hs

theorem idleReaction_edits (hmem : r.mem = true) (hpost : r.post = true) :
    EndsIn (Edits r s) (idleReaction u t) :=
  .afterUartAt fun _ _ => .ite (fun _ => rxSync_edits hs hmem hpost) fun _ => .done hs

theorem react_edits (hmem : r.mem = true) (hpost : r.post = true) (k : Kind) :
    EndsIn (Edits r s) (react u k t) := by
  cases k with
  | overrunError | framingError | parityError | noiseDetected | lineBreak =>
    exact forwardError_edits hs hpost _
  | idleLine => exact idleReaction_edits hs hmem hpost
  | _ => exact .done hs

end

/-- One test of the handler, with an access that adds no unit to the line (R162, R163). -/
theorem irqTest_edits {u : Nat} {i : BitVec 4} {a : Agent} {sample : BitVec 9} {e : IrqEntry}
    (he : ∀ p : Line, (e.access p).txLine = p.txLine) (hs : Edits (.of (.ldIrq i a)) s t) :
    EndsIn (Edits (.of (.ldIrq i a)) s) (irqTest u sample e t) :=
  .ite (fun _ => .seq (react_edits (hs.tail (.notify rfl u e.kind)) rfl rfl e.kind) fun _ hn =>
    .afterUartAt fun x hx => .done (hn.uart hx (.lineFlags (he x.line)))) fun _ => .done hs

theorem irqTests_edits {u : Nat} {i : BitVec 4} {a : Agent} {sample : BitVec 9} {l : List IrqEntry}
    (hl : ∀ e ∈ l, ∀ p : Line, (e.access p).txLine = p.txLine) :
    ∀ t, Edits (.of (.ldIrq i a)) s t →
      EndsIn (Edits (.of (.ldIrq i a)) s) (irqTests u sample l t) := by
  induction l with
  | nil => exact fun _ ht => .done ht
  | cons e es ih =>
    exact fun _ ht => .seq (irqTest_edits (hl e (List.mem_cons_self ..)) ht)
      (ih fun f hf => hl f (List.mem_cons_of_mem _ hf))

end

/-! ### The operations -/

section
variable {s : State} {i : BitVec 4} {a : Agent}

/-! Host access to MEM -/

theorem execReserved_edits (e : DecodeError) : LeadsTo (Edits .none s) (execReserved e s) :=
  .conclude .refl (.refused _)

theorem execReadRes_edits (k : ResReg) : LeadsTo (Edits .none s) (execReadRes a k s) :=
  .conclude .refl <| .afterValue fun _ _ => .done .refl

theorem execMemLd_edits (n : BitVec 3) : LeadsTo (Edits (.of (.memLd i a n)) s) (execMemLd i a n s) := by
  refine .conclude .refl <| .afterField fun k _ => .afterRequire fun _ => .afterRequire fun _ =>
    .afterRequire fun _ => ?_
  split
  · exact .done (.setRes0 .refl rfl)
  · exact .refused _

theorem execMemSt_edits (n : BitVec 3) : LeadsTo (Edits (.of (.memSt i a n)) s) (execMemSt i a n s) :=
  .conclude .refl <| .afterField fun _ _ => .afterRequire fun _ => .afterRequire fun _ =>
    .afterRequire fun _ => .afterRequire fun _ => .done (.setMem .refl rfl)

/-! Free-standing rings -/

theorem execRbWrite_edits : LeadsTo (Edits (.of (.rbWrite i a)) s) (execRbWrite i a s) := by
  refine .conclude .refl <| .afterRingFor fun b hb => .query (b.ring.faultless_write _ _ _) fun p hp => ?_
  obtain ⟨-, -, rfl⟩ := (b.ring.write_eq_ok _ _ _ p).1 hp
  exact .done (((Edits.ring .refl hb (.produce _ (b.ring.accepts_le _))).setMem rfl).setRes0 rfl)

theorem execRbRead_edits : LeadsTo (Edits (.of (.rbRead i a)) s) (execRbRead i a s) := by
  refine .conclude .refl <| .afterRingFor fun b hb => .query (b.ring.faultless_read _ _ _) fun p hp => ?_
  obtain ⟨-, -, rfl⟩ := (b.ring.read_eq_ok _ _ _ p).1 hp
  exact .done (((Edits.ring .refl hb (.consume _ (b.ring.delivers_le _))).setMem rfl).setRes0 rfl)

theorem execRbPop_edits : LeadsTo (Edits (.of (.rbPop i a)) s) (execRbPop i a s) := by
  refine .conclude .refl <| .afterRingFor fun b hb => .query (b.ring.faultless_pop _) fun ⟨v, c⟩ hp => ?_
  cases v with
  | some v =>
    obtain ⟨hle, rfl⟩ := ByteRing.pop_eq_some hp
    exact .done (((Edits.ring .refl hb (.consume 1 hle)).setRes1 rfl).setRes0 rfl)
  | none => exact .done (.setRes0 .refl rfl)

theorem execRbSkip_edits : LeadsTo (Edits (.of (.rbSkip i a)) s) (execRbSkip i a s) :=
  .conclude .refl <| .afterRingFor fun _ hb => .afterSkipWithin .refl fun hle =>
    .done (.ring .refl hb (.consume _ hle))

theorem execRbPeek_edits : LeadsTo (Edits (.of (.rbPeek i a)) s) (execRbPeek i a s) :=
  .conclude .refl <| .afterRingFor fun _ _ => .done ((Edits.setRes0 .refl rfl).setRes1 rfl)

theorem execRbCommit_edits : LeadsTo (Edits (.of (.rbCommit i a)) s) (execRbCommit i a s) :=
  .conclude .refl <| .afterRingFor fun _ hb => .afterCommitWithin .refl fun hle =>
    .done (.ring .refl hb (.produce _ fun _ => hle))

theorem execRbUsed_edits : LeadsTo (Edits (.of (.rbUsed i a)) s) (execRbUsed i a s) :=
  .conclude .refl <| .afterRingFor fun _ _ => .done (.setRes0 .refl rfl)

/-! BufferedStream and TransferBinding -/

theorem execBsWrite_edits : LeadsTo (Edits (.of (.bsWrite i a)) s) (execBsWrite i a s) := by
  refine .conclude .refl <| .afterUartFor fun x hx => .afterRequire fun _ =>
    .query (x.bs.tx.faultless_write _ _ _) fun p hp => ?_
  obtain ⟨-, -, rfl⟩ := (x.bs.tx.write_eq_ok _ _ _ p).1 hp
  exact .done (((Edits.uart .refl hx (.queue _ (x.bs.tx.accepts_le _))).setMem rfl).setRes0 rfl)

theorem execBsTxDone_edits : LeadsTo (Edits (.of (.bsTxDone i a)) s) (execBsTxDone i a s) :=
  .conclude .refl <| .afterUartFor fun _ hx => .afterRequire fun _ => .afterRequire fun _ =>
    .afterSkipWithin (.uart .refl hx (.traffic (List.prefix_refl _) rfl rfl)) fun hle =>
      .done (.uart .refl hx (.release hle))

theorem execBsRxDone_edits : LeadsTo (Edits (.of (.bsRxDone i a)) s) (execBsRxDone i a s) :=
  .conclude .refl <| .afterUartFor fun _ hx => .afterRequire fun _ => .afterRequire fun _ =>
    rxSync_edits (.uart .refl hx (.traffic (List.prefix_refl _) rfl rfl)) rfl rfl

theorem execBsReadB_edits : LeadsTo (Edits (.of (.bsReadB i a)) s) (execBsReadB i a s) :=
  .conclude .refl <| .afterUartFor fun _ hx => .afterRequire fun _ => .afterRequire fun _ =>
    have superseded := Edits.uart .refl hx (.pend ⟨0#32, 0#32, 0#32⟩)
    .ite (fun _ => drainRead_edits superseded rfl rfl) fun _ => .done superseded.hold

theorem execBsReadNb_edits : LeadsTo (Edits (.of (.bsReadNb i a)) s) (execBsReadNb i a s) :=
  .conclude .refl <| .afterUartFor fun _ hx => .afterRequire fun _ => .afterRequire fun _ =>
    .ite (fun _ => drainRead_edits (.uart .refl hx (.pend ⟨0#32, 0#32, 0#32⟩)) rfl rfl) fun _ =>
      .done ((Edits.uart .refl hx (.pend _)).setRes0 rfl)

theorem execTbEnable_edits (part : BitVec 2) :
    LeadsTo (Edits (.of (.tbEnable i a part)) s) (execTbEnable i a part s) :=
  .conclude .refl <| .afterField fun _ _ => .afterUartFor fun _ hx => .afterRequire fun _ =>
    .afterRequire fun _ => .done (.uart .refl hx (.binding _))

theorem execTbDisable_edits (part : BitVec 2) :
    LeadsTo (Edits (.of (.tbDisable i a part)) s) (execTbDisable i a part s) :=
  .conclude .refl <| .afterField fun _ _ => .afterUartFor fun _ hx =>
    .done (.uart .refl hx (.binding _))

/-! LineDriver -/

theorem execLdSetSpeed_edits : LeadsTo (Edits (.of (.ldSetSpeed i a)) s) (execLdSetSpeed i a s) :=
  .conclude .refl <| .afterUartFor fun _ hx => .query (faultless_frequency _ _) fun _ _ =>
    .afterRequire fun _ => .afterRequire fun _ =>
      .done ((Edits.uart .refl hx (.driver (.divisor _ _))).setRes0 rfl)

theorem execLdSetFrame_edits (parity stopBits : BitVec 2) (dataBits : BitVec 8) :
    LeadsTo (Edits (.of (.ldSetFrame i a parity stopBits dataBits)) s)
      (execLdSetFrame i a parity stopBits dataBits s) :=
  .conclude .refl <| .afterField fun _ _ => .afterUartFor fun _ hx => .afterRequire fun _ =>
    .afterRequire fun _ => .done (.uart .refl hx (.driver (.frame _ _ _)))

theorem execLdSetFlow_edits (flow : BitVec 2) :
    LeadsTo (Edits (.of (.ldSetFlow i a flow)) s) (execLdSetFlow i a flow s) :=
  .conclude .refl <| .afterUartFor fun _ hx => .afterRequire fun _ =>
    .done (.uart .refl hx (.driver (.flow _)))

theorem execLdEnable_edits (part : BitVec 2) :
    LeadsTo (Edits (.of (.ldEnable i a part)) s) (execLdEnable i a part s) :=
  .conclude .refl <| .afterField fun p _ => .afterUartFor fun _ hx => .afterRequire fun hframe =>
    .done (.uart .refl hx (.driver (.enable rfl p hframe)))

theorem execLdDisable_edits (part : BitVec 2) :
    LeadsTo (Edits (.of (.ldDisable i a part)) s) (execLdDisable i a part s) :=
  .conclude .refl <| .afterField fun p _ => .afterUartFor fun _ hx =>
    .done (.uart .refl hx (.driver (.disable rfl p)))

theorem execLdArmIrq_edits (cond : BitVec 4) :
    LeadsTo (Edits (.of (.ldArmIrq i a cond)) s) (execLdArmIrq i a cond s) :=
  .conclude .refl <| .afterField fun c _ => .afterUartFor fun _ hx => .afterRequire fun hmay =>
    .done (.uart .refl hx (.driver (.arm c hmay)))

theorem execLdDisarmIrq_edits (cond : BitVec 4) :
    LeadsTo (Edits (.of (.ldDisarmIrq i a cond)) s) (execLdDisarmIrq i a cond s) :=
  .conclude .refl <| .afterField fun c _ => .afterUartFor fun _ hx =>
    .done (.uart .refl hx (.driver (.disarm c)))

theorem execLdIrq_edits : LeadsTo (Edits (.of (.ldIrq i a)) s) (execLdIrq i a s) :=
  .conclude .refl <| .afterUartFor fun _ hx => .afterRequire fun _ =>
    irqTests_edits irqOrder_txLine _ (.uart .refl hx (.lineFlags rfl))

theorem execLdRdUnit_edits : LeadsTo (Edits (.of (.ldRdUnit i a)) s) (execLdRdUnit i a s) :=
  .conclude .refl <| .afterUartFor fun _ hx => .afterRequire fun _ => .afterRequire fun _ =>
    .afterValue fun _ _ => .done (.setRes0 (.uart .refl hx (.lineFlags rfl)) rfl)

theorem execLdWrUnit_edits : LeadsTo (Edits (.of (.ldWrUnit i a)) s) (execLdWrUnit i a s) :=
  .conclude .refl <| .afterUartFor fun x hx => .afterRequire fun _ => .afterRequire fun _ =>
    .afterValue fun _ _ => .afterRequire fun _ =>
      .done (.uart .refl hx (.line (x.line.prefix_dataWrite _)))

theorem execLdWaitTc_edits : LeadsTo (Edits (.of (.ldWaitTc i a)) s) (execLdWaitTc i a s) := by
  refine .conclude .refl <| .afterUartFor fun _ _ => .afterRequire fun _ => .done ?_
  split
  · exact .refl
  · exact .hold .refl

theorem execLdWaitRxne_edits : LeadsTo (Edits (.of (.ldWaitRxne i a)) s) (execLdWaitRxne i a s) := by
  refine .conclude .refl <| .afterUartFor fun _ _ => .afterRequire fun _ => .done ?_
  split
  · exact .refl
  · exact .hold .refl

theorem execLdClkChg_edits (phase : BitVec 1) :
    LeadsTo (Edits (.of (.ldClkChg i a phase)) s) (execLdClkChg i a phase s) :=
  .conclude .refl <| .afterRequire fun _ => .afterRequire fun _ => .ite (fun _ => .done .refl) fun _ =>
    .afterRequire fun _ => .done (.single (.clock rfl _ _))

/-! Bus engine -/

theorem execBteSubmit_edits : LeadsTo (Edits (.of (.bteSubmit i a)) s) (execBteSubmit i a s) := by
  refine .conclude .refl <| .afterEngineFor fun e he => .query (e.faultless_validate _ _) fun _ _ =>
    .ite (fun _ => .done (.setRes0 .refl rfl)) fun hroom => ?_
  split
  · next hidle =>
    exact .query (Engine.faultless_startHead _ _) fun _ hd =>
      .done ((Edits.engine .refl he (.start _ _ hroom hidle hd)).setRes0 rfl)
  · next hbusy => exact .done ((Edits.engine .refl he (.queue _ hroom hbusy)).setRes0 rfl)

theorem Engine.eventOk_busy {e : Engine} (h : e.eventOk = true) : e.st ≠ .idle := by
  simp only [Engine.eventOk, Bool.and_eq_true, bne_iff_ne] at h
  exact h.2

theorem execBteEvAddr_edits : LeadsTo (Edits (.of (.bteEvAddr i a)) s) (execBteEvAddr i a s) :=
  .conclude .refl <| .afterEngineFor fun _ he => .afterRequire fun hok => .afterValue fun p hp =>
    .done (.engine .refl he (.data p (Engine.eventOk_busy (Bool.and_eq_true_iff.1 hok).1) hp))

theorem execBteEvTc_edits : LeadsTo (Edits (.of (.bteEvTc i a)) s) (execBteEvTc i a s) := by
  refine .conclude .refl <| .afterEngineFor fun _ he => .afterRequire fun hok => .afterValue fun _ _ =>
    .afterWord fun _ _ => .afterWord fun _ _ => .afterWord fun _ _ => .done ?_
  simp only [Bool.and_eq_true] at hok
  obtain ⟨⟨⟨⟨hevent, -⟩, -⟩, -⟩, -⟩ := hok
  exact .engine .refl he (.restart (Engine.eventOk_busy hevent) (List.prefix_append _ _) _ _)

theorem execBteEvStop_edits : LeadsTo (Edits (.of (.bteEvStop i a)) s) (execBteEvStop i a s) := by
  refine .conclude .refl <| .afterEngineFor fun e he => .afterRequire fun hok => .afterValue fun _ _ =>
    .afterWord fun _ _ => .query (Engine.faultless_next _ _) fun d hd => .done ?_
  simp only [Bool.and_eq_true] at hok
  obtain ⟨⟨hevent, -⟩, -⟩ := hok
  have hchange : e.Change d := .finish (e' := e.emit .stop) s (Engine.eventOk_busy hevent) rfl
    (List.prefix_append _ _) (List.prefix_refl _) hd
  split
  · exact .engine .refl he hchange
  · exact (Edits.post .refl rfl).engine he hchange

theorem execBteEvNack_edits : LeadsTo (Edits (.of (.bteEvNack i a)) s) (execBteEvNack i a s) :=
  .conclude .refl <| .afterEngineFor fun e he => .afterRequire fun hok =>
    .query (Engine.faultless_next _ _) fun _ hd => .done <| .engine .refl he <|
      .finish (e' := e.emit .nack) s (Engine.eventOk_busy hok) rfl (List.prefix_append _ _)
        (List.prefix_refl _) hd

theorem execBteEvErr_edits (kind : BitVec 8) :
    LeadsTo (Edits (.of (.bteEvErr i a kind)) s) (execBteEvErr i a kind s) := by
  refine .conclude .refl <| .afterField fun k _ => .afterEngineFor fun e he => .afterRequire fun hok =>
    .query (Engine.faultless_next _ _) fun _ hd => .done <| .engine .refl he <|
      .finish (e' := e.reportError k) s ?_ rfl (List.prefix_append _ _) (List.prefix_append _ _) hd
  simp only [Bool.and_eq_true, bne_iff_ne] at hok
  exact hok.2

theorem execBteDmaDone_edits (channel : BitVec 1) :
    LeadsTo (Edits (.of (.bteDmaDone i a channel)) s) (execBteDmaDone i a channel s) :=
  .conclude .refl <| .afterEngineFor fun _ he => .ite
    (fun _ => .afterRequire fun _ => .done (.engine .refl he (.traffic _ _ (List.prefix_refl _))))
    fun _ => .afterRequire fun _ => .done (.engine .refl he (.traffic _ _ (List.prefix_refl _)))

/-! Environment -/

theorem execLineRx_edits (flags : BitVec 4) :
    LeadsTo (Edits (.of (.lineRx i a flags)) s) (execLineRx i a flags s) := by
  refine .conclude .refl <| .afterUartFor fun x hx => .afterRequire fun _ => .done ?_
  split
  · exact .uart .refl hx (.lineFlags (x.line.receive_txLine _ _))
  · exact .refl

theorem execLineTxReady_edits : LeadsTo (Edits (.of (.lineTxReady i a)) s) (execLineTxReady i a s) :=
  .conclude .refl <| .afterUartFor fun _ hx => .afterRequire fun _ =>
    .done (.uart .refl hx (.lineFlags rfl))

theorem execLineTxComplete_edits :
    LeadsTo (Edits (.of (.lineTxComplete i a)) s) (execLineTxComplete i a s) :=
  .conclude .refl <| .afterUartFor fun _ hx => .afterRequire fun _ =>
    .done (.uart .refl hx (.lineFlags rfl))

theorem execLineIdle_edits : LeadsTo (Edits (.of (.lineIdle i a)) s) (execLineIdle i a s) := by
  refine .conclude .refl <| .afterUartFor fun _ hx => .done ?_
  split
  · exact .uart .refl hx (.lineFlags rfl)
  · exact .refl

/-- A channel's programme is not touched by its countdown (R297). -/
theorem DmaChan.advance_programme (ch : DmaChan) (k : Nat) :
    (ch.advance k).count = ch.count ∧ (ch.advance k).maddr = ch.maddr := by
  obtain ⟨-, -, -, hmaddr, -, hcount, -⟩ := advance_fixed ch k
  exact ⟨hcount, hmaddr⟩

section
variable {r : Rights}

theorem moveUartTx_edits {u : Nat} : EndsIn (Edits r s) (moveUartTx u s) :=
  .afterUartAt fun x hx => .afterRequire fun _ => .query (faultless_moveAddress _) fun _ _ =>
    .query (faultless_readByte _ _) fun _ _ => .done <|
      have ⟨hcount, hmaddr⟩ := x.txch.advance_programme s.freeCount
      (Edits.countFree .refl).uart (by simpa using hx)
        (.traffic (x.line.prefix_dataWrite _) hcount hmaddr)

theorem moveUartRx_edits {u : Nat} (hmem : r.mem = true) : EndsIn (Edits r s) (moveUartRx u s) :=
  .afterUartAt fun x hx => .afterRequire fun _ => .afterValue fun _ _ =>
    .query (faultless_moveAddress _) fun _ _ => .afterMoveStore <| .done <|
      (Edits.setMem .refl hmem).countFree.uart (by simpa using hx)
        (.traffic (Line.prefix_of_eq rfl) rfl rfl)

theorem moveBusTx_edits {n : Nat} : EndsIn (Edits r s) (moveBusTx n s) :=
  .afterEngineAt fun e he => .afterRequire fun _ => .query (faultless_moveAddress _) fun _ _ =>
    .query (faultless_readByte _ _) fun _ _ => .done <|
      (Edits.countFree .refl).engine (e := e) (by simpa using he)
        (.traffic (e := e) _ _ (List.prefix_append _ _))

theorem moveBusRx_edits {n : Nat} (v : Word) (hmem : r.mem = true) :
    EndsIn (Edits r s) (moveBusRx n v s) :=
  .afterEngineAt fun e he => .afterRequire fun _ => .afterRequire fun _ =>
    .query (faultless_moveAddress _) fun _ _ => .afterMoveStore <| .done <|
      (Edits.setMem .refl hmem).countFree.engine (e := e) (by simpa using he)
        (.traffic (e := e) _ _ (List.prefix_append _ _))

end

theorem execDmaMove_edits (channel : BitVec 2) :
    LeadsTo (Edits (.of (.dmaMove i a channel)) s) (execDmaMove i a channel s) :=
  .conclude .refl <| .afterRequire fun _ => .ite (fun _ => moveUartTx_edits) fun _ =>
    .ite (fun _ => moveUartRx_edits rfl) fun _ =>
    .ite (fun _ => moveBusTx_edits) fun _ => moveBusRx_edits _ rfl

/-- The lines a held command still has to run are a drain of the read ring, or none (R342). -/
theorem execResume_edits (h : Held) : LeadsTo (Edits .drain s) (execResume h s) := by
  have released : Edits .drain s s.release := .single .release
  refine released.conclude ?_
  cases h with
  | waitTc _ | waitRxne _ => exact .done released
  | readB _ => exact drainRead_edits released rfl rfl

end

/-- The next state of an operation is reached by edits under the operation's rights. -/
theorem exec_edits (i : Instr) (s : State) : LeadsTo (Edits (.of i) s) (exec i s) := by
  cases i with
  | memLd _ _ _ => exact execMemLd_edits _
  | memSt _ _ _ => exact execMemSt_edits _
  | rbWrite _ _ => exact execRbWrite_edits
  | rbRead _ _ => exact execRbRead_edits
  | rbPop _ _ => exact execRbPop_edits
  | rbSkip _ _ => exact execRbSkip_edits
  | rbPeek _ _ => exact execRbPeek_edits
  | rbCommit _ _ => exact execRbCommit_edits
  | rbUsed _ _ => exact execRbUsed_edits
  | ldSetSpeed _ _ => exact execLdSetSpeed_edits
  | ldSetFrame _ _ _ _ _ => exact execLdSetFrame_edits _ _ _
  | ldSetFlow _ _ _ => exact execLdSetFlow_edits _
  | ldEnable _ _ _ => exact execLdEnable_edits _
  | ldDisable _ _ _ => exact execLdDisable_edits _
  | ldArmIrq _ _ _ => exact execLdArmIrq_edits _
  | ldDisarmIrq _ _ _ => exact execLdDisarmIrq_edits _
  | ldIrq _ _ => exact execLdIrq_edits
  | ldRdUnit _ _ => exact execLdRdUnit_edits
  | ldWrUnit _ _ => exact execLdWrUnit_edits
  | ldWaitTc _ _ => exact execLdWaitTc_edits
  | ldWaitRxne _ _ => exact execLdWaitRxne_edits
  | ldClkChg _ _ _ => exact execLdClkChg_edits _
  | bsWrite _ _ => exact execBsWrite_edits
  | bsReadB _ _ => exact execBsReadB_edits
  | bsReadNb _ _ => exact execBsReadNb_edits
  | bsTxDone _ _ => exact execBsTxDone_edits
  | bsRxDone _ _ => exact execBsRxDone_edits
  | tbEnable _ _ _ => exact execTbEnable_edits _
  | tbDisable _ _ _ => exact execTbDisable_edits _
  | bteSubmit _ _ => exact execBteSubmit_edits
  | bteEvAddr _ _ => exact execBteEvAddr_edits
  | bteEvTc _ _ => exact execBteEvTc_edits
  | bteEvStop _ _ => exact execBteEvStop_edits
  | bteEvNack _ _ => exact execBteEvNack_edits
  | bteEvErr _ _ _ => exact execBteEvErr_edits _
  | bteDmaDone _ _ _ => exact execBteDmaDone_edits _
  | lineRx _ _ _ => exact execLineRx_edits _
  | lineTxReady _ _ => exact execLineTxReady_edits
  | lineTxComplete _ _ => exact execLineTxComplete_edits
  | lineIdle _ _ => exact execLineIdle_edits
  | dmaMove _ _ _ => exact execDmaMove_edits _

/-- What taking a turn keeps and every edit keeps, a step keeps. -/
theorem step_keeps {P : State → Prop} (hturn : ∀ s t, TakesTurn s t → P s → P t)
    (hedit : ∀ r s t, Edit r s t → P s → P t) {s t : State} (hs : P s) (hst : step s = .next t) : P t :=
  have along {r : Rights} {s' : State} {o} (h : LeadsTo (Edits r s') o) (hs' : P s') : LeadsTo P o :=
    fun t' ht => Edits.keep (hedit r) (h t' ht) hs'
  step_leadsTo (hturn _ _ (nextTurn_state s) hs) (fun h _ => along (execResume_edits h))
    (fun _ k _ => along (execReadRes_edits k)) (fun e _ => along (execReserved_edits e))
    (fun i t' => along (exec_edits i t')) t hst

end Sys2Proof.Machine

/-! The invariants of R46 over the edits, and the step lemmas they give (O51, O52, O53, O55, O56, O11). -/

namespace Sys2Proof.Machine

/-! ### Units one by one -/

/-- Storing over an element one that it is related to relates the lists element by element. -/
theorem forall₂_set {α : Type} {R : α → α → Prop} (hrefl : ∀ z, R z z) {l : List α} {n : Nat} {x y : α}
    (hx : l[n]? = some x) (hy : R x y) : List.Forall₂ R l (l.set n y) := by
  induction l generalizing n with
  | nil => cases hx
  | cons z zs ih =>
    cases n with
    | zero =>
      cases hx
      exact .cons hy (List.forall₂_same.2 fun w _ => hrefl w)
    | succ n => exact .cons (hrefl z) (ih hx)

/-- A property that the relation carries over holds of the whole second list. -/
theorem forall_mem_of_forall₂ {α : Type} {R : α → α → Prop} {Q : α → Prop}
    (hQ : ∀ x y, R x y → Q x → Q y) {l m : List α} (h : List.Forall₂ R l m) (hl : ∀ x ∈ l, Q x) :
    ∀ y ∈ m, Q y := by
  induction h with
  | nil => exact hl
  | cons hxy _ ih =>
    rw [List.forall_mem_cons] at hl ⊢
    exact ⟨hQ _ _ hxy hl.1, ih hl.2⟩

/-- A function that does not tell related elements apart maps the lists to the same list. -/
theorem map_eq_of_forall₂ {α β : Type} {R : α → α → Prop} {f : α → β} (hf : ∀ x y, R x y → f y = f x)
    {l m : List α} (h : List.Forall₂ R l m) : m.map f = l.map f := by
  induction h with
  | nil => rfl
  | cons hxy _ ih => rw [List.map_cons, List.map_cons, hf _ _ hxy, ih]

section
variable {r : Rights} {s t : State}

/-- An edit leaves every free-standing ring or advances it. -/
theorem Edit.rings (h : Edit r s t) :
    List.Forall₂ (fun b c => c = b ∨ b.ring.ix.Advance c.ring.ix) s.rings t.rings := by
  have kept {v : State} (hv : v.rings = s.rings) :
      List.Forall₂ (fun b c => c = b ∨ b.ring.ix.Advance c.ring.ix) s.rings v.rings :=
    hv ▸ List.forall₂_same.2 fun _ _ => .inl rfl
  cases h with
  | ring hb hq => exact forall₂_set (fun _ => .inl rfl) hb (.inr hq)
  | _ => exact kept (by simp)

theorem Edit.uarts (h : Edit r s t) : List.Forall₂ (Uart.Change r) s.uarts t.uarts := by
  have kept {v : State} (hv : v.uarts = s.uarts) : List.Forall₂ (Uart.Change r) s.uarts v.uarts :=
    hv ▸ List.forall₂_same.2 fun _ _ => .same
  cases h with
  | clock _ c f => exact List.forall₂_map_right_iff.2 (List.forall₂_same.2 fun x _ => x.change_reclock c f)
  | uart hx hy => exact forall₂_set (fun _ => .same) hx hy
  | _ => exact kept (by simp)

theorem Edit.engines (h : Edit r s t) : List.Forall₂ Engine.Change s.engines t.engines := by
  have kept {v : State} (hv : v.engines = s.engines) : List.Forall₂ Engine.Change s.engines v.engines :=
    hv ▸ List.forall₂_same.2 fun _ _ => .same
  cases h with
  | engine he hd => exact forall₂_set (fun _ => .same) he hd
  | _ => exact kept (by simp)

/-! Taking a turn touches no unit (R314). -/

theorem TakesTurn.rings (h : TakesTurn s t) : t.rings = s.rings := by
  obtain ⟨rest, rfl | ⟨a, a0, a1, a2, rfl⟩⟩ := h <;> simp

theorem TakesTurn.uarts (h : TakesTurn s t) : t.uarts = s.uarts := by
  obtain ⟨rest, rfl | ⟨a, a0, a1, a2, rfl⟩⟩ := h <;> simp

theorem TakesTurn.engines (h : TakesTurn s t) : t.engines = s.engines := by
  obtain ⟨rest, rfl | ⟨a, a0, a1, a2, rfl⟩⟩ := h <;> simp

/-- What every change of a UART keeps, a step keeps of all of them. -/
theorem step_keeps_uarts {Q : Uart → Prop} (hQ : ∀ r x y, Uart.Change r x y → Q x → Q y)
    (hs : ∀ x ∈ s.uarts, Q x) (hst : step s = .next t) : ∀ x ∈ t.uarts, Q x :=
  step_keeps (P := fun s => ∀ x ∈ s.uarts, Q x) (fun _ _ ht h => ht.uarts ▸ h)
    (fun r _ _ he => forall_mem_of_forall₂ (hQ r) he.uarts) hs hst

/-- What every change of a bus engine keeps, a step keeps of all of them. -/
theorem step_keeps_engines {Q : Engine → Prop} (hQ : ∀ e d, Engine.Change e d → Q e → Q d)
    (hs : ∀ e ∈ s.engines, Q e) (hst : step s = .next t) : ∀ e ∈ t.engines, Q e :=
  step_keeps (P := fun s => ∀ e ∈ s.engines, Q e) (fun _ _ ht h => ht.engines ▸ h)
    (fun _ _ _ he => forall_mem_of_forall₂ hQ he.engines) hs hst

/-- What every advance keeps, a step keeps of the free-standing rings. -/
theorem step_keeps_rings {Q : Ring → Prop} (hQ : ∀ q p, Ring.Advance q p → Q q → Q p)
    (hs : ∀ b ∈ s.rings, Q b.ring.ix) (hst : step s = .next t) : ∀ b ∈ t.rings, Q b.ring.ix := by
  refine step_keeps (P := fun s => ∀ b ∈ s.rings, Q b.ring.ix) (fun _ _ ht h => ht.rings ▸ h)
    (fun _ _ _ he => forall_mem_of_forall₂ (fun b c hbc hb => ?_) he.rings) hs hst
  rcases hbc with rfl | hadv
  · exact hb
  · exact hQ _ _ hadv hb

end

/-! ### What `startTx` leaves alone -/

section
variable (x : Uart) (k : Nat)

@[simp] theorem Uart.startTx_par : x.startTx.par = x.par := by
  unfold Uart.startTx
  dsimp only
  split <;> rfl

@[simp] theorem Uart.startTx_ld : x.startTx.ld = x.ld := by
  unfold Uart.startTx
  dsimp only
  split <;> rfl

@[simp] theorem Uart.startTx_line : x.startTx.line = x.line := by
  unfold Uart.startTx
  dsimp only
  split <;> rfl

@[simp] theorem Uart.startTx_tx : x.startTx.bs.tx = x.bs.tx := by
  unfold Uart.startTx
  dsimp only
  split <;> rfl

@[simp] theorem Uart.startTx_rx : x.startTx.bs.rx = x.bs.rx := by
  unfold Uart.startTx
  dsimp only
  split <;> rfl

@[simp] theorem Uart.queued_par : (x.queued k).par = x.par := by
  unfold Uart.queued
  split <;> simp

@[simp] theorem Uart.queued_ld : (x.queued k).ld = x.ld := by
  unfold Uart.queued
  split <;> simp

@[simp] theorem Uart.queued_line : (x.queued k).line = x.line := by
  unfold Uart.queued
  split <;> simp

@[simp] theorem Uart.queued_tx : (x.queued k).bs.tx = { x.bs.tx with ix := x.bs.tx.ix.produce k } := by
  unfold Uart.queued
  split <;> simp

@[simp] theorem Uart.queued_rx : (x.queued k).bs.rx = x.bs.rx := by
  unfold Uart.queued
  split <;> simp

end

/-! ### Rings (R23, R133) -/

theorem Ring.Advance.inv {q p : Ring} (h : q.Advance p) (hq : q.Inv) : p.Inv := by
  cases h with
  | produce k hk => exact hq.produce (hk hq.2.1)
  | consume k hk => exact hq.consume hk

theorem Uart.Change.rings {r : Rights} {x y : Uart} (h : x.Change r y)
    (hx : x.bs.tx.ix.Inv ∧ x.bs.rx.ix.Inv) : y.bs.tx.ix.Inv ∧ y.bs.rx.ix.Inv := by
  obtain ⟨htx, hrx⟩ := hx
  cases h with
  | same | driver | binding | traffic | pend => exact ⟨htx, hrx⟩
  | queue k hk =>
    rw [Uart.queued_tx, Uart.queued_rx]
    exact ⟨Ring.Advance.inv (.produce k hk) htx, hrx⟩
  | release hle =>
    rw [Uart.startTx_tx, Uart.startTx_rx]
    exact ⟨htx.consume hle, hrx⟩
  | sync k c hk => exact ⟨htx, hrx.produce hk⟩
  | drain k p hk => exact ⟨htx, hrx.consume hk⟩

/-- The invariant of a transaction queue (R46 (a)). -/
def Queue.Inv (q : Queue) : Prop := q.ix.Inv ∧ q.store.length = q.ix.n

theorem Queue.Inv.push {q : Queue} (h : q.Inv) (w : Word) (hroom : q.ix.used ≠ q.ix.n) :
    (q.push w).Inv := by
  obtain ⟨hix, hlen⟩ := h
  have hle := hix.2.1
  exact ⟨hix.produce (by omega), List.length_set.trans hlen⟩

theorem Queue.Inv.pop {q : Queue} (h : q.Inv) : q.pop.Inv := by
  unfold Queue.pop
  split
  · exact h
  · obtain ⟨hix, hlen⟩ := h
    exact ⟨hix.consume (by omega), hlen⟩

/-! ### How a transaction starts and ends -/

/-- What the start sequence leaves: the queue and the error log as they were, the bus log longer, the
engine in its address phase with every scratch field set (R243). -/
structure Engine.Started (e d : Engine) : Prop where
  q : d.q = e.q
  st : d.st = .addressPhase
  periphEn : d.periphEn = true
  phase : d.phase.isSome = true
  byteCount : d.byteCount.isSome = true
  autoStop : d.autoStop.isSome = true
  busLog : e.busLog <+: d.busLog
  errLog : d.errLog = e.errLog

theorem Engine.startHead_started {e d : Engine} {s : State} (h : e.startHead s = .ok d) :
    e.Started d := by
  obtain ⟨t, wl, rl, a, -, -, -, -, ⟨-, p, -, rfl⟩ | ⟨-, p, -, rfl⟩⟩ := (startHead_eq_ok e d s).1 h
  · exact ⟨rfl, rfl, rfl, rfl, rfl, rfl, List.prefix_append _ _, rfl⟩
  · exact ⟨rfl, rfl, rfl, rfl, rfl, rfl, List.prefix_append _ _, rfl⟩

/-- After a transaction the next one is started, or nothing is queued and the engine shuts down (R252). -/
theorem Engine.next_eq_ok {e d : Engine} {s : State} (h : e.next s = .ok d) :
    (0 < e.q.ix.used ∧ e.Started d) ∨ (e.q.ix.used = 0 ∧ d = e.shutdown) := by
  unfold Engine.next at h
  split at h
  · exact .inl ⟨‹_›, startHead_started h⟩
  · exact .inr ⟨by omega, (Except.ok.inj h).symm⟩

theorem Engine.Change.queueInv {e d : Engine} (h : e.Change d) (he : e.q.Inv) : d.q.Inv := by
  cases h with
  | same | data | restart | traffic => exact he
  | queue w hroom _ => exact he.push w hroom
  | start w s hroom _ hd =>
    rw [(Engine.startHead_started hd).q]
    exact he.push w hroom
  | @finish e' _ s _ hq _ _ hd =>
    have hpop : e'.finish.q.Inv := Queue.Inv.pop (hq ▸ he)
    rcases Engine.next_eq_ok hd with ⟨-, hstarted⟩ | ⟨-, rfl⟩
    · rw [hstarted.q]
      exact hpop
    · exact hpop

/-- Settles O51: an advance of a ring stays within what is there and what there is room for. -/
theorem stepKeepsEveryRing : Obligations.StepKeepsEveryRing := by
  rintro s t ⟨hrings, huarts, hengines⟩ hst
  exact ⟨step_keeps_rings (fun _ _ h => h.inv) hrings hst,
    step_keeps_uarts (fun _ _ _ h => h.rings) huarts hst,
    step_keeps_engines (Q := fun e => e.q.Inv) (fun _ _ h => h.queueInv) hengines hst⟩

/-! ### Line drivers (R25, R27, R157) -/

section
variable (l : LineDriver) (p : Part)

theorem LineDriver.disabled_of_enable_rxEn (h : (l.enable p).rxEn = .disabled) : l.rxEn = .disabled := by
  cases p with
  | read | both => cases h
  | write => exact h

theorem LineDriver.disabled_of_enable_txEn (h : (l.enable p).txEn = .disabled) : l.txEn = .disabled := by
  cases p with
  | read => exact h
  | write | both => cases h

theorem LineDriver.disable_rxEn :
    (l.disable p).rxEn = if namesRead p then .disabled else l.rxEn := by cases p <;> rfl

theorem LineDriver.disable_txEn :
    (l.disable p).txEn = if namesWrite p then .disabled else l.txEn := by cases p <;> rfl

/-- A direction still Enabled was Enabled before (R158). -/
theorem LineDriver.enabled_of_disable
    (h : (l.disable p).rxEn = .enabled ∨ (l.disable p).txEn = .enabled) :
    l.rxEn = .enabled ∨ l.txEn = .enabled := by
  rw [disable_rxEn, disable_txEn] at h
  refine h.imp (fun hrx => ?_) fun htx => ?_
  · split at hrx
    · cases hrx
    · exact hrx
  · split at htx
    · cases htx
    · exact htx

/-- Disabling a direction clears its interrupt enables and no other (R158). -/
theorem LineDriver.disable_ie (c : Nat) (hc : c < 9) :
    (l.disable p).ie.getLsbD c = (l.ie.getLsbD c &&
      !(namesRead p && readSideMask.getLsbD c) && !(namesWrite p && writeSideMask.getLsbD c)) := by
  cases p <;> simp [LineDriver.disable, namesRead, namesWrite, hc]

theorem LineDriver.disable_shape : (l.disable p).mant = l.mant ∧ (l.disable p).frac = l.frac ∧
    (l.disable p).dataBits = l.dataBits := by cases p <;> exact ⟨rfl, rfl, rfl⟩

/-- Arming touches the bit of its condition alone (R159). -/
theorem LineDriver.arm_ie (c b : Nat) (hb : b < 9) :
    (l.arm c).ie.getLsbD b = (l.ie.getLsbD b || decide (b = c)) := by
  have hbit : (1#9 <<< c).getLsbD b = decide (b = c) := by
    rw [BitVec.getLsbD_shiftLeft, BitVec.getLsbD_one, Bool.eq_iff_iff]
    simp
    omega
  rw [LineDriver.arm, BitVec.getLsbD_or, hbit]

/-- Disarming sets no bit (R160). -/
theorem LineDriver.disarm_ie (c b : Nat) (h : l.ie.getLsbD b = false) :
    (l.disarm c).ie.getLsbD b = false := by
  rw [LineDriver.disarm, BitVec.getLsbD_and, h, Bool.false_and]

end

theorem readSideMask_getLsbD : ∀ c < 9, c ≠ 6 → c ≠ 7 → readSideMask.getLsbD c = true := by decide

/-- The interrupt enables of a Disabled direction are 0 (R27, R46 (b)). -/
def LineDriver.Gated (l : LineDriver) : Prop :=
  (l.rxEn = .disabled → ∀ c < 9, c ≠ 6 → c ≠ 7 → l.ie.getLsbD c = false) ∧
  (l.txEn = .disabled → l.ie.getLsbD 6 = false ∧ l.ie.getLsbD 7 = false)

namespace LineDriver.Gated
variable {l : LineDriver}

theorem enable (h : l.Gated) (p : Part) : (l.enable p).Gated := by
  obtain ⟨hread, hwrite⟩ := h
  exact ⟨fun hrx => hread (l.disabled_of_enable_rxEn p hrx),
    fun htx => hwrite (l.disabled_of_enable_txEn p htx)⟩

theorem disable (h : l.Gated) (p : Part) : (l.disable p).Gated := by
  obtain ⟨hread, hwrite⟩ := h
  refine ⟨fun hrx c hc h6 h7 => ?_, fun htx => ?_⟩
  · rw [disable_ie _ _ c hc, readSideMask_getLsbD c hc h6 h7]
    cases hp : namesRead p with
    | true => simp
    | false =>
      rw [disable_rxEn, hp] at hrx
      rw [hread hrx c hc h6 h7]
      rfl
  · rw [disable_ie _ _ 6 (by omega), disable_ie _ _ 7 (by omega)]
    cases hp : namesWrite p with
    | true => simp [writeSideMask]
    | false =>
      rw [disable_txEn, hp] at htx
      obtain ⟨h6, h7⟩ := hwrite htx
      rw [h6, h7]
      exact ⟨rfl, rfl⟩

/-- A condition may be armed only while its direction is Enabled (R159). -/
theorem arm {c : Nat} (h : l.Gated) (hmay : l.mayArm c = true) : (l.arm c).Gated := by
  obtain ⟨hread, hwrite⟩ := h
  unfold LineDriver.mayArm at hmay
  refine ⟨fun (hrx : l.rxEn = .disabled) b hb h6 h7 => ?_, fun (htx : l.txEn = .disabled) => ?_⟩
  · have hne : b ≠ c := by
      rintro rfl
      simp [isWriteSide, h6, h7, hrx] at hmay
    rw [arm_ie _ _ _ hb, hread hrx b hb h6 h7]
    simp [hne]
  · have hne : 6 ≠ c ∧ 7 ≠ c := by
      constructor <;> rintro rfl <;> simp [isWriteSide, htx] at hmay
    obtain ⟨h6, h7⟩ := hwrite htx
    rw [arm_ie _ _ 6 (by omega), arm_ie _ _ 7 (by omega), h6, h7]
    simp [hne]

theorem disarm (h : l.Gated) (c : Nat) : (l.disarm c).Gated := by
  obtain ⟨hread, hwrite⟩ := h
  refine ⟨fun hrx b hb h6 h7 => l.disarm_ie c b (hread hrx b hb h6 h7), fun htx => ?_⟩
  obtain ⟨h6, h7⟩ := hwrite htx
  exact ⟨l.disarm_ie c 6 h6, l.disarm_ie c 7 h7⟩

end LineDriver.Gated

theorem Uart.driverInv_iff (x : Uart) : x.DriverInv ↔
    x.ld.Gated ∧ 1 ≤ x.par.ovs ∧ x.ld.mant.isSome = x.ld.frac.isSome ∧
      (∀ f, x.ld.frac = some f → f < x.par.ovs) ∧
      (x.ld.rxEn = .enabled ∨ x.ld.txEn = .enabled → x.ld.dataBits.isSome = true) :=
  and_assoc.symm

theorem LineDriver.Change.driverInv {r : Rights} {x : Uart} {l : LineDriver}
    (h : x.ld.Change r x.par.ovs l) (hx : x.DriverInv) : Uart.DriverInv { x with ld := l } := by
  obtain ⟨hgated, hovs, hsome, hfrac, hframe⟩ := x.driverInv_iff.1 hx
  rw [Uart.driverInv_iff]
  cases h with
  | divisor d v =>
    refine ⟨hgated, hovs, rfl, fun f hf => ?_, hframe⟩
    cases hf
    exact Nat.mod_lt _ hovs
  | frame n p b => exact ⟨hgated, hovs, hsome, hfrac, fun _ => rfl⟩
  | flow f => exact ⟨hgated, hovs, hsome, hfrac, hframe⟩
  | enable _ p hdata => exact ⟨hgated.enable p, hovs, hsome, hfrac, fun _ => hdata⟩
  | disable _ p =>
    obtain ⟨hm, hf, hd⟩ := x.ld.disable_shape p
    rw [hm, hf, hd]
    exact ⟨hgated.disable p, hovs, hsome, hfrac, fun h => hframe (x.ld.enabled_of_disable p h)⟩
  | arm c hmay => exact ⟨hgated.arm hmay, hovs, hsome, hfrac, hframe⟩
  | disarm c => exact ⟨hgated.disarm c, hovs, hsome, hfrac, hframe⟩

/-- The invariant of a line driver is about the driver and its parameters alone. -/
theorem Uart.DriverInv.congr {x y : Uart} (hpar : y.par = x.par) (hld : y.ld = x.ld)
    (hx : x.DriverInv) : y.DriverInv := by
  unfold Uart.DriverInv
  rw [hpar, hld]
  exact hx

theorem Uart.Change.driverInv {r : Rights} {x y : Uart} (h : x.Change r y) (hx : x.DriverInv) :
    y.DriverInv := by
  cases h with
  | driver hl => exact hl.driverInv hx
  | queue k _ => exact hx.congr (by simp) (by simp)
  | release _ => exact hx.congr (x.released.startTx_par) (x.released.startTx_ld)
  | _ => exact hx.congr rfl rfl

/-- Settles O52: only the operations of the line driver change it, each in one of seven ways. -/
theorem stepKeepsEveryLineDriver : Obligations.StepKeepsEveryLineDriver :=
  fun _ _ hs hst => step_keeps_uarts (fun _ _ _ h => h.driverInv) hs hst

/-! ### Write sides (R201 to R204) -/

/-- With nothing in flight, `startTx` puts the run at the oldest byte in flight; there is no run only if
nothing is queued (R202). -/
theorem Uart.startTx_writeSide {x : Uart} (hix : x.bs.tx.ix.Inv) (hidle : x.bs.txInFlight = 0) :
    x.startTx.WriteSideInv := by
  have hrd := hix.1
  unfold Uart.startTx
  dsimp only
  split
  · next hrun =>
    simp only [ByteRing.peek] at hrun
    exact ⟨hix, fun _ => by omega, fun hne => absurd hidle hne⟩
  · next hrun => exact ⟨hix, fun h => absurd h hrun, fun _ => ⟨rfl, Nat.le_refl _, rfl⟩⟩

theorem Uart.queued_writeSide {x : Uart} {k : Nat}
    (hk : x.bs.tx.ix.used ≤ x.bs.tx.ix.n → x.bs.tx.ix.used + k ≤ x.bs.tx.ix.n)
    (hx : x.WriteSideInv) : (x.queued k).WriteSideInv := by
  obtain ⟨hix, -, hflight⟩ := hx
  have hix' : (x.bs.tx.ix.produce k).Inv := Ring.Advance.inv (.produce k hk) hix
  unfold Uart.queued
  dsimp only
  split
  · next hidle => exact Uart.startTx_writeSide hix' hidle
  · next hbusy =>
    obtain ⟨hcount, hrun, hmaddr⟩ := hflight hbusy
    refine ⟨hix', fun h => absurd h hbusy, fun _ => ⟨hcount, ?_, hmaddr⟩⟩
    simp only [Ring.produce]
    omega

theorem Uart.Change.writeSideInv {r : Rights} {x y : Uart} (h : x.Change r y) (hx : x.WriteSideInv) :
    y.WriteSideInv := by
  cases h with
  | queue k hk => exact Uart.queued_writeSide hk hx
  | release hle =>
    have hix : x.released.bs.tx.ix.Inv := hx.1.consume hle
    exact Uart.startTx_writeSide hix rfl
  | traffic hp hcount hmaddr =>
    obtain ⟨hix, hidle, hflight⟩ := hx
    refine ⟨hix, hidle, fun hbusy => ?_⟩
    obtain ⟨hc, hrun, hm⟩ := hflight hbusy
    exact ⟨hcount.trans hc, hrun, hmaddr.trans hm⟩
  | _ => exact hx

/-- Settles O53: a write queues behind the run in flight or starts one; the end of a run starts the next. -/
theorem stepKeepsEveryWriteSide : Obligations.StepKeepsEveryWriteSide :=
  fun _ _ hs hst => step_keeps_uarts (fun _ _ _ h => h.writeSideInv) hs hst

/-! ### Bus engines (R244, R251, R252) -/

/-- A started engine with its transaction queued keeps the invariant. -/
theorem Engine.Started.sequencerInv {e d : Engine} (h : e.Started d) (hused : 1 ≤ e.q.ix.used) :
    d.SequencerInv := by
  obtain ⟨hq, hst, hperiph, hphase, hcount, hauto, -, -⟩ := h
  refine ⟨fun h => ?_, fun _ => ⟨hq ▸ hused, hperiph, hphase, hcount, hauto⟩, fun h => ?_, fun h => ?_⟩ <;>
    rw [hst] at h <;> cases h

theorem Engine.Change.sequencerInv {e d : Engine} (h : e.Change d) (he : e.SequencerInv) :
    d.SequencerInv := by
  obtain ⟨hidle, hbusy, hwrite, hread⟩ := he
  cases h with
  | same | traffic => exact ⟨hidle, hbusy, hwrite, hread⟩
  | queue w _ hst =>
    obtain ⟨-, hrest⟩ := hbusy hst
    exact ⟨fun h => absurd h hst, fun _ => ⟨Nat.le_add_left _ _, hrest⟩, hwrite, hread⟩
  | start w s _ _ hd => exact (Engine.startHead_started hd).sequencerInv (Nat.le_add_left _ _)
  | data p hst hp =>
    cases p with
    | w => exact ⟨nofun, fun _ => hbusy hst, fun _ => hp, nofun⟩
    | r => exact ⟨nofun, fun _ => hbusy hst, nofun, fun _ => hp⟩
  | restart hst _ ch n =>
    obtain ⟨hused, hperiph, -⟩ := hbusy hst
    exact ⟨nofun, fun _ => ⟨hused, hperiph, rfl, rfl, rfl⟩, nofun, fun _ => rfl⟩
  | @finish e' _ s _ _ _ _ hd =>
    rcases Engine.next_eq_ok hd with ⟨hused, hstarted⟩ | ⟨hused, rfl⟩
    · exact hstarted.sequencerInv hused
    · exact ⟨fun _ => ⟨hused, rfl, rfl, rfl⟩, fun h => absurd rfl h, nofun, nofun⟩

/-- Settles O55: a transaction that starts has just been queued, or stands behind the one that ended; with
none queued the engine shuts down. -/
theorem stepKeepsEverySequencer : Obligations.StepKeepsEverySequencer :=
  fun _ _ _ hs hst => step_keeps_engines (fun _ _ h => h.sequencerInv) hs hst

/-! ### The command port (R21, R40, R340, R341, R342) -/

/-- What `State.PortInv` speaks of. -/
def State.marks (s : State) : Csr × FaultSet × RefusalSet × Option Held × Bool :=
  (s.csr, s.faults, s.refusals, s.held, s.irqMask)

theorem State.PortInv.congr {s t : State} (hs : s.PortInv) (h : t.marks = s.marks) : t.PortInv := by
  simp only [State.marks, Prod.mk.injEq] at h
  obtain ⟨hcsr, hfaults, hrefusals, hheld, hmask⟩ := h
  unfold State.PortInv
  rw [hcsr, hfaults, hrefusals, hheld, hmask]
  exact hs

theorem TakesTurn.marks {s t : State} (h : TakesTurn s t) : t.marks = s.marks := by
  obtain ⟨rest, rfl | ⟨a, a0, a1, a2, rfl⟩⟩ := h <;> simp [State.marks]

theorem FaultSet.has_insert (x : FaultSet) (f g : FaultCode) :
    (x.insert f).has g = (x.has g || g == f) := by
  cases f <;> cases g <;> simp [FaultSet.insert, FaultSet.has]

theorem RefusalSet.has_insert (x : RefusalSet) (c d : RefuseCode) :
    (x.insert c).has d = (x.has d || d == c) := by
  cases c <;> cases d <;> simp [RefusalSet.insert, RefusalSet.has]

/-- A fault set that has been added to is not empty. -/
theorem FaultSet.insert_nonempty (f : FaultCode) (x : FaultSet) :
    ((x.insert f).delta || (x.insert f).rbOverflow || (x.insert f).rbUnderflow) = true := by
  cases f <;> simp [FaultSet.insert]

/-- A refusal set that has been added to is not empty. -/
theorem RefusalSet.insert_nonempty (c : RefuseCode) (x : RefusalSet) :
    ((x.insert c).xReserved || (x.insert c).xAgent || (x.insert c).xOperand || (x.insert c).xState ||
      (x.insert c).xNoDma || (x.insert c).xMem || (x.insert c).xEmptyTxn) = true := by
  cases c <;> simp [RefusalSet.insert]

/-- The first fault's code is recorded, and stays (R340). -/
theorem State.PortInv.raiseFault {s : State} (hs : s.PortInv) (f : FaultCode) :
    (raiseFault f s).PortInv := by
  obtain ⟨-, hrefused, hhold, hcode, -, -, hmask⟩ := hs
  refine ⟨(FaultSet.insert_nonempty f _).symm, hrefused, hhold, fun _ => ?_, nofun, nofun, hmask⟩
  cases hf : s.csr.fault with
  | true =>
    obtain ⟨g, hg, hcg⟩ := hcode hf
    exact ⟨g, by simp [FaultSet.has_insert, hg], by simp [hf, hcg]⟩
  | false => exact ⟨f, by simp [FaultSet.has_insert], by simp [hf]⟩

/-- A refusal's code is recorded if it is the first mark, and stays until a fault's (R341). -/
theorem State.PortInv.markRefused {s : State} (hs : s.PortInv) (c : RefuseCode) :
    (markRefused c s).PortInv := by
  obtain ⟨hfault, -, hhold, hcode, hrcode, -, hmask⟩ := hs
  refine ⟨hfault, (RefusalSet.insert_nonempty c _).symm, hhold, fun hf => ?_, fun hf _ => ?_,
    fun _ => nofun, hmask⟩
  · have hf' : s.csr.fault = true := hf
    obtain ⟨g, hg, hcg⟩ := hcode hf'
    exact ⟨g, hg, by simp [hf', hcg]⟩
  · have hf' : s.csr.fault = false := hf
    cases hr : s.csr.refused with
    | true =>
      obtain ⟨d, hd, hcd⟩ := hrcode hf' hr
      exact ⟨d, by simp [RefusalSet.has_insert, hd], by simp [hr, hcd]⟩
    | false => exact ⟨c, by simp [RefusalSet.has_insert], by simp [hf', hr]⟩

theorem Edit.portInv {r : Rights} {s t : State} (h : Edit r s t) (hs : s.PortInv) : t.PortInv := by
  cases h with
  | fault f => exact hs.raiseFault f
  | refused c => exact hs.markRefused c
  | hold c =>
    obtain ⟨hfault, hrefused, -, hrest⟩ := hs
    exact ⟨hfault, hrefused, rfl, hrest⟩
  | release =>
    obtain ⟨hfault, hrefused, -, hrest⟩ := hs
    exact ⟨hfault, hrefused, rfl, hrest⟩
  | post =>
    obtain ⟨hfault, hrefused, hhold, hcode, hrcode, hnone, -⟩ := hs
    exact ⟨hfault, hrefused, hhold, hcode, hrcode, hnone, rfl⟩
  | _ => exact hs.congr (by simp [State.marks])

/-- Settles O56: only a fault, a refusal, a hold and its end touch what `CSR` summarises, and a completion
leaves the mask off. -/
theorem stepKeepsTheCommandPort : Obligations.StepKeepsTheCommandPort :=
  fun _ _ hs hst => step_keeps (fun _ _ ht h => h.congr ht.marks) (fun _ _ _ he => he.portInv) hs hst

end Sys2Proof.Machine

/-! What a step only lets grow (O58), and what only the operations named may change (O59), edit by edit. -/

namespace Sys2Proof.Machine

section
variable {r : Rights} {s t : State}

/-! ### What only grows -/

/-- Related lists have related elements at every place. -/
theorem getElem?_of_forall₂ {α : Type} {R : α → α → Prop} {l m : List α} (h : List.Forall₂ R l m)
    {n : Nat} {x : α} (hx : l[n]? = some x) : ∃ y, m[n]? = some y ∧ R x y := by
  induction h generalizing n with
  | nil => cases hx
  | cons hab _ ih =>
    cases n with
    | zero =>
      cases hx
      exact ⟨_, rfl, hab⟩
    | succ n => exact ih hx

theorem Uart.Change.txLine {x y : Uart} (h : x.Change r y) : x.line.txLine <+: y.line.txLine := by
  cases h with
  | traffic hp => exact hp
  | queue => exact Line.prefix_of_eq (by rw [Uart.queued_line])
  | release => exact Line.prefix_of_eq (by rw [Uart.startTx_line]; rfl)
  | _ => exact List.prefix_refl _

theorem Engine.Change.logs {e d : Engine} (h : e.Change d) :
    e.busLog <+: d.busLog ∧ e.errLog <+: d.errLog := by
  cases h with
  | same | queue | data => exact ⟨List.prefix_refl _, List.prefix_refl _⟩
  | start w s _ _ hd =>
    have hstarted := Engine.startHead_started hd
    exact ⟨hstarted.busLog, hstarted.errLog ▸ List.prefix_refl _⟩
  | restart _ hl | traffic _ _ hl => exact ⟨hl, List.prefix_refl _⟩
  | finish s _ _ hbus herr hd =>
    rcases Engine.next_eq_ok hd with ⟨-, hstarted⟩ | ⟨-, rfl⟩
    · exact ⟨hbus.trans hstarted.busLog, hstarted.errLog ▸ herr⟩
    · exact ⟨hbus, herr⟩

/-- Nothing is taken off the sticky sets, the marks of `CSR`, the logs and the lines (R21, R29, R37,
R40). -/
structure Grows (s t : State) : Prop where
  faults : ∀ f, s.faults.has f = true → t.faults.has f = true
  refusals : ∀ c, s.refusals.has c = true → t.refusals.has c = true
  faultMark : s.csr.fault = true → t.csr.fault = true ∧ t.csr.code = s.csr.code
  refusedMark : s.csr.refused = true → t.csr.refused = true
  evq : s.evq <+: t.evq
  notif : s.notif <+: t.notif
  lines : ∀ (u : Nat) (x : Uart), s.uarts[u]? = some x →
    ∃ y, t.uarts[u]? = some y ∧ x.line.txLine <+: y.line.txLine
  logs : ∀ (n : Nat) (e : Engine), s.engines[n]? = some e →
    ∃ d, t.engines[n]? = some d ∧ e.busLog <+: d.busLog ∧ e.errLog <+: d.errLog

/-- What a state's marks, completions and notifications show. -/
def State.records (s : State) :
    FaultSet × RefusalSet × Bool × Bool × BitVec 8 × List (Word × Kind) × List (Nat × Kind) :=
  (s.faults, s.refusals, s.csr.fault, s.csr.refused, s.csr.code, s.evq, s.notif)

/-- Where the records stay, growth is a matter of the lines and the logs. -/
theorem Grows.of_records (h : t.records = s.records)
    (hlines : ∀ (u : Nat) (x : Uart), s.uarts[u]? = some x →
      ∃ y, t.uarts[u]? = some y ∧ x.line.txLine <+: y.line.txLine)
    (hlogs : ∀ (n : Nat) (e : Engine), s.engines[n]? = some e →
      ∃ d, t.engines[n]? = some d ∧ e.busLog <+: d.busLog ∧ e.errLog <+: d.errLog) : Grows s t := by
  simp only [State.records, Prod.mk.injEq] at h
  obtain ⟨hfaults, hrefusals, hfault, hrefused, hcode, hevq, hnotif⟩ := h
  exact
    { faults := fun f hf => by rw [hfaults, hf]
      refusals := fun c hc => by rw [hrefusals, hc]
      faultMark := fun hf => ⟨hfault.trans hf, hcode⟩
      refusedMark := fun hr => hrefused.trans hr
      evq := hevq ▸ List.prefix_refl _
      notif := hnotif ▸ List.prefix_refl _
      lines := hlines
      logs := hlogs }

theorem Grows.refl (s : State) : Grows s s :=
  .of_records rfl (fun _ x hx => ⟨x, hx, List.prefix_refl _⟩)
    fun _ e he => ⟨e, he, List.prefix_refl _, List.prefix_refl _⟩

theorem Grows.trans {v : State} (h : Grows s t) (h' : Grows t v) : Grows s v where
  faults f hf := h'.faults f (h.faults f hf)
  refusals c hc := h'.refusals c (h.refusals c hc)
  faultMark hf := by
    obtain ⟨hf₁, hc₁⟩ := h.faultMark hf
    obtain ⟨hf₂, hc₂⟩ := h'.faultMark hf₁
    exact ⟨hf₂, hc₂.trans hc₁⟩
  refusedMark hr := h'.refusedMark (h.refusedMark hr)
  evq := h.evq.trans h'.evq
  notif := h.notif.trans h'.notif
  lines u x hx := by
    obtain ⟨y, hy, hxy⟩ := h.lines u x hx
    obtain ⟨z, hz, hyz⟩ := h'.lines u y hy
    exact ⟨z, hz, hxy.trans hyz⟩
  logs n e he := by
    obtain ⟨d, hd, hbus, herr⟩ := h.logs n e he
    obtain ⟨c, hc, hbus', herr'⟩ := h'.logs n d hd
    exact ⟨c, hc, hbus.trans hbus', herr.trans herr'⟩

theorem Edit.grows (h : Edit r s t) : Grows s t := by
  have hlines : ∀ (u : Nat) (x : Uart), s.uarts[u]? = some x →
      ∃ y, t.uarts[u]? = some y ∧ x.line.txLine <+: y.line.txLine := fun _ _ hx =>
    (getElem?_of_forall₂ h.uarts hx).imp fun _ hy => hy.imp_right Uart.Change.txLine
  have hlogs : ∀ (n : Nat) (e : Engine), s.engines[n]? = some e →
      ∃ d, t.engines[n]? = some d ∧ e.busLog <+: d.busLog ∧ e.errLog <+: d.errLog := fun _ _ he =>
    (getElem?_of_forall₂ h.engines he).imp fun _ hd => hd.imp_right Engine.Change.logs
  cases h with
  | fault f =>
    exact { Grows.refl s with
      faults := fun g hg => by simp [FaultSet.has_insert, hg]
      faultMark := fun hf => by simp [hf] }
  | refused c =>
    exact { Grows.refl s with
      refusals := fun d hd => by simp [RefusalSet.has_insert, hd]
      faultMark := fun hf => by simp [hf]
      refusedMark := fun _ => rfl }
  | post => exact { Grows.refl s with evq := List.prefix_append _ _ }
  | notify => exact { Grows.refl s with notif := List.prefix_append _ _ }
  | _ => exact .of_records (by simp [State.records]) hlines hlogs

theorem TakesTurn.grows (h : TakesTurn s t) : Grows s t := by
  obtain ⟨rest, rfl | ⟨a, a0, a1, a2, rfl⟩⟩ := h
  · exact { Grows.refl s with }
  · exact .of_records (by simp [State.records]) (fun u x hx => ⟨x, by simpa using hx, List.prefix_refl _⟩)
      fun n e he => ⟨e, by simpa using he, List.prefix_refl _, List.prefix_refl _⟩

theorem step_grows (h : step s = .next t) : Grows s t :=
  step_keeps (P := Grows s) (fun _ _ ht hs => hs.trans ht.grows) (fun _ _ _ he hs => hs.trans he.grows)
    (.refl s) h

/-- Settles O58: every edit adds to the records, the lines and the logs, or leaves them. -/
theorem stickySetsAndLogsOnlyGrow : Obligations.StickySetsAndLogsOnlyGrow := by
  intro s t h
  obtain ⟨hfaults, hrefusals, hfault, hrefused, hevq, hnotif, hlines, hlogs⟩ := step_grows h
  refine ⟨hfaults, hrefusals, hfault, hrefused, hevq, hnotif, fun u x y hx hy => ?_,
    fun n e d he hd => ?_⟩
  · obtain ⟨z, hz, hprefix⟩ := hlines u x hx
    cases hz.symm.trans hy
    exact hprefix
  · obtain ⟨c, hc, hprefix⟩ := hlogs n e he
    cases hc.symm.trans hd
    exact hprefix

/-! ### What needs a right -/

/-- What every edit leaves unchanged, a sequence of edits leaves unchanged. -/
theorem Edits.unchanged {α : Type} {f : State → α} (hf : ∀ s t, Edit r s t → f t = f s)
    (h : Edits r s t) : f t = f s :=
  h.keep (P := fun t => f t = f s) (fun _ _ he hs => (hf _ _ he).trans hs) rfl

section
variable (s : State) (a g : Agent) (v : Word)

theorem State.setRes0_res1 : ((s.setRes0 a v).port g).res1 = (s.port g).res1 := by
  cases a <;> cases g <;> rfl

theorem State.setRes1_res0 : ((s.setRes1 a v).port g).res0 = (s.port g).res0 := by
  cases a <;> cases g <;> rfl

end

/-- The operands an issuer has written (R20). -/
def Port.args (p : Port) : Word × Word × Word := (p.arg0, p.arg1, p.arg2)

theorem State.setRes0_args (s : State) (a g : Agent) (v : Word) :
    ((s.setRes0 a v).port g).args = (s.port g).args := by cases a <;> cases g <;> rfl

theorem State.setRes1_args (s : State) (a g : Agent) (v : Word) :
    ((s.setRes1 a v).port g).args = (s.port g).args := by cases a <;> cases g <;> rfl

/-- Only results are ever written to a port; every other edit leaves the ports. -/
theorem Edit.port (h : Edit r s t) (g : Agent) :
    t.port g = s.port g ∨ (r.res0 = true ∧ ∃ a v, t = s.setRes0 a v) ∨
      (r.res1 = true ∧ ∃ a v, t = s.setRes1 a v) := by
  cases h with
  | res0 hr a v => exact .inr (.inl ⟨hr, a, v, rfl⟩)
  | res1 hr a v => exact .inr (.inr ⟨hr, a, v, rfl⟩)
  | notify | clock => exact .inl (by cases g <;> rfl)
  | _ => exact .inl (by simp)

theorem Edit.res0_unchanged (hr : r.res0 = false) (g : Agent) (h : Edit r s t) :
    (t.port g).res0 = (s.port g).res0 := by
  rcases h.port g with hp | ⟨hr', -⟩ | ⟨-, a, v, rfl⟩
  · rw [hp]
  · exact absurd (hr.symm.trans hr') (by simp)
  · exact s.setRes1_res0 a g v

theorem Edit.res1_unchanged (hr : r.res1 = false) (g : Agent) (h : Edit r s t) :
    (t.port g).res1 = (s.port g).res1 := by
  rcases h.port g with hp | ⟨-, a, v, rfl⟩ | ⟨hr', -⟩
  · rw [hp]
  · exact s.setRes0_res1 a g v
  · exact absurd (hr.symm.trans hr') (by simp)

theorem Edit.args_unchanged (g : Agent) (h : Edit r s t) : (t.port g).args = (s.port g).args := by
  rcases h.port g with hp | ⟨-, a, v, rfl⟩ | ⟨-, a, v, rfl⟩
  · rw [hp]
  · exact s.setRes0_args a g v
  · exact s.setRes1_args a g v

theorem Edit.mem_unchanged (hr : r.mem = false) (h : Edit r s t) : t.mem = s.mem := by
  cases h with
  | mem hr' => exact absurd (hr.symm.trans hr') (by simp)
  | _ => simp

theorem Edit.evq_unchanged (hr : r.post = false) (h : Edit r s t) : t.evq = s.evq := by
  cases h with
  | post hr' => exact absurd (hr.symm.trans hr') (by simp)
  | _ => simp

theorem Edit.notif_unchanged (hr : r.notify = false) (h : Edit r s t) : t.notif = s.notif := by
  cases h with
  | notify hr' => exact absurd (hr.symm.trans hr') (by simp)
  | _ => simp

theorem Edit.clocks_unchanged (hr : r.clock = false) (h : Edit r s t) : t.clkFreq = s.clkFreq := by
  cases h with
  | clock hr' => exact absurd (hr.symm.trans hr') (by simp)
  | _ => simp

/-- The enable state of the two directions (R26). -/
def LineDriver.enState (l : LineDriver) : EnState × EnState := (l.rxEn, l.txEn)

theorem LineDriver.Change.enState_unchanged {ovs : Nat} {l k : LineDriver} (hr : r.enables = false)
    (h : l.Change r ovs k) : k.enState = l.enState := by
  cases h with
  | enable hr' | disable hr' => exact absurd (hr.symm.trans hr') (by simp)
  | _ => rfl

theorem Uart.Change.enState_unchanged {x y : Uart} (hr : r.enables = false) (h : x.Change r y) :
    y.ld.enState = x.ld.enState := by
  cases h with
  | driver hl => exact hl.enState_unchanged hr
  | queue => rw [Uart.queued_ld]
  | release => rw [Uart.startTx_ld]; rfl
  | _ => rfl

end

/-- Settles O59: each edit of these fields needs a right that only the operations named have. -/
theorem onlyTheNamedOperationsChangeIt : Obligations.OnlyTheNamedOperationsChangeIt := by
  intro i s t h
  have edits : Edits (.of i) s t := exec_edits i s t h
  refine ⟨fun hr => ?_, fun hr g => ?_, fun hr g => ?_, fun g => ?_, fun hr => ?_, fun hr => ?_,
    fun hr => ?_, fun hr => ?_⟩
  · exact edits.unchanged (f := fun s => s.uarts.map fun x => x.ld.enState) fun _ _ he =>
      map_eq_of_forall₂ (fun _ _ hxy => hxy.enState_unchanged hr) he.uarts
  · exact edits.unchanged (f := fun s => (s.port g).res0) fun _ _ he => he.res0_unchanged hr g
  · exact edits.unchanged (f := fun s => (s.port g).res1) fun _ _ he => he.res1_unchanged hr g
  · have hargs := edits.unchanged (f := fun s => (s.port g).args) fun _ _ he => he.args_unchanged g
    simpa only [Port.args, Prod.mk.injEq] using hargs
  · exact edits.unchanged fun _ _ he => he.mem_unchanged hr
  · exact edits.unchanged fun _ _ he => he.evq_unchanged hr
  · exact edits.unchanged fun _ _ he => he.notif_unchanged hr
  · exact edits.unchanged fun _ _ he => he.clocks_unchanged hr

end Sys2Proof.Machine

/-! Reset (O10, O11) and the records of a fault and a refusal (O13). -/

namespace Sys2Proof.Machine

/-! ### Reset (R44, R46) -/

/-- A bound receive channel runs freely over the read ring (R44, R371). -/
theorem Uart.reset_rxch {p : UartPar} (h : (Uart.reset p).par.hasRxDma = true) :
    (Uart.reset p).rxch = .freeRunning p.rxBase p.rxPaddr p.rxN := by
  have h' : p.hasRxDma = true := h
  simp [Uart.reset, h']

theorem Csr.word_clear : Csr.word ⟨false, false, false, 0#8⟩ = 0#32 := by decide

/-- Settles O10: reset builds the units from the parameters, each field at the value of R44. -/
theorem resetLeavesTheStateOfR44 : Obligations.ResetLeavesTheStateOfR44 := by
  intro c s
  have huart : s.uarts.map (·.par) = c.uarts := List.map_map.trans (List.map_id _)
  have hengine : s.engines.map (·.par) = c.engines := List.map_map.trans (List.map_id _)
  have hring : s.rings.map (fun b => (⟨b.ring.ix.n, b.ring.base, b.prod, b.cons⟩ : RingPar)) = c.rings :=
    List.map_map.trans (List.map_id _)
  refine ⟨rfl, rfl, huart, hengine, hring, fun g => by cases g <;> exact ⟨rfl, rfl⟩, Csr.word_clear,
    ⟨rfl, rfl⟩, rfl, rfl, rfl, rfl, fun _ => rfl, rfl, ?_, ?_, ?_⟩
  · intro b hb
    obtain ⟨p, -, rfl⟩ := List.mem_map.1 hb
    exact ⟨rfl, rfl, rfl⟩
  · intro x hx
    obtain ⟨p, -, rfl⟩ := List.mem_map.1 hx
    refine ⟨rfl, rfl, rfl, rfl, rfl, rfl, rfl, rfl, rfl, rfl, rfl, rfl, rfl, rfl, rfl, rfl, rfl, rfl, rfl,
      rfl, rfl, rfl, rfl, rfl, rfl, rfl, rfl, fun hrx => ?_, ?_⟩
    · rw [Uart.reset_rxch hrx]
      exact ⟨rfl, rfl, rfl, rfl, rfl, rfl, rfl, rfl, rfl⟩
    · simp [Uart.reset, IrqLine.reset]
  · intro e he
    obtain ⟨p, -, rfl⟩ := List.mem_map.1 he
    refine ⟨rfl, rfl, rfl, rfl, rfl, rfl, rfl, rfl, rfl, ?_, rfl, rfl, ?_, rfl, rfl⟩
    · simp [Engine.reset, DmaChan.idle]
    · simp [Engine.reset, IrqLine.reset]

/-- A ring of at least one element is empty and in order after construction. -/
theorem Ring.empty_inv {n : Nat} (h : 1 ≤ n) : (Ring.empty n).Inv := ⟨h, Nat.zero_le _, rfl⟩

theorem storageOk_pos {rs : List Region} {base n : Nat} (h : Config.storageOk rs base n = true) :
    1 ≤ n := by
  simp only [Config.storageOk, Bool.and_eq_true, decide_eq_true_eq] at h
  omega

/-- What R6 asks of the parameters that the invariants rest on. -/
theorem Config.valid_bounds {c : Config} (h : c.valid = true) :
    (∀ p ∈ c.rings, 1 ≤ p.n) ∧ (∀ p ∈ c.uarts, 1 ≤ p.txN ∧ 1 ≤ p.rxN ∧ 1 ≤ p.ovs) ∧
      ∀ p ∈ c.engines, 1 ≤ p.qN := by
  simp only [Config.valid, Bool.and_eq_true, List.all_eq_true, decide_eq_true_eq] at h
  obtain ⟨⟨⟨⟨⟨⟨-, hrings⟩, huarts⟩, hengines⟩, -⟩, -⟩, -⟩ := h
  refine ⟨fun p hp => ?_, fun p hp => ?_, fun p hp => ?_⟩
  · obtain ⟨⟨⟨hn, -⟩, -⟩, -⟩ := hrings p hp
    exact storageOk_pos hn
  · obtain ⟨⟨⟨htx, hrx⟩, hovs⟩, -⟩ := huarts p hp
    exact ⟨storageOk_pos htx, storageOk_pos hrx, hovs⟩
  · obtain ⟨hq, -⟩ := hengines p hp
    exact hq

theorem Uart.reset_driverInv {p : UartPar} (h : 1 ≤ p.ovs) : (Uart.reset p).DriverInv :=
  ⟨fun _ _ _ _ _ => BitVec.getLsbD_zero, fun _ => ⟨BitVec.getLsbD_zero, BitVec.getLsbD_zero⟩, h, rfl, nofun,
    nofun⟩

theorem Uart.reset_writeSideInv {p : UartPar} (h : 1 ≤ p.txN) : (Uart.reset p).WriteSideInv :=
  ⟨Ring.empty_inv h, fun _ => rfl, fun hne => absurd rfl hne⟩

theorem Uart.reset_countdownInv {p : UartPar} (h : 1 ≤ p.rxN) : (Uart.reset p).CountdownInv := by
  intro hrx
  rw [Uart.reset_rxch hrx]
  exact ⟨rfl, rfl, rfl, ⟨h, Nat.le_refl _⟩, h, Nat.le_refl _⟩

theorem Engine.reset_sequencerInv (p : EnginePar) : (Engine.reset p).SequencerInv :=
  ⟨fun _ => ⟨rfl, rfl, rfl, rfl⟩, fun h => absurd rfl h, nofun, nofun⟩

/-- After reset nothing is marked, nothing holds and the mask is off. -/
theorem State.ofConfig_portInv (c : Config) : (State.ofConfig c).PortInv :=
  ⟨rfl, rfl, rfl, nofun, fun _ => nofun, fun _ _ => rfl, rfl⟩

/-- Settles O11: every unit is built in order from parameters that R6 allows. -/
theorem resetSatisfiesTheInvariants : Obligations.ResetSatisfiesTheInvariants := by
  intro c hc s
  obtain ⟨hrings, huarts, hengines⟩ := Config.valid_bounds hc
  have each_uart {Q : Uart → Prop} (hQ : ∀ p ∈ c.uarts, Q (.reset p)) : ∀ x ∈ s.uarts, Q x :=
    List.forall_mem_map.2 hQ
  have hringsInv : s.RingsInv :=
    ⟨List.forall_mem_map.2 fun p hp => Ring.empty_inv (hrings p hp),
      each_uart fun p hp =>
        have ⟨htx, hrx, _⟩ := huarts p hp
        ⟨Ring.empty_inv htx, Ring.empty_inv hrx⟩,
      List.forall_mem_map.2 fun p hp => ⟨Ring.empty_inv (hengines p hp), List.length_replicate⟩⟩
  refine ⟨List.length_map .., List.length_map .., List.length_map .., rfl, hringsInv, ?_, ?_, ⟨?_, rfl⟩, ?_,
    State.ofConfig_portInv c⟩
  · exact each_uart fun p hp =>
      have ⟨_, _, hovs⟩ := huarts p hp
      Uart.reset_driverInv hovs
  · exact each_uart fun p hp =>
      have ⟨htx, _, _⟩ := huarts p hp
      Uart.reset_writeSideInv htx
  · exact each_uart fun p hp =>
      have ⟨_, hrx, _⟩ := huarts p hp
      Uart.reset_countdownInv hrx
  · exact List.forall_mem_map.2 fun p _ => Engine.reset_sequencerInv p

/-! ### Records (R21, R340, R341) -/

/-- The three marks of `CSR` are its low bits (R21). -/
theorem Csr.word_marks (c : Csr) : c.word.getLsbD 0 = c.fault ∧ c.word.getLsbD 1 = c.refused ∧
    c.word.getLsbD 2 = c.hold := by
  simp only [Csr.word, BitVec.getLsbD_append, BitVec.getLsbD_ofBool]
  exact ⟨rfl, rfl, rfl⟩

/-- Above the marks `CSR` holds the code from bit 8 on, and 0 elsewhere (R21). -/
theorem Csr.word_above (c : Csr) {k : Nat} (hk : 3 ≤ k) :
    c.word.getLsbD k = (decide (8 ≤ k) && c.code.getLsbD (k - 8)) := by
  simp only [Csr.word, BitVec.getLsbD_append, BitVec.getLsbD_zero]
  rw [if_neg (by omega), if_neg (by omega), show k - (1 + 1) - 1 - 5 = k - 8 by omega]
  by_cases h8 : 8 ≤ k
  · by_cases h16 : k - 8 < 8
    · rw [if_neg (by omega), if_pos h16]
      simp [h8]
    · rw [if_neg (by omega), if_neg h16, BitVec.getLsbD_of_ge _ _ (by omega), Bool.and_false]
  · rw [if_pos (by omega)]
    simp [h8]

/-- The code field of `CSR` (R21). -/
theorem Csr.word_code (c : Csr) : c.word.extractLsb' 8 8 = c.code := by
  refine BitVec.eq_of_getLsbD_eq fun k hk => ?_
  rw [BitVec.getLsbD_extractLsb', c.word_above (by omega), Nat.add_sub_cancel_left]
  simp [hk]

/-- Settles O13: a refusal and a fault write their member, their mark and, if they are the first, the
code. -/
theorem refusalAndFaultRecords : Obligations.RefusalAndFaultRecords := by
  refine ⟨fun c s => ⟨fun d => RefusalSet.has_insert _ c d, rfl, ?_, rfl⟩,
    fun f s => ⟨fun g => FaultSet.has_insert _ f g, rfl, ?_, rfl⟩, fun c => ?_⟩
  · cases hf : s.csr.fault <;> cases hr : s.csr.refused <;> simp [hf, hr]
  · cases hf : s.csr.fault <;> simp [hf]
  · obtain ⟨hfault, hrefused, hhold⟩ := c.word_marks
    refine ⟨hfault, hrefused, hhold, c.word_code, fun k hk3 hk8 => ?_, fun k hk => ?_⟩
    · rw [c.word_above hk3, decide_eq_false (by omega), Bool.false_and]
    · rw [c.word_above (by omega), BitVec.getLsbD_of_ge _ _ (by omega), Bool.and_false]

end Sys2Proof.Machine

/-! MEM in its canonical form (O50). Every store of the block comes after an admission check, so it lies
below `2^AW` (R69) and `Memory.wf_write` applies. An operation without the right to MEM leaves it as it is
(`Edit.mem_unchanged`); the nine that have it, and the drain below a hold, are followed here. -/

namespace Sys2Proof.Machine

/-- MEM of the state is in its canonical form. -/
def State.MemCanonical (s : State) : Prop := Memory.wf s.mem = true

/-- A state whose MEM is a canonical `m`, whatever its other fields. -/
theorem State.MemCanonical.of_mem {t : State} {m : Memory} (hm : Memory.wf m = true) (h : t.mem = m) :
    t.MemCanonical := by
  unfold State.MemCanonical
  rw [h]
  exact hm

/-- The canonical form speaks of MEM alone. -/
theorem State.MemCanonical.congr {s t : State} (hs : s.MemCanonical) (h : t.mem = s.mem) :
    t.MemCanonical := .of_mem hs h

/-- An admitted access does not pass `2^AW` (R69). -/
theorem le_addressSpan_of_inRegion {s : State} {a n : Nat} (h : InRegion s a n) :
    a + n ≤ addressSpan := h.1

/-- An access has at least one byte (R316). -/
theorem accessSize_pos {n : BitVec 3} {k : Nat} (h : accessSize n = some k) : 0 < k := by
  unfold accessSize at h
  split_ifs at h <;> cases h <;> decide

/-- A procedure that ends in `P` ends in whatever `P` implies. -/
theorem EndsIn.mono {P Q : State → Prop} {p : Proc State} (h : EndsIn P p) (hPQ : ∀ t, P t → Q t) :
    EndsIn Q p := ⟨fun t ht => hPQ t (h.1 t ht), fun f t ht => hPQ t (h.2 f t ht)⟩

/-! ### The stores -/

section
variable {s : State} {b : ByteRing} {n count : Nat} {r : Nat × ByteRing × Memory} (hs : s.MemCanonical)
include hs

/-- A ring write stores in the free elements, each admitted (R123). -/
theorem ByteRing.write_wf (h : b.write s n count = .ok r) : Memory.wf r.2.2 = true := by
  obtain ⟨-, hfree, rfl⟩ := (b.write_eq_ok s n count r).1 h
  exact wf_copied _ _ _ hs fun i hi => le_addressSpan_of_inRegion (hfree i hi)

/-- A ring read stores in the destination span, which is admitted (R124). -/
theorem ByteRing.read_wf (h : b.read s n count = .ok r) : Memory.wf r.2.2 = true := by
  obtain ⟨⟨-, hspan⟩, -, rfl⟩ := (b.read_eq_ok s n count r).1 h
  exact wf_copied _ _ _ hs fun i hi => le_addressSpan_of_inRegion (hspan i hi)

/-- A channel stores one admitted byte (R69, R296). -/
theorem moveStore_memCanonical {t : State} {v : Byte} (h : moveStore s n v = .ok t) :
    t.MemCanonical := by
  obtain ⟨hadmitted, rfl⟩ := (moveStore_eq_ok s t n v).1 h
  exact Memory.wf_write v hs (le_addressSpan_of_inRegion hadmitted)

end

/-! ### The shared procedures -/

section
variable {s : State} {u : Nat} (hs : s.MemCanonical)
include hs

/-- The mark of a fault or of a refusal is not in MEM (R340, R341). -/
theorem State.MemCanonical.conclude {p : Proc State} (hp : EndsIn State.MemCanonical p) :
    LeadsTo State.MemCanonical (conclude s p) :=
  hp.conclude (fun _ _ ht => ht.congr (by simp)) fun _ => hs.congr (by simp)

theorem drainRead_memCanonical {a : Agent} : EndsIn State.MemCanonical (drainRead u a s) :=
  .afterUartAt fun x _ => .query (x.bs.rx.faultless_read _ _ _) fun _ hr =>
    .done (.of_mem (ByteRing.read_wf hs hr) (by simp))

theorem trySatisfy_memCanonical : EndsIn State.MemCanonical (trySatisfy u s) :=
  .afterUartAt fun x _ => .ite
    (fun _ => .query (x.bs.rx.faultless_read _ _ _) fun _ hr =>
      .done (.of_mem (ByteRing.read_wf hs hr) (by simp)))
    fun _ => .done hs

theorem rxSync_memCanonical : EndsIn State.MemCanonical (rxSync u s) :=
  .afterUartAt fun _ _ => .ite (fun _ => .raised hs) fun _ =>
    .afterCommit hs <| trySatisfy_memCanonical (hs.congr (by simp))

theorem forwardError_memCanonical (k : Kind) : EndsIn State.MemCanonical (forwardError u k s) :=
  .afterUartAt fun _ _ => .ite (fun _ => .done (hs.congr (by simp))) fun _ => .done hs

theorem idleReaction_memCanonical : EndsIn State.MemCanonical (idleReaction u s) :=
  .afterUartAt fun _ _ => .ite (fun _ => rxSync_memCanonical hs) fun _ => .done hs

/-- Of the reactions to a notification only the coalescer's stores to MEM (R211, R212). -/
theorem react_memCanonical (k : Kind) : EndsIn State.MemCanonical (react u k s) := by
  cases k with
  | overrunError | framingError | parityError | noiseDetected | lineBreak =>
    exact forwardError_memCanonical hs _
  | idleLine => exact idleReaction_memCanonical hs
  | _ => exact .done hs

/-- `NOTIF` is not in MEM (R165). -/
theorem notify_memCanonical (k : Kind) : EndsIn State.MemCanonical (notify u k s) :=
  have hnoted : State.MemCanonical { s with notif := s.notif ++ [(u, k)] } := hs
  react_memCanonical hnoted k

theorem irqTest_memCanonical (sample : BitVec 9) (e : IrqEntry) :
    EndsIn State.MemCanonical (irqTest u sample e s) :=
  .ite (fun _ => .seq (notify_memCanonical hs e.kind) fun _ hn =>
    .afterUartAt fun _ _ => .done (hn.congr (by simp))) fun _ => .done hs

omit hs in
theorem irqTests_memCanonical (sample : BitVec 9) (l : List IrqEntry) :
    ∀ s : State, s.MemCanonical → EndsIn State.MemCanonical (irqTests u sample l s) := by
  induction l with
  | nil => exact fun _ hs => .done hs
  | cons e es ih => exact fun _ hs => .seq (irqTest_memCanonical hs sample e) ih

theorem moveUartRx_memCanonical : EndsIn State.MemCanonical (moveUartRx u s) :=
  .afterUartAt fun _ _ => .afterRequire fun _ => .afterValue fun _ _ =>
    .query (faultless_moveAddress _) fun _ _ => .query (faultless_moveStore _ _ _) fun _ hstored =>
      .done ((moveStore_memCanonical hs hstored).congr (by simp))

theorem moveBusRx_memCanonical {n : Nat} (v : Word) : EndsIn State.MemCanonical (moveBusRx n v s) :=
  .afterEngineAt fun _ _ => .afterRequire fun _ => .afterRequire fun _ =>
    .query (faultless_moveAddress _) fun _ _ => .query (faultless_moveStore _ _ _) fun _ hstored =>
      .done ((moveStore_memCanonical hs hstored).congr (by simp))

end

/-! ### The operations -/

/-- Without the right to MEM no edit touches it. -/
theorem Edits.memCanonical {r : Rights} (hr : r.mem = false) {s t : State} (h : Edits r s t)
    (hs : s.MemCanonical) : t.MemCanonical :=
  hs.congr (h.unchanged fun _ _ he => he.mem_unchanged hr)

section
variable {s : State} {i : BitVec 4} {a : Agent} (hs : s.MemCanonical)
include hs

theorem execMemSt_memCanonical (n : BitVec 3) : LeadsTo State.MemCanonical (execMemSt i a n s) := by
  refine hs.conclude <| .afterField fun k hk => .afterRequire fun _ => .afterRequire fun _ =>
    .afterRequire fun _ => .afterRequire fun haccess => .done ?_
  simp only [Bool.and_eq_true] at haccess
  obtain ⟨-, hadmitted⟩ := haccess
  have hin := (admitted_iff s _ k (accessSize_pos hk)).1 hadmitted
  exact Memory.wf_writeLE _ hs (le_addressSpan_of_inRegion hin)

theorem execRbWrite_memCanonical : LeadsTo State.MemCanonical (execRbWrite i a s) :=
  hs.conclude <| .afterRingFor fun b _ => .query (b.ring.faultless_write _ _ _) fun _ hr =>
    .done (.of_mem (ByteRing.write_wf hs hr) (by simp))

theorem execRbRead_memCanonical : LeadsTo State.MemCanonical (execRbRead i a s) :=
  hs.conclude <| .afterRingFor fun b _ => .query (b.ring.faultless_read _ _ _) fun _ hr =>
    .done (.of_mem (ByteRing.read_wf hs hr) (by simp))

theorem execBsWrite_memCanonical : LeadsTo State.MemCanonical (execBsWrite i a s) :=
  hs.conclude <| .afterUartFor fun x _ => .afterRequire fun _ =>
    .query (x.bs.tx.faultless_write _ _ _) fun _ hr =>
      .done (.of_mem (ByteRing.write_wf hs hr) (by simp))

theorem execBsReadB_memCanonical : LeadsTo State.MemCanonical (execBsReadB i a s) :=
  hs.conclude <| .afterUartFor fun _ _ => .afterRequire fun _ => .afterRequire fun _ =>
    .ite (fun _ => drainRead_memCanonical (hs.congr (by simp))) fun _ => .done (hs.congr (by simp))

theorem execBsReadNb_memCanonical : LeadsTo State.MemCanonical (execBsReadNb i a s) :=
  hs.conclude <| .afterUartFor fun _ _ => .afterRequire fun _ => .afterRequire fun _ =>
    .ite (fun _ => drainRead_memCanonical (hs.congr (by simp))) fun _ => .done (hs.congr (by simp))

theorem execBsRxDone_memCanonical : LeadsTo State.MemCanonical (execBsRxDone i a s) :=
  hs.conclude <| .afterUartFor fun _ _ => .afterRequire fun _ => .afterRequire fun _ =>
    rxSync_memCanonical (hs.congr (by simp))

theorem execLdIrq_memCanonical : LeadsTo State.MemCanonical (execLdIrq i a s) :=
  hs.conclude <| .afterUartFor fun _ _ => .afterRequire fun _ =>
    irqTests_memCanonical _ _ _ (hs.congr (by simp))

/-- The transmit channels read MEM, the receive channels store to it (R296). -/
theorem execDmaMove_memCanonical (channel : BitVec 2) :
    LeadsTo State.MemCanonical (execDmaMove i a channel s) :=
  have reads {t : State} (ht : Edits .none s t) : t.MemCanonical := ht.memCanonical rfl hs
  hs.conclude <| .afterRequire fun _ => .ite (fun _ => moveUartTx_edits.mono fun _ => reads) fun _ =>
    .ite (fun _ => moveUartRx_memCanonical hs) fun _ =>
    .ite (fun _ => moveBusTx_edits.mono fun _ => reads) fun _ => moveBusRx_memCanonical hs _

/-- The lines a held command still has to run are a drain of the read ring, or none (R342). -/
theorem execResume_memCanonical (h : Held) : LeadsTo State.MemCanonical (execResume h s) := by
  have released : s.release.MemCanonical := hs.congr (by simp)
  refine released.conclude ?_
  cases h with
  | waitTc _ | waitRxne _ => exact .done released
  | readB _ => exact drainRead_memCanonical released

theorem exec_memCanonical (i : Instr) : LeadsTo State.MemCanonical (exec i s) := by
  cases hw : writesMem i with
  | false => exact fun t ht => (exec_edits i s t ht).memCanonical hw hs
  | true =>
    cases i with
    | memSt _ _ _ => exact execMemSt_memCanonical hs _
    | rbWrite _ _ => exact execRbWrite_memCanonical hs
    | rbRead _ _ => exact execRbRead_memCanonical hs
    | bsWrite _ _ => exact execBsWrite_memCanonical hs
    | bsReadB _ _ => exact execBsReadB_memCanonical hs
    | bsReadNb _ _ => exact execBsReadNb_memCanonical hs
    | bsRxDone _ _ => exact execBsRxDone_memCanonical hs
    | ldIrq _ _ => exact execLdIrq_memCanonical hs
    | dmaMove _ _ _ => exact execDmaMove_memCanonical hs _
    | _ => cases hw

end

/-- Taking a turn touches the trace and a port alone (R314). -/
theorem TakesTurn.mem {s t : State} (h : TakesTurn s t) : t.mem = s.mem := by
  obtain ⟨rest, rfl | ⟨a, a0, a1, a2, rfl⟩⟩ := h <;> simp

/-- Settles O50: a turn, a reserved word and a read of a result leave MEM; an operation leaves it or stores
only where the access is admitted. -/
theorem stepKeepsMemoryCanonical : Obligations.StepKeepsMemoryCanonical := by
  intro s t hs hst
  have hturn : (nextTurn s).state.MemCanonical := State.MemCanonical.congr hs (nextTurn_state s).mem
  exact step_leadsTo hturn (fun h _ hv => execResume_memCanonical hv h)
    (fun _ k _ hv t ht => (execReadRes_edits k t ht).memCanonical rfl hv)
    (fun e _ hv t ht => (execReserved_edits e t ht).memCanonical rfl hv)
    (fun i _ hv => exec_memCanonical hv i) t hst

end Sys2Proof.Machine

/-! The encoding (O1 to O6). A word is its five fields (R91); a word decodes exactly where its opcode has a
row, its reserved bits are 0 and its `IMM` stays within the row (`decode_eq_ok`). The row of an operation's
opcode reads the operation back (`rowOf_opcodeOf`), and a row reads nothing but what the operation carries
(`rowOf_eq_some`): the two round trips. -/

namespace Sys2Proof

/-! ### Words and their fields (R91) -/

/-- A word is determined by its five fields. -/
theorem word_ext {v w : Word} (hopc : opcField v = opcField w) (hinst : instField v = instField w)
    (hagent : agentField v = agentField w) (hres : reservedField v = reservedField w)
    (himm : immField v = immField w) : v = w := by
  apply BitVec.eq_of_toNat_eq
  simp only [← BitVec.toNat_inj, opcField, instField, agentField, reservedField, immField,
    BitVec.extractLsb'_toNat, Nat.shiftRight_eq_div_pow] at hopc hinst hagent hres himm
  omega

/-- Packing the fields of a word whose reserved bits are 0 gives the word. -/
theorem packWord_fields {w : Word} (h : reservedField w = 0#2) :
    packWord (opcField w) (instField w) (agentField w) (immField w) = w :=
  word_ext (by simp) (by simp) (by simp) (by simp [h]) (by simp)

/-- A masked word is compared field by field. -/
theorem word_and_eq_iff (w m p : Word) : w &&& m = p ↔
    opcField w &&& opcField m = opcField p ∧ instField w &&& instField m = instField p ∧
    agentField w &&& agentField m = agentField p ∧
    reservedField w &&& reservedField m = reservedField p ∧
    immField w &&& immField m = immField p := by
  simp only [opcField, instField, agentField, reservedField, immField, ← BitVec.extractLsb'_and]
  constructor
  · rintro rfl
    exact ⟨rfl, rfl, rfl, rfl, rfl⟩
  · rintro ⟨hopc, hinst, hagent, hres, himm⟩
    exact word_ext hopc hinst hagent hres himm

/-! ### `IMM` and its sub-fields (R93) -/

/-- Two fields side by side, as a number. -/
theorem append_toNat {m k : Nat} (x : BitVec m) (y : BitVec k) :
    (x ++ y).toNat = x.toNat * 2 ^ k + y.toNat := by
  rw [BitVec.toNat_append, ← Nat.shiftLeft_add_eq_or_of_lt y.isLt, Nat.shiftLeft_eq]

/-- A sub-field of `k` bits that stands alone in `IMM` is below `2^k`. -/
theorem zero_append_toNat_lt {m k : Nat} (n : BitVec k) : (0#m ++ n).toNat < 2 ^ k := by
  simpa [append_toNat] using n.isLt

/-- A sub-field that stands alone in `IMM` is read back. -/
theorem extractLsb'_zero_append {m k : Nat} (n : BitVec k) : (0#m ++ n).extractLsb' 0 k = n :=
  BitVec.extractLsb'_append_eq_right

/-- Where `IMM` has no bit above its low `k`, those are all of it. -/
theorem zero_append_extractLsb' {m k : Nat} {imm : BitVec (m + k)} (h : imm.toNat < 2 ^ k) :
    0#m ++ imm.extractLsb' 0 k = imm := by
  apply BitVec.eq_of_toNat_eq
  simp [Nat.mod_eq_of_lt h]

/-- Where `IMM` has no bit at all it is the 0 of Format N (R92). -/
theorem zero_eq_of_toNat_lt {imm : BitVec 16} (h : imm.toNat < 2 ^ 0) : 0#16 = imm :=
  (BitVec.eq_of_toNat_eq (Nat.lt_one_iff.1 h)).symm

/-- The three sub-fields of `LD.SETFRAME` as one number. -/
theorem frameImm_toNat (parity stopBits : BitVec 2) (dataBits : BitVec 8) :
    (((0#4 ++ dataBits) ++ stopBits) ++ parity).toNat =
      dataBits.toNat * 16 + stopBits.toNat * 4 + parity.toNat := by
  simp only [append_toNat, BitVec.toNat_ofNat]
  omega

/-- The three sub-fields of `LD.SETFRAME` are read back. -/
theorem extractLsb'_frameImm (parity stopBits : BitVec 2) (dataBits : BitVec 8) :
    (((0#4 ++ dataBits) ++ stopBits) ++ parity).extractLsb' 0 2 = parity ∧
    (((0#4 ++ dataBits) ++ stopBits) ++ parity).extractLsb' 2 2 = stopBits ∧
    (((0#4 ++ dataBits) ++ stopBits) ++ parity).extractLsb' 4 8 = dataBits := by
  simp only [← BitVec.toNat_inj, BitVec.extractLsb'_toNat, frameImm_toNat, Nat.shiftRight_eq_div_pow]
  omega

/-- Where the `IMM` of `LD.SETFRAME` stays within its 12 bits, its three sub-fields are all of it. -/
theorem frameImm_extractLsb' {imm : BitVec 16} (h : imm.toNat < 2 ^ 12) :
    ((0#4 ++ imm.extractLsb' 4 8) ++ imm.extractLsb' 2 2) ++ imm.extractLsb' 0 2 = imm := by
  apply BitVec.eq_of_toNat_eq
  simp only [frameImm_toNat, BitVec.extractLsb'_toNat, Nat.shiftRight_eq_div_pow]
  omega

/-! ### Decoding by rows (R96, R97) -/

/-- When a word decodes, and to what: its opcode has a row, its reserved bits are 0, and its `IMM` has no
bit above the `k` the row defines. -/
theorem decode_eq_ok (w : Word) (i : Instr) : decode w = .ok i ↔
    ∃ k, rowOf (opcField w).toNat (instField w) (agentOfCode (agentField w)) (immField w) =
        some (k, i) ∧
      reservedField w = 0#2 ∧ (immField w).toNat < 2 ^ k := by
  unfold decode
  split
  next h => simp [h]
  next k j h =>
    by_cases hres : reservedField w = 0#2
    · by_cases himm : (immField w).toNat < 2 ^ k
      · simp [h, hres, himm, Nat.not_le.2 himm]
      · simp [h, hres, himm, Nat.not_lt.1 himm]
    · simp [hres]

/-- The row of an operation's opcode reads the operation back, and the `IMM` of the operation stays within
the row. -/
theorem rowOf_opcodeOf (i : Instr) :
    ∃ k, rowOf (opcodeOf i).toNat i.instOf i.agentOf (immOf i) = some (k, i) ∧
      (immOf i).toNat < 2 ^ k := by
  cases i
  case memLd | memSt | ldSetFlow | ldEnable | ldDisable | ldArmIrq | ldDisarmIrq | ldClkChg | tbEnable |
      tbDisable | bteEvErr | bteDmaDone | lineRx | dmaMove =>
    exact ⟨_, by simp only [rowOf, opcodeOf, immOf, Instr.instOf, Instr.agentOf, BitVec.reduceToNat,
      extractLsb'_zero_append], zero_append_toNat_lt _⟩
  case ldSetFrame inst agent parity stopBits dataBits =>
    obtain ⟨hparity, hstop, hdata⟩ := extractLsb'_frameImm parity stopBits dataBits
    refine ⟨12, ?_, ?_⟩
    · simp only [rowOf, opcodeOf, immOf, Instr.instOf, Instr.agentOf, BitVec.reduceToNat, hparity, hstop,
        hdata]
    · rw [immOf, frameImm_toNat]
      omega
  all_goals exact ⟨0, rfl, Nat.one_pos⟩

/-- A row reads `INST`, the agent and the `IMM` bits it defines, and nothing else. Three shapes of `IMM`: one
sub-field, the three of `LD.SETFRAME`, and Format N with none. -/
theorem rowOf_eq_some {opc : Nat} {inst : BitVec 4} {a : Agent} {imm : BitVec 16} {k : Nat} {i : Instr}
    (h : rowOf opc inst a imm = some (k, i)) (himm : imm.toNat < 2 ^ k) :
    (opcodeOf i).toNat = opc ∧ i.instOf = inst ∧ i.agentOf = a ∧ immOf i = imm := by
  unfold rowOf at h
  split at h <;> cases h <;> refine ⟨rfl, rfl, rfl, ?_⟩
  case h_1 | h_2 | h_12 | h_13 | h_14 | h_15 | h_16 | h_22 | h_28 | h_29 | h_35 | h_36 | h_37 | h_41 =>
    exact zero_append_extractLsb' himm
  case h_11 => exact frameImm_extractLsb' himm
  all_goals exact zero_eq_of_toNat_lt himm

/-! ### The round trips (R91, R93, R98) -/

/-- Settles O1: the word of an operation carries its fields, and its row reads them back. -/
theorem decodeOfEncode : Obligations.DecodeOfEncode := by
  intro i
  obtain ⟨k, hrow, himm⟩ := rowOf_opcodeOf i
  exact (decode_eq_ok _ _).2 ⟨k, by simpa [encode] using hrow, by simp [encode],
    by simpa [encode] using himm⟩

/-- Settles O2: a row that reads a word reads every bit of it that may be set. -/
theorem encodeOfDecode : Obligations.EncodeOfDecode := by
  intro w i h
  obtain ⟨k, hrow, hres, himm⟩ := (decode_eq_ok w i).1 h
  obtain ⟨hopc, hinst, hagent, himmOf⟩ := rowOf_eq_some hrow himm
  rw [encode, BitVec.eq_of_toNat_eq hopc, hinst, hagent, agentCode_agentOfCode, himmOf,
    packWord_fields hres]

/-! ### The opcode table (R96, R97) -/

/-- How many low bits of `IMM` the row of an opcode defines (R93); `none` for a reserved opcode. -/
def rowWidth (opc : Nat) : Option Nat := (rowOf opc 0#4 .fg 0#16).map Prod.fst

/-- Whether there is a row, and its width, depend on the opcode alone. -/
theorem rowOf_width (opc : Nat) (inst : BitVec 4) (a : Agent) (imm : BitVec 16) :
    (rowOf opc inst a imm).map Prod.fst = rowWidth opc := by
  unfold rowWidth rowOf
  split <;> rfl

/-- A word decodes exactly when its opcode has a row and its other bits are admitted by it. -/
theorem decode_isOk_iff (w : Word) : (∃ i, decode w = .ok i) ↔
    ∃ k, rowWidth (opcField w).toNat = some k ∧ reservedField w = 0#2 ∧
      (immField w).toNat < 2 ^ k := by
  simp only [decode_eq_ok,
    ← rowOf_width _ (instField w) (agentOfCode (agentField w)) (immField w), Option.map_eq_some_iff]
  constructor
  · rintro ⟨i, k, hrow, hw⟩
    exact ⟨k, ⟨(k, i), hrow, rfl⟩, hw⟩
  · rintro ⟨_, ⟨⟨k, i⟩, hrow, rfl⟩, hw⟩
    exact ⟨i, k, hrow, hw⟩

/-- The mask of a row of width `k`: the opcode, the reserved bits and the `IMM` bits above the low `k`. -/
def rowMask (k : Nat) : Word := (((0xFF#8 ++ 0#4) ++ 0#2) ++ 3#2) ++ (BitVec.allOnes 16 <<< k)

theorem rowMask_fields (k : Nat) : opcField (rowMask k) = .allOnes 8 ∧ instField (rowMask k) = 0#4 ∧
    agentField (rowMask k) = 0#2 ∧ reservedField (rowMask k) = .allOnes 2 ∧
    immField (rowMask k) = BitVec.allOnes 16 <<< k := by
  refine ⟨?_, ?_, ?_, ?_, BitVec.extractLsb'_append_eq_right⟩
  all_goals
    simp only [rowMask, opcField, instField, agentField, reservedField]
    rw [BitVec.extractLsb'_append_eq_of_le (by decide)]
    decide

/-- A field has no bit at `k` or above exactly when it is below `2^k`. -/
theorem and_shiftLeft_allOnes_eq_zero {n : Nat} (x : BitVec n) (k : Nat) :
    x &&& (BitVec.allOnes n <<< k) = 0#n ↔ x.toNat < 2 ^ k := by
  constructor
  · intro h
    refine Nat.lt_pow_two_of_testBit _ fun j hj => ?_
    by_cases hn : j < n
    · have hbit : (x &&& (BitVec.allOnes n <<< k)).getLsbD j = false := by rw [h, BitVec.getLsbD_zero]
      have hx : x.getLsbD j = false := by simpa [hn, Nat.not_lt.2 hj] using hbit
      exact hx
    · exact BitVec.getLsbD_of_ge x j (Nat.not_lt.1 hn)
  · intro h
    refine BitVec.eq_of_getLsbD_eq fun j hj => ?_
    by_cases hk : j < k
    · simp [hk]
    · have hbit : x.getLsbD j = false :=
        Nat.testBit_lt_two_pow (h.trans_le (Nat.pow_le_pow_right (by decide) (Nat.not_lt.1 hk)))
      simp [hbit]

/-- What the mask and the pattern of a row test. -/
theorem and_rowMask_eq_iff (w : Word) (k : Nat) (opc : BitVec 8) :
    w &&& rowMask k = packWord opc 0#4 0#2 0#16 ↔
      opcField w = opc ∧ reservedField w = 0#2 ∧ (immField w).toNat < 2 ^ k := by
  obtain ⟨hopc, hinst, hagent, hres, himm⟩ := rowMask_fields k
  rw [word_and_eq_iff, hopc, hinst, hagent, hres, himm, BitVec.and_allOnes, BitVec.and_allOnes]
  simp only [opcField_packWord, instField_packWord, agentField_packWord, reservedField_packWord,
    immField_packWord, and_shiftLeft_allOnes_eq_zero, BitVec.and_zero, true_and]

/-- The 41 patterns and masks of R96 are those of the decoder's rows. -/
theorem opcodeTable_shape : ∀ r ∈ opcodeTable,
    r.pattern = packWord (opcField r.pattern) 0#4 0#2 0#16 ∧
      (rowWidth (opcField r.pattern).toNat).map rowMask = some r.mask := by
  decide

/-- Every row of the decoder stands in the table of R96. -/
theorem opcodeTable_complete {opc k : Nat} (h : rowWidth opc = some k) :
    ∃ r ∈ opcodeTable, (opcField r.pattern).toNat = opc := by
  unfold rowWidth rowOf at h
  split at h
  case h_42 => cases h
  all_goals decide

/-- The rows of the table have different opcodes. -/
theorem opcodeTable_opcodes :
    opcodeTable.Pairwise fun r q => opcField r.pattern ≠ opcField q.pattern := by
  decide

/-- When a row of the table selects a word. -/
theorem selects_iff {r : TableRow} (hr : r ∈ opcodeTable) (w : Word) : r.selects w = true ↔
    opcField w = opcField r.pattern ∧
      ∃ k, rowWidth (opcField w).toNat = some k ∧ reservedField w = 0#2 ∧
        (immField w).toNat < 2 ^ k := by
  obtain ⟨hpattern, hmask⟩ := opcodeTable_shape r hr
  obtain ⟨k, hk, hmask⟩ := Option.map_eq_some_iff.1 hmask
  have htest := and_rowMask_eq_iff w k (opcField r.pattern)
  rw [hmask, ← hpattern] at htest
  rw [TableRow.selects, beq_iff_eq, htest]
  refine and_congr_right fun hopc => ?_
  simp [hopc, hk]

/-- Settles O3: rows differ in the opcode, which their masks keep whole; and the table has exactly the rows
of the decoder. -/
theorem everyWordSelectsOneRowOrIsReserved : Obligations.EveryWordSelectsOneRowOrIsReserved := by
  refine ⟨opcodeTable_opcodes.imp_of_mem ?_, fun w => ?_⟩
  · rintro r q hr hq hne w ⟨hrw, hqw⟩
    exact hne <| ((selects_iff hr w).1 hrw).1.symm.trans ((selects_iff hq w).1 hqw).1
  · rw [decode_isOk_iff]
    constructor
    · rintro ⟨k, hk, hw⟩
      obtain ⟨r, hr, hopc⟩ := opcodeTable_complete hk
      exact ⟨r, hr, (selects_iff hr w).2 ⟨(BitVec.eq_of_toNat_eq hopc).symm, k, hk, hw⟩⟩
    · rintro ⟨r, hr, hw⟩
      exact ((selects_iff hr w).1 hw).2

/-- Settles O4: thirteen closed words, decoded. -/
theorem workedEncodings : Obligations.WorkedEncodings := by
  unfold Obligations.WorkedEncodings
  decide

end Sys2Proof

/-! A step with no command holding (O5, O6). -/

namespace Sys2Proof.Machine

/-- The trace is in no port. -/
@[simp] theorem State.setActs_port (s : State) (rest : List Act) (g : Agent) :
    ({ s with acts := rest } : State).port g = s.port g := by cases g <;> rfl

/-- With no command holding the oldest entry of the trace has the turn (R90). -/
theorem nextTurn_of_free {s : State} {x : Act} {rest : List Act} (hheld : s.held = none)
    (hacts : s.acts = x :: rest) : nextTurn s = x.turn { s with acts := rest } := by
  simp only [nextTurn, hheld, freeTurn, hacts]

/-- A query that changes nothing: the same state where the field holds a value, else `X_STATE` (R45). -/
theorem conclude_valueOf {α : Type} (s : State) (o : Option α) :
    (o.isSome = true → conclude s (valueOf o >>= fun _ => .ok s) = .next s) ∧
    (o = none → conclude s (valueOf o >>= fun _ => .ok s) = .next (markRefused .xState s)) := by
  cases o <;> simp

section
variable {s : State} {w a0 a1 a2 : Word} {rest : List Act}

/-- The turn of an operation word: its operands stand in its issuer's port (R314). -/
theorem nextTurn_of_issue (hheld : s.held = none) (hacts : s.acts = .issue w a0 a1 a2 :: rest) :
    nextTurn s = .issue w (({ s with acts := rest } : State).setPort (issuerOf w)
      { s.port (issuerOf w) with arg0 := a0, arg1 := a1, arg2 := a2 }) := by
  rw [nextTurn_of_free hheld hacts, Act.turn, State.loadArgs, State.setActs_port]

/-- A word that decodes is issued by the agent of its operation (R91). -/
theorem issuerOf_of_decode {i : Instr} (h : decode w = .ok i) : issuerOf w = i.agentOf := by
  rw [← encodeOfDecode w i h, issuerOf_encode]

theorem step_of_issue {t : State} {i : Instr} (hturn : nextTurn s = .issue w t)
    (h : decode w = .ok i) : step s = exec i t := by
  simp only [step, hturn, h]

theorem step_of_reserved {t : State} {e : DecodeError} (hturn : nextTurn s = .issue w t)
    (h : decode w = .error e) : step s = .next (markRefused .xReserved t) := by
  simp only [step, hturn, h, execReserved, conclude_refuse]

/-- Settles O5: the turn is the entry's, and the issuer of the word is the agent of the operation. -/
theorem stepRunsDecodedOperation : Obligations.StepRunsDecodedOperation := by
  intro s w a0 a1 a2 rest i hheld hacts hdecode
  rw [step_of_issue (nextTurn_of_issue hheld hacts) hdecode, issuerOf_of_decode hdecode]

theorem step_of_readRes {g : Agent} {k : ResReg} (hheld : s.held = none)
    (hacts : s.acts = .readRes g k :: rest) : step s = execReadRes g k { s with acts := rest } := by
  simp only [step, nextTurn_of_free hheld hacts, Act.turn]

end

/-- Settles O6: the turn is the entry's; a reserved word and a result register without a value are refused
in it. -/
theorem stepOfReservedWordsAndResultReads : Obligations.StepOfReservedWordsAndResultReads := by
  refine ⟨fun s w a0 a1 a2 rest e hheld hacts herror =>
      step_of_reserved (nextTurn_of_issue hheld hacts) herror, ?_, ?_⟩
  all_goals
    intro s g rest hheld hacts
    rw [step_of_readRes hheld hacts, ← State.setActs_port s rest]
    exact conclude_valueOf _ _

end Sys2Proof.Machine

/-! The checks made before any other (O12). `ChecksFirst` says that a procedure begins with the checks of
R344 in their order; its rules follow the procedures statement by statement. -/

namespace Sys2Proof.Machine

/-- The procedure is refused `X_RESERVED` unless `fields`, then `X_AGENT` unless `context`, then `X_OPERAND`
unless `unit`, before anything else (R344). -/
structure ChecksFirst (fields context : Bool) (unit : Prop) (p : Proc State) : Prop where
  reserved : fields = false → p = refuse .xReserved
  agent : fields = true → context = false → p = refuse .xAgent
  operand : fields = true → context = true → ¬unit → p = refuse .xOperand

section
variable {s : State} {i : BitVec 4} {a want : Agent} {unit : Prop}

/-- A sub-field is checked first (R98 (d)). -/
theorem ChecksFirst.afterField {α : Type} {o : Option α} {fields context : Bool} {g : α → Proc State}
    (ho : o.isSome = fields) (hg : ∀ v, ChecksFirst true context unit (g v)) :
    ChecksFirst fields context unit (field o >>= g) := by
  subst ho
  cases o with
  | none => exact ⟨fun _ => rfl, nofun, nofun⟩
  | some v => exact hg v

/-- With no sub-field to check, the context is checked first (R94). -/
theorem ChecksFirst.afterAgent {g : Unit → Proc State} (hg : ChecksFirst true true unit (g ())) :
    ChecksFirst true (a == want) unit (requireAgent a want >>= g) := by
  unfold requireAgent
  cases a == want with
  | false => exact ⟨nofun, fun _ _ => rfl, nofun⟩
  | true => exact hg

/-- A procedure that only has to be refused `X_OPERAND` where its unit is missing. -/
theorem ChecksFirst.ofUnit {p : Proc State} (h : ¬unit → p = refuse .xOperand) :
    ChecksFirst true true unit p := ⟨nofun, nofun, fun _ _ => h⟩

/-- The unit is checked by its number (R98). -/
theorem ChecksFirst.afterNumber {b : Bool} {g : Unit → Proc State} (hb : b = true ↔ unit) :
    ChecksFirst true true unit (require b .xOperand >>= g) :=
  .ofUnit fun h => by rw [Bool.eq_false_iff.2 (mt hb.1 h), require_false, refuse_bind]

theorem ringAt_missing {r : Nat} (h : ¬r < s.rings.length) : ringAt s r = refuse .xOperand := by
  rw [ringAt, List.getElem?_eq_none (Nat.not_lt.1 h)]

theorem uartAt_missing {u : Nat} (h : ¬u < s.uarts.length) : uartAt s u = refuse .xOperand := by
  rw [uartAt, List.getElem?_eq_none (Nat.not_lt.1 h)]

theorem engineAt_missing {n : Nat} (h : ¬n < s.engines.length) : engineAt s n = refuse .xOperand := by
  rw [engineAt, List.getElem?_eq_none (Nat.not_lt.1 h)]

theorem ChecksFirst.afterUartAt {u : Nat} {g : Uart → Proc State} :
    ChecksFirst true true (u < s.uarts.length) (uartAt s u >>= g) :=
  .ofUnit fun h => by rw [uartAt_missing h, refuse_bind]

theorem ChecksFirst.afterEngineAt {n : Nat} {g : Engine → Proc State} :
    ChecksFirst true true (n < s.engines.length) (engineAt s n >>= g) :=
  .ofUnit fun h => by rw [engineAt_missing h, refuse_bind]

theorem ChecksFirst.afterUartFor {g : Uart → Proc State} :
    ChecksFirst true (a == want) (i.toNat < s.uarts.length) (uartFor s i a want >>= g) := by
  rw [uartFor, bind_assoc]
  exact .afterAgent .afterUartAt

theorem ChecksFirst.afterEngineFor {g : Engine → Proc State} :
    ChecksFirst true (a == want) (i.toNat < s.engines.length) (engineFor s i a want >>= g) := by
  rw [engineFor, bind_assoc]
  exact .afterAgent .afterEngineAt

/-- On a ring ENV is a reserved value; R94 requires no context of it (R98 (e), R122). -/
theorem ChecksFirst.afterRingFor {sd : Side} {g : FreeRing → Proc State} :
    ChecksFirst (a != .env) true (i.toNat < s.rings.length) (ringFor s i a sd >>= g) where
  reserved h := by rw [ringFor, h, require_false, refuse_bind, refuse_bind]
  agent := nofun
  operand h _ hunit := by
    rw [ringFor, h, ringAt_missing hunit, require_true, proc_ok_bind, refuse_bind, refuse_bind]

/-- A move checks the context, then the unit of its channel: a serial unit for channels 0 and 1, a bus
engine for 2 and 3 (R93, R296). -/
theorem execDmaMove_checksFirst (i : BitVec 4) (a : Agent) (channel : BitVec 2) (s : State) :
    ∃ p, execDmaMove i a channel s = conclude s p ∧
      ChecksFirst true (a == .env) (s.hasTarget (.dmaMove i a channel)) p := by
  have hchannel : channel = 0#2 ∨ channel = 1#2 ∨ channel = 2#2 ∨ channel = 3#2 := by decide +revert
  refine ⟨_, rfl, .afterAgent ?_⟩
  rcases hchannel with rfl | rfl | rfl | rfl
  · exact .afterUartAt
  · exact .afterUartAt
  · exact .afterEngineAt
  · exact .afterEngineAt

end

/-! ### The sub-fields of R98 (d) -/

theorem accessSize_isSome (n : BitVec 3) :
    (accessSize n).isSome = (n == 1#3 || n == 2#3 || n == 4#3) := by decide +revert

theorem partOf_isSome (c : BitVec 2) : (partOf c).isSome = (c != 3#2) := by decide +revert

theorem parityOf_isSome (c : BitVec 2) : (parityOf c).isSome = (c != 3#2) := by decide +revert

theorem conditionOf_isSome (c : BitVec 4) : (conditionOf c).isSome = decide (c.toNat ≤ 8) := by
  decide +revert

theorem busErrorOf_isSome (k : BitVec 8) : (busErrorOf k).isSome =
    (k == 0x11#8 || k == 0x12#8 || k == 0x14#8 || k == 0x15#8 || k == 0x16#8) := by
  unfold busErrorOf
  split_ifs <;> simp_all

/-! ### Every operation -/

/-- Every operation is a procedure that begins with the checks of R344. -/
theorem exec_checksFirst (i : Instr) (s : State) :
    ∃ p, exec i s = conclude s p ∧ ChecksFirst i.fieldsOk i.agentOk (s.hasTarget i) p := by
  cases i
  case memLd | memSt =>
    exact ⟨_, rfl, .afterField (accessSize_isSome _) fun _ => .afterAgent (.afterNumber beq_iff_eq)⟩
  case rbWrite | rbRead | rbPop | rbSkip | rbPeek | rbCommit | rbUsed => exact ⟨_, rfl, .afterRingFor⟩
  case ldSetFrame => exact ⟨_, rfl, .afterField (parityOf_isSome _) fun _ => .afterUartFor⟩
  case ldEnable | ldDisable | tbEnable | tbDisable =>
    exact ⟨_, rfl, .afterField (partOf_isSome _) fun _ => .afterUartFor⟩
  case ldArmIrq | ldDisarmIrq =>
    exact ⟨_, rfl, .afterField (conditionOf_isSome _) fun _ => .afterUartFor⟩
  case ldClkChg => exact ⟨_, rfl, .afterAgent (.afterNumber decide_eq_true_iff)⟩
  case bteEvErr => exact ⟨_, rfl, .afterField (busErrorOf_isSome _) fun _ => .afterEngineFor⟩
  case bteSubmit | bteEvAddr | bteEvTc | bteEvStop | bteEvNack | bteDmaDone =>
    exact ⟨_, rfl, .afterEngineFor⟩
  case dmaMove inst a channel => exact execDmaMove_checksFirst inst a channel s
  all_goals exact ⟨_, rfl, .afterUartFor⟩

/-- An operation that begins on a ring refuses a context that is not wired to its side (R122). -/
theorem refuses_of_not_admits {i : Instr} {s : State} {r : BitVec 4} {g : Agent} {sd : Side}
    {b : FreeRing} {f : FreeRing → Proc State} (hi : exec i s = conclude s (ringFor s r g sd >>= f))
    (hb : s.rings[r.toNat]? = some b) (henv : g ≠ .env) (hwired : b.admits sd g = false) :
    Refuses i s .xAgent := by
  have hring : ringFor s r g sd = refuse .xAgent := by
    simp [ringFor, bne_iff_ne.2 henv, ringAt, hb, hwired]
  rw [Refuses, hi, hring, refuse_bind, conclude_refuse]

/-- Settles O12: the checks come first in every operation, and the wiring of a ring before its work. -/
theorem reservedFieldsWrongAgentsAndMissingUnitsAreRefused :
    Obligations.ReservedFieldsWrongAgentsAndMissingUnitsAreRefused := by
  intro i s
  obtain ⟨p, hexec, hchecks⟩ := exec_checksFirst i s
  have refused {c : RefuseCode} (hp : p = refuse c) : Refuses i s c := by
    rw [Refuses, hexec, hp, conclude_refuse]
  refine ⟨fun hf => refused (hchecks.reserved hf), fun hf ha => refused (hchecks.agent hf ha),
    fun hwf hunit => ?_, fun r b hb => ⟨fun g henv hprod => ?_, fun g henv hcons => ?_,
      fun g henv hprod hcons => ?_⟩⟩
  · obtain ⟨hf, ha⟩ := Bool.and_eq_true_iff.1 hwf
    exact refused (hchecks.operand hf ha hunit)
  · have hwired : b.admits .producer g = false := beq_false_of_ne hprod
    exact ⟨refuses_of_not_admits rfl hb henv hwired, refuses_of_not_admits rfl hb henv hwired⟩
  · have hwired : b.admits .consumer g = false := beq_false_of_ne hcons
    exact ⟨refuses_of_not_admits rfl hb henv hwired, refuses_of_not_admits rfl hb henv hwired,
      refuses_of_not_admits rfl hb henv hwired, refuses_of_not_admits rfl hb henv hwired⟩
  · have hwired : b.admits .either g = false := by
      simp [FreeRing.admits, hprod, hcons]
    exact refuses_of_not_admits rfl hb henv hwired

end Sys2Proof.Machine

/-! The free-standing rings (O16 to O20). The wiring admits each side to its own operations, so an operation
comes down to its ring procedure; what a ring holds is then a matter of where its elements stand: the free
elements follow the unread ones, no two share an address, and a caller's buffer apart from the storage
shares none with any of them. -/

namespace Sys2Proof.Machine

/-! ### Elements, storage, contents -/

/-- The free elements follow the unread ones (R23). -/
theorem ByteRing.freeAddr_eq_unreadAddr {b : ByteRing} (h : b.ix.Inv) (k : Nat) :
    b.freeAddr k = b.unreadAddr (b.ix.used + k) := by
  obtain ⟨-, -, hwr⟩ := h
  rw [ByteRing.freeAddr, hwr, Nat.mod_add_mod, Nat.add_assoc]

/-- The oldest element stands at the read index. -/
theorem ByteRing.unreadAddr_zero {b : ByteRing} (h : b.ix.Inv) : b.unreadAddr 0 = b.base + b.ix.rd := by
  rw [ByteRing.unreadAddr, Nat.add_zero, Nat.mod_eq_of_lt h.1]

/-- No free element stands where an unread one does (R23). -/
theorem ByteRing.freeAddr_ne_unreadAddr {b : ByteRing} (h : b.ix.Inv) {i k : Nat}
    (hi : b.ix.used + i < b.ix.n) (hk : k < b.ix.used) : b.freeAddr i ≠ b.unreadAddr k := by
  rw [b.freeAddr_eq_unreadAddr h]
  intro heq
  have hik : b.ix.used + i = k := ring_addr_inj hi (by omega) heq
  omega

/-- A buffer apart from the storage shares no address with an element (R68, R381). -/
theorem ByteRing.clearOf.ne {b : ByteRing} {a n : Nat} (h : b.clearOf a n) (hpos : 0 < b.ix.n)
    (x : Nat) {k : Nat} (hk : k < n) : b.base + x % b.ix.n ≠ a + k := by
  have hx := Nat.mod_lt x hpos
  rcases h with h | h <;> omega

section
variable {b : ByteRing} {m m' : Memory} {n : Nat}

/-- What a ring holds depends on its unread elements only. -/
theorem ByteRing.contents_congr
    (h : ∀ k < b.ix.used, Memory.read m' (b.unreadAddr k) = Memory.read m (b.unreadAddr k)) :
    b.contents m' = b.contents m :=
  List.map_congr_left fun k hk => h k (List.mem_range.1 hk)

/-- A producer-side advance appends the bytes that stand in the free elements (R121). -/
theorem ByteRing.contents_produce (h : b.ix.Inv) :
    ByteRing.contents { b with ix := b.ix.produce n } m =
      b.contents m ++ (List.range n).map fun k => Memory.read m (b.freeAddr k) := by
  simp only [b.freeAddr_eq_unreadAddr h]
  show List.map _ (List.range (b.ix.used + n)) = _
  rw [List.range_add, List.map_append, List.map_map]
  rfl

/-- A consumer-side advance drops the oldest elements (R121). -/
theorem ByteRing.contents_consume (hn : n ≤ b.ix.used) :
    ByteRing.contents { b with ix := b.ix.consume n } m = (b.contents m).drop n := by
  obtain ⟨rest, hused⟩ := Nat.exists_eq_add_of_le hn
  have haddr (k : Nat) : b.base + ((b.ix.rd + n) % b.ix.n + k) % b.ix.n = b.unreadAddr (n + k) := by
    rw [Nat.mod_add_mod, Nat.add_assoc]
  calc ByteRing.contents { b with ix := b.ix.consume n } m
      = (List.range rest).map fun k => Memory.read m (b.unreadAddr (n + k)) := by
        simp only [ByteRing.contents, ByteRing.unreadAddr, Ring.consume, hused, Nat.add_sub_cancel_left, haddr]
    _ = (b.contents m).drop n := by
        rw [ByteRing.contents, hused, List.range_add, List.map_append, List.map_map,
          List.drop_left' (by simp)]
        rfl

/-- The oldest elements, one by one. -/
theorem ByteRing.contents_take (hn : n ≤ b.ix.used) :
    (b.contents m).take n = (List.range n).map fun k => Memory.read m (b.unreadAddr k) := by
  rw [ByteRing.contents, ← List.map_take, List.take_range, Nat.min_eq_left hn]

/-- The oldest element comes first. -/
theorem ByteRing.contents_head? (h : b.ix.used ≠ 0) :
    (b.contents m).head? = some (Memory.read m (b.unreadAddr 0)) := by
  simp [ByteRing.contents, List.head?_range, h]

/-- Copied into the free elements of a ring from a buffer apart from it, every byte arrives (R123). -/
theorem ByteRing.read_copied_freeAddr {src k : Nat} (hinv : b.ix.Inv) (hclear : b.clearOf src n)
    (hn : b.ix.used + n ≤ b.ix.n) (hval : ∀ i < n, (Memory.read m (src + i)).isSome = true) (hk : k < n) :
    Memory.read (copied m (src + ·) b.freeAddr n) (b.freeAddr k) = Memory.read m (src + k) :=
  read_copied_dst m _ _ n k hk (fun _ hp _ hq heq => ring_addr_inj (by omega) (by omega) heq)
    (fun _ _ _ hq => hclear.ne hinv.pos _ hq) (hval k hk)

/-- Copied from the unread elements of a ring to a buffer apart from it, every byte arrives (R124). -/
theorem ByteRing.read_copied_unreadAddr {dst k : Nat} (hinv : b.ix.Inv) (hclear : b.clearOf dst n)
    (hval : ∀ i < n, (Memory.read m (b.unreadAddr i)).isSome = true) (hk : k < n) :
    Memory.read (copied m b.unreadAddr (dst + ·) n) (dst + k) = Memory.read m (b.unreadAddr k) :=
  read_copied_dst m _ _ n k hk (fun _ _ _ _ heq => Nat.add_left_cancel heq)
    (fun _ hp _ _ => (hclear.ne hinv.pos _ hp).symm) (hval k hk)

/-- A write's copies leave the unread elements as they are (R123). -/
theorem ByteRing.contents_copied_freeAddr {src : Nat → Nat} (hinv : b.ix.Inv)
    (hn : b.ix.used + n ≤ b.ix.n) : b.contents (copied m src b.freeAddr n) = b.contents m :=
  ByteRing.contents_congr fun _ hk => read_copied_other _ _ _ _ _ fun _ hi =>
    b.freeAddr_ne_unreadAddr hinv (by omega) hk

/-- Copies to a buffer apart from the storage leave the ring's elements as they are (R124). -/
theorem ByteRing.contents_copied_clear {src : Nat → Nat} {dst : Nat} (hinv : b.ix.Inv)
    (hclear : b.clearOf dst n) : b.contents (copied m src (dst + ·) n) = b.contents m :=
  ByteRing.contents_congr fun _ _ => read_copied_other _ _ _ _ _ fun _ hi =>
    (hclear.ne hinv.pos _ hi).symm

end

/-! ### The port and the bank -/

/-- Of two writes of one port the second stands. -/
@[simp] theorem State.setPort_setPort (s : State) (a : Agent) (p q : Port) :
    (s.setPort a p).setPort a q = s.setPort a q := by cases a <;> rfl

/-- The ring just stored is the one found. -/
theorem rings_setRing {s : State} {r : Nat} {b : FreeRing} (hb : s.rings[r]? = some b) (c : FreeRing) :
    (s.setRing r c).rings[r]? = some c := by
  simp [List.getElem?_set_self', hb]

/-! ### The operations, admitted -/

section
variable {r : BitVec 4} {s : State} {b : FreeRing} (hb : s.rings[r.toNat]? = some b)
include hb

theorem ringFor_producer (hprod : b.prod ≠ .env) : ringFor s r b.prod .producer = .ok b :=
  (ringFor_eq_ok _ _ _ _ _).2 ⟨hprod, hb, beq_self_eq_true _⟩

theorem ringFor_consumer (hcons : b.cons ≠ .env) : ringFor s r b.cons .consumer = .ok b :=
  (ringFor_eq_ok _ _ _ _ _).2 ⟨hcons, hb, beq_self_eq_true _⟩

theorem ringFor_either {g : Agent} (henv : g ≠ .env) (hg : g = b.prod ∨ g = b.cons) :
    ringFor s r g .either = .ok b :=
  (ringFor_eq_ok _ _ _ _ _).2 ⟨henv, hb, by simpa [FreeRing.admits] using hg⟩

/-- `RB.WRITE` by the producer answers with what the ring procedure answers (R123). -/
theorem exec_rbWrite {w : Nat × ByteRing × Memory} (hprod : b.prod ≠ .env)
    (h : b.ring.write s (s.port b.prod).arg0.toNat (s.port b.prod).arg1.toNat = .ok w) :
    exec (.rbWrite r b.prod) s = .next
      (((s.setRing r.toNat { b with ring := w.2.1 }).setMem w.2.2).setRes0 b.prod (zext32 w.1)) := by
  show execRbWrite r b.prod s = _
  rw [execRbWrite, ringFor_producer hb hprod, proc_ok_bind, h, proc_ok_bind, conclude_ok]

/-- `RB.WRITE` by the producer is refused where the ring procedure is (R123). -/
theorem refuses_rbWrite {c : RefuseCode} (hprod : b.prod ≠ .env)
    (h : b.ring.write s (s.port b.prod).arg0.toNat (s.port b.prod).arg1.toNat = refuse c) :
    Refuses (.rbWrite r b.prod) s c := by
  show execRbWrite r b.prod s = _
  rw [execRbWrite, ringFor_producer hb hprod, proc_ok_bind, h, refuse_bind, conclude_refuse]

/-- `RB.READ` by the consumer answers with what the ring procedure answers (R124). -/
theorem exec_rbRead {w : Nat × ByteRing × Memory} (hcons : b.cons ≠ .env)
    (h : b.ring.read s (s.port b.cons).arg0.toNat (s.port b.cons).arg1.toNat = .ok w) :
    exec (.rbRead r b.cons) s = .next
      (((s.setRing r.toNat { b with ring := w.2.1 }).setMem w.2.2).setRes0 b.cons (zext32 w.1)) := by
  show execRbRead r b.cons s = _
  rw [execRbRead, ringFor_consumer hb hcons, proc_ok_bind, h, proc_ok_bind, conclude_ok]

/-- `RB.READ` by the consumer is refused where the ring procedure is (R124). -/
theorem refuses_rbRead {c : RefuseCode} (hcons : b.cons ≠ .env)
    (h : b.ring.read s (s.port b.cons).arg0.toNat (s.port b.cons).arg1.toNat = refuse c) :
    Refuses (.rbRead r b.cons) s c := by
  show execRbRead r b.cons s = _
  rw [execRbRead, ringFor_consumer hb hcons, proc_ok_bind, h, refuse_bind, conclude_refuse]

/-- `RB.POP` of an empty ring (R125). -/
theorem exec_rbPop_empty (hcons : b.cons ≠ .env) (hused : b.ring.ix.used = 0) :
    exec (.rbPop r b.cons) s = .next (s.setRes0 b.cons 0#32) := by
  show execRbPop r b.cons s = _
  rw [execRbPop, ringFor_consumer hb hcons, proc_ok_bind, ByteRing.pop, if_pos hused]
  rfl

/-- `RB.POP` of a ring whose oldest byte is admitted and holds a value (R125). -/
theorem exec_rbPop {v : Byte} (hcons : b.cons ≠ .env) (hused : b.ring.ix.used ≠ 0)
    (hin : InRegion s (b.ring.base + b.ring.ix.rd) 1)
    (hv : Memory.read s.mem (b.ring.base + b.ring.ix.rd) = some v) :
    exec (.rbPop r b.cons) s = .next
      (((s.setRing r.toNat { b with ring := { b.ring with ix := b.ring.ix.consume 1 } }).setRes1 b.cons
        (v.setWidth 32)).setRes0 b.cons 1#32) := by
  show execRbPop r b.cons s = _
  rw [execRbPop, ringFor_consumer hb hcons, proc_ok_bind, ByteRing.pop, if_neg hused,
    (readByte_eq_ok _ _ _).2 ⟨hin, hv⟩]
  rfl

/-- `RB.POP` of a ring whose oldest byte cannot be read (R69, R125). -/
theorem refuses_rbPop (hcons : b.cons ≠ .env) (hused : b.ring.ix.used ≠ 0)
    (h : ¬ ByteReadable s (b.ring.base + b.ring.ix.rd)) : Refuses (.rbPop r b.cons) s .xMem := by
  show execRbPop r b.cons s = _
  rw [execRbPop, ringFor_consumer hb hcons, proc_ok_bind, ByteRing.pop, if_neg hused, readByte_refused h]
  rfl

/-- `RB.PEEK` by the consumer (R127). -/
theorem exec_rbPeek (hcons : b.cons ≠ .env) : exec (.rbPeek r b.cons) s = .next
    ((s.setRes0 b.cons (zext32 b.ring.peek.1)).setRes1 b.cons (zext32 b.ring.peek.2)) := by
  show execRbPeek r b.cons s = _
  rw [execRbPeek, ringFor_consumer hb hcons, proc_ok_bind, conclude_ok]

/-- `RB.USED` by either side (R129). -/
theorem exec_rbUsed {g : Agent} (henv : g ≠ .env) (hg : g = b.prod ∨ g = b.cons) :
    exec (.rbUsed r g) s = .next (s.setRes0 g (zext32 b.ring.ix.used)) := by
  show execRbUsed r g s = _
  rw [execRbUsed, ringFor_either hb henv hg, proc_ok_bind, conclude_ok]

/-- `RB.SKIP` of no more than is there (R126). -/
theorem exec_rbSkip (hcons : b.cons ≠ .env) (hn : (s.port b.cons).arg0.toNat ≤ b.ring.ix.used) :
    exec (.rbSkip r b.cons) s = .next (s.setRing r.toNat { b with ring := { b.ring with
      ix := b.ring.ix.consume (s.port b.cons).arg0.toNat } }) := by
  show execRbSkip r b.cons s = _
  rw [execRbSkip, ringFor_consumer hb hcons, proc_ok_bind, Ring.skip_of_le hn]
  rfl

/-- `RB.SKIP` of more than is there (R126). -/
theorem exec_rbSkip_underflow (hcons : b.cons ≠ .env)
    (hn : b.ring.ix.used < (s.port b.cons).arg0.toNat) :
    exec (.rbSkip r b.cons) s = .next (raiseFault .rbUnderflow s) := by
  show execRbSkip r b.cons s = _
  rw [execRbSkip, ringFor_consumer hb hcons, proc_ok_bind, Ring.skip_of_lt hn, raise_bind, conclude_raise]

/-- `RB.COMMIT` of what fits (R128). -/
theorem exec_rbCommit (hprod : b.prod ≠ .env)
    (hn : b.ring.ix.used + (s.port b.prod).arg0.toNat ≤ b.ring.ix.n) :
    exec (.rbCommit r b.prod) s = .next (s.setRing r.toNat { b with ring := { b.ring with
      ix := b.ring.ix.produce (s.port b.prod).arg0.toNat } }) := by
  show execRbCommit r b.prod s = _
  rw [execRbCommit, ringFor_producer hb hprod, proc_ok_bind, Ring.commit_of_le hn]
  rfl

/-- `RB.COMMIT` of more than fits (R128). -/
theorem exec_rbCommit_overflow (hprod : b.prod ≠ .env)
    (hn : b.ring.ix.n < b.ring.ix.used + (s.port b.prod).arg0.toNat) :
    exec (.rbCommit r b.prod) s = .next (raiseFault .rbOverflow s) := by
  show execRbCommit r b.prod s = _
  rw [execRbCommit, ringFor_producer hb hprod, proc_ok_bind, Ring.commit_of_lt hn, raise_bind,
    conclude_raise]

end

/-! ### The statements -/

/-- Settles O16: the answer is the procedure's own; the copies touch the free elements only, and an accepted
prefix fits the free elements, so no two copies meet. -/
theorem rbWriteAcceptsAPrefix : Obligations.RbWriteAcceptsAPrefix := by
  intro r s b hb hprod src n i
  refine ⟨fun hsrc hfree => ⟨?_, fun c hc => ?_, fun hinv hclear k hk => ?_⟩,
    fun h => refuses_rbWrite hb hprod (ByteRing.write_refused h)⟩
  · rw [exec_rbWrite hb hprod ((b.ring.write_eq_ok _ _ _ _).2 ⟨hsrc, hfree, rfl⟩), State.setRes0,
      State.setMem_port, State.setRing_port]
    rfl
  · exact read_copied_other _ _ _ _ _ fun k hk => (hc k hk).symm
  · exact ByteRing.read_copied_freeAddr hinv hclear (b.ring.accepts_le _ hinv.2.1)
      (fun j hj => (hsrc.2 j hj).2) hk

/-- Settles O17: the answer is the procedure's own; the copies touch the destination only, whose bytes are
all distinct. -/
theorem rbReadDeliversTheOldest : Obligations.RbReadDeliversTheOldest := by
  intro r s b hb hcons dst n i
  refine ⟨fun hdst hunread => ⟨?_, fun c hc => ?_, fun hinv hclear k hk => ?_⟩,
    fun h => refuses_rbRead hb hcons (ByteRing.read_refused h)⟩
  · rw [exec_rbRead hb hcons ((b.ring.read_eq_ok _ _ _ _).2 ⟨hdst, hunread, rfl⟩), State.setRes0,
      State.setMem_port, State.setRing_port]
    rfl
  · exact read_copied_other _ _ _ _ _ fun k hk => by omega
  · exact ByteRing.read_copied_unreadAddr hinv hclear (fun j hj => (hunread j hj).2) hk

/-- Settles O18: each operation is its procedure's answer, and the two results go to one port. -/
theorem rbPopPeekUsed : Obligations.RbPopPeekUsed := by
  intro r s b hb hcons
  refine ⟨exec_rbPop_empty hb hcons, fun v hused hin hv => ?_, refuses_rbPop hb hcons, ?_,
    fun g => exec_rbUsed hb⟩
  · rw [exec_rbPop hb hcons hused hin hv, State.setRes0, State.setRes1, State.setPort_setPort,
      State.setPort_port_self, State.setRing_port]
    rfl
  · rw [exec_rbPeek hb hcons, State.setRes1, State.setRes0, State.setPort_setPort,
      State.setPort_port_self]
    rfl

/-- Settles O19: the advance within the bound, the fault in the unchanged state past it. -/
theorem rbSkipAndCommitAdvanceOrFault : Obligations.RbSkipAndCommitAdvanceOrFault := by
  intro r s b hb
  exact ⟨fun hcons => ⟨exec_rbSkip hb hcons, exec_rbSkip_underflow hb hcons⟩,
    fun hprod => ⟨exec_rbCommit hb hprod, exec_rbCommit_overflow hb hprod⟩⟩

/-- Settles O20: a producer appends what its advance uncovers, a consumer drops what its advance covers, and
no copy touches an element that stays. -/
theorem ringIsFirstInFirstOut : Obligations.RingIsFirstInFirstOut := by
  intro r s b hb hinv hstorage
  have hin (x : Nat) : InRegion s (b.ring.base + x % b.ring.ix.n) 1 :=
    hstorage _ (Nat.mod_lt x hinv.pos)
  refine ⟨fun hprod => ?write, fun hcons => ?read, fun hcons hn => ?skip, fun v hcons hused hv => ?pop,
    fun hprod => ?commit⟩
  case write =>
    intro src n hsrc hclear
    have hroom : b.ring.ix.used + n ≤ b.ring.ix.n := b.ring.accepts_le _ hinv.2.1
    have hwrite := (b.ring.write_eq_ok s src _ _).2 ⟨hsrc, fun k _ => hin _, rfl⟩
    refine ⟨_, _, exec_rbWrite hb hprod hwrite, by simpa using rings_setRing hb _, ?_⟩
    rw [ByteRing.contents_produce hinv, State.setRes0_mem, State.setMem_mem]
    exact congrArg₂ _ (ByteRing.contents_copied_freeAddr hinv hroom) <| List.map_congr_left fun k hk =>
      ByteRing.read_copied_freeAddr hinv hclear hroom (fun j hj => (hsrc.2 j hj).2) (List.mem_range.1 hk)
  case read =>
    intro dst n hdst hclear hval
    have hn : n ≤ b.ring.ix.used := b.ring.delivers_le _
    have hval' : ∀ k < n, (Memory.read s.mem (b.ring.unreadAddr k)).isSome = true :=
      fun k hk => hval k (by omega)
    have hread := (b.ring.read_eq_ok s dst _ _).2 ⟨hdst, fun k hk => ⟨hin _, hval' k hk⟩, rfl⟩
    refine ⟨_, _, exec_rbRead hb hcons hread, by simpa using rings_setRing hb _, ?_, ?_⟩
    · rw [ByteRing.contents_take hn, State.setRes0_mem, State.setMem_mem]
      exact List.map_congr_left fun k hk =>
        ByteRing.read_copied_unreadAddr hinv hclear hval' (List.mem_range.1 hk)
    · rw [State.setRes0_mem, State.setMem_mem]
      exact (ByteRing.contents_consume hn).trans
        (congrArg (List.drop n) (ByteRing.contents_copied_clear hinv hclear))
  case skip =>
    exact ⟨_, _, exec_rbSkip hb hcons hn, rings_setRing hb _, ByteRing.contents_consume hn⟩
  case pop =>
    have hone : 1 ≤ b.ring.ix.used := by omega
    have hrd : Memory.read s.mem (b.ring.base + b.ring.ix.rd) = some v :=
      ByteRing.unreadAddr_zero hinv ▸ hv
    refine ⟨_, _, exec_rbPop hb hcons hused (hstorage _ hinv.1) hrd, by simpa using rings_setRing hb _,
      ?_, ?_, ?_⟩
    · rw [ByteRing.contents_head? hused, hv]
    · rw [State.setRes0_res1, State.setRes1, State.setPort_port_self]
    · rw [ByteRing.contents_consume hone, State.setRes0_mem, State.setRes1_mem, State.setRing_mem]
  case commit =>
    intro n hn
    exact ⟨_, _, exec_rbCommit hb hprod hn, rings_setRing hb _, ByteRing.contents_produce hinv⟩

end Sys2Proof.Machine

/-! The line driver's settings and raw path (O21 to O25, O28 to O30) and the interrupt requests (O49). One
equation per operation says what it does to a driver that is there; each statement reads its clauses off
these equations. -/

namespace Sys2Proof.Machine

/-! ### The divisor (R152) -/

/-- Settles O22: a quotient is the one number whose multiple of the divisor comes within one below, and the
two fields are quotient and remainder. -/
theorem divisorRoundsToNearest : Obligations.DivisorRoundsToNearest := by
  intro clock speed ovs hspeed hovs d
  exact ⟨Nat.div_mul_le_self _ _, (Nat.div_lt_iff_lt_mul hspeed).1 (Nat.lt_succ_self d),
    (Nat.div_add_mod' d ovs).symm, Nat.mod_lt d hovs⟩

/-! ### The enable state, bit by bit (R27, R155, R158, R160, R167) -/

section
variable (l : LineDriver) (x : Uart)

theorem LineDriver.someEnabled_iff : l.someEnabled = true ↔ l.rxEn = .enabled ∨ l.txEn = .enabled := by
  simp [LineDriver.someEnabled]

theorem LineDriver.someEnabled_of_disabled (hrx : l.rxEn = .disabled) (htx : l.txEn = .disabled) :
    l.someEnabled = false := by
  simp [LineDriver.someEnabled, hrx, htx]

/-- Disarming clears the bit of its condition alone (R160). -/
theorem LineDriver.disarm_ie_getLsbD (c b : Nat) (hb : b < 9) :
    (l.disarm c).ie.getLsbD b = (l.ie.getLsbD b && decide (b ≠ c)) := by
  have hbit : (1#9 <<< c).getLsbD b = decide (b = c) := by
    simpa only [LineDriver.arm, BitVec.zero_or, BitVec.getLsbD_zero, Bool.false_or] using
      LineDriver.arm_ie { l with ie := 0#9 } c b hb
  rw [LineDriver.disarm, BitVec.getLsbD_and, BitVec.getLsbD_not, hbit, decide_eq_true hb, Bool.true_and,
    decide_not]

/-- Disabling moves the directions the part names, and shuts the peripheral down for both (R158). -/
theorem LineDriver.disable_eq (p : Part) : l.disable p = { l with
    rxEn := if namesRead p then .disabled else l.rxEn
    txEn := if namesWrite p then .disabled else l.txEn
    periphEn := if p = .both then false else l.periphEn
    ie := (l.disable p).ie } := by cases p <;> rfl

/-- The bits of the two directions (R27). -/
theorem sideMasks_getLsbD : ∀ c < 9, readSideMask.getLsbD c = !decide (c = 6 ∨ c = 7) ∧
    writeSideMask.getLsbD c = decide (c = 6 ∨ c = 7) := by decide

/-- The direction a condition belongs to (R27, R159). -/
theorem LineDriver.mayArm_iff (c : Nat) :
    l.mayArm c = true ↔ (if c = 6 ∨ c = 7 then l.txEn else l.rxEn) = .enabled := by
  by_cases h : c = 6 ∨ c = 7 <;> simp [LineDriver.mayArm, isWriteSide, bitTXE, bitTC, h]

/-- A raw operation of the read direction is admitted (R167). -/
theorem Uart.rawReadOk_iff : x.rawReadOk = true ↔ x.ld.rxEn = .enabled ∧ x.ld.periphEn = true ∧
    ¬(x.par.hasRxDma = true ∧ x.tb.dmaRxEn = true) := by
  simp [Uart.rawReadOk, LineDriver.receiverOn, and_assoc, imp_iff_not_or]

/-- A raw operation of the write direction is admitted (R167). -/
theorem Uart.rawWriteOk_iff : x.rawWriteOk = true ↔ x.ld.txEn = .enabled ∧ x.ld.periphEn = true ∧
    ¬(x.par.hasTxDma = true ∧ x.tb.dmaTxEn = true) := by
  simp [Uart.rawWriteOk, LineDriver.transmitterOn, and_assoc, imp_iff_not_or]

end

/-! ### Sub-fields that are not reserved (R95, R98) -/

theorem code_of_not_reserved : ∀ c : BitVec 2, c ≠ 3#2 → c = 0#2 ∨ c = 1#2 ∨ c = 2#2 := by decide

/-- Code 0 names the read direction, 1 the write direction, 2 both (R95, R156). -/
theorem partOf_of_not_reserved {c : BitVec 2} (h : c ≠ 3#2) : ∃ p, partOf c = some p ∧
    namesRead p = !decide (c = 1) ∧ namesWrite p = !decide (c = 0) ∧ (p = .both ↔ c = 2) := by
  rcases code_of_not_reserved c h with rfl | rfl | rfl
  · exact ⟨.read, rfl, rfl, rfl, by decide⟩
  · exact ⟨.write, rfl, rfl, rfl, by decide⟩
  · exact ⟨.both, rfl, rfl, rfl, by decide⟩

theorem parityOf_of_not_reserved {c : BitVec 2} (h : c ≠ 3#2) :
    parityOf c = some (if c = 0 then .none else if c = 1 then .even else .odd) := by
  rcases code_of_not_reserved c h with rfl | rfl | rfl <;> rfl

/-! ### The operations of a driver that is there -/

/-- A procedure that begins with a check, when the check passes. -/
theorem conclude_require_true {s : State} {b : Bool} {c : RefuseCode} {g : Unit → Proc State}
    (h : b = true) : conclude s (require b c >>= g) = conclude s (g ()) := by
  rw [h, require_true, proc_ok_bind]

/-- A procedure that begins with a check, when the check fails. -/
theorem conclude_require_false {s : State} {b : Bool} {c : RefuseCode} {g : Unit → Proc State}
    (h : b = false) : conclude s (require b c >>= g) = .next (markRefused c s) := by
  rw [h, require_false, refuse_bind, conclude_refuse]

section
variable {u : BitVec 4} {s : State} {x : Uart} (hx : s.uarts[u.toNat]? = some x)
include hx

/-- `LD.SETSPEED` on a clock channel that is there (R151). -/
theorem exec_ldSetSpeed {clock : Nat} (hclock : s.clkFreq[x.par.clkCh]? = some clock) :
    exec (.ldSetSpeed u .fg) s = conclude s (
      require (s.portFg.arg0 != 0#32) .xOperand >>= fun _ =>
      require (divisor clock s.portFg.arg0.toNat != 0) .xOperand >>= fun _ =>
      .ok ((s.setUart u.toNat { x with ld :=
          { x.ld.setDivisor (divisor clock s.portFg.arg0.toNat) x.par.ovs with
            speed := s.portFg.arg0 } }).setRes0 .fg
        (zext32 (clock / divisor clock s.portFg.arg0.toNat)))) := by
  show execLdSetSpeed u .fg s = _
  rw [execLdSetSpeed, uartFor_of hx, proc_ok_bind, (frequency_eq_ok _ _ _).2 hclock, proc_ok_bind]
  rfl

/-- `LD.SETFRAME` with a parity that is not reserved (R153). -/
theorem exec_ldSetFrame {parity stopBits : BitVec 2} {dataBits : BitVec 8} {p : Parity}
    (hp : parityOf parity = some p) :
    exec (.ldSetFrame u .fg parity stopBits dataBits) s = conclude s (
      require (s.dataBitsLegal.contains dataBits.toNat) .xOperand >>= fun _ =>
      require (!x.ld.someEnabled) .xState >>= fun _ =>
      .ok (s.setUart u.toNat { x with ld := { x.ld with
        dataBits := some dataBits.toNat, parity := some p, stopBits := some (stopBitsOf stopBits) } })) := by
  show execLdSetFrame u .fg parity stopBits dataBits s = _
  rw [execLdSetFrame, hp, field_some, proc_ok_bind, uartFor_of hx, proc_ok_bind]

/-- `LD.SETFLOW` (R154). -/
theorem exec_ldSetFlow (flow : BitVec 2) :
    exec (.ldSetFlow u .fg flow) s = conclude s (
      require (!x.ld.someEnabled) .xState >>= fun _ =>
      .ok (s.setUart u.toNat { x with ld := { x.ld with flow := some (flowOf flow) } })) := by
  show execLdSetFlow u .fg flow s = _
  rw [execLdSetFlow, uartFor_of hx, proc_ok_bind]

/-- `LD.ENABLE` with a part that is not reserved (R157). -/
theorem exec_ldEnable {part : BitVec 2} {p : Part} (hp : partOf part = some p) :
    exec (.ldEnable u .fg part) s = conclude s (
      require x.ld.dataBits.isSome .xState >>= fun _ =>
      .ok (s.setUart u.toNat { x with ld := x.ld.enable p })) := by
  show execLdEnable u .fg part s = _
  rw [execLdEnable, hp, field_some, proc_ok_bind, uartFor_of hx, proc_ok_bind]

/-- `LD.DISABLE` with a part that is not reserved (R158). -/
theorem exec_ldDisable {part : BitVec 2} {p : Part} (hp : partOf part = some p) :
    exec (.ldDisable u .fg part) s = .next (s.setUart u.toNat { x with ld := x.ld.disable p }) := by
  show execLdDisable u .fg part s = _
  rw [execLdDisable, hp, field_some, proc_ok_bind, uartFor_of hx, proc_ok_bind, conclude_ok]

/-- `LD.ARMIRQ` of a condition that is not reserved (R159). -/
theorem exec_ldArmIrq {c : BitVec 4} (hc : c.toNat ≤ 8) :
    exec (.ldArmIrq u .fg c) s = conclude s (
      require (x.ld.mayArm c.toNat) .xState >>= fun _ =>
      .ok (s.setUart u.toNat { x with ld := x.ld.arm c.toNat })) := by
  show execLdArmIrq u .fg c s = _
  rw [execLdArmIrq, conditionOf, if_pos hc, field_some, proc_ok_bind, uartFor_of hx, proc_ok_bind]

/-- `LD.DISARMIRQ` of a condition that is not reserved (R160). -/
theorem exec_ldDisarmIrq {c : BitVec 4} (hc : c.toNat ≤ 8) :
    exec (.ldDisarmIrq u .fg c) s =
      .next (s.setUart u.toNat { x with ld := x.ld.disarm c.toNat }) := by
  show execLdDisarmIrq u .fg c s = _
  rw [execLdDisarmIrq, conditionOf, if_pos hc, field_some, proc_ok_bind, uartFor_of hx, proc_ok_bind,
    conclude_ok]

/-- `LD.RDUNIT` (R168). -/
theorem exec_ldRdUnit :
    exec (.ldRdUnit u .fg) s = conclude s (
      require x.rawReadOk .xState >>= fun _ =>
      require (x.line.flag bitRXNE) .xState >>= fun _ =>
      valueOf x.line.rdr >>= fun v =>
      .ok ((s.setUart u.toNat { x with line := x.line.afterDataRead }).setRes0 .fg v)) := by
  show execLdRdUnit u .fg s = _
  rw [execLdRdUnit, uartFor_of hx, proc_ok_bind]

/-- `LD.WRUNIT` once the frame shape is set (R169). -/
theorem exec_ldWrUnit {d : Nat} (hd : x.ld.dataBits = some d) :
    exec (.ldWrUnit u .fg) s = conclude s (
      require (decide (s.portFg.arg0.toNat < 2 ^ d)) .xOperand >>= fun _ =>
      require x.rawWriteOk .xState >>= fun _ =>
      require (x.line.flag bitTXE) .xState >>= fun _ =>
      .ok (s.setUart u.toNat { x with line := x.line.dataWrite s.portFg.arg0 })) := by
  show execLdWrUnit u .fg s = _
  simp only [execLdWrUnit, uartFor_of hx, proc_ok_bind, LineDriver.unitFits, hd, valueOf_some]
  rfl

/-- `LD.WAITTC` (R170). -/
theorem exec_ldWaitTc :
    exec (.ldWaitTc u .fg) s = conclude s (
      require x.rawWriteOk .xState >>= fun _ =>
      .ok (if x.line.flag bitTC then s else s.hold (.waitTc u.toNat))) := by
  show execLdWaitTc u .fg s = _
  rw [execLdWaitTc, uartFor_of hx, proc_ok_bind]

/-- `LD.WAITRXNE` (R171). -/
theorem exec_ldWaitRxne :
    exec (.ldWaitRxne u .fg) s = conclude s (
      require x.rawReadOk .xState >>= fun _ =>
      .ok (if x.line.flag bitRXNE then s else s.hold (.waitRxne u.toNat))) := by
  show execLdWaitRxne u .fg s = _
  rw [execLdWaitRxne, uartFor_of hx, proc_ok_bind]

end

/-- `LD.CLKCHG` of a channel that is there (R174). -/
theorem exec_ldClkChg {c : BitVec 4} {s : State} (hc : c.toNat < s.clkFreq.length) (phase : BitVec 1) :
    exec (.ldClkChg c .fg phase) s = conclude s (
      if phase = 0#1 then .ok s
      else
        require (s.uarts.all fun x => !x.follows c.toNat || x.newDivisor s.portFg.arg0.toNat != 0)
          .xOperand >>= fun _ =>
        .ok { s with
          clkFreq := s.clkFreq.set c.toNat s.portFg.arg0.toNat
          uarts := s.uarts.map (Uart.reclock c.toNat s.portFg.arg0.toNat) }) := by
  show execLdClkChg c .fg phase s = _
  rw [execLdClkChg, decide_eq_true hc]
  rfl

/-! ### The statements -/

/-- Settles O21: the two checks are the two refusals, and both divisor fields are written together. -/
theorem ldSetSpeedSetsTheDivisor : Obligations.LdSetSpeedSetsTheDivisor := by
  intro u s x clock hx hclock bps d i
  have hbps : (s.portFg.arg0 != 0#32) = decide (bps ≠ 0) := by
    rw [Bool.eq_iff_iff, bne_iff_ne, decide_eq_true_iff, Ne, BitVec.toNat_eq]
    rfl
  have hexec := exec_ldSetSpeed hx hclock
  rw [hbps] at hexec
  refine ⟨fun h0 hd => ?_, fun h0 => ?_, fun h0 hd => ?_⟩
  · exact hexec.trans <| (conclude_require_true (decide_eq_true h0)).trans
      (conclude_require_true (bne_iff_ne.2 hd))
  · exact hexec.trans (conclude_require_false (decide_eq_false (not_not.2 h0)))
  · exact hexec.trans <| (conclude_require_true (decide_eq_true h0)).trans
      (conclude_require_false (bne_eq_false_iff_eq.2 hd))

/-- Settles O23: the checks stand in the order of R344, the word length before the enable state. -/
theorem ldFrameAndFlowWhileDisabled : Obligations.LdFrameAndFlowWhileDisabled := by
  intro u p sb db fl s x hx
  have hframe (hp : p ≠ 3#2) := exec_ldSetFrame (stopBits := sb) (dataBits := db) hx
    (parityOf_of_not_reserved hp)
  have hflow := exec_ldSetFlow hx fl
  have hlegal (h : db.toNat ∈ s.dataBitsLegal) : s.dataBitsLegal.contains db.toNat = true :=
    List.contains_iff_mem.2 h
  have hoff (hrx : x.ld.rxEn = .disabled) (htx : x.ld.txEn = .disabled) : (!x.ld.someEnabled) = true := by
    rw [x.ld.someEnabled_of_disabled hrx htx, Bool.not_false]
  have hon (h : x.ld.rxEn = .enabled ∨ x.ld.txEn = .enabled) : (!x.ld.someEnabled) = false := by
    rw [x.ld.someEnabled_iff.2 h, Bool.not_true]
  refine ⟨fun hp hdb hrx htx => ?_, fun hp hdb => ?_, fun hrx htx => ?_, fun h => ⟨fun hp hdb => ?_, ?_⟩⟩
  · exact (hframe hp).trans <| (conclude_require_true (hlegal hdb)).trans
      (conclude_require_true (hoff hrx htx))
  · exact (hframe hp).trans (conclude_require_false (by simpa using hdb))
  · exact hflow.trans (conclude_require_true (hoff hrx htx))
  · exact (hframe hp).trans <| (conclude_require_true (hlegal hdb)).trans (conclude_require_false (hon h))
  · exact hflow.trans (conclude_require_false (hon h))

/-- Settles O24: the part names the directions, and the interrupt enables of a direction go with it. -/
theorem ldEnableAndDisableMoveTheDirections : Obligations.LdEnableAndDisableMoveTheDirections := by
  intro u c s x hx hc
  obtain ⟨p, hp, hread, hwrite, hboth⟩ := partOf_of_not_reserved hc
  refine ⟨fun hframe => ?_, fun hframe => ?_, (x.ld.disable p).ie, ?_, fun b hb => ?_⟩
  · rw [exec_ldEnable hx hp, conclude_require_true hframe, conclude_ok, LineDriver.enable, hread, hwrite]
    simp [State.setUart]
  · exact (exec_ldEnable hx hp).trans (conclude_require_false (by rw [hframe]; rfl))
  · rw [exec_ldDisable hx hp, LineDriver.disable_eq, hread, hwrite]
    simp [State.setUart, hboth]
  · obtain ⟨hr, hw⟩ := sideMasks_getLsbD b hb
    rw [LineDriver.disable_ie _ _ b hb, hr, hw, hread, hwrite]
    by_cases hside : b = 6 ∨ b = 7 <;> simp [hside]

/-- Settles O25: a condition belongs to one direction, and its bit is the only one touched. -/
theorem ldArmAndDisarmOneCondition : Obligations.LdArmAndDisarmOneCondition := by
  intro u c s x hx hc
  refine ⟨fun hon => ⟨_, ?_, fun k hk => x.ld.arm_ie c.toNat k hk⟩, fun hoff => ?_,
    _, exec_ldDisarmIrq hx hc, fun k hk => x.ld.disarm_ie_getLsbD c.toNat k hk⟩
  · exact (exec_ldArmIrq hx hc).trans (conclude_require_true ((x.ld.mayArm_iff _).2 hon))
  · refine (exec_ldArmIrq hx hc).trans (conclude_require_false (Bool.eq_false_iff.2 fun hmay => ?_))
    rw [(x.ld.mayArm_iff _).1 hmay] at hoff
    cases hoff

/-- Settles O28: the checks stand in the order of R344; what passes them reads or writes the data
register. -/
theorem ldRawUnits : Obligations.LdRawUnits := by
  intro u s x hx readPath writePath
  have hread := exec_ldRdUnit hx
  refine ⟨fun v hpath (hrxne : x.line.flag bitRXNE = true) hv => ?_, fun h => ?_, fun d hd => ?_⟩
  · rw [hread, conclude_require_true (x.rawReadOk_iff.2 hpath), conclude_require_true hrxne, hv,
      valueOf_some, proc_ok_bind]
    rfl
  · by_cases hpath : x.rawReadOk = true
    · have hrxne : x.line.flag bitRXNE = false := h.resolve_left (not_not.2 (x.rawReadOk_iff.1 hpath))
      rw [Refuses, hread, conclude_require_true hpath, conclude_require_false hrxne]
    · exact hread.trans (conclude_require_false (Bool.eq_false_iff.2 hpath))
  have hwrite := exec_ldWrUnit hx hd
  refine ⟨fun hfits hpath (htxe : x.line.flag bitTXE = true) => ?_, fun hwide => ?_, fun hfits h => ?_⟩
  · rw [hwrite, conclude_require_true (decide_eq_true hfits),
      conclude_require_true (x.rawWriteOk_iff.2 hpath), conclude_require_true htxe]
    rfl
  · exact hwrite.trans (conclude_require_false (decide_eq_false (Nat.not_lt.2 hwide)))
  · rw [Refuses, hwrite, conclude_require_true (decide_eq_true hfits)]
    by_cases hpath : x.rawWriteOk = true
    · have htxe : x.line.flag bitTXE = false := h.resolve_left (not_not.2 (x.rawWriteOk_iff.1 hpath))
      rw [conclude_require_true hpath, conclude_require_false htxe]
    · exact conclude_require_false (Bool.eq_false_iff.2 hpath)

/-- Settles O29: once the raw path admits it, a wait is decided by its flag. -/
theorem ldWaitsExecuteOrHold : Obligations.LdWaitsExecuteOrHold := by
  intro u s x hx readPath writePath
  refine ⟨fun hpath => ?_, fun hpath => ?_, fun hpath => ?_, fun hpath => ?_⟩
  · rw [exec_ldWaitTc hx, conclude_require_true (x.rawWriteOk_iff.2 hpath), conclude_ok, Line.flag]
    exact ⟨fun h => by rw [if_pos h], fun h => by rw [h]; rfl⟩
  · exact (exec_ldWaitTc hx).trans
      (conclude_require_false (Bool.eq_false_iff.2 (mt x.rawWriteOk_iff.1 hpath)))
  · rw [exec_ldWaitRxne hx, conclude_require_true (x.rawReadOk_iff.2 hpath), conclude_ok, Line.flag]
    exact ⟨fun h => by rw [if_pos h], fun h => by rw [h]; rfl⟩
  · exact (exec_ldWaitRxne hx).trans
      (conclude_require_false (Bool.eq_false_iff.2 (mt x.rawReadOk_iff.1 hpath)))

/-- Settles O30: each driver is judged and set by itself, from the new frequency and its own speed. -/
theorem ldClkChgRederivesDivisors : Obligations.LdClkChgRederivesDivisors := by
  intro c s hc f follows d
  have hfollows (x : Uart) : x.follows c.toNat = true ↔ follows x := by
    simp [Uart.follows, follows]
  have hjudge (x : Uart) :
      (!x.follows c.toNat || x.newDivisor f != 0) = true ↔ (follows x → d x ≠ 0) := by
    rw [Bool.or_eq_true, Bool.not_eq_true', ← Bool.not_eq_true, hfollows, bne_iff_ne, ← imp_iff_not_or]
    rfl
  have hexec := exec_ldClkChg hc 1#1
  refine ⟨exec_ldClkChg hc 0#1, fun hd => ⟨s.uarts.map (Uart.reclock c.toNat f), ?_, by simp,
    fun v x hx => ?_⟩, fun ⟨x, hx, hfx, hdx⟩ => ?_⟩
  · exact hexec.trans (conclude_require_true (List.all_eq_true.2 fun x hx => (hjudge x).2 (hd x hx)))
  · rw [List.getElem?_map, hx, Option.map_some, Uart.reclock, ← hfollows]
    exact ⟨fun h => by rw [if_pos h]; rfl, fun h => by rw [if_neg h]⟩
  · refine hexec.trans (conclude_require_false (List.all_eq_false.2 ⟨x, hx, fun h => ?_⟩))
    exact (hjudge x).1 h hfx hdx

/-! ### Interrupt requests (R161, R298, R335) -/

/-- A word is not 0 exactly when one of its bits is set. -/
theorem ne_zero_iff_getLsbD {n : Nat} (v : BitVec n) : v ≠ 0#n ↔ ∃ c < n, v.getLsbD c = true := by
  constructor
  · intro hv
    by_contra hnone
    refine hv (BitVec.eq_of_getLsbD_eq fun c hc => ?_)
    rw [BitVec.getLsbD_zero, ← Bool.not_eq_true]
    exact fun h => hnone ⟨c, hc, h⟩
  · rintro ⟨c, -, h⟩ rfl
    rw [BitVec.getLsbD_zero] at h
    cases h

theorem Uart.requests_iff (x : Uart) : x.requests = true ↔ x.ld.periphEn = true ∧
    ∃ c < 9, x.line.sr.getLsbD c = true ∧ x.ld.ie.getLsbD c = true := by
  simp [Uart.requests, -ne_eq, ne_zero_iff_getLsbD]

/-- Settles O49: each request is read off the unit it belongs to. -/
theorem requestsAreLevelConditions : Obligations.RequestsAreLevelConditions := by
  intro s
  refine ⟨fun u => ?_, fun u => ?_, fun u => ?_, fun e => ?_, fun e => ?_⟩
  · simp [State.pending, Option.any_eq_true, Uart.requests_iff]
  all_goals simp [State.pending, Option.any_eq_true, DmaChan.requests]

end Sys2Proof.Machine

/-! The serial handler (O26, O27). Nine tests run against one sample of the status word (R162). What they have
done after any number of them is written down once, as a function of the conditions raised so far; each test
but that of the idle line adds its own condition to it, and the idle line's, the last, hands the state to the
coalescer. -/

namespace Sys2Proof.Machine

/-! ### One notification (R165, R214, R215) -/

/-- The five error kinds of a serial line (R331). -/
def Kind.isLineError : Kind → Bool
  | .overrunError | .framingError | .parityError | .noiseDetected | .lineBreak => true
  | _ => false

/-- What is posted for the notifications `ks`: each line error, to the PendingRead's handle, if there is one
(R214). -/
def PendingRead.forwarded (p : PendingRead) (ks : List Kind) : List (Word × Kind) :=
  if p.rem = 0#32 then [] else (ks.filter Kind.isLineError).map fun k => (p.handle, k)

theorem PendingRead.forwarded_append (p : PendingRead) (ks ls : List Kind) :
    p.forwarded (ks ++ ls) = p.forwarded ks ++ p.forwarded ls := by
  unfold PendingRead.forwarded
  split <;> simp

theorem PendingRead.forwarded_error (p : PendingRead) {k : Kind} (hk : k.isLineError = true) :
    p.forwarded [k] = if p.rem = 0#32 then [] else [(p.handle, k)] := by
  simp [PendingRead.forwarded, hk]

section
variable {u : Nat} {s : State} {x : Uart} (hx : s.uarts[u]? = some x)
include hx

theorem forwardError_eq (hmask : s.irqMask = false) {k : Kind} (hk : k.isLineError = true) :
    forwardError u k s = .ok { s with evq := s.evq ++ x.bs.pend.forwarded [k] } := by
  rw [forwardError, uartAt_of hx, proc_ok_bind, PendingRead.forwarded_error _ hk]
  by_cases hrem : x.bs.pend.rem = 0#32
  · simp [hrem]
  · simp [hrem, post_eq, ← hmask]

/-- A notification that does not run the coalescer is recorded, and forwarded if it is an error. -/
theorem notify_eq (hmask : s.irqMask = false) {k : Kind} (hk : k = .idleLine → x.par.hasRxDma = false) :
    notify u k s =
      .ok { s with notif := s.notif ++ [(u, k)], evq := s.evq ++ x.bs.pend.forwarded [k] } := by
  have hx' : ({ s with notif := s.notif ++ [(u, k)] } : State).uarts[u]? = some x := hx
  cases k with
  | overrunError | framingError | parityError | noiseDetected | lineBreak =>
    exact forwardError_eq hx' hmask rfl
  | idleLine =>
    simp [notify, react, idleReaction, uartAt_of hx', hk rfl, PendingRead.forwarded, Kind.isLineError]
  | _ => simp [notify, react, PendingRead.forwarded, Kind.isLineError]

/-- A test that does not run the coalescer, when the sample has its condition (R162). -/
theorem irqTest_eq (hmask : s.irqMask = false) {sample : BitVec 9} {t : IrqEntry}
    (hbit : sample.getLsbD t.bit = true) (hquiet : t.kind = .idleLine → x.par.hasRxDma = false) :
    irqTest u sample t s = .ok { s with
      notif := s.notif ++ [(u, t.kind)]
      evq := s.evq ++ x.bs.pend.forwarded [t.kind]
      uarts := s.uarts.set u { x with line := t.access x.line } } :=
  (irqTest_eq_ok _ _ _ _ _).2 (.inr ⟨hbit, _, x, notify_eq hx hmask hquiet, hx, rfl⟩)

/-- A notification of the idle line with an inbound channel is recorded, and the coalescer runs (R211). -/
theorem notify_idleLine (hdma : x.par.hasRxDma = true) :
    notify u .idleLine s = rxSync u { s with notif := s.notif ++ [(u, .idleLine)] } := by
  have hx' : ({ s with notif := s.notif ++ [(u, .idleLine)] } : State).uarts[u]? = some x := hx
  rw [notify, react, idleReaction, uartAt_of hx', proc_ok_bind, if_pos hdma]

end

/-! ### The tests so far (R162, R163) -/

/-- The state of an entry that began in `s` with the driver `y`, once the conditions `raised` have been
served. -/
def irqProgress (u : Nat) (s : State) (y : Uart) (raised : List IrqEntry) : State :=
  { s with
    notif := s.notif ++ raised.map fun t => (u, t.kind)
    evq := s.evq ++ y.bs.pend.forwarded (raised.map (·.kind))
    uarts := s.uarts.set u { y with line := raised.foldl (fun p t => t.access p) y.line } }

section
variable {u : Nat} {s : State} {x : Uart} (hx : s.uarts[u]? = some x) {y : Uart} {raised : List IrqEntry}

theorem irqProgress_nil : irqProgress u s y [] = s.setUart u y := by
  simp [irqProgress, State.setUart, PendingRead.forwarded]

include hx

theorem uarts_irqProgress : (irqProgress u s y raised).uarts[u]? =
    some { y with line := raised.foldl (fun p t => t.access p) y.line } :=
  uarts_setUart hx _

/-- A test that does not run the coalescer serves its condition if the sample has it. -/
theorem irqTest_irqProgress (hmask : s.irqMask = false) {sample : BitVec 9} {t : IrqEntry}
    (hquiet : sample.getLsbD t.bit = true → t.kind = .idleLine → y.par.hasRxDma = false) :
    irqTest u sample t (irqProgress u s y raised) =
      .ok (irqProgress u s y (raised ++ [t].filter fun t => sample.getLsbD t.bit)) := by
  cases hbit : sample.getLsbD t.bit with
  | false => simp [irqTest, hbit]
  | true =>
    rw [irqTest_eq (uarts_irqProgress hx) hmask hbit (hquiet hbit), List.filter_singleton, hbit]
    simp [irqProgress, PendingRead.forwarded_append]

/-- Tests that do not run the coalescer serve the conditions of the sample, in their order. -/
theorem irqTests_irqProgress (hmask : s.irqMask = false) {sample : BitVec 9} {ts : List IrqEntry}
    (hquiet : ∀ t ∈ ts, sample.getLsbD t.bit = true → t.kind = .idleLine → y.par.hasRxDma = false) :
    irqTests u sample ts (irqProgress u s y raised) =
      .ok (irqProgress u s y (raised ++ ts.filter fun t => sample.getLsbD t.bit)) := by
  induction ts generalizing raised with
  | nil => simp [irqTests]
  | cons t ts ih =>
    obtain ⟨ht, hts⟩ := List.forall_mem_cons.1 hquiet
    rw [irqTests, irqTest_irqProgress hx hmask ht, proc_ok_bind, ih hts, List.append_assoc,
      ← List.filter_append]
    rfl

end

theorem irqTests_append (u : Nat) (sample : BitVec 9) (ts us : List IrqEntry) (s : State) :
    irqTests u sample (ts ++ us) s = irqTests u sample ts s >>= irqTests u sample us := by
  induction ts generalizing s with
  | nil => rfl
  | cons t ts ih =>
    rw [List.cons_append, irqTests, irqTests]
    cases irqTest u sample t s with
    | ok s' => exact ih s'
    | error e => rfl

theorem irqTests_singleton (u : Nat) (sample : BitVec 9) (t : IrqEntry) (s : State) :
    irqTests u sample [t] s = irqTest u sample t s := by
  rw [irqTests]
  cases irqTest u sample t s <;> rfl

/-- The coalescer leaves the driver in place. -/
theorem uarts_rxSync {u : Nat} {s t : State} {x : Uart} (hx : s.uarts[u]? = some x)
    (h : rxSync u s = .ok t) : ∃ y, t.uarts[u]? = some y := by
  have hsame := congrArg List.length ((rxSync_construction (.refl s)).1 t h).uarts
  rw [List.length_map, List.length_map] at hsame
  obtain ⟨hu, -⟩ := List.getElem?_eq_some_iff.1 hx
  exact ⟨_, List.getElem?_eq_getElem (hsame ▸ hu)⟩

/-- The test of the idle line is the last, and makes no access after it (R162). -/
def idleTest : IrqEntry := ⟨bitIDLE, .idleLine, id⟩

/-- With the idle condition in the sample and an inbound channel the test runs the coalescer, on the state in
which every condition has been served. -/
theorem irqTest_idleTest {u : Nat} {s : State} {x y : Uart} (hx : s.uarts[u]? = some x)
    (hdma : y.par.hasRxDma = true) {sample : BitVec 9} (hidle : sample.getLsbD bitIDLE = true)
    (raised : List IrqEntry) :
    irqTest u sample idleTest (irqProgress u s y raised) =
      rxSync u (irqProgress u s y (raised ++ [idleTest])) := by
  have hstate : ({ irqProgress u s y raised with
      notif := (irqProgress u s y raised).notif ++ [(u, .idleLine)] } : State) =
      irqProgress u s y (raised ++ [idleTest]) := by
    simp [irqProgress, idleTest, PendingRead.forwarded, Kind.isLineError]
  have hnotify : notify u idleTest.kind (irqProgress u s y raised) =
      rxSync u (irqProgress u s y (raised ++ [idleTest])) :=
    hstate ▸ notify_idleLine (uarts_irqProgress hx) hdma
  rw [irqTest, if_pos (show sample.getLsbD idleTest.bit = true from hidle), hnotify]
  cases hsync : rxSync u (irqProgress u s y (raised ++ [idleTest])) with
  | error e => rfl
  | ok t =>
    obtain ⟨z, hz⟩ := uarts_rxSync (uarts_irqProgress hx) hsync
    rw [proc_ok_bind, uartAt_of hz, proc_ok_bind]
    exact congrArg _ (setUart_self hz)

/-! ### The whole entry (R164) -/

/-- The conditions of a sample, in the order of R162. -/
def raisedBy (sample : BitVec 9) : List IrqEntry := irqOrder.filter fun t => sample.getLsbD t.bit

theorem Line.clear_none (p : Line) : { p with sr := p.sr &&& ~~~0#9 } = p := by
  rw [BitVec.not_zero, BitVec.and_allOnes]

/-- A dummy read made on a condition clears its mask on that condition (R163). -/
theorem ite_dummyRead (b : Bool) (p : Line) :
    (if b = true then p.dummyRead else p) =
      { p with sr := p.sr &&& ~~~(if b = true then 0b000101011#9 else 0#9) } := by
  cases b
  · exact p.clear_none.symm
  · rfl

/-- The write-back of the line break clears it where the sample has it (R163). -/
theorem ite_clearLineBreak (sample : BitVec 9) (p : Line) :
    (if sample.getLsbD bitLBD = true then p.clearFlag bitLBD else p) =
      { p with sr := p.sr &&& ~~~(sample &&& 0b000010000#9) } := by
  rw [show sample &&& 0b000010000#9 = _ from sample.and_twoPow bitLBD]
  cases sample.getLsbD bitLBD
  · exact p.clear_none.symm
  · rfl

/-- The accesses of an entry, one after the other, clear what R164 says: the conditions a status read or the
write-back clears, and the mask of a dummy read if there was one. -/
theorem servedStatus (sr : BitVec 9) (ore fe nf : Bool) :
    sr &&& ~~~(sr &&& 0b110000100#9) &&& ~~~(if ore then 0b000101011#9 else 0#9) &&&
        ~~~(if fe then 0b000101011#9 else 0#9) &&& ~~~(if nf then 0b000101011#9 else 0#9) &&&
        ~~~(sr &&& 0b000010000#9) =
      sr &&& ~~~(sr &&& 0b110010100#9) &&& ~~~(if ore || fe || nf then 0b000101011#9 else 0#9) := by
  have hstatus : sr &&& 0b110010100#9 = (sr &&& 0b110000100#9) ||| (sr &&& 0b000010000#9) :=
    BitVec.and_or_distrib_left (y := 0b110000100#9) (z := 0b000010000#9)
  have hlatch (m : BitVec 9) : (if ore || fe || nf then m else 0#9) =
      (if ore then m else 0#9) ||| (if fe then m else 0#9) ||| (if nf then m else 0#9) := by
    cases ore <;> cases fe <;> cases nf <;> simp
  rw [hstatus, hlatch, BitVec.not_or, BitVec.not_or, BitVec.not_or]
  ac_rfl

theorem line_irqServed (x : Uart) :
    (raisedBy x.line.sr).foldl (fun p t => t.access p) (x.line.clearOnStatusRead x.line.sr) =
      (irqServed x).line := by
  rw [raisedBy, List.foldl_filter]
  simp only [irqOrder, List.foldl_cons, List.foldl_nil, id, ite_self, ite_dummyRead, ite_clearLineBreak]
  exact congrArg (fun sr => { x.line with sr := sr }) (servedStatus x.line.sr _ _ _)

/-- The errors are the conditions 0 to 4 (R162). -/
theorem irqOrder_isLineError : ∀ t ∈ irqOrder, t.kind.isLineError = decide (t.bit ≤ 4) := by decide

/-- The numbered kinds of R162, and those a sample raises. -/
theorem raisedBy_numbered (sample : BitVec 9) :
    ([(0, Kind.overrunError), (1, .framingError), (2, .parityError), (3, .noiseDetected), (4, .lineBreak),
      (5, .dataAvailable), (6, .transmitReady), (7, .transmitComplete), (8, .idleLine)] :
      List (Nat × Kind)).filter (fun c => sample.getLsbD c.1) =
        (raisedBy sample).map fun t => (t.bit, t.kind) :=
  List.filter_map (l := irqOrder) (f := fun t => (t.bit, t.kind))

/-- With every condition of the sample served the entry has had its whole effect (R162 to R166, R214). -/
theorem irqProgress_raisedBy (u : Nat) (s : State) (x : Uart) :
    irqProgress u s { x with line := x.line.clearOnStatusRead x.line.sr } (raisedBy x.line.sr) =
      irqEffect u s x := by
  have herrors : (raisedBy x.line.sr).filter (fun t => t.kind.isLineError) =
      (raisedBy x.line.sr).filter fun t => decide (t.bit ≤ 4) :=
    List.filter_congr fun t ht => irqOrder_isLineError t (List.mem_of_mem_filter ht)
  rw [irqProgress, line_irqServed, irqEffect, raisedBy_numbered]
  simp only [PendingRead.forwarded, List.map_map, List.filter_map, Function.comp_def, herrors]

section
variable {u : Nat} {s : State} {x : Uart} (hx : s.uarts[u]? = some x) (hmask : s.irqMask = false)
include hx hmask

/-- The tests of an entry that does not run the coalescer. -/
theorem irqTests_irqOrder (hquiet : x.line.sr.getLsbD bitIDLE = false ∨ x.par.hasRxDma = false) :
    irqTests u x.line.sr irqOrder (s.setUart u { x with line := x.line.clearOnStatusRead x.line.sr }) =
      .ok (irqEffect u s x) := by
  have hbits : ∀ t ∈ irqOrder, t.kind = .idleLine → t.bit = bitIDLE := by decide
  rw [← irqProgress_raisedBy, ← irqProgress_nil]
  refine irqTests_irqProgress hx hmask fun t ht hbit hk => hquiet.resolve_left fun hoff => ?_
  rw [hbits t ht hk, hoff] at hbit
  cases hbit

/-- The tests of an entry that runs the coalescer: everything else is done before it (R162, R211). -/
theorem irqTests_irqOrder_idle (hidle : x.line.sr.getLsbD bitIDLE = true) (hdma : x.par.hasRxDma = true) :
    irqTests u x.line.sr irqOrder (s.setUart u { x with line := x.line.clearOnStatusRead x.line.sr }) =
      rxSync u (irqEffect u s x) := by
  have hkinds : ∀ t ∈ irqOrder.dropLast, t.kind ≠ .idleLine := by decide
  have hraised : raisedBy x.line.sr =
      irqOrder.dropLast.filter (fun t => x.line.sr.getLsbD t.bit) ++ [idleTest] :=
    (List.filter_append irqOrder.dropLast [idleTest]).trans
      (congrArg _ (List.filter_cons_of_pos hidle))
  rw [show irqOrder = irqOrder.dropLast ++ [idleTest] from rfl, ← irqProgress_nil, irqTests_append,
    irqTests_irqProgress hx hmask fun t ht _ hk => absurd hk (hkinds t ht), proc_ok_bind,
    irqTests_singleton, List.nil_append]
  refine (irqTest_idleTest hx (y := { x with line := x.line.clearOnStatusRead x.line.sr }) hdma hidle
    _).trans ?_
  rw [← hraised, irqProgress_raisedBy]

end

section
variable {u : BitVec 4} {s : State} {x : Uart} (hx : s.uarts[u.toNat]? = some x)
include hx

/-- `LD.IRQ` once its line admits it (R162). -/
theorem exec_ldIrq :
    exec (.ldIrq u .pirq) s = conclude s (
      require (x.irq.enabled && x.irq.bound) .xState >>= fun _ =>
      irqTests u.toNat x.line.sr irqOrder
        (s.setUart u.toNat { x with line := x.line.clearOnStatusRead x.line.sr })) := by
  show execLdIrq u .pirq s = _
  rw [execLdIrq, uartFor_of hx, proc_ok_bind]

end

/-! ### The coalescer, outcome by outcome (R210, R212) -/

theorem coalescedDelta_eq_wrappedDelta (prev cur size : Nat) :
    coalescedDelta prev cur size = wrappedDelta prev cur size := by
  simp only [coalescedDelta, wrappedDelta]
  split <;> split <;> omega

/-- A read of no more than is buffered delivers all it asks for (R124). -/
theorem ByteRing.read_whole {b : ByteRing} {s : State} {dst n : Nat} (hle : n ≤ b.ix.used)
    (hdst : SpanAllowed s dst n) (hread : ∀ k < n, ByteReadable s (b.unreadAddr k)) :
    b.read s dst n =
      .ok (n, { b with ix := b.ix.consume n }, copied s.mem b.unreadAddr (dst + ·) n) := by
  have hwhole : b.delivers n = n := Nat.min_eq_left hle
  rw [ByteRing.read_eq_ok, hwhole]
  exact ⟨hdst, hread, rfl⟩

section
variable {u : Nat} {t : State} {y : Uart} (hy : t.uarts[u]? = some y)
include hy

/-- A PendingRead that asks for more than is buffered waits on (R212). -/
theorem trySatisfy_waits (h : y.bs.pend.rem = 0#32 ∨ y.bs.rx.ix.used < y.bs.pend.rem.toNat) :
    trySatisfy u t = .ok t :=
  (trySatisfy_eq_ok _ _ _).2 ⟨y, hy, .inl ⟨fun ⟨hrem, hle⟩ => h.elim hrem (Nat.not_lt.2 hle), rfl⟩⟩

section
variable (hrem : y.bs.pend.rem ≠ 0#32) (hle : y.bs.pend.rem.toNat ≤ y.bs.rx.ix.used)
include hrem hle

/-- A PendingRead that asks for no more than is buffered is drained, cleared and completed (R212). -/
theorem trySatisfy_drains (hdst : SpanAllowed t y.bs.pend.dst.toNat y.bs.pend.rem.toNat)
    (hread : ∀ k < y.bs.pend.rem.toNat, ByteReadable t (y.bs.rx.unreadAddr k)) :
    trySatisfy u t = .ok (post y.bs.pend.handle .success
      ((t.setUart u { y with bs := { y.bs with
          rx := { y.bs.rx with ix := y.bs.rx.ix.consume y.bs.pend.rem.toNat }
          pend := ⟨0#32, 0#32, 0#32⟩ } }).setMem
        (copied t.mem y.bs.rx.unreadAddr (y.bs.pend.dst.toNat + ·) y.bs.pend.rem.toNat))) := by
  rw [trySatisfy, uartAt_of hy, proc_ok_bind, if_pos ⟨hrem, hle⟩, ByteRing.read_whole hle hdst hread]
  rfl

/-- A drain that cannot move its bytes is refused (R69, R341). -/
theorem trySatisfy_refused (h : ¬ SpanAllowed t y.bs.pend.dst.toNat y.bs.pend.rem.toNat ∨
      ∃ k < y.bs.pend.rem.toNat, ¬ ByteReadable t (y.bs.rx.unreadAddr k)) :
    trySatisfy u t = refuse .xMem := by
  have hwhole : y.bs.rx.delivers y.bs.pend.rem.toNat = y.bs.pend.rem.toNat := Nat.min_eq_left hle
  rw [trySatisfy, uartAt_of hy, proc_ok_bind, if_pos ⟨hrem, hle⟩,
    ByteRing.read_refused (by rwa [hwhole]), refuse_bind]

end

/-- A wrapped difference out of range is a fault, before any effect (R210). -/
theorem rxSync_raises_delta
    (h : wrappedDelta y.bs.prevCount y.rxch.remaining y.bs.rx.ix.n < 0 ∨
      (y.bs.rx.ix.n : Int) ≤ wrappedDelta y.bs.prevCount y.rxch.remaining y.bs.rx.ix.n) :
    rxSync u t = raise .delta t := by
  rw [← coalescedDelta_eq_wrappedDelta] at h
  rw [rxSync_unfold, uartAt_of hy, proc_ok_bind, if_pos h]

section
variable {delta : Nat} (hdelta : (delta : Int) = wrappedDelta y.bs.prevCount y.rxch.remaining y.bs.rx.ix.n)
  (hrange : delta < y.bs.rx.ix.n)
include hdelta hrange

/-- A wrapped difference in range is committed (R210). -/
theorem rxSync_commits : rxSync u t = y.bs.rx.ix.commit t delta >>= fun ix =>
    trySatisfy u (t.setUart u { y with bs := { y.bs with
      rx := { y.bs.rx with ix := ix }
      prevCount := y.rxch.remaining } }) := by
  rw [← coalescedDelta_eq_wrappedDelta] at hdelta
  rw [rxSync_unfold, uartAt_of hy, proc_ok_bind, ← hdelta, if_neg (by omega), Int.toNat_natCast]

/-- More units than fit are a fault, before any effect (R128, R210). -/
theorem rxSync_raises_overflow (h : y.bs.rx.ix.n < y.bs.rx.ix.used + delta) :
    rxSync u t = raise .rbOverflow t := by
  rw [rxSync_commits hy hdelta hrange, Ring.commit_of_lt h, raise_bind]

/-- Units that fit are committed, the count replaced, the PendingRead tried (R210). -/
theorem rxSync_accounts (h : y.bs.rx.ix.used + delta ≤ y.bs.rx.ix.n) :
    rxSync u t = trySatisfy u (t.setUart u { y with bs := { y.bs with
      rx := { y.bs.rx with ix := y.bs.rx.ix.produce delta }
      prevCount := y.rxch.remaining } }) := by
  rw [rxSync_commits hy hdelta hrange, Ring.commit_of_le h]
  rfl

end
end

theorem setUart_setUart (s : State) (u : Nat) (x y : Uart) :
    (s.setUart u x).setUart u y = s.setUart u y := by
  simp [State.setUart]

/-- Storing a driver over the served one. -/
theorem irqEffect_setUart (u : Nat) (s : State) (x y : Uart) :
    (irqEffect u s x).setUart u y = { irqEffect u s x with uarts := s.uarts.set u y } := by
  simp [State.setUart]

/-! ### The statements -/

/-- Settles O26: without the coalescer the tests serve every condition of the sample. -/
theorem ldIrqNotifiesInOrderAndClears : Obligations.LdIrqNotifiesInOrderAndClears := by
  intro u s x hx hmask
  refine ⟨fun henabled hbound hquiet => ?_, fun hoff => ?_⟩
  · rw [exec_ldIrq hx, conclude_require_true (by rw [henabled, hbound]; rfl),
      irqTests_irqOrder hx hmask hquiet, conclude_ok]
  · exact (exec_ldIrq hx).trans (conclude_require_false (Bool.and_eq_false_iff.2 hoff))

/-- Settles O27: the coalescer runs on the state with every other effect of the entry, where MEM and the
stream are still those of the beginning. -/
theorem ldIrqIdleRunsTheCoalescer : Obligations.LdIrqIdleRunsTheCoalescer := by
  intro u s x hx hmask henabled hbound hidle hdma rx size cur pend wrapped s1 y i
  have hexec : exec i s = conclude s (rxSync u.toNat s1) := by
    rw [exec_ldIrq hx, conclude_require_true (by rw [henabled, hbound]; rfl),
      irqTests_irqOrder_idle hx hmask hidle hdma]
  have hy : s1.uarts[u.toNat]? = some y := uarts_setUart hx y
  refine ⟨fun hout => ?_, fun delta hdelta hrange => ?_⟩
  · rw [hexec, rxSync_raises_delta hy hout, conclude_raise]
  intro used wr
  have hz := uarts_setUart hy { y with bs := { x.bs with
    rx := { rx with ix := rx.ix.produce delta }, prevCount := cur } }
  have hsync (hfits : used ≤ size) := rxSync_accounts hy hdelta hrange hfits
  refine ⟨fun hfits hwaits => ?_, fun hfits hrem hle hdst hread => ?_, fun hfits hrem hle hmem => ?_,
    fun hover => ?_⟩
  · rw [hexec, hsync hfits, trySatisfy_waits hz hwaits, irqEffect_setUart, conclude_ok]
    rfl
  · rw [hexec, hsync hfits, trySatisfy_drains hz hrem hle hdst hread, setUart_setUart, irqEffect_setUart,
      post_eq, ← hmask, conclude_ok]
    rfl
  · rw [Refuses, hexec, hsync hfits, trySatisfy_refused hz hrem hle hmem, conclude_refuse]
  · rw [hexec, rxSync_raises_overflow hy hdelta hrange hover, conclude_raise]

end Sys2Proof.Machine

/-! The counts of the coalescer (O54). An operation leaves the countdown of every inbound channel and the
coalescer's previous count as they are, but three: a move on the channel counts down and reloads, and the
two entries that run the coalescer copy the one count to the other. In range neither can leave `[1, RXN]`,
and the wrapped difference is in range, so `F_DELTA` is not raised. -/

namespace Sys2Proof.Machine

/-! ### What an operation leaves, its fault recorded -/

/-- Every state the procedure can leave behind meets `P`: the one it answers, and the one a fault is recorded
in (R340). A refusal leaves none (R341). -/
def ConcludesIn (P : State → Prop) (p : Proc State) : Prop :=
  (∀ t, p = .ok t → P t) ∧ ∀ f t, p = .error (.fault f t) → P (raiseFault f t)

namespace ConcludesIn

section
variable {P : State → Prop} {α : Type}

theorem done {t : State} (h : P t) : ConcludesIn P (.ok t) :=
  ⟨fun _ ht => Except.ok.inj ht ▸ h, fun f s he => absurd he (Faultless.done t f s)⟩

theorem refused (c : RefuseCode) : ConcludesIn P (refuse c) :=
  ⟨fun t h => absurd h (by simp), fun f t h => absurd h (Faultless.refused c f t)⟩

theorem raised {f : FaultCode} {t : State} (h : P (raiseFault f t)) : ConcludesIn P (raise f t) := by
  refine ⟨fun t' ht => absurd ht (by simp), fun g t' ht => ?_⟩
  obtain ⟨rfl, rfl⟩ := Stop.fault.inj (Except.error.inj ht)
  exact h

theorem ite {c : Prop} [Decidable c] {p q : Proc State} (hp : c → ConcludesIn P p)
    (hq : ¬c → ConcludesIn P q) : ConcludesIn P (if c then p else q) := by
  split
  · exact hp ‹_›
  · exact hq ‹_›

/-- A query leaves nothing behind; the procedure goes on from its answer. -/
theorem query {x : Proc α} {g : α → Proc State} (hx : Faultless x)
    (hg : ∀ a, x = .ok a → ConcludesIn P (g a)) : ConcludesIn P (x >>= g) := by
  constructor
  · intro t h
    obtain ⟨a, ha, h⟩ := (bind_eq_ok x g t).1 h
    exact (hg a ha).1 t h
  · intro f t h
    rcases (bind_eq_error x g _).1 h with h | ⟨a, ha, h⟩
    · exact absurd h (hx f t)
    · exact (hg a ha).2 f t h

theorem seq {p : Proc State} {g : State → Proc State} (hp : ConcludesIn P p)
    (hg : ∀ t, P t → ConcludesIn P (g t)) : ConcludesIn P (p >>= g) := by
  constructor
  · intro t h
    obtain ⟨a, ha, h⟩ := (bind_eq_ok p g t).1 h
    exact (hg a (hp.1 a ha)).1 t h
  · intro f t h
    rcases (bind_eq_error p g _).1 h with h | ⟨a, ha, h⟩
    · exact hp.2 f t h
    · exact (hg a (hp.1 a ha)).2 f t h

theorem afterRequire {b : Bool} {c : RefuseCode} {g : Unit → Proc State}
    (hg : b = true → ConcludesIn P (g ())) : ConcludesIn P (require b c >>= g) :=
  query (faultless_require b c) fun _ h => hg ((require_eq_ok _ _ _).1 h)

theorem afterUartFor {s : State} {i : BitVec 4} {a want : Agent} {g : Uart → Proc State}
    (hg : ∀ x, s.uarts[i.toNat]? = some x → ConcludesIn P (g x)) :
    ConcludesIn P (uartFor s i a want >>= g) :=
  query (faultless_uartFor s i a want) fun x h => hg x ((uartFor_eq_ok _ _ _ _ _).1 h).2

theorem afterUartAt {s : State} {u : Nat} {g : Uart → Proc State}
    (hg : ∀ x, s.uarts[u]? = some x → ConcludesIn P (g x)) : ConcludesIn P (uartAt s u >>= g) :=
  query (faultless_uartAt s u) fun x h => hg x ((uartAt_eq_ok _ _ _).1 h)

/-- A commit with no room raises `F_RB_OVERFLOW` in the state it was given (R128). -/
theorem afterCommit {r : Ring} {s : State} {n : Nat} {g : Ring → Proc State}
    (hs : P (raiseFault .rbOverflow s)) (hg : ConcludesIn P (g (r.produce n))) :
    ConcludesIn P (r.commit s n >>= g) := by
  unfold Ring.commit
  split
  · exact raised hs
  · exact hg

/-- A skip of more than is there raises `F_RB_UNDERFLOW` in the state it was given (R126). -/
theorem afterSkip {r : Ring} {s : State} {n : Nat} {g : Ring → Proc State}
    (hs : P (raiseFault .rbUnderflow s)) (hg : ConcludesIn P (g (r.consume n))) :
    ConcludesIn P (r.skip s n >>= g) := by
  unfold Ring.skip
  split
  · exact raised hs
  · exact hg

end

/-- The next state of an operation is one its procedure leaves behind, or carries the mark of a refusal. -/
theorem conclude {P : State → Prop} {s : State} {p : Proc State} (h : ConcludesIn P p)
    (hrefuse : ∀ c, P (markRefused c s)) : LeadsTo P (conclude s p) := by
  intro t ht
  rcases conclude_cases ht with hok | ⟨f, s', he, rfl⟩ | ⟨c, -, rfl⟩
  · exact h.1 t hok
  · exact h.2 f s' he
  · exact hrefuse c

end ConcludesIn

/-! ### The counts of one stream (R210, R297) -/

/-- What the invariant of the inbound channel speaks of. -/
def Uart.countdown (x : Uart) : (Bool × Bool) × (Nat × Nat × Nat) × Nat × Nat × Nat :=
  ((x.par.hasRxDma, x.rxch.circular), (x.rxch.count, x.rxch.maddr, x.rxch.remaining), x.bs.rx.ix.n,
    x.bs.rx.base, x.bs.prevCount)

theorem Uart.CountdownInv.congr {x y : Uart} (hx : x.CountdownInv) (h : y.countdown = x.countdown) :
    y.CountdownInv := by
  simp only [Uart.countdown, Prod.mk.injEq] at h
  obtain ⟨⟨hdma, hcircular⟩, ⟨hcount, hmaddr, hremaining⟩, hn, hbase, hprev⟩ := h
  unfold Uart.CountdownInv
  rw [hdma, hcircular, hcount, hmaddr, hremaining, hn, hbase, hprev]
  exact hx

theorem Uart.startTx_countdown (x : Uart) : x.startTx.countdown = x.countdown := by
  unfold Uart.startTx
  dsimp only
  split <;> rfl

theorem Uart.reclock_countdown (c f : Nat) (x : Uart) : (x.reclock c f).countdown = x.countdown := by
  unfold Uart.reclock
  split <;> rfl

/-- A read moves the indices of a ring alone. -/
theorem Uart.countdown_setRx (x : Uart) (p : PendingRead) {b : ByteRing}
    (hb : b.ix.n = x.bs.rx.ix.n ∧ b.base = x.bs.rx.base) :
    Uart.countdown { x with bs := { x.bs with rx := b, pend := p } } = x.countdown := by
  simp only [Uart.countdown, hb]

/-- In range the countdown stays in range: at 0 a circular channel reloads its count (R297). -/
theorem DmaChan.advance_remaining {ch : DmaChan} (k : Nat) (hcircular : ch.circular = true)
    (hpos : 1 ≤ ch.remaining) (hle : ch.remaining ≤ ch.count) :
    1 ≤ (ch.advance k).remaining ∧ (ch.advance k).remaining ≤ ch.count := by
  unfold DmaChan.advance DmaChan.settle DmaChan.decremented
  rw [if_neg (by omega : ch.remaining ≠ 0)]
  split <;> dsimp only <;> omega

theorem Uart.CountdownInv.advance {x : Uart} (hx : x.CountdownInv) (p : Line) (k : Nat) :
    Uart.CountdownInv { x with line := p, rxch := x.rxch.advance k } := by
  intro hdma
  obtain ⟨hcircular, hcount, hmaddr, ⟨hpos, hle⟩, hprev⟩ := hx hdma
  obtain ⟨-, -, -, hmaddr', -, hcount', hcircular'⟩ := advance_fixed x.rxch k
  obtain ⟨hpos', hle'⟩ := x.rxch.advance_remaining k hcircular hpos (hcount ▸ hle)
  exact ⟨hcircular'.trans hcircular, hcount'.trans hcount, hmaddr'.trans hmaddr, ⟨hpos', hcount ▸ hle'⟩,
    hprev⟩

/-- The coalescer remembers the channel's count, which is in range (R210). -/
theorem Uart.CountdownInv.sync {x : Uart} (hx : x.CountdownInv) (k : Nat) :
    Uart.CountdownInv { x with bs := { x.bs with
      rx := { x.bs.rx with ix := x.bs.rx.ix.produce k }, prevCount := x.rxch.remaining } } := by
  intro hdma
  obtain ⟨hcircular, hcount, hmaddr, hremaining, -⟩ := hx hdma
  exact ⟨hcircular, hcount, hmaddr, hremaining, hremaining⟩

/-- With both counts in range the coalescer's test passes (R210). -/
theorem Uart.CountdownInv.delta_in_range {x : Uart} (hx : x.CountdownInv) (hdma : x.par.hasRxDma = true) :
    ¬ (coalescedDelta x.bs.prevCount x.rxch.remaining x.bs.rx.ix.n < 0 ∨
      (x.bs.rx.ix.n : Int) ≤ coalescedDelta x.bs.prevCount x.rxch.remaining x.bs.rx.ix.n) := by
  obtain ⟨-, -, -, ⟨hpos, hle⟩, hprev, hprevLe⟩ := hx hdma
  obtain ⟨hdelta, hlt⟩ := coalescedDelta_of_range hprevLe hpos hle hprev
  rw [hdelta]
  omega

/-! ### The counts of a state -/

namespace State.CountdownsInv

section
variable {s t : State} {a : Agent} {v h : Word} {m : Memory} {k : Kind} {c : Held} {ch : DmaChan}
  {f : FaultCode} {u n : Nat} {b : FreeRing} {e : Engine} {x y : Uart} (hs : s.CountdownsInv)
include hs

/-- The invariant speaks of the UARTs and the recorded faults alone. -/
theorem congr (h : t.uarts = s.uarts ∧ t.faults = s.faults) : t.CountdownsInv := by
  obtain ⟨huarts, hfaults⟩ := h
  unfold State.CountdownsInv
  rw [huarts, hfaults]
  exact hs

theorem uart (hx : s.uarts[u]? = some x) : x.CountdownInv :=
  hs.1 x (List.mem_of_getElem? hx)

theorem setUart (hx : s.uarts[u]? = some x)
    (hy : x.CountdownInv → y.CountdownInv) : (s.setUart u y).CountdownsInv := by
  refine ⟨fun z hz => ?_, hs.2⟩
  rcases List.mem_or_eq_of_mem_set hz with hz | rfl
  · exact hs.1 z hz
  · exact hy (hs.uart hx)

theorem raiseFault (hf : f ≠ .delta) : (raiseFault f s).CountdownsInv := by
  refine ⟨hs.1, ?_⟩
  cases f with
  | delta => exact absurd rfl hf
  | rbOverflow | rbUnderflow => exact hs.2

theorem setRing : (s.setRing n b).CountdownsInv := hs

theorem setEngine : (s.setEngine n e).CountdownsInv := hs

theorem setRes0 : (s.setRes0 a v).CountdownsInv := hs.congr (by simp)

theorem setRes1 : (s.setRes1 a v).CountdownsInv := hs.congr (by simp)

theorem setMem : (s.setMem m).CountdownsInv := hs

theorem post : (post h k s).CountdownsInv := hs

theorem hold : (s.hold c).CountdownsInv := hs

theorem countFree : (s.countFree ch).CountdownsInv := hs.congr (by simp)

theorem takesTurn (h : TakesTurn s t) : t.CountdownsInv := by
  refine hs.congr ⟨h.uarts, ?_⟩
  obtain ⟨rest, rfl | ⟨a, a0, a1, a2, rfl⟩⟩ := h <;> simp

/-- The mark of a refusal is no fault (R341). -/
theorem conclude {p : Proc State} (hp : ConcludesIn State.CountdownsInv p) :
    LeadsTo State.CountdownsInv (conclude s p) :=
  ConcludesIn.conclude hp fun _ => hs.congr (by simp)

end

end State.CountdownsInv

/-! ### The shared procedures -/

section
variable {s : State} {u : Nat} (hs : s.CountdownsInv)
include hs

theorem trySatisfy_countdowns : ConcludesIn State.CountdownsInv (trySatisfy u s) :=
  .afterUartAt fun x hx => .ite
    (fun _ => .query (x.bs.rx.faultless_read _ _ _) fun _ hr =>
      .done (.post (.setMem (hs.setUart hx (·.congr (x.countdown_setRx _ (ByteRing.read_fixed hr)))))))
    fun _ => .done hs

/-- The range test passes, the count stored is in range, and a ring with no room is another fault (R210). -/
theorem rxSync_countdowns (hdma : ∀ x, s.uarts[u]? = some x → x.par.hasRxDma = true) :
    ConcludesIn State.CountdownsInv (rxSync u s) :=
  .afterUartAt fun x hx => .ite (fun hout => absurd hout ((hs.uart hx).delta_in_range (hdma x hx)))
    fun _ => .afterCommit (hs.raiseFault nofun) (trySatisfy_countdowns (hs.setUart hx (·.sync _)))

theorem drainRead_countdowns {a : Agent} : ConcludesIn State.CountdownsInv (drainRead u a s) :=
  .afterUartAt fun x hx => .query (x.bs.rx.faultless_read _ _ _) fun _ hr =>
    .done (.setRes0 (.setMem (hs.setUart hx (·.congr (x.countdown_setRx x.bs.pend (ByteRing.read_fixed hr))))))

theorem forwardError_countdowns (k : Kind) : ConcludesIn State.CountdownsInv (forwardError u k s) :=
  .afterUartAt fun _ _ => .ite (fun _ => .done hs.post) fun _ => .done hs

/-- Without an inbound channel the idle line runs no coalescer (R211). -/
theorem idleReaction_countdowns : ConcludesIn State.CountdownsInv (idleReaction u s) :=
  .afterUartAt fun _ hx => .ite
    (fun hdma => rxSync_countdowns hs fun _ hy => Option.some.inj (hx.symm.trans hy) ▸ hdma)
    fun _ => .done hs

theorem notify_countdowns (k : Kind) : ConcludesIn State.CountdownsInv (notify u k s) := by
  have noted : State.CountdownsInv { s with notif := s.notif ++ [(u, k)] } := hs
  cases k with
  | overrunError | framingError | parityError | noiseDetected | lineBreak =>
    exact forwardError_countdowns noted _
  | idleLine => exact idleReaction_countdowns noted
  | _ => exact .done noted

theorem irqTest_countdowns (sample : BitVec 9) (e : IrqEntry) :
    ConcludesIn State.CountdownsInv (irqTest u sample e s) :=
  .ite (fun _ => .seq (notify_countdowns hs e.kind) fun _ hn =>
    .afterUartAt fun _ hx => .done (hn.setUart hx id)) fun _ => .done hs

omit hs in
theorem irqTests_countdowns (sample : BitVec 9) (l : List IrqEntry) :
    ∀ s : State, s.CountdownsInv → ConcludesIn State.CountdownsInv (irqTests u sample l s) := by
  induction l with
  | nil => exact fun _ hs => .done hs
  | cons e es ih => exact fun _ hs => .seq (irqTest_countdowns hs sample e) ih

theorem moveUartTx_countdowns : ConcludesIn State.CountdownsInv (moveUartTx u s) :=
  .afterUartAt fun x hx => .afterRequire fun _ => .query (faultless_moveAddress _) fun _ _ =>
    .query (faultless_readByte _ _) fun _ _ => .done <|
      hs.countFree.setUart (x := x) (by simpa using hx) id

/-- The channel counts down, or reloads (R296, R297). -/
theorem moveUartRx_countdowns : ConcludesIn State.CountdownsInv (moveUartRx u s) := by
  refine .afterUartAt fun x hx => .afterRequire fun _ => .query (faultless_valueOf _) fun _ _ =>
    .query (faultless_moveAddress _) fun _ _ => .query (faultless_moveStore _ _ _) fun _ hstored => .done ?_
  obtain ⟨-, rfl⟩ := (moveStore_eq_ok _ _ _ _).1 hstored
  exact hs.setMem.countFree.setUart (x := x) (by simpa using hx) (·.advance _ _)

theorem moveBusTx_countdowns : ConcludesIn State.CountdownsInv (moveBusTx u s) :=
  .query (faultless_engineAt _ _) fun _ _ => .afterRequire fun _ =>
    .query (faultless_moveAddress _) fun _ _ => .query (faultless_readByte _ _) fun _ _ =>
      .done hs.countFree

theorem moveBusRx_countdowns (v : Word) : ConcludesIn State.CountdownsInv (moveBusRx u v s) := by
  refine .query (faultless_engineAt _ _) fun _ _ => .afterRequire fun _ => .afterRequire fun _ =>
    .query (faultless_moveAddress _) fun _ _ => .query (faultless_moveStore _ _ _) fun _ hstored => .done ?_
  obtain ⟨-, rfl⟩ := (moveStore_eq_ok _ _ _ _).1 hstored
  exact hs.setMem.countFree

end

/-! ### The operations -/

section
variable {s : State} {i : BitVec 4} {a : Agent} (hs : s.CountdownsInv)
include hs

theorem execBsWrite_countdowns : LeadsTo State.CountdownsInv (execBsWrite i a s) := by
  refine hs.conclude <| .afterUartFor fun x hx => .afterRequire fun _ =>
    .query (x.bs.tx.faultless_write _ _ _) fun _ _ => .done ?_
  refine .setRes0 (.setMem (hs.setUart hx fun h => ?_))
  split
  · exact h.congr (Uart.startTx_countdown _)
  · exact h

theorem execBsTxDone_countdowns : LeadsTo State.CountdownsInv (execBsTxDone i a s) :=
  hs.conclude <| .afterUartFor fun _ hx => .afterRequire fun _ => .afterRequire fun _ =>
    .afterSkip (.raiseFault (hs.setUart hx id) nofun) <|
      .done (hs.setUart hx (·.congr (Uart.startTx_countdown _)))

/-- The completion is acknowledged, then the coalescer runs on the channel that is bound (R213). -/
theorem execBsRxDone_countdowns : LeadsTo State.CountdownsInv (execBsRxDone i a s) :=
  hs.conclude <| .afterUartFor fun _ hx => .afterRequire fun hdma => .afterRequire fun _ =>
    rxSync_countdowns (hs.setUart hx id) fun _ hy =>
      Option.some.inj ((uarts_setUart hx _).symm.trans hy) ▸ hdma

theorem execBsReadB_countdowns : LeadsTo State.CountdownsInv (execBsReadB i a s) :=
  hs.conclude <| .afterUartFor fun x hx => .afterRequire fun _ => .afterRequire fun _ =>
    have superseded := hs.setUart (y := x.supersede) hx id
    .ite (fun _ => drainRead_countdowns superseded) fun _ => .done superseded.hold

theorem execBsReadNb_countdowns : LeadsTo State.CountdownsInv (execBsReadNb i a s) :=
  hs.conclude <| .afterUartFor fun x hx => .afterRequire fun _ => .afterRequire fun _ =>
    .ite (fun _ => drainRead_countdowns (hs.setUart (y := x.supersede) hx id)) fun _ =>
      .done (.setRes0 (hs.setUart hx id))

theorem execLdIrq_countdowns : LeadsTo State.CountdownsInv (execLdIrq i a s) :=
  hs.conclude <| .afterUartFor fun _ hx => .afterRequire fun _ =>
    irqTests_countdowns _ _ _ (hs.setUart hx id)

/-- A clock change re-derives divisors (R174). -/
theorem execLdClkChg_countdowns (phase : BitVec 1) :
    LeadsTo State.CountdownsInv (execLdClkChg i a phase s) := by
  refine hs.conclude <| .afterRequire fun _ => .afterRequire fun _ => .ite (fun _ => .done hs) fun _ =>
    .afterRequire fun _ => .done ⟨List.forall_mem_map.2 fun x hx => ?_, hs.2⟩
  exact (hs.1 x hx).congr (x.reclock_countdown _ _)

theorem execDmaMove_countdowns (channel : BitVec 2) :
    LeadsTo State.CountdownsInv (execDmaMove i a channel s) :=
  hs.conclude <| .afterRequire fun _ => .ite (fun _ => moveUartTx_countdowns hs) fun _ =>
    .ite (fun _ => moveUartRx_countdowns hs) fun _ =>
    .ite (fun _ => moveBusTx_countdowns hs) fun _ => moveBusRx_countdowns hs _

/-- The lines a held command still has to run are a drain of the read ring, or none (R342). -/
theorem execResume_countdowns (h : Held) : LeadsTo State.CountdownsInv (execResume h s) := by
  have released : s.release.CountdownsInv := hs
  refine released.conclude ?_
  cases h with
  | waitTc _ | waitRxne _ => exact .done released
  | readB _ => exact drainRead_countdowns released

/-- Every other operation leaves the counts as they are, and raises no fault but those of a ring. -/
theorem exec_countdowns (o : Instr) : LeadsTo State.CountdownsInv (exec o s) := by
  cases o with
  | bsWrite _ _ => exact execBsWrite_countdowns hs
  | bsTxDone _ _ => exact execBsTxDone_countdowns hs
  | bsRxDone _ _ => exact execBsRxDone_countdowns hs
  | bsReadB _ _ => exact execBsReadB_countdowns hs
  | bsReadNb _ _ => exact execBsReadNb_countdowns hs
  | ldIrq _ _ => exact execLdIrq_countdowns hs
  | ldClkChg _ _ _ => exact execLdClkChg_countdowns hs _
  | dmaMove _ _ _ => exact execDmaMove_countdowns hs _
  | memLd _ _ _ =>
    refine hs.conclude <| .query (faultless_field _) fun _ _ => .afterRequire fun _ =>
      .afterRequire fun _ => .afterRequire fun _ => ?_
    split
    · exact .done hs.setRes0
    · exact .refused _
  | memSt _ _ _ =>
    exact hs.conclude <| .query (faultless_field _) fun _ _ => .afterRequire fun _ => .afterRequire fun _ =>
      .afterRequire fun _ => .afterRequire fun _ => .done hs.setMem
  | rbWrite _ _ =>
    exact hs.conclude <| .query (faultless_ringFor _ _ _ _) fun b _ =>
      .query (b.ring.faultless_write _ _ _) fun _ _ => .done hs.setRing.setMem.setRes0
  | rbRead _ _ =>
    exact hs.conclude <| .query (faultless_ringFor _ _ _ _) fun b _ =>
      .query (b.ring.faultless_read _ _ _) fun _ _ => .done hs.setRing.setMem.setRes0
  | rbPop _ _ =>
    refine hs.conclude <| .query (faultless_ringFor _ _ _ _) fun b _ =>
      .query (b.ring.faultless_pop _) fun p _ => ?_
    obtain ⟨_ | _, _⟩ := p
    · exact .done hs.setRes0
    · exact .done hs.setRing.setRes1.setRes0
  | rbSkip _ _ =>
    exact hs.conclude <| .query (faultless_ringFor _ _ _ _) fun _ _ =>
      .afterSkip (hs.raiseFault nofun) <| .done hs.setRing
  | rbCommit _ _ =>
    exact hs.conclude <| .query (faultless_ringFor _ _ _ _) fun _ _ =>
      .afterCommit (hs.raiseFault nofun) <| .done hs.setRing
  | rbPeek _ _ =>
    exact hs.conclude <| .query (faultless_ringFor _ _ _ _) fun _ _ => .done hs.setRes0.setRes1
  | rbUsed _ _ =>
    exact hs.conclude <| .query (faultless_ringFor _ _ _ _) fun _ _ => .done hs.setRes0
  | ldSetSpeed _ _ =>
    exact hs.conclude <| .afterUartFor fun _ hx => .query (faultless_frequency _ _) fun _ _ =>
      .afterRequire fun _ => .afterRequire fun _ => .done (.setRes0 (hs.setUart hx id))
  | ldSetFrame _ _ _ _ _ | tbEnable _ _ _ =>
    exact hs.conclude <| .query (faultless_field _) fun _ _ => .afterUartFor fun _ hx =>
      .afterRequire fun _ => .afterRequire fun _ => .done (hs.setUart hx id)
  | ldEnable _ _ _ | ldArmIrq _ _ _ =>
    exact hs.conclude <| .query (faultless_field _) fun _ _ => .afterUartFor fun _ hx =>
      .afterRequire fun _ => .done (hs.setUart hx id)
  | ldDisable _ _ _ | ldDisarmIrq _ _ _ | tbDisable _ _ _ =>
    exact hs.conclude <| .query (faultless_field _) fun _ _ => .afterUartFor fun _ hx =>
      .done (hs.setUart hx id)
  | ldSetFlow _ _ _ | lineTxReady _ _ | lineTxComplete _ _ =>
    exact hs.conclude <| .afterUartFor fun _ hx => .afterRequire fun _ => .done (hs.setUart hx id)
  | ldRdUnit _ _ =>
    exact hs.conclude <| .afterUartFor fun _ hx => .afterRequire fun _ => .afterRequire fun _ =>
      .query (faultless_valueOf _) fun _ _ => .done (.setRes0 (hs.setUart hx id))
  | ldWrUnit _ _ =>
    exact hs.conclude <| .afterUartFor fun _ hx => .afterRequire fun _ => .afterRequire fun _ =>
      .query (faultless_valueOf _) fun _ _ => .afterRequire fun _ => .done (hs.setUart hx id)
  | ldWaitTc _ _ | ldWaitRxne _ _ =>
    refine hs.conclude <| .afterUartFor fun _ _ => .afterRequire fun _ => .done ?_
    split
    · exact hs
    · exact hs.hold
  | lineRx _ _ _ =>
    refine hs.conclude <| .afterUartFor fun _ hx => .afterRequire fun _ => .done ?_
    split
    · exact hs.setUart hx id
    · exact hs
  | lineIdle _ _ =>
    refine hs.conclude <| .afterUartFor fun _ hx => .done ?_
    split
    · exact hs.setUart hx id
    · exact hs
  | bteSubmit _ _ =>
    refine hs.conclude <| .query (faultless_engineFor _ _ _ _) fun e _ =>
      .query (e.faultless_validate _ _) fun _ _ => .ite (fun _ => .done hs.setRes0) fun _ => ?_
    split
    · exact .query (Engine.faultless_startHead _ _) fun _ _ => .done hs.setEngine.setRes0
    · exact .done hs.setEngine.setRes0
  | bteEvAddr _ _ =>
    exact hs.conclude <| .query (faultless_engineFor _ _ _ _) fun _ _ => .afterRequire fun _ =>
      .query (faultless_valueOf _) fun _ _ => .done hs.setEngine
  | bteEvTc _ _ =>
    exact hs.conclude <| .query (faultless_engineFor _ _ _ _) fun _ _ => .afterRequire fun _ =>
      .query (faultless_valueOf _) fun _ _ => .query (faultless_readWord _ _) fun _ _ =>
      .query (faultless_readWord _ _) fun _ _ => .query (faultless_readWord _ _) fun _ _ =>
      .done hs.setEngine
  | bteEvStop _ _ =>
    refine hs.conclude <| .query (faultless_engineFor _ _ _ _) fun _ _ => .afterRequire fun _ =>
      .query (faultless_valueOf _) fun _ _ => .query (faultless_readWord _ _) fun _ _ =>
      .query (Engine.faultless_next _ _) fun _ _ => .done ?_
    split
    · exact hs.setEngine
    · exact hs.post.setEngine
  | bteEvNack _ _ =>
    exact hs.conclude <| .query (faultless_engineFor _ _ _ _) fun _ _ => .afterRequire fun _ =>
      .query (Engine.faultless_next _ _) fun _ _ => .done hs.setEngine
  | bteEvErr _ _ _ =>
    exact hs.conclude <| .query (faultless_field _) fun _ _ => .query (faultless_engineFor _ _ _ _) fun _ _ =>
      .afterRequire fun _ => .query (Engine.faultless_next _ _) fun _ _ => .done hs.setEngine
  | bteDmaDone _ _ _ =>
    exact hs.conclude <| .query (faultless_engineFor _ _ _ _) fun _ _ => .ite
      (fun _ => .afterRequire fun _ => .done hs.setEngine)
      fun _ => .afterRequire fun _ => .done hs.setEngine

end

/-- Settles O54: a count in range stays in range where it counts down, reloads or is copied, and in range the
coalescer's test never fires. -/
theorem coalescerNeverFaultsOnItsRange : Obligations.CoalescerNeverFaultsOnItsRange :=
  fun s t hs hst => step_leadsTo (hs.takesTurn (nextTurn_state s))
    (fun h _ hv => execResume_countdowns hv h)
    (fun _ _ _ hv => hv.conclude <| .query (faultless_valueOf _) fun _ _ => .done hv)
    (fun _ _ hv => hv.conclude (.refused _)) (fun o _ hv => exec_countdowns hv o) t hst

end Sys2Proof.Machine

/-! BufferedStream and TransferBinding (O31 to O37). One equation per operation says what it does on a stream
that is there, check by check; a run that starts and a drain are each written down once, and the statements
read their clauses off these. -/

namespace Sys2Proof.Machine

/-! ### Starting a run (R202) -/

/-- With nothing in flight the run at the oldest byte is put in flight, and a channel is started for it unless
it is empty (R202). -/
theorem Uart.startTx_of_idle {x : Uart} (hidle : x.bs.txInFlight = 0) : x.startTx = { x with
    bs := { x.bs with txInFlight := x.bs.tx.peek.2 }
    txch := if x.bs.tx.peek.2 = 0 then x.txch else x.txch.arm x.bs.tx.peek.1 x.bs.tx.peek.2 } := by
  by_cases hrun : x.bs.tx.peek.2 = 0
  · simp only [Uart.startTx, if_pos hrun]
    rw [hrun, ← hidle]
  · simp only [Uart.startTx, if_neg hrun]

/-- A write queues its bytes, and puts a run in flight if there is none (R201). -/
theorem Uart.queued_eq (x : Uart) (k : Nat) :
    let tx := { x.bs.tx with ix := x.bs.tx.ix.produce k }
    x.queued k = { x with
      bs := { x.bs with
        tx := tx
        txInFlight := if x.bs.txInFlight = 0 then tx.peek.2 else x.bs.txInFlight }
      txch := if x.bs.txInFlight = 0 ∧ tx.peek.2 ≠ 0 then x.txch.arm tx.peek.1 tx.peek.2 else x.txch } := by
  intro tx
  by_cases hidle : x.bs.txInFlight = 0
  · have hstart := Uart.startTx_of_idle (x := { x with bs := { x.bs with tx := tx } }) hidle
    simp only [hidle, true_and, if_true, ite_not]
    rw [Uart.queued, if_pos hidle]
    exact hstart
  · simp only [Uart.queued, hidle, false_and, if_false]
    rfl

/-! ### The operations of a stream that is there -/

section
variable {u : BitVec 4} {s : State} {x : Uart} (hx : s.uarts[u.toNat]? = some x)
include hx

/-- `BS.WRITE` (R201). -/
theorem exec_bsWrite :
    exec (.bsWrite u .fg) s = conclude s (
      require x.par.hasTxDma .xNoDma >>= fun _ =>
      x.bs.tx.write s s.portFg.arg0.toNat s.portFg.arg1.toNat >>= fun w =>
      let written := { x with bs := { x.bs with tx := w.2.1 } }
      .ok (((s.setUart u.toNat (if x.bs.txInFlight = 0 then written.startTx else written)).setMem
        w.2.2).setRes0 .fg (zext32 w.1))) := by
  show execBsWrite u .fg s = _
  rw [execBsWrite, uartFor_of hx, proc_ok_bind]
  rfl

/-- `BS.TXDONE` (R203). -/
theorem exec_bsTxDone :
    exec (.bsTxDone u .dirq) s = conclude s (
      require x.par.hasTxDma .xNoDma >>= fun _ =>
      require (x.txdmaIrq.enabled && x.txch.complete && x.bs.txInFlight != 0) .xState >>= fun _ =>
      x.bs.tx.ix.skip (s.setUart u.toNat { x with txch := { x.txch with done := false } })
        x.bs.txInFlight >>= fun ix =>
      .ok (s.setUart u.toNat (Uart.startTx { x with
        txch := { x.txch with done := false }
        bs := { x.bs with tx := { x.bs.tx with ix := ix }, txInFlight := 0 } }))) := by
  show execBsTxDone u .dirq s = _
  rw [execBsTxDone, uartFor_of hx, proc_ok_bind]

/-- `BS.READB` (R205). -/
theorem exec_bsReadB :
    exec (.bsReadB u .fg) s = conclude s (
      require x.par.hasRxDma .xNoDma >>= fun _ =>
      require (spanAdmitted s.regions s.portFg.arg0.toNat s.portFg.arg1.toNat) .xMem >>= fun _ =>
      if s.portFg.arg1.toNat ≤ x.bs.rx.ix.used then
        drainRead u.toNat .fg (s.setUart u.toNat x.supersede)
      else .ok ((s.setUart u.toNat x.supersede).hold (.readB u.toNat))) := by
  show execBsReadB u .fg s = _
  rw [execBsReadB, uartFor_of hx, proc_ok_bind]
  rfl

/-- `BS.READNB` (R206). -/
theorem exec_bsReadNb :
    exec (.bsReadNb u .fg) s = conclude s (
      require (s.portFg.arg2 != 0#32) .xOperand >>= fun _ =>
      require x.par.hasRxDma .xNoDma >>= fun _ =>
      if s.portFg.arg1.toNat ≤ x.bs.rx.ix.used then
        drainRead u.toNat .fg (s.setUart u.toNat x.supersede)
      else .ok ((s.setUart u.toNat { x with bs := { x.bs with
        pend := ⟨s.portFg.arg0, s.portFg.arg1, s.portFg.arg2⟩ } }).setRes0 .fg 0#32)) := by
  show execBsReadNb u .fg s = _
  rw [execBsReadNb, uartFor_of hx, proc_ok_bind]
  rfl

/-- `BS.RXDONE` (R213). -/
theorem exec_bsRxDone :
    exec (.bsRxDone u .dirq) s = conclude s (
      require x.par.hasRxDma .xNoDma >>= fun _ =>
      require (x.rxdmaIrq.enabled && x.rxch.complete) .xState >>= fun _ =>
      rxSync u.toNat (s.setUart u.toNat { x with rxch := { x.rxch with done := false } })) := by
  show execBsRxDone u .dirq s = _
  rw [execBsRxDone, uartFor_of hx, proc_ok_bind]

/-- `TB.ENABLE` with a part that is not reserved (R216). -/
theorem exec_tbEnable {part : BitVec 2} {p : Part} (hp : partOf part = some p) :
    exec (.tbEnable u .fg part) s = conclude s (
      require (!namesRead p || x.par.hasRxDma) .xNoDma >>= fun _ =>
      require (!namesWrite p || x.par.hasTxDma) .xNoDma >>= fun _ =>
      .ok (s.setUart u.toNat { x with tb := x.tb.enable p })) := by
  show execTbEnable u .fg part s = _
  rw [execTbEnable, hp, field_some, proc_ok_bind, uartFor_of hx, proc_ok_bind]

/-- `TB.DISABLE` with a part that is not reserved (R217). -/
theorem exec_tbDisable {part : BitVec 2} {p : Part} (hp : partOf part = some p) :
    exec (.tbDisable u .fg part) s = .next (s.setUart u.toNat { x with tb := x.tb.disable p }) := by
  show execTbDisable u .fg part s = _
  rw [execTbDisable, hp, field_some, proc_ok_bind, uartFor_of hx, proc_ok_bind, conclude_ok]

/-! ### The drain of a read (R205) -/

section
variable (hle : s.portFg.arg1.toNat ≤ x.bs.rx.ix.used)
include hle

/-- A superseding read of no more than is buffered drains exactly its length, oldest first, and returns it
(R205, R207). -/
theorem drainRead_supersede (hdst : SpanAllowed s s.portFg.arg0.toNat s.portFg.arg1.toNat)
    (hread : ∀ k < s.portFg.arg1.toNat, ByteReadable s (x.bs.rx.unreadAddr k)) :
    drainRead u.toNat .fg (s.setUart u.toNat x.supersede) = .ok
      { s with
        mem := copied s.mem x.bs.rx.unreadAddr (s.portFg.arg0.toNat + ·) s.portFg.arg1.toNat
        portFg := { s.portFg with res0 := some s.portFg.arg1 }
        uarts := s.uarts.set u.toNat { x with bs := { x.bs with
          rx := { x.bs.rx with ix := x.bs.rx.ix.consume s.portFg.arg1.toNat }
          pend := ⟨0#32, 0#32, 0#32⟩ } } } := by
  have hwhole : x.supersede.bs.rx.read (s.setUart u.toNat x.supersede) s.portFg.arg0.toNat
      s.portFg.arg1.toNat = _ := ByteRing.read_whole (b := x.bs.rx) hle hdst hread
  have hdrain := (drainRead_eq_ok u.toNat .fg (s.setUart u.toNat x.supersede) _).2
    ⟨_, uarts_setUart hx _, _, hwhole, rfl⟩
  rw [setUart_setUart, show zext32 s.portFg.arg1.toNat = s.portFg.arg1 from BitVec.ofNat_toNat ..] at hdrain
  exact hdrain

/-- A read whose bytes cannot be moved is refused (R69, R341). -/
theorem drainRead_supersede_refused (h : ¬ SpanAllowed s s.portFg.arg0.toNat s.portFg.arg1.toNat ∨
      ∃ k < s.portFg.arg1.toNat, ¬ ByteReadable s (x.bs.rx.unreadAddr k)) :
    drainRead u.toNat .fg (s.setUart u.toNat x.supersede) = refuse .xMem := by
  have hwhole : x.bs.rx.delivers s.portFg.arg1.toNat = s.portFg.arg1.toNat := Nat.min_eq_left hle
  have hrefused : x.supersede.bs.rx.read (s.setUart u.toNat x.supersede) s.portFg.arg0.toNat
      s.portFg.arg1.toNat = refuse .xMem :=
    ByteRing.read_refused (b := x.bs.rx) (by rwa [hwhole])
  rw [drainRead, uartAt_of (uarts_setUart hx _), proc_ok_bind, State.setUart_port]
  exact congrArg (· >>= _) hrefused

end

end

/-! ### The coalescer's difference (R210) -/

/-- Two numbers below the modulus that leave the same rest of a number are the same. -/
theorem eq_of_sub_emod_eq_zero {a k d n : Int} (hk : 0 ≤ k) (hkn : k < n) (hd : 0 ≤ d) (hdn : d < n)
    (h : (a - k) % n = 0) (h' : (a - d) % n = 0) : k = d := by
  rw [← Int.emod_eq_emod_iff_emod_sub_eq_zero] at h h'
  calc k = k % n := (Int.emod_eq_of_lt hk hkn).symm
    _ = d % n := h.symm.trans h'
    _ = d := Int.emod_eq_of_lt hd hdn

/-- Settles O36: the difference is that of the counts, or that and one turn of the ring, and below one turn no
other number leaves the same rest. -/
theorem coalescedDeltaIsInRangeAndExact : Obligations.CoalescedDeltaIsInRangeAndExact := by
  intro prev cur size hprev hprevLe hcur hcurLe delta
  obtain ⟨hdelta, hlt⟩ := coalescedDelta_of_range hprevLe hcur hcurLe hprev
  have hrange : 0 ≤ delta ∧ delta < size := by omega
  have hexact : ((prev : Int) - delta - cur) % size = 0 := by
    split at hdelta
    · rw [show (prev : Int) - delta - cur = -size by omega, Int.neg_emod_self]
    · rw [show (prev : Int) - delta - cur = 0 by omega, Int.zero_emod]
  refine ⟨hrange.1, hrange.2, hexact, fun k hk hne hrest => hne ?_⟩
  rw [sub_right_comm] at hrest hexact
  exact eq_of_sub_emod_eq_zero (by omega) (by omega) hrange.1 hrange.2 hrest hexact

/-! ### The request enables (R216, R217) -/

theorem not_decide_or (q : Prop) [Decidable q] (b : Bool) :
    (!decide q || b) = if q then b else true := by by_cases h : q <;> simp [h]

theorem not_not_decide_and (q : Prop) [Decidable q] (b : Bool) :
    (!!decide q && b) = if q then b else false := by by_cases h : q <;> simp [h]

section
variable (t : Binding) {p : Part} {c : BitVec 2} (hread : namesRead p = !decide (c = 1))
  (hwrite : namesWrite p = !decide (c = 0))
include hread hwrite

/-- A direction the part names has its request enabled, the other keeps its enable. -/
theorem Binding.enable_eq : t.enable p =
    { dmaRxEn := if c = 1 then t.dmaRxEn else true, dmaTxEn := if c = 0 then t.dmaTxEn else true } := by
  rw [Binding.enable, hread, hwrite, not_decide_or, not_decide_or]

/-- A direction the part names has its request disabled, the other keeps its enable. -/
theorem Binding.disable_eq : t.disable p =
    { dmaRxEn := if c = 1 then t.dmaRxEn else false, dmaTxEn := if c = 0 then t.dmaTxEn else false } := by
  rw [Binding.disable, hread, hwrite, not_not_decide_and, not_not_decide_and]

end

/-! ### The statements -/

/-- Settles O31: the answer is the ring procedure's own, and the run of what is then queued is put in flight if
none is. -/
theorem bsWriteQueuesAndStarts : Obligations.BsWriteQueuesAndStarts := by
  intro u s x hx tx src n run i
  have hexec := exec_bsWrite hx
  refine ⟨fun hdma hsrc hfree => ?_, fun hdma => ?_, fun hdma hmem => ?_⟩
  · have hwrite := (tx.write_eq_ok s src s.portFg.arg1.toNat _).2 ⟨hsrc, hfree, rfl⟩
    have hqueued : exec i s = .next (((s.setUart u.toNat (x.queued n)).setMem
        (copied s.mem (src + ·) tx.freeAddr n)).setRes0 .fg (zext32 n)) := by
      rw [hexec, conclude_require_true hdma, hwrite]
      rfl
    rw [hqueued, x.queued_eq]
    rfl
  · exact hexec.trans (conclude_require_false hdma)
  · rw [Refuses, hexec, conclude_require_true hdma, ByteRing.write_refused hmem, refuse_bind,
      conclude_refuse]

/-- Settles O32: the finished run is skipped within the used count, and nothing is then in flight, so what is
left starts a run. -/
theorem bsTxDoneChainsTheNextRun : Obligations.BsTxDoneChainsTheNextRun := by
  intro u s x hx tx k rd run i ready
  have hexec := exec_bsTxDone hx
  have hready : (x.txdmaIrq.enabled && x.txch.complete && x.bs.txInFlight != 0) = true ↔ ready := by
    simp [ready, DmaChan.complete, k, and_assoc]
  refine ⟨fun hdma hok hle => ?_, fun hdma hnot => ?_, fun hdma => ?_⟩
  · rw [hexec, conclude_require_true hdma, conclude_require_true (hready.2 hok), Ring.skip_of_le hle,
      proc_ok_bind, conclude_ok, Uart.startTx_of_idle rfl]
    rfl
  · rw [Refuses, hexec, conclude_require_true hdma,
      conclude_require_false (Bool.eq_false_iff.2 (mt hready.1 hnot))]
  · exact hexec.trans (conclude_require_false hdma)

/-- Settles O33: the checks stand before the hold, and the drain is that of a superseding read. -/
theorem bsReadBlockingDrainsOrHolds : Obligations.BsReadBlockingDrainsOrHolds := by
  intro u s x hx dst len rx i
  have hexec := exec_bsReadB hx
  have hspan := spanAdmitted_iff_allowed s dst len
  have hdeny (h : ¬ SpanAllowed s dst len) : spanAdmitted s.regions dst len = false :=
    Bool.eq_false_iff.2 (mt hspan.1 h)
  refine ⟨fun hdma hdst hle hread => ?_, fun hdma hdst hlt => ?_, fun hdma => ?_, fun hdma hdst => ?_,
    fun hdma hle hread => ?_⟩
  · rw [hexec, conclude_require_true hdma, conclude_require_true (hspan.2 hdst), if_pos hle,
      drainRead_supersede hx hle hdst hread, conclude_ok]
    rfl
  · rw [hexec, conclude_require_true hdma, conclude_require_true (hspan.2 hdst), if_neg (Nat.not_le.2 hlt),
      conclude_ok]
    rfl
  · exact hexec.trans (conclude_require_false hdma)
  · exact hexec.trans <| (conclude_require_true hdma).trans (conclude_require_false (hdeny hdst))
  · by_cases hdst : SpanAllowed s dst len
    · rw [Refuses, hexec, conclude_require_true hdma, conclude_require_true (hspan.2 hdst), if_pos hle,
        drainRead_supersede_refused hx hle (.inr hread), conclude_refuse]
    · exact hexec.trans <| (conclude_require_true hdma).trans (conclude_require_false (hdeny hdst))

/-- Settles O34: the handle is checked before the channel, and the drain is that of a superseding read. -/
theorem bsReadNonBlockingDrainsOrPends : Obligations.BsReadNonBlockingDrainsOrPends := by
  intro u s x hx dst len rx i
  have hexec := exec_bsReadNb hx
  refine ⟨fun hh hdma hle hdst hread => ?_, fun hh hdma hlt => ?_, fun hh => ?_, fun hh hdma => ?_,
    fun hh hdma hle hmem => ?_⟩
  · rw [hexec, conclude_require_true (bne_iff_ne.2 hh), conclude_require_true hdma, if_pos hle,
      drainRead_supersede hx hle hdst hread, conclude_ok]
    rfl
  · rw [hexec, conclude_require_true (bne_iff_ne.2 hh), conclude_require_true hdma,
      if_neg (Nat.not_le.2 hlt), conclude_ok]
    rfl
  · exact hexec.trans (conclude_require_false (bne_eq_false_iff_eq.2 hh))
  · exact hexec.trans <| (conclude_require_true (bne_iff_ne.2 hh)).trans (conclude_require_false hdma)
  · rw [Refuses, hexec, conclude_require_true (bne_iff_ne.2 hh), conclude_require_true hdma, if_pos hle,
      drainRead_supersede_refused hx hle hmem, conclude_refuse]

/-- Settles O35: the coalescer runs on the state with the completion acknowledged, where MEM and the stream are
still those of the issue. -/
theorem bsRxDoneCommitsAndSatisfies : Obligations.BsRxDoneCommitsAndSatisfies := by
  intro u s x hx hmask rx size cur pend ready wrapped acked i
  have hexec := exec_bsRxDone hx
  have hready : (x.rxdmaIrq.enabled && x.rxch.complete) = true ↔ ready := Bool.and_eq_true_iff
  have hsync (hdma : x.par.hasRxDma = true) (hok : ready) :
      exec i s = conclude s (rxSync u.toNat (s.setUart u.toNat acked)) := by
    rw [hexec, conclude_require_true hdma, conclude_require_true (hready.2 hok)]
  have hy := uarts_setUart hx acked
  refine ⟨fun hdma hok hout => ?_, fun hdma => ?_, fun hdma hnot => ?_,
    fun delta hdma hok hdelta hrange => ?_⟩
  · rw [hsync hdma hok, rxSync_raises_delta hy hout, conclude_raise]
    rfl
  · exact hexec.trans (conclude_require_false hdma)
  · rw [Refuses, hexec, conclude_require_true hdma,
      conclude_require_false (Bool.eq_false_iff.2 (mt hready.1 hnot))]
  intro used wr
  have hz := uarts_setUart hy { acked with bs := { x.bs with
    rx := { rx with ix := rx.ix.produce delta }, prevCount := cur } }
  have hcommit (hfits : used ≤ size) := rxSync_accounts hy hdelta hrange hfits
  refine ⟨fun hfits hwaits => ?_, fun hfits hrem hle hdst hread => ?_, fun hfits hrem hle hmem => ?_,
    fun hover => ?_⟩
  · rw [hsync hdma hok, hcommit hfits, trySatisfy_waits hz hwaits, setUart_setUart, conclude_ok]
    rfl
  · rw [hsync hdma hok, hcommit hfits, trySatisfy_drains hz hrem hle hdst hread, setUart_setUart,
      setUart_setUart, post_eq, ← hmask, conclude_ok]
    rfl
  · rw [Refuses, hsync hdma hok, hcommit hfits, trySatisfy_refused hz hrem hle hmem, conclude_refuse]
  · rw [hsync hdma hok, rxSync_raises_overflow hy hdelta hrange hover, conclude_raise]
    rfl

/-- Settles O37: the part names the directions, and each direction it names is checked and set by itself. -/
theorem tbEnableAndDisableTheRequests : Obligations.TbEnableAndDisableTheRequests := by
  intro u c s x hx hc
  obtain ⟨p, hp, hread, hwrite, -⟩ := partOf_of_not_reserved hc
  have henable := exec_tbEnable hx hp
  have hrx : (!namesRead p || x.par.hasRxDma) = true ↔ (c ≠ 1#2 → x.par.hasRxDma = true) := by
    simp [hread, imp_iff_not_or]
  have htx : (!namesWrite p || x.par.hasTxDma) = true ↔ (c ≠ 0#2 → x.par.hasTxDma = true) := by
    simp [hwrite, imp_iff_not_or]
  refine ⟨fun ⟨hr, hw⟩ => ?_, fun hlacks => ?_, ?_⟩
  · rw [henable, conclude_require_true (hrx.2 hr), conclude_require_true (htx.2 hw), conclude_ok,
      x.tb.enable_eq hread hwrite]
    rfl
  · by_cases hr : c ≠ 1#2 → x.par.hasRxDma = true
    · have hw : ¬ (c ≠ 0#2 → x.par.hasTxDma = true) := by
        rcases hlacks with ⟨hne, hno⟩ | ⟨hne, hno⟩
        · exact absurd (hr hne) (Bool.eq_false_iff.1 hno)
        · exact fun hw => absurd (hw hne) (Bool.eq_false_iff.1 hno)
      rw [Refuses, henable, conclude_require_true (hrx.2 hr),
        conclude_require_false (Bool.eq_false_iff.2 (mt htx.1 hw))]
    · exact henable.trans (conclude_require_false (Bool.eq_false_iff.2 (mt hrx.1 hr)))
  · rw [exec_tbDisable hx hp, x.tb.disable_eq hread hwrite]
    rfl

end Sys2Proof.Machine

/-! The bus engine (O38 to O43). Each operation is written down once for an engine that is there. A descriptor
word that a procedure reads is either held, and the procedure goes on with it, or refuses the whole; and the
three events that end a transaction end it in one way. -/

namespace Sys2Proof.Machine

/-! ### The words of a descriptor (R65, R69) -/

/-- Four bytes hold one word. -/
theorem holdsWord_unique {s : State} {a : Nat} {v w : Word} (hv : HoldsWord s a v) (hw : HoldsWord s a w) :
    v = w :=
  Except.ok.inj (((readWord_eq_ok s a v).2 hv).symm.trans ((readWord_eq_ok s a w).2 hw))

/-- A procedure that begins with a word that can be read goes on with it. -/
theorem readWord_bind_of {α : Type} {s : State} {a : Nat} {w : Word} {g : Word → Proc α}
    (h : HoldsWord s a w) : (readWord s a >>= g) = g w := by
  rw [(readWord_eq_ok s a w).2 h, proc_ok_bind]

/-- A procedure that begins with a word is refused `X_MEM` if its rest is, for every word it may read: where
none can be read, it is refused there. -/
theorem readWord_bind_refused {α : Type} {s : State} {a : Nat} {g : Word → Proc α}
    (h : ∀ w, HoldsWord s a w → g w = refuse .xMem) : (readWord s a >>= g) = refuse .xMem := by
  by_cases hread : ∃ w, HoldsWord s a w
  · obtain ⟨w, hw⟩ := hread
    rw [readWord_bind_of hw, h w hw]
  · rw [readWord_refused (not_exists.1 hread), refuse_bind]

/-! ### The start sequence (R243) -/

section
variable {e : Engine} {s : State} {t : Word} (hhead : headIs e t)
include hhead

/-- The reference at the head is the one that `start` and the events read. -/
theorem headIs_bind {α : Type} {g : Word → Proc α} : (valueOf e.q.head >>= g) = g t := by
  rw [(Queue.head_eq e.q t).2 hhead, valueOf_some, proc_ok_bind]

/-- `start` of a transaction with a write phase. -/
theorem startHead_writing {wbuf wlen rlen addr : Word} (hwlen : HoldsWord s (t.toNat + 4) wlen)
    (hrlen : HoldsWord s (t.toNat + 12) rlen) (haddr : HoldsWord s (t.toNat + 16) addr)
    (hpos : 0 < wlen.toNat) (hwbuf : HoldsWord s t.toNat wbuf) :
    e.startHead s = .ok (startedWriting e wbuf wlen rlen addr) := by
  have hauto : decide (rlen.toNat = 0) = !decide (0 < rlen.toNat) := by
    simp [← decide_not]
  refine (startHead_eq_ok e _ s).2 ⟨t, wlen, rlen, addr, (Queue.head_eq e.q t).2 hhead, hwlen, hrlen, haddr,
    .inl ⟨hpos, wbuf, hwbuf, ?_⟩⟩
  rw [startedWriting, hauto]
  rfl

/-- `start` of a transaction with no write phase. -/
theorem startHead_reading {rbuf wlen rlen addr : Word} (hwlen : HoldsWord s (t.toNat + 4) wlen)
    (hrlen : HoldsWord s (t.toNat + 12) rlen) (haddr : HoldsWord s (t.toNat + 16) addr)
    (hzero : wlen.toNat = 0) (hrbuf : HoldsWord s (t.toNat + 8) rbuf) :
    e.startHead s = .ok (startedReading e rbuf rlen addr) :=
  (startHead_eq_ok e _ s).2 ⟨t, wlen, rlen, addr, (Queue.head_eq e.q t).2 hhead, hwlen, hrlen, haddr,
    .inr ⟨hzero, rbuf, hrbuf, rfl⟩⟩

/-- `start` reads both lengths and the address, then the pointer of the phase that begins. -/
theorem startHead_refused (hstop : startUnreadable s t) : e.startHead s = refuse .xMem := by
  refine (headIs_bind hhead).trans <| readWord_bind_refused fun wl hwl =>
    readWord_bind_refused fun rl hrl => readWord_bind_refused fun a ha => ?_
  rcases hstop with ⟨j, hj, hnone⟩ | ⟨wlen, hwlen, hpos, hnone⟩ | ⟨hzero, hnone⟩
  · simp only [List.mem_cons, List.not_mem_nil, or_false] at hj
    rcases hj with rfl | rfl | rfl
    · exact absurd hwl (hnone wl)
    · exact absurd hrl (hnone rl)
    · exact absurd ha (hnone a)
  · rw [holdsWord_unique hwl hwlen, if_pos hpos]
    exact readWord_bind_refused fun p hp => absurd hp (hnone p)
  · rw [holdsWord_unique hwl hzero, if_neg (by decide)]
    exact readWord_bind_refused fun p hp => absurd hp (hnone p)

end

/-- Settles O38: the write length decides which channel is armed; every word the start reads can refuse
it. -/
theorem startSequenceOfTheHead : Obligations.StartSequenceOfTheHead := by
  intro e s t hhead
  refine ⟨fun wlen rlen addr hwlen hrlen haddr => ⟨fun wbuf hpos hwbuf => ?_, fun rbuf hzero hrbuf => ?_⟩,
    startHead_refused hhead⟩
  · exact startHead_writing hhead hwlen hrlen haddr hpos hwbuf
  · exact startHead_reading hhead hwlen hrlen haddr hzero hrbuf

/-! ### Validation of a reference (R242, R344) -/

theorem Engine.addressBound_eq (e : Engine) :
    e.addressBound = if e.par.addrW = .bits10 then 2 ^ 10 else 2 ^ 7 := by
  simp [Engine.addressBound, Engine.ext]

theorem validate_misaligned {e : Engine} {s : State} {t : Word} (h : t.toNat % 4 ≠ 0) :
    e.validate s t = refuse .xMem := by
  rw [Engine.validate, beq_false_of_ne h, require_false, refuse_bind]

section
variable {e : Engine} {s : State} {t : Word} (haligned : t.toNat % 4 = 0)
include haligned

/-- The first word an aligned reference is asked for is the address. -/
theorem validate_noAddress (h : ∀ w, ¬ HoldsWord s (t.toNat + 16) w) : e.validate s t = refuse .xMem := by
  rw [Engine.validate, beq_iff_eq.2 haligned, require_true, proc_ok_bind]
  exact readWord_bind_refused fun a ha => absurd ha (h a)

variable {addr : Word} (haddr : HoldsWord s (t.toNat + 16) addr)
include haddr

theorem validate_outOfBound (h : e.addressBound ≤ addr.toNat) : e.validate s t = refuse .xOperand := by
  rw [Engine.validate, beq_iff_eq.2 haligned, require_true, proc_ok_bind, descAddr, readWord_bind_of haddr,
    decide_eq_false (Nat.not_lt.2 h), require_false, refuse_bind]

variable (hbound : addr.toNat < e.addressBound)
include hbound

/-- Once the address is in bound, the other words are read before the lengths are looked at. -/
theorem validate_inBound :
    e.validate s t = descWbuf s t >>= fun _ => descWlen s t >>= fun wl => descRbuf s t >>= fun _ =>
      descRlen s t >>= fun rl => descHandle s t >>= fun _ =>
      require (wl != 0#32 || rl != 0#32) .xEmptyTxn := by
  rw [Engine.validate, beq_iff_eq.2 haligned, require_true, proc_ok_bind, descAddr, readWord_bind_of haddr,
    decide_eq_true hbound, require_true, proc_ok_bind]

theorem validate_unreadable (h : ∃ j < 6, ∀ w, ¬ HoldsWord s (t.toNat + 4 * j) w) :
    e.validate s t = refuse .xMem := by
  rw [validate_inBound haligned haddr hbound]
  refine readWord_bind_refused fun wbuf hwbuf => readWord_bind_refused fun wlen hwlen =>
    readWord_bind_refused fun rbuf hrbuf => readWord_bind_refused fun rlen hrlen =>
    readWord_bind_refused fun handle hhandle => ?_
  obtain ⟨j, hj, hnone⟩ := h
  match j, hj with
  | 0, _ => exact absurd hwbuf (hnone wbuf)
  | 1, _ => exact absurd hwlen (hnone wlen)
  | 2, _ => exact absurd hrbuf (hnone rbuf)
  | 3, _ => exact absurd hrlen (hnone rlen)
  | 4, _ => exact absurd haddr (hnone addr)
  | 5, _ => exact absurd hhandle (hnone handle)

theorem validate_empty {wbuf rbuf handle : Word} (hwbuf : HoldsWord s t.toNat wbuf)
    (hwlen : HoldsWord s (t.toNat + 4) 0#32) (hrbuf : HoldsWord s (t.toNat + 8) rbuf)
    (hrlen : HoldsWord s (t.toNat + 12) 0#32) (hhandle : HoldsWord s (t.toNat + 20) handle) :
    e.validate s t = refuse .xEmptyTxn := by
  rw [validate_inBound haligned haddr hbound, descWbuf, readWord_bind_of hwbuf, descWlen,
    readWord_bind_of hwlen, descRbuf, readWord_bind_of hrbuf, descRlen, readWord_bind_of hrlen, descHandle,
    readWord_bind_of hhandle]
  rfl

end

/-! ### The end of a transaction (R250 to R252) -/

/-- With nothing left in the queue the engine shuts down. -/
theorem finish_next_shutsDown {e : Engine} {s : State} (h : e.q.ix.used = 1) :
    e.finish.next s = .ok (endedAndShutDown e) := by
  rw [finish_next_of_one s h, endedAndShutDown, h]

/-- With a transaction left in the queue, the next one is started. -/
theorem finish_next_starts {e : Engine} {s : State} (h : 2 ≤ e.q.ix.used) :
    e.finish.next s = (ended e).startHead s := finish_next_of_more s h

/-- The operation `i` ends the transaction in flight on engine `n`, which stands as `e` with what the event has
logged; `p` is the state with what the event has posted. -/
structure EndsTransaction (i : Instr) (s p : State) (n : Nat) (e : Engine) : Prop where
  last : e.q.ix.used = 1 → exec i s = .next (p.setEngine n (endedAndShutDown e))
  more : ∀ d, 2 ≤ e.q.ix.used → (ended e).startHead s = .ok d → exec i s = .next (p.setEngine n d)
  unreadable : ∀ t, 2 ≤ e.q.ix.used → headIs (ended e) t → startUnreadable s t → Refuses i s .xMem

theorem EndsTransaction.of_exec {i : Instr} {s p : State} {n : Nat} {e : Engine}
    (hexec : exec i s = conclude s (e.finish.next s >>= fun d => .ok (p.setEngine n d))) :
    EndsTransaction i s p n e where
  last hone := by rw [hexec, finish_next_shutsDown hone, proc_ok_bind, conclude_ok]
  more d htwo hd := by rw [hexec, finish_next_starts htwo, hd, proc_ok_bind, conclude_ok]
  unreadable t htwo hhead hstop := by
    rw [Refuses, hexec, finish_next_starts htwo, startHead_refused hhead hstop, refuse_bind, conclude_refuse]

/-! ### When an event is admitted (R244, R253) -/

/-- A guard of two parts fails if one of them does. -/
theorem guard_eq_false {g a : Bool} {P : Prop} (hg : g = true ↔ a = true ∧ P) (h : a = false ∨ ¬ P) :
    g = false :=
  Bool.eq_false_iff.2 fun hok => h.elim (Bool.eq_false_iff.1 · (hg.1 hok).1) (· (hg.1 hok).2)

section
variable (e : Engine)

theorem Engine.eventOk_iff : e.eventOk = true ↔ e.evIrq.enabled = true ∧ e.st ≠ .idle := by
  simp [Engine.eventOk]

/-- The channel of the running phase has stopped (R247). -/
theorem Engine.phaseRunning_eq_false : e.phaseRunning = false ↔
    (e.phase = some .w ∧ e.txch.running = false) ∨ (e.phase = some .r ∧ e.rxch.running = false) := by
  rw [Engine.phaseRunning]
  rcases e.phase with _ | _ | _ <;> simp

/-- The guard of `BTE.EVADDR` (R245). -/
theorem Engine.evAddrOk_iff : (e.eventOk && e.st == .addressPhase) = true ↔
    e.evIrq.enabled = true ∧ e.st = .addressPhase := by
  rw [Bool.and_eq_true, e.eventOk_iff, beq_iff_eq, and_assoc]
  exact and_congr_right fun _ => and_iff_right_of_imp fun h => by rw [h]; decide

/-- The guard of `BTE.EVTC` (R246). -/
theorem Engine.evTcOk_iff :
    (e.eventOk && (e.st == .addressPhase || e.st == .dataPhaseWrite) && e.phase == some .w &&
      e.autoStop == some false && !e.txch.running) = true ↔
    e.evIrq.enabled = true ∧ (e.st = .addressPhase ∨ e.st = .dataPhaseWrite) ∧ e.phase = some .w ∧
      e.autoStop = some false ∧ e.txch.running = false := by
  have hbusy (h : e.st = .addressPhase ∨ e.st = .dataPhaseWrite) : e.st ≠ .idle := by
    rcases h with h | h <;> rw [h] <;> decide
  simp only [Bool.and_eq_true, e.eventOk_iff, Bool.or_eq_true, beq_iff_eq, Bool.not_eq_true', and_assoc]
  exact and_congr_right fun _ => and_iff_right_of_imp fun h => hbusy h.1

/-- The guard of `BTE.EVSTOP` (R247). -/
theorem Engine.evStopOk_iff : (e.eventOk && e.autoStop == some true && !e.phaseRunning) = true ↔
    e.evIrq.enabled = true ∧ e.st ≠ .idle ∧ e.autoStop = some true ∧
      ((e.phase = some .w ∧ e.txch.running = false) ∨ (e.phase = some .r ∧ e.rxch.running = false)) := by
  rw [Bool.and_eq_true, Bool.and_eq_true, e.eventOk_iff, beq_iff_eq, Bool.not_eq_true',
    e.phaseRunning_eq_false, and_assoc, and_assoc]

/-- The guard of `BTE.EVERR` (R249). -/
theorem Engine.evErrOk_iff : (e.errIrq.enabled && e.st != .idle) = true ↔
    e.errIrq.enabled = true ∧ e.st ≠ .idle := by
  rw [Bool.and_eq_true, bne_iff_ne]

end

/-! ### The operations of an engine that is there -/

section
variable {n : BitVec 4} {s : State} {e : Engine} (he : s.engines[n.toNat]? = some e)
include he

/-- `BTE.SUBMIT` (R241). -/
theorem exec_bteSubmit :
    exec (.bteSubmit n .fg) s = conclude s (
      e.validate s s.portFg.arg0 >>= fun _ =>
      if e.q.ix.used = e.q.ix.n then .ok (s.setRes0 .fg 0#32)
      else if e.st = .idle then
        Engine.startHead { e with q := e.q.push s.portFg.arg0 } s >>= fun d =>
        .ok ((s.setEngine n.toNat d).setRes0 .fg 1#32)
      else .ok ((s.setEngine n.toNat { e with q := e.q.push s.portFg.arg0 }).setRes0 .fg 1#32)) := by
  show execBteSubmit n .fg s = _
  rw [execBteSubmit, engineFor_of he, proc_ok_bind]
  rfl

/-- `BTE.SUBMIT` of a reference that is not valid (R242). -/
theorem refuses_bteSubmit {c : RefuseCode} (h : e.validate s s.portFg.arg0 = refuse c) :
    Refuses (.bteSubmit n .fg) s c := by
  rw [Refuses, exec_bteSubmit he, h, refuse_bind, conclude_refuse]

section
variable (hvalid : e.validate s s.portFg.arg0 = .ok ())
include hvalid

/-- `BTE.SUBMIT` on a full queue (R241). -/
theorem exec_bteSubmit_full (hfull : e.q.ix.used = e.q.ix.n) :
    exec (.bteSubmit n .fg) s = .next (s.setRes0 .fg 0#32) := by
  rw [exec_bteSubmit he, hvalid, proc_ok_bind, if_pos hfull, conclude_ok]

/-- `BTE.SUBMIT` on a busy bus (R241). -/
theorem exec_bteSubmit_busy (hroom : e.q.ix.used ≠ e.q.ix.n) (hbusy : e.st ≠ .idle) :
    exec (.bteSubmit n .fg) s =
      .next ((s.setEngine n.toNat { e with q := e.q.push s.portFg.arg0 }).setRes0 .fg 1#32) := by
  rw [exec_bteSubmit he, hvalid, proc_ok_bind, if_neg hroom, if_neg hbusy, conclude_ok]

/-- `BTE.SUBMIT` on an idle bus (R241, R243). -/
theorem exec_bteSubmit_idle {d : Engine} (hroom : e.q.ix.used ≠ e.q.ix.n) (hidle : e.st = .idle)
    (hstart : Engine.startHead { e with q := e.q.push s.portFg.arg0 } s = .ok d) :
    exec (.bteSubmit n .fg) s = .next ((s.setEngine n.toNat d).setRes0 .fg 1#32) := by
  rw [exec_bteSubmit he, hvalid, proc_ok_bind, if_neg hroom, if_pos hidle, hstart, proc_ok_bind, conclude_ok]

end

/-- `BTE.EVADDR` (R245). -/
theorem exec_bteEvAddr :
    exec (.bteEvAddr n .pirq) s = conclude s (
      require (e.eventOk && e.st == .addressPhase) .xState >>= fun _ =>
      valueOf e.phase >>= fun p =>
      .ok (s.setEngine n.toNat { e with st := if p = .w then .dataPhaseWrite else .dataPhaseRead })) := by
  show execBteEvAddr n .pirq s = _
  rw [execBteEvAddr, engineFor_of he, proc_ok_bind]

/-- `BTE.EVTC` (R246). -/
theorem exec_bteEvTc :
    exec (.bteEvTc n .pirq) s = conclude s (
      require (e.eventOk && (e.st == .addressPhase || e.st == .dataPhaseWrite) && e.phase == some .w &&
        e.autoStop == some false && !e.txch.running) .xState >>= fun _ =>
      valueOf e.q.head >>= fun t =>
      readWord s (t.toNat + 8) >>= fun p => readWord s (t.toNat + 12) >>= fun k =>
      readWord s (t.toNat + 16) >>= fun a =>
      .ok (s.setEngine n.toNat (Engine.setPhase { e.emit (.rstart a .rd e.ext) with
        dmaTxEn := false, rxch := e.rxch.arm p.toNat k.toNat, dmaRxEn := true }
        .r k.toNat true .dataPhaseRead))) := by
  show execBteEvTc n .pirq s = _
  rw [execBteEvTc, engineFor_of he, proc_ok_bind]
  rfl

/-- `BTE.EVSTOP` (R247). -/
theorem exec_bteEvStop :
    exec (.bteEvStop n .pirq) s = conclude s (
      require (e.eventOk && e.autoStop == some true && !e.phaseRunning) .xState >>= fun _ =>
      valueOf e.q.head >>= fun t =>
      readWord s (t.toNat + 20) >>= fun h =>
      (e.emit .stop).finish.next s >>= fun d =>
      .ok ((if h = 0#32 then s else post h .success s).setEngine n.toNat d)) := by
  show execBteEvStop n .pirq s = _
  rw [execBteEvStop, engineFor_of he, proc_ok_bind]
  rfl

/-- `BTE.EVNACK` (R248). -/
theorem exec_bteEvNack :
    exec (.bteEvNack n .pirq) s = conclude s (
      require e.eventOk .xState >>= fun _ =>
      (e.emit .nack).finish.next s >>= fun d => .ok (s.setEngine n.toNat d)) := by
  show execBteEvNack n .pirq s = _
  rw [execBteEvNack, engineFor_of he, proc_ok_bind]

/-- `BTE.EVERR` with a kind that is not reserved (R249). -/
theorem exec_bteEvErr {c : BitVec 8} {k : Kind} (hk : busErrorOf c = some k) :
    exec (.bteEvErr n .pirq c) s = conclude s (
      require (e.errIrq.enabled && e.st != .idle) .xState >>= fun _ =>
      (e.reportError k).finish.next s >>= fun d => .ok (s.setEngine n.toNat d)) := by
  show execBteEvErr n .pirq c s = _
  rw [execBteEvErr, hk, field_some, proc_ok_bind, engineFor_of he, proc_ok_bind]

/-- `BTE.DMADONE` of the outbound channel (R254). -/
theorem exec_bteDmaDone_tx :
    exec (.bteDmaDone n .dirq 0#1) s = conclude s (
      require (e.txdmaIrq.enabled && e.txch.complete) .xState >>= fun _ =>
      .ok (s.setEngine n.toNat { e with txch := { e.txch with done := false } })) := by
  show execBteDmaDone n .dirq 0#1 s = _
  rw [execBteDmaDone, engineFor_of he, proc_ok_bind, if_pos rfl]

/-- `BTE.DMADONE` of the inbound channel (R254). -/
theorem exec_bteDmaDone_rx :
    exec (.bteDmaDone n .dirq 1#1) s = conclude s (
      require (e.rxdmaIrq.enabled && e.rxch.complete) .xState >>= fun _ =>
      .ok (s.setEngine n.toNat { e with rxch := { e.rxch with done := false } })) := by
  show execBteDmaDone n .dirq 1#1 s = _
  rw [execBteDmaDone, engineFor_of he, proc_ok_bind, if_neg (by decide)]

end

/-! ### The statements -/

/-- Settles O39: the checks of `validate` stand in the order of R344; on an idle bus the reference just queued
is the head, and it starts. -/
theorem bteSubmitQueuesOrStarts : Obligations.BteSubmitQueuesOrStarts := by
  intro n s e wbuf wlen rbuf rlen addr handle he t i bound readable queued valid
  have hbound : e.addressBound = bound := e.addressBound_eq
  have hok (hv : valid) : e.validate s t = .ok () := by
    obtain ⟨haligned, ⟨hwbuf, hwlen, hrbuf, hrlen, haddr, hhandle⟩, hin, hphase⟩ := hv
    exact (validate_eq_ok e s t).2 ⟨haligned, wbuf, wlen, rbuf, rlen, addr, handle, hwbuf, hwlen, hrbuf,
      hrlen, haddr, hhandle, hbound ▸ hin, hphase⟩
  refine ⟨fun hv => exec_bteSubmit_full he (hok hv), fun hv => exec_bteSubmit_busy he (hok hv),
    fun hv hroom hidle hends hslot => ?_, fun h => ?_, fun haligned h => ?_, fun haligned haddr hout => ?_,
    fun haligned haddr hin h => ?_, fun haligned hread hin hw hr => ?_⟩
  · refine exec_bteSubmit_idle he (hok hv) hroom hidle ?_
    obtain ⟨-, ⟨hwbuf, hwlen, hrbuf, hrlen, haddr, -⟩, -, -⟩ := hv
    have hhead : headIs queued t := by
      rw [headIs, ← hends]
      exact List.getElem?_set_self hslot
    split
    · next hw => exact startHead_reading hhead hwlen hrlen haddr (congrArg BitVec.toNat hw) hrbuf
    · next hw =>
      have hpos : 0 < wlen.toNat := Nat.pos_of_ne_zero fun h0 => hw (BitVec.eq_of_toNat_eq h0)
      exact startHead_writing hhead hwlen hrlen haddr hpos hwbuf
  · exact refuses_bteSubmit he (validate_misaligned h)
  · exact refuses_bteSubmit he (validate_noAddress haligned h)
  · exact refuses_bteSubmit he (validate_outOfBound haligned haddr (hbound ▸ hout))
  · exact refuses_bteSubmit he (validate_unreadable haligned haddr (hbound ▸ hin) h)
  · obtain ⟨hwbuf, hwlen, hrbuf, hrlen, haddr, hhandle⟩ := hread
    subst hw hr
    exact refuses_bteSubmit he
      (validate_empty haligned haddr (hbound ▸ hin) hwbuf hwlen hrbuf hrlen hhandle)

/-- Settles O40: each event is decided by its guard; the read phase asks for three words of the descriptor and
is refused for any of them. -/
theorem bteAddressAndPhaseChange : Obligations.BteAddressAndPhaseChange := by
  intro n s e he admitted
  have haddrEvent := exec_bteEvAddr he
  have htcEvent := exec_bteEvTc he
  refine ⟨fun hon hst => ?_, fun hnot => ?_, fun t rbuf rlen addr hok hhead hrbuf hrlen haddr => ?_,
    fun t hok hhead ⟨j, hj, hnone⟩ => ?_, fun hnot => ?_⟩
  · rw [haddrEvent, conclude_require_true (e.evAddrOk_iff.2 ⟨hon, hst⟩)]
    exact ⟨fun hw => by rw [hw]; rfl, fun hr => by rw [hr]; rfl⟩
  · exact haddrEvent.trans (conclude_require_false (guard_eq_false e.evAddrOk_iff hnot))
  · rw [htcEvent, conclude_require_true (e.evTcOk_iff.2 hok), headIs_bind hhead, readWord_bind_of hrbuf,
      readWord_bind_of hrlen, readWord_bind_of haddr, conclude_ok]
    rfl
  · rw [Refuses, htcEvent, conclude_require_true (e.evTcOk_iff.2 hok), headIs_bind hhead]
    refine congrArg (conclude s) <| readWord_bind_refused fun p hp => readWord_bind_refused fun k hk =>
      readWord_bind_refused fun a ha => ?_
    simp only [List.mem_cons, List.not_mem_nil, or_false] at hj
    rcases hj with rfl | rfl | rfl
    · exact absurd hp (hnone p)
    · exact absurd hk (hnone k)
    · exact absurd ha (hnone a)
  · exact htcEvent.trans (conclude_require_false (Bool.eq_false_iff.2 (mt e.evTcOk_iff.1 hnot)))

/-- Settles O41: with its guard and its handle the event ends the transaction, on the state with the completion
posted; without a handle to read it is refused before that. -/
theorem bteStopCompletesTheTransaction : Obligations.BteStopCompletesTheTransaction := by
  intro n s e he hmask i admitted logged
  have hexec := exec_bteEvStop he
  have hpost (h : Word) : (if h = 0#32 then s else post h .success s) =
      { s with evq := if h = 0#32 then s.evq else s.evq ++ [(h, Kind.success)] } := by
    split
    · rfl
    · rw [post_eq, ← hmask]
  have hends {t h : Word} (hok : admitted) (hhead : headIs e t) (hh : HoldsWord s (t.toNat + 20) h) :
      EndsTransaction i s { s with evq := if h = 0#32 then s.evq else s.evq ++ [(h, Kind.success)] }
        n.toNat logged := by
    refine .of_exec ?_
    rw [hexec, conclude_require_true (e.evStopOk_iff.2 hok), headIs_bind hhead, readWord_bind_of hh, hpost]
    rfl
  have hnoHandle {t : Word} (hok : admitted) (hhead : headIs e t)
      (hnone : ∀ w, ¬ HoldsWord s (t.toNat + 20) w) : Refuses i s .xMem := by
    rw [Refuses, hexec, conclude_require_true (e.evStopOk_iff.2 hok), headIs_bind hhead,
      readWord_refused hnone, refuse_bind, conclude_refuse]
  refine ⟨fun t h hok hhead hh _ => ?_, fun t => hnoHandle, fun t t' hok hhead htwo hnext hstop => ?_,
    fun hnot => ?_⟩
  · exact ⟨(hends hok hhead hh).last, (hends hok hhead hh).more⟩
  · by_cases hread : ∃ h, HoldsWord s (t.toNat + 20) h
    · obtain ⟨h, hh⟩ := hread
      exact (hends hok hhead hh).unreadable t' htwo hnext hstop
    · exact hnoHandle hok hhead (not_exists.1 hread)
  · exact hexec.trans (conclude_require_false (Bool.eq_false_iff.2 (mt e.evStopOk_iff.1 hnot)))

/-- The five kinds of R249 and their codes. -/
theorem busErrorOf_listed : ∀ c ∈ [((0x11#8 : BitVec 8), Kind.busError), (0x12#8, .arbitrationLost),
    (0x14#8, .overrunUnderrun), (0x15#8, .timingError), (0x16#8, .protocolAlert)],
    busErrorOf c.1 = some c.2 := by decide

/-- Settles O42: each event is decided by its guard and then ends the transaction, on the engine with its log
entry; nothing is posted. -/
theorem bteFailuresDropOnlyTheInFlight : Obligations.BteFailuresDropOnlyTheInFlight := by
  intro n s e he
  have hnack := exec_bteEvNack he
  refine ⟨fun hon hst _ => ?_, fun hnot => ?_, fun c hc => ?_⟩
  · obtain ⟨hlast, hmore, hunreadable⟩ := EndsTransaction.of_exec
      (hnack.trans (conclude_require_true (e.eventOk_iff.2 ⟨hon, hst⟩)))
    exact ⟨hlast, hmore, hunreadable⟩
  · exact hnack.trans (conclude_require_false (guard_eq_false e.eventOk_iff (hnot.imp_right not_not.2)))
  have herr := exec_bteEvErr he (busErrorOf_listed c hc)
  refine ⟨fun hon hst _ => ?_, fun hnot => ?_⟩
  · obtain ⟨hlast, hmore, hunreadable⟩ := EndsTransaction.of_exec
      (herr.trans (conclude_require_true (e.evErrOk_iff.2 ⟨hon, hst⟩)))
    exact ⟨hlast, hmore, hunreadable⟩
  · exact herr.trans (conclude_require_false (guard_eq_false e.evErrOk_iff (hnot.imp_right not_not.2)))

/-- Settles O43: the guard asks for the line and the completion alone, never for the state of the bus. -/
theorem bteDmaDoneOnlyAcknowledges : Obligations.BteDmaDoneOnlyAcknowledges := by
  intro n s e he
  have htx := exec_bteDmaDone_tx he
  have hrx := exec_bteDmaDone_rx he
  refine ⟨fun hon hdone => ?_, fun hnot => ?_, fun hon hdone => ?_, fun hnot => ?_⟩
  · exact htx.trans (conclude_require_true (Bool.and_eq_true_iff.2 ⟨hon, hdone⟩))
  · exact htx.trans (conclude_require_false (Bool.and_eq_false_iff.2 hnot))
  · exact hrx.trans (conclude_require_true (Bool.and_eq_true_iff.2 ⟨hon, hdone⟩))
  · exact hrx.trans (conclude_require_false (Bool.and_eq_false_iff.2 hnot))

end Sys2Proof.Machine

/-! Host access to MEM (O14, O15). The two operations make their checks in the same order, the access size,
the value, then the address; each is written down once for a size that is not reserved. -/

namespace Sys2Proof.Machine

/-! ### Bytes and values (R63) -/

/-- A load of `n` bytes that hold values answers their little-endian sum. -/
theorem Memory.readLE_eq_sum {m : Memory} {a n : Nat} {b : Nat → Byte}
    (h : ∀ k < n, Memory.read m (a + k) = some (b k)) :
    Memory.readLE m a n = some ((List.range n).map fun k => (b k).toNat * 256 ^ k).sum := by
  induction n generalizing a b with
  | zero => rfl
  | succ n ih =>
    have hrest : Memory.readLE m (a + 1) n =
        some ((List.range n).map fun k => (b (k + 1)).toNat * 256 ^ k).sum :=
      ih fun k hk => by rw [Nat.add_assoc, Nat.add_comm 1, h (k + 1) (by omega)]
    have hshift : (fun k => (b (k + 1)).toNat * 256 ^ (k + 1)) =
        fun k => 256 * ((b (k + 1)).toNat * 256 ^ k) := by
      funext k
      rw [pow_succ']
      ring
    have hfirst : Memory.read m a = some (b 0) := h 0 (Nat.succ_pos n)
    rw [Memory.readLE, hfirst, hrest, List.range_succ_eq_map, List.map_cons, List.map_map, List.sum_cons,
      Function.comp_def, hshift, List.sum_map_mul_left, pow_zero, mul_one]

/-- A load is not answered where a byte holds no value. -/
theorem Memory.readLE_eq_none {m : Memory} {a n k : Nat} (hk : k < n)
    (h : Memory.read m (a + k) = none) : Memory.readLE m a n = none := by
  rw [← Option.not_isSome_iff_eq_none, Memory.readLE_isSome]
  intro hall
  simpa [h] using hall k hk

/-- What MEM reads after a little-endian store: the bytes of the value, and elsewhere what it read before. -/
theorem Memory.read_writeLE (m : Memory) (a n v c : Nat) :
    Memory.read (Memory.writeLE m a n v) c =
      if a ≤ c ∧ c < a + n then some (BitVec.ofNat 8 (v >>> (8 * (c - a)))) else Memory.read m c := by
  split
  · next h =>
    obtain ⟨i, rfl⟩ := Nat.exists_eq_add_of_le h.1
    rw [Memory.read_writeLE_self m a n v i (by omega), Nat.add_sub_cancel_left, Nat.shiftRight_eq_div_pow,
      pow_mul]
    rfl
  · exact Memory.read_writeLE_other m a n v c (by omega)

/-! ### The operations with an access size that is not reserved (R93) -/

theorem accessSize_listed : ∀ n ∈ [1, 2, 4], accessSize (BitVec.ofNat 3 n) = some n := by decide

/-- The check of the address (R69, R315, R316). -/
theorem aligned_admitted_iff (s : State) (a : Nat) {n : Nat} (hn : 0 < n) :
    (a % n == 0 && admitted s.regions a n) = true ↔ a % n = 0 ∧ InRegion s a n := by
  rw [Bool.and_eq_true, beq_iff_eq, admitted_iff s a n hn]

/-- The check of the value (R316): a word always fits four bytes. -/
theorem storeFits_iff (w : Word) (n : Nat) :
    (n == 4 || decide (w.toNat < 2 ^ (8 * n))) = true ↔ w.toNat < 2 ^ (8 * n) := by
  rw [Bool.or_eq_true, beq_iff_eq, decide_eq_true_iff]
  refine ⟨fun h => h.elim ?_ id, .inr⟩
  rintro rfl
  exact w.isLt

section
variable {c : BitVec 3} {n : Nat} (hc : accessSize c = some n) (s : State)
include hc

/-- `MEM.ST` (R316). -/
theorem exec_memSt : exec (.memSt 0#4 .fg c) s = conclude s (
    require (n == 4 || decide (s.portFg.arg1.toNat < 2 ^ (8 * n))) .xOperand >>= fun _ =>
    require (s.portFg.arg0.toNat % n == 0 && admitted s.regions s.portFg.arg0.toNat n) .xMem >>= fun _ =>
    .ok (s.setMem (Memory.writeLE s.mem s.portFg.arg0.toNat n s.portFg.arg1.toNat))) := by
  show execMemSt 0#4 .fg c s = _
  rw [execMemSt, hc, field_some, proc_ok_bind]
  rfl

/-- `MEM.LD` of bytes that hold the value `v` (R315). -/
theorem exec_memLd {v : Nat} (hv : Memory.readLE s.mem s.portFg.arg0.toNat n = some v) :
    exec (.memLd 0#4 .fg c) s = conclude s (
      require (s.portFg.arg0.toNat % n == 0 && admitted s.regions s.portFg.arg0.toNat n) .xMem >>= fun _ =>
      .ok (s.setRes0 .fg (zext32 v))) := by
  show execMemLd 0#4 .fg c s = _
  simp only [execMemLd, State.port, hc, field_some, proc_ok_bind, hv]
  rfl

/-- `MEM.LD` that fails the check of the address, or finds a byte without a value (R315). -/
theorem refuses_memLd
    (h : (s.portFg.arg0.toNat % n == 0 && admitted s.regions s.portFg.arg0.toNat n) = false ∨
      Memory.readLE s.mem s.portFg.arg0.toNat n = none) : Refuses (.memLd 0#4 .fg c) s .xMem := by
  show execMemLd 0#4 .fg c s = _
  rw [execMemLd, hc, field_some, proc_ok_bind]
  rcases h with hbad | hnone
  · exact conclude_require_false hbad
  · simp only [State.port, hnone, require_bind, ite_self]
    rfl

end

/-! ### The statements -/

/-- Settles O14: the value is checked before the address, and what passes both is stored byte by byte. -/
theorem memStoreWritesItsBytes : Obligations.MemStoreWritesItsBytes := by
  intro n hn s a v i
  have hsize := accessSize_listed n hn
  have hexec := exec_memSt hsize s
  have hvalue := storeFits_iff s.portFg.arg1 n
  have haddr := aligned_admitted_iff s a (accessSize_pos hsize)
  refine ⟨fun hv halign hin => ⟨Memory.writeLE s.mem a n v, ?_, Memory.read_writeLE s.mem a n v⟩,
    fun hv => ?_, fun hv hbad => ?_⟩
  · exact hexec.trans <| (conclude_require_true (hvalue.2 hv)).trans
      (conclude_require_true (haddr.2 ⟨halign, hin⟩))
  · exact hexec.trans (conclude_require_false (Bool.eq_false_iff.2 (mt hvalue.1 (Nat.not_lt.2 hv))))
  · exact hexec.trans <| (conclude_require_true (hvalue.2 hv)).trans <|
      conclude_require_false (Bool.eq_false_iff.2 (mt haddr.1 (not_and_or.2 hbad)))

/-- Settles O15: an address that passes the check is loaded from if every byte holds a value. -/
theorem memLoadReadsLittleEndian : Obligations.MemLoadReadsLittleEndian := by
  intro n hn s a i
  have hsize := accessSize_listed n hn
  have haddr := aligned_admitted_iff s a (accessSize_pos hsize)
  refine ⟨fun halign hin b hb => ?_, fun hbad => ?_⟩
  · exact (exec_memLd hsize s (Memory.readLE_eq_sum hb)).trans
      (conclude_require_true (haddr.2 ⟨halign, hin⟩))
  · refine refuses_memLd hsize s ?_
    by_cases hok : a % n = 0 ∧ InRegion s a n
    · obtain ⟨k, hk, hnone⟩ := (hbad.resolve_left (not_not.2 hok.1)).resolve_left (not_not.2 hok.2)
      exact .inr (Memory.readLE_eq_none hk hnone)
    · exact .inl (Bool.eq_false_iff.2 (mt haddr.1 hok))

end Sys2Proof.Machine

/-! The serial line (O44, O45). Each operation is written down once for a UART that is there; a frame that
arrives is lost, overruns or is delivered, and a delivered one sets its flags bit by bit. -/

namespace Sys2Proof.Machine

/-! ### Flags and guards, as propositions (R28, R300, R305) -/

section
variable (l : LineDriver) (p : Line)

theorem LineDriver.receiverOn_iff : l.receiverOn = true ↔ l.rxEn = .enabled ∧ l.periphEn = true := by
  rw [LineDriver.receiverOn, Bool.and_eq_true, beq_iff_eq]

theorem LineDriver.transmitterOn_iff :
    l.transmitterOn = true ↔ l.txEn = .enabled ∧ l.periphEn = true := by
  rw [LineDriver.transmitterOn, Bool.and_eq_true, beq_iff_eq]

/-- A unit is bounded by the frame shape, if one was set (R300). -/
theorem LineDriver.unitFits_iff (v : Word) :
    l.unitFits v = true ↔ ∀ d, l.dataBits = some d → v.toNat < 2 ^ d := by
  unfold LineDriver.unitFits
  split <;> simp [*]

/-- The error latch (R301). -/
theorem Line.latched_iff :
    p.latched = true ↔ p.sr.getLsbD 0 = true ∨ p.sr.getLsbD 1 = true ∨ p.sr.getLsbD 3 = true := by
  rw [Line.latched, Bool.or_eq_true, Bool.or_eq_true, or_assoc]
  rfl

/-- Setting a flag touches the bit of its condition alone (R28). -/
theorem Line.setFlag_flag (c b : Nat) (hb : b < 9) :
    (p.setFlag c).flag b = (p.flag b || decide (b = c)) := by
  have hbit : (1#9 <<< c).getLsbD b = decide (b = c) := by
    rw [BitVec.getLsbD_shiftLeft, BitVec.getLsbD_one, Bool.eq_iff_iff]
    simp
    omega
  rw [Line.flag, Line.setFlag, BitVec.getLsbD_or, hbit, Line.flag]

theorem Line.setFlagIf_flag (f : Bool) (c b : Nat) (hb : b < 9) :
    (p.setFlagIf f c).flag b = (p.flag b || (decide (b = c) && f)) := by
  cases f with
  | false => rw [Bool.and_false, Bool.or_false]; rfl
  | true => rw [Bool.and_true]; exact p.setFlag_flag c b hb

theorem Line.setFlagIf_rdr (f : Bool) (c : Nat) : (p.setFlagIf f c).rdr = p.rdr := by cases f <;> rfl

end

/-! ### An arriving frame (R300, R301) -/

section
variable {p : Line} (v : Word) (flags : BitVec 4)

theorem Line.receive_lost (h : p.latched = true) : p.receive v flags = p := if_pos h

section
variable (hclear : ¬p.latched = true)
include hclear

theorem Line.receive_overruns (h : p.flag bitRXNE = true) : p.receive v flags = p.setFlag bitORE := by
  rw [Line.receive, if_neg hclear, if_pos h]

section
variable (hempty : ¬p.flag bitRXNE = true)
include hempty

/-- A delivered unit waits, and every status bit is as the frame's flags say. -/
theorem Line.receive_delivers : p.receive v flags = { p with
    rdr := some v
    sr := (p.receive v flags).sr } := by
  have hrdr : (p.receive v flags).rdr = some v := by
    rw [Line.receive, if_neg hclear, if_neg hempty]
    simp only [Line.setFlagIf_rdr]
    rfl
  rw [← hrdr, ← p.receive_txLine v flags]

theorem Line.receive_flag (b : Nat) (hb : b < 9) : (p.receive v flags).flag b = (p.flag b ||
    decide (b = 5) || (decide (b = 1) && flags.getLsbD 0) || (decide (b = 2) && flags.getLsbD 1) ||
    (decide (b = 3) && flags.getLsbD 2) || (decide (b = 4) && flags.getLsbD 3)) := by
  rw [Line.receive, if_neg hclear, if_neg hempty, Line.setFlagIf_flag _ _ _ _ hb,
    Line.setFlagIf_flag _ _ _ _ hb, Line.setFlagIf_flag _ _ _ _ hb, Line.setFlagIf_flag _ _ _ _ hb,
    Line.setFlag_flag _ _ _ hb]
  rfl

end
end
end

/-! ### The operations of a UART that is there -/

section
variable {u : BitVec 4} {s : State} {x : Uart} (hx : s.uarts[u.toNat]? = some x)
include hx

/-- `LINE.RX` (R300). -/
theorem exec_lineRx (flags : BitVec 4) :
    exec (.lineRx u .env flags) s = conclude s (
      require (x.ld.unitFits s.portEnv.arg0) .xOperand >>= fun _ =>
      .ok (if x.ld.receiverOn then
        s.setUart u.toNat { x with line := x.line.receive s.portEnv.arg0 flags } else s)) := by
  show execLineRx u .env flags s = _
  rw [execLineRx, uartFor_of hx, proc_ok_bind]
  rfl

/-- `LINE.TXREADY` (R305). -/
theorem exec_lineTxReady :
    exec (.lineTxReady u .env) s = conclude s (
      require (x.ld.transmitterOn && !x.line.flag bitTXE) .xState >>= fun _ =>
      .ok (s.setUart u.toNat { x with line := x.line.setFlag bitTXE })) := by
  show execLineTxReady u .env s = _
  rw [execLineTxReady, uartFor_of hx, proc_ok_bind]

/-- `LINE.TXCOMPLETE` (R306). -/
theorem exec_lineTxComplete :
    exec (.lineTxComplete u .env) s = conclude s (
      require (x.ld.transmitterOn && x.line.flag bitTXE && !x.line.flag bitTC) .xState >>= fun _ =>
      .ok (s.setUart u.toNat { x with line := x.line.setFlag bitTC })) := by
  show execLineTxComplete u .env s = _
  rw [execLineTxComplete, uartFor_of hx, proc_ok_bind]

/-- `LINE.IDLE` (R302). -/
theorem exec_lineIdle :
    exec (.lineIdle u .env) s = .next (if x.ld.receiverOn then
      s.setUart u.toNat { x with line := x.line.setFlag bitIDLE } else s) := by
  show execLineIdle u .env s = _
  rw [execLineIdle, uartFor_of hx, proc_ok_bind, conclude_ok]

end

/-! ### The guards of the transmitter -/

section
variable (x : Uart)

theorem txReadyGuard_iff : (x.ld.transmitterOn && !x.line.flag bitTXE) = true ↔
    (x.ld.txEn = .enabled ∧ x.ld.periphEn = true) ∧ x.line.sr.getLsbD 6 = false := by
  rw [Bool.and_eq_true, x.ld.transmitterOn_iff, Bool.not_eq_true', Line.flag]

theorem txCompleteGuard_iff : (x.ld.transmitterOn && x.line.flag bitTXE && !x.line.flag bitTC) = true ↔
    (x.ld.txEn = .enabled ∧ x.ld.periphEn = true) ∧ x.line.sr.getLsbD 6 = true ∧
      x.line.sr.getLsbD 7 = false := by
  rw [Bool.and_eq_true, Bool.and_eq_true, x.ld.transmitterOn_iff, Bool.not_eq_true', Line.flag, Line.flag,
    and_assoc]

end

/-! ### The statements -/

/-- Settles O44: the bound is checked first; then the receiver, the latch and the waiting unit decide. -/
theorem lineRxDeliversOverrunsOrIsLost : Obligations.LineRxDeliversOverrunsOrIsLost := by
  intro u flags s x hx v i fits on latch
  have hexec := exec_lineRx hx flags
  have hbound : x.ld.unitFits v = true ↔ fits := x.ld.unitFits_iff v
  have hon : x.ld.receiverOn = true ↔ on := x.ld.receiverOn_iff
  have hlatch : x.line.latched = true ↔ latch := x.line.latched_iff
  have harrives (hfits : fits) (h : on) :
      exec i s = .next (s.setUart u.toNat { x with line := x.line.receive v flags }) := by
    rw [hexec, conclude_require_true (hbound.2 hfits), conclude_ok, if_pos (hon.2 h)]
  refine ⟨fun hwide => ?_, fun hfits h => ?_, fun hfits h hclear hwaits => ?_,
    fun hfits h hclear hempty => ⟨(x.line.receive v flags).sr, ?_, fun c hc => ?_⟩⟩
  · exact hexec.trans (conclude_require_false (Bool.eq_false_iff.2 (mt hbound.1 hwide)))
  · by_cases honn : on
    · rw [harrives hfits honn, Line.receive_lost v flags (hlatch.2 (h.resolve_left (not_not.2 honn))),
        setUart_self hx]
    · rw [hexec, conclude_require_true (hbound.2 hfits), conclude_ok, if_neg (mt hon.1 honn)]
  · rw [harrives hfits h, Line.receive_overruns v flags (mt hlatch.1 hclear) hwaits]
    rfl
  · rw [harrives hfits h, Line.receive_delivers v flags (mt hlatch.1 hclear) (Bool.eq_false_iff.1 hempty)]
    rfl
  · exact Line.receive_flag v flags (mt hlatch.1 hclear) (Bool.eq_false_iff.1 hempty) c hc

/-- Settles O45: the guard of each operation decides, and one flag is set. -/
theorem lineTransmitterAndIdle : Obligations.LineTransmitterAndIdle := by
  intro u s x hx txOn rxOn setting
  have hready := exec_lineTxReady hx
  have hcomplete := exec_lineTxComplete hx
  have hon : x.ld.receiverOn = true ↔ rxOn := x.ld.receiverOn_iff
  refine ⟨fun h htxe => ?_, fun hnot => ?_, fun h htxe htc => ?_, fun hnot => ?_, fun h => ?_, fun h => ?_⟩
  · exact hready.trans (conclude_require_true ((txReadyGuard_iff x).2 ⟨h, htxe⟩))
  · refine hready.trans (conclude_require_false (Bool.eq_false_iff.2 (mt (txReadyGuard_iff x).1 ?_)))
    exact not_and_or.2 (hnot.imp_right ne_false_of_eq_true)
  · exact hcomplete.trans (conclude_require_true ((txCompleteGuard_iff x).2 ⟨h, htxe, htc⟩))
  · refine hcomplete.trans (conclude_require_false (Bool.eq_false_iff.2 (mt (txCompleteGuard_iff x).1 ?_)))
    exact not_and_or.2 (hnot.imp_right fun h =>
      not_and_or.2 (h.imp ne_true_of_eq_false ne_false_of_eq_true))
  · rw [exec_lineIdle hx, if_pos (hon.2 h)]
    rfl
  · rw [exec_lineIdle hx, if_neg (mt hon.1 h)]

end Sys2Proof.Machine

/-! The DMA channels (O46 to O48). The four channels move a unit in one of two ways, from MEM or to MEM, at the
address the channel counts to; the unit's guard decides whether it may. -/

namespace Sys2Proof.Machine

/-! ### The countdown (R297) -/

section
variable {ch : DmaChan}

/-- At 0 a circular channel reloads and keeps its running state. -/
theorem DmaChan.settle_zero_circular (h : ch.circular = true) :
    ch.settle 0 = { ch with remaining := ch.count, done := true } := by
  simp only [DmaChan.settle, h, if_true]

/-- At 0 a channel that is not circular stops. -/
theorem DmaChan.settle_zero_once (h : ch.circular = false) :
    ch.settle 0 = { ch with remaining := 0, done := true, running := false } := by
  simp only [DmaChan.settle, h, if_true, Bool.false_eq_true, if_false]

theorem DmaChan.settle_pos {r : Nat} (h : r ≠ 0) : ch.settle r = { ch with remaining := r } := if_neg h

/-- A channel with something remaining counts down by one. -/
theorem DmaChan.advance_of_pos (h : ch.remaining ≠ 0) (k : Nat) :
    ch.advance k = ch.settle (ch.remaining - 1) := by
  rw [DmaChan.advance, DmaChan.decremented, if_neg h]

/-- A channel with nothing remaining takes the free value (R320). -/
theorem DmaChan.advance_of_zero (h : ch.remaining = 0) (k : Nat) :
    ch.advance k = ch.settle (Config.freeRemaining k).toNat := by
  rw [DmaChan.advance, DmaChan.decremented, if_pos h]

end

/-- Settles O48: the channel settles at one less, or from 0 at the free value, and the test of R297 applies to
what it settles at. -/
theorem dmaCountsDownAndReloads : Obligations.DmaCountsDownAndReloads := by
  intro ch k
  have hlast (h : ch.remaining = 1) : ch.advance k = ch.settle 0 := by
    rw [DmaChan.advance_of_pos (by omega), h]
  refine ⟨fun h => ?_, fun h hcirc => ?_, fun h honce => ?_, fun h =>
    ⟨(Config.freeRemaining k).toNat, (Config.freeRemaining k).isLt, ?_⟩⟩
  · rw [DmaChan.advance_of_pos (by omega), DmaChan.settle_pos (by omega)]
  · rw [hlast h, DmaChan.settle_zero_circular hcirc]
  · rw [hlast h, DmaChan.settle_zero_once honce]
  · rw [DmaChan.advance_of_zero h]
    split
    · next hv => exact DmaChan.settle_pos hv
    · next hv =>
      rw [not_not.1 hv]
      split
      · next hcirc => exact DmaChan.settle_zero_circular hcirc
      · next honce => rw [DmaChan.settle_zero_once (Bool.eq_false_iff.2 honce), ← h]

/-! ### The transfer of one unit (R69, R296) -/

/-- The counter of free values after an `advance` (assumption 7). -/
theorem State.countFree_eq (s : State) (ch : DmaChan) : s.countFree ch =
    { s with freeCount := if ch.remaining = 0 then s.freeCount + 1 else s.freeCount } := by
  unfold State.countFree DmaChan.takesFree
  by_cases h : ch.remaining = 0 <;> simp [h]

section
variable {s : State} {ch : DmaChan} {b : Byte} (hle : ch.remaining ≤ ch.count)
include hle

/-- A channel reads the byte it counts to. -/
theorem moveFetch_of {g : Byte → Proc State} (hin : InRegion s (ch.maddr + ch.count - ch.remaining) 1)
    (hb : Memory.read s.mem (ch.maddr + ch.count - ch.remaining) = some b) :
    (moveAddress ch >>= fun addr => readByte s addr >>= g) = g b := by
  rw [moveAddress_of_le hle, proc_ok_bind, (readByte_eq_ok _ _ _).2 ⟨hin, hb⟩, proc_ok_bind]

theorem moveFetch_refused {g : Byte → Proc State}
    (h : ¬ ByteReadable s (ch.maddr + ch.count - ch.remaining)) :
    (moveAddress ch >>= fun addr => readByte s addr >>= g) = refuse .xMem := by
  rw [moveAddress_of_le hle, proc_ok_bind, readByte_refused h, refuse_bind]

/-- A channel stores at the address it counts to. -/
theorem moveDeposit_of {g : State → Proc State} (hin : InRegion s (ch.maddr + ch.count - ch.remaining) 1) :
    (moveAddress ch >>= fun addr => moveStore s addr b >>= g) =
      g (s.setMem (Memory.write s.mem (ch.maddr + ch.count - ch.remaining) b)) := by
  rw [moveAddress_of_le hle, proc_ok_bind, (moveStore_eq_ok _ _ _ _).2 ⟨hin, rfl⟩, proc_ok_bind]

theorem moveDeposit_refused {g : State → Proc State}
    (h : ¬ InRegion s (ch.maddr + ch.count - ch.remaining) 1) :
    (moveAddress ch >>= fun addr => moveStore s addr b >>= g) = refuse .xMem := by
  rw [moveAddress_of_le hle, proc_ok_bind, moveStore,
    Bool.eq_false_iff.2 (mt (admitted_iff s _ 1 Nat.one_pos).1 h), require_false, refuse_bind, refuse_bind]

end

/-! ### The moves of a unit that is there (R296) -/

section
variable {u : BitVec 4} {s : State} {x : Uart} (hx : s.uarts[u.toNat]? = some x)
include hx

/-- `DMA.MOVE` on the serial transmit channel. -/
theorem exec_dmaMove_uartTx :
    exec (.dmaMove u .env 0#2) s = conclude s (
      require x.txMoveOk .xState >>= fun _ =>
      moveAddress x.txch >>= fun addr => readByte s addr >>= fun b =>
      .ok ((s.countFree x.txch).setUart u.toNat
        { x with line := x.line.dataWrite (b.setWidth 32), txch := x.txch.advance s.freeCount })) := by
  show conclude s (moveUartTx u.toNat s) = _
  rw [moveUartTx, uartAt_of hx, proc_ok_bind]

/-- `DMA.MOVE` on the serial receive channel. -/
theorem exec_dmaMove_uartRx :
    exec (.dmaMove u .env 1#2) s = conclude s (
      require x.rxMoveOk .xState >>= fun _ =>
      valueOf x.line.rdr >>= fun v =>
      moveAddress x.rxch >>= fun addr => moveStore s addr (v.extractLsb' 0 8) >>= fun stored =>
      .ok ((stored.countFree x.rxch).setUart u.toNat
        { x with line := x.line.afterDataRead, rxch := x.rxch.advance s.freeCount })) := by
  show conclude s (moveUartRx u.toNat s) = _
  rw [moveUartRx, uartAt_of hx, proc_ok_bind]

end

section
variable {n : BitVec 4} {s : State} {e : Engine} (he : s.engines[n.toNat]? = some e)
include he

/-- `DMA.MOVE` on the bus write channel. -/
theorem exec_dmaMove_busTx :
    exec (.dmaMove n .env 2#2) s = conclude s (
      require e.txMoveOk .xState >>= fun _ =>
      moveAddress e.txch >>= fun addr => readByte s addr >>= fun b =>
      .ok ((s.countFree e.txch).setEngine n.toNat
        { e.emit (.w b) with txch := e.txch.advance s.freeCount })) := by
  show conclude s (moveBusTx n.toNat s) = _
  rw [moveBusTx, engineAt_of he, proc_ok_bind]

/-- `DMA.MOVE` on the bus read channel. -/
theorem exec_dmaMove_busRx :
    exec (.dmaMove n .env 3#2) s = conclude s (
      require (decide (s.portEnv.arg0.toNat < 256)) .xOperand >>= fun _ =>
      require e.rxMoveOk .xState >>= fun _ =>
      moveAddress e.rxch >>= fun addr =>
      moveStore s addr (s.portEnv.arg0.extractLsb' 0 8) >>= fun stored =>
      .ok ((stored.countFree e.rxch).setEngine n.toNat
        { e.emit (.r (s.portEnv.arg0.extractLsb' 0 8)) with rxch := e.rxch.advance s.freeCount })) := by
  show conclude s (moveBusRx n.toNat s.portEnv.arg0 s) = _
  rw [moveBusRx, engineAt_of he, proc_ok_bind]

end

section
variable (e : Engine)

/-- When the bus write channel may move (R296). -/
theorem Engine.txMoveOk_iff : e.txMoveOk = true ↔
    e.st ≠ .idle ∧ e.phase = some .w ∧ e.dmaTxEn = true ∧ e.txch.running = true := by
  simp only [Engine.txMoveOk, Bool.and_eq_true, bne_iff_ne, beq_iff_eq, and_assoc]

/-- When the bus read channel may move (R296). -/
theorem Engine.rxMoveOk_iff : e.rxMoveOk = true ↔
    e.st ≠ .idle ∧ e.phase = some .r ∧ e.dmaRxEn = true ∧ e.rxch.running = true := by
  simp only [Engine.rxMoveOk, Bool.and_eq_true, bne_iff_ne, beq_iff_eq, and_assoc]

end

/-! ### The statements -/

/-- Settles O46: the guard of the channel decides; the byte is fetched or stored where the channel counts
to. -/
theorem dmaMovesOneSerialUnit : Obligations.DmaMovesOneSerialUnit := by
  intro u s x hx used ta ra byteUnits txReady unitIsByte rxReady
  have htx := exec_dmaMove_uartTx hx
  have hrx := exec_dmaMove_uartRx hx
  have htxOk : x.txMoveOk = true ↔ txReady := by
    rw [txMoveOk_iff, x.ld.transmitterOn_iff, and_assoc]
    rfl
  have hrxOk : x.rxMoveOk = true ↔ rxReady := by
    rw [rxMoveOk_iff, x.ld.receiverOn_iff, and_assoc]
    rfl
  refine ⟨fun b hok hle hin hb => ?_, fun hnot => ?_, fun hok hle hbad => ?_, fun v hok hv hle hin =>
    ⟨Memory.write s.mem ra (v.extractLsb' 0 8), ?_, ?_, fun a => ?_⟩, fun hnot => ?_,
    fun v hok hv hle hbad => ?_⟩
  · rw [htx, conclude_require_true (htxOk.2 hok), moveFetch_of hle hin hb, conclude_ok, State.countFree_eq]
    rfl
  · exact htx.trans (conclude_require_false (Bool.eq_false_iff.2 (mt htxOk.1 hnot)))
  · rw [Refuses, htx, conclude_require_true (htxOk.2 hok), moveFetch_refused hle hbad, conclude_refuse]
  · rw [hrx, conclude_require_true (hrxOk.2 hok), hv, valueOf_some, proc_ok_bind, moveDeposit_of hle hin,
      conclude_ok, State.countFree_eq]
    rfl
  · obtain ⟨-, hbyte, -⟩ := hok
    exact waitsByte_stores_whole ((waitsByte_iff _).2 hbyte) hv
  · exact Memory.read_write _ _ _ _
  · exact hrx.trans (conclude_require_false (Bool.eq_false_iff.2 (mt hrxOk.1 hnot)))
  · rw [Refuses, hrx, conclude_require_true (hrxOk.2 hok), hv, valueOf_some, proc_ok_bind,
      moveDeposit_refused hle hbad, conclude_refuse]

/-- Settles O47: the value the target supplies is checked first, then the guard of the channel; the byte is
fetched or stored where the channel counts to. -/
theorem dmaMovesOneBusByte : Obligations.DmaMovesOneBusByte := by
  intro n s e he used ta ra v txReady rxReady
  have htx := exec_dmaMove_busTx he
  have hrx := exec_dmaMove_busRx he
  have htxOk : e.txMoveOk = true ↔ txReady := e.txMoveOk_iff
  have hrxOk : e.rxMoveOk = true ↔ rxReady := e.rxMoveOk_iff
  refine ⟨fun b hok hle hin hb => ?_, fun hnot => ?_, fun hok hle hbad => ?_, fun hok hv hle hin =>
    ⟨Memory.write s.mem ra (v.extractLsb' 0 8), ?_, fun a => ?_⟩, fun hwide => ?_, fun hv hnot => ?_,
    fun hv hok hle hbad => ?_⟩
  · rw [htx, conclude_require_true (htxOk.2 hok), moveFetch_of hle hin hb, conclude_ok, State.countFree_eq]
    rfl
  · exact htx.trans (conclude_require_false (Bool.eq_false_iff.2 (mt htxOk.1 hnot)))
  · rw [Refuses, htx, conclude_require_true (htxOk.2 hok), moveFetch_refused hle hbad, conclude_refuse]
  · rw [hrx, conclude_require_true (decide_eq_true hv), conclude_require_true (hrxOk.2 hok),
      moveDeposit_of hle hin, conclude_ok, State.countFree_eq]
    rfl
  · exact Memory.read_write _ _ _ _
  · exact hrx.trans (conclude_require_false (decide_eq_false (Nat.not_lt.2 hwide)))
  · exact hrx.trans <| (conclude_require_true (decide_eq_true hv)).trans
      (conclude_require_false (Bool.eq_false_iff.2 (mt hrxOk.1 hnot)))
  · rw [Refuses, hrx, conclude_require_true (decide_eq_true hv), conclude_require_true (hrxOk.2 hok),
      moveDeposit_refused hle hbad, conclude_refuse]

end Sys2Proof.Machine

/-! Noninterference (O60). `Confined τ g s t` says that `t` differs from `s` in no unit but `τ` and in no port
but that of `g`; every operation is followed to its ends, as its procedure goes. -/

namespace Sys2Proof.Machine

/-- Between `s` and `t` no unit changed but `τ` and no port but that of `g`. A clock concerns every driver of
its channel (R174, R314, R354). -/
structure Confined (τ : Target) (g : Agent) (s t : State) : Prop where
  uarts : ∀ v, τ ≠ .uart v → (∀ c, τ ≠ .clock c) → t.uarts[v]? = s.uarts[v]?
  engines : ∀ v, τ ≠ .engine v → t.engines[v]? = s.engines[v]?
  rings : ∀ v, τ ≠ .ring v → t.rings[v]? = s.rings[v]?
  ports : ∀ f, f ≠ g → t.port f = s.port f

section
variable {τ : Target} {g : Agent} {s t : State}

namespace Confined

theorem refl : Confined τ g s s := ⟨fun _ _ _ => rfl, fun _ _ => rfl, fun _ _ => rfl, fun _ _ => rfl⟩

/-- An update that leaves the units and the ports. -/
theorem congr {t' : State} (h : Confined τ g s t)
    (hunits : (t'.uarts, t'.engines, t'.rings) = (t.uarts, t.engines, t.rings))
    (hports : ∀ f, t'.port f = t.port f) : Confined τ g s t' := by
  simp only [Prod.mk.injEq] at hunits
  obtain ⟨huarts, hengines, hrings⟩ := hunits
  exact
    { uarts := huarts ▸ h.uarts
      engines := hengines ▸ h.engines
      rings := hrings ▸ h.rings
      ports := fun f hf => (hports f).trans (h.ports f hf) }

theorem setMem {m : Memory} (h : Confined τ g s t) : Confined τ g s (t.setMem m) :=
  h.congr rfl fun _ => State.setMem_port ..

theorem post {w : Word} {k : Kind} (h : Confined τ g s t) : Confined τ g s (post w k t) :=
  h.congr rfl fun _ => post_port ..

theorem hold {c : Held} (h : Confined τ g s t) : Confined τ g s (t.hold c) :=
  h.congr rfl fun _ => State.hold_port ..

theorem countFree {ch : DmaChan} (h : Confined τ g s t) : Confined τ g s (t.countFree ch) :=
  h.congr (by simp) fun _ => State.countFree_port ..

theorem setNotif {l : List (Nat × Kind)} (h : Confined τ g s t) :
    Confined τ g s { t with notif := l } := h.congr rfl fun f => by cases f <;> rfl

/-- The issuer's port is its own (R314). -/
theorem setPort {p : Port} (h : Confined τ g s t) : Confined τ g s (t.setPort g p) where
  uarts := by simpa using h.uarts
  engines := by simpa using h.engines
  rings := by simpa using h.rings
  ports f hf := (State.setPort_port_other t g f p hf).trans (h.ports f hf)

theorem setRes0 {v : Word} (h : Confined τ g s t) : Confined τ g s (t.setRes0 g v) := h.setPort

theorem setRes1 {v : Word} (h : Confined τ g s t) : Confined τ g s (t.setRes1 g v) := h.setPort

theorem setUart {u : Nat} {x : Uart} (h : Confined (.uart u) g s t) :
    Confined (.uart u) g s (t.setUart u x) :=
  { h with
    uarts := fun v hv hc =>
      (List.getElem?_set_ne fun q => hv (congrArg Target.uart q)).trans (h.uarts v hv hc)
    ports := fun f hf => (State.setUart_port ..).trans (h.ports f hf) }

theorem setEngine {n : Nat} {e : Engine} (h : Confined (.engine n) g s t) :
    Confined (.engine n) g s (t.setEngine n e) :=
  { h with
    engines := fun v hv =>
      (List.getElem?_set_ne fun q => hv (congrArg Target.engine q)).trans (h.engines v hv)
    ports := fun f hf => (State.setEngine_port ..).trans (h.ports f hf) }

theorem setRing {r : Nat} {b : FreeRing} (h : Confined (.ring r) g s t) :
    Confined (.ring r) g s (t.setRing r b) :=
  { h with
    rings := fun v hv =>
      (List.getElem?_set_ne fun q => hv (congrArg Target.ring q)).trans (h.rings v hv)
    ports := fun f hf => (State.setRing_port ..).trans (h.ports f hf) }

/-- A clock change re-derives divisors of UARTs and touches no other unit (R174). -/
theorem reclock {c f d k : Nat} (h : Confined (.clock c) g s t) : Confined (.clock c) g s
    { t with clkFreq := t.clkFreq.set d k, uarts := t.uarts.map (Uart.reclock d f) } where
  uarts _ _ hclock := absurd rfl (hclock c)
  engines := h.engines
  rings := h.rings
  ports f hf := Eq.trans (by cases f <;> rfl) (h.ports f hf)

/-- The mark of a fault or of a refusal is in no unit and in no port (R340, R341). -/
theorem conclude {p : Proc State} (h : Confined τ g s t) (hp : EndsIn (Confined τ g s) p) :
    LeadsTo (Confined τ g s) (conclude t p) :=
  hp.conclude (fun _ _ ht => ht.congr rfl fun _ => raiseFault_port ..)
    fun _ => h.congr rfl fun _ => markRefused_port ..

end Confined

/-! ### The shared procedures -/

section
variable {u : Nat} (hs : Confined (.uart u) g s t)
include hs

theorem trySatisfy_confined : EndsIn (Confined (.uart u) g s) (trySatisfy u t) :=
  .afterUartAt fun x _ => .ite
    (fun _ => .query (x.bs.rx.faultless_read _ _ _) fun _ _ => .done hs.setUart.setMem.post)
    fun _ => .done hs

theorem rxSync_confined : EndsIn (Confined (.uart u) g s) (rxSync u t) :=
  .afterUartAt fun _ _ => .ite (fun _ => .raised hs) fun _ =>
    .afterCommit hs <| trySatisfy_confined hs.setUart

theorem drainRead_confined : EndsIn (Confined (.uart u) g s) (drainRead u g t) :=
  .afterUartAt fun x _ => .query (x.bs.rx.faultless_read _ _ _) fun _ _ =>
    .done hs.setUart.setMem.setRes0

theorem forwardError_confined (k : Kind) : EndsIn (Confined (.uart u) g s) (forwardError u k t) :=
  .afterUartAt fun _ _ => .ite (fun _ => .done hs.post) fun _ => .done hs

theorem idleReaction_confined : EndsIn (Confined (.uart u) g s) (idleReaction u t) :=
  .afterUartAt fun _ _ => .ite (fun _ => rxSync_confined hs) fun _ => .done hs

/-- Line errors are forwarded, an idle line runs the coalescer, every other kind does nothing (R165). -/
theorem react_confined (k : Kind) : EndsIn (Confined (.uart u) g s) (react u k t) := by
  cases k with
  | overrunError | framingError | parityError | noiseDetected | lineBreak =>
    exact forwardError_confined hs _
  | idleLine => exact idleReaction_confined hs
  | _ => exact .done hs

theorem irqTest_confined (sample : BitVec 9) (e : IrqEntry) :
    EndsIn (Confined (.uart u) g s) (irqTest u sample e t) :=
  .ite (fun _ => .seq (react_confined hs.setNotif e.kind) fun _ hn => .afterUartAt fun _ _ =>
    .done hn.setUart) fun _ => .done hs

omit hs in
theorem irqTests_confined (sample : BitVec 9) (l : List IrqEntry) :
    ∀ t, Confined (.uart u) g s t → EndsIn (Confined (.uart u) g s) (irqTests u sample l t) := by
  induction l with
  | nil => exact fun _ ht => .done ht
  | cons e es ih => exact fun _ ht => .seq (irqTest_confined ht sample e) ih

theorem moveUartTx_confined : EndsIn (Confined (.uart u) g s) (moveUartTx u t) :=
  .afterUartAt fun _ _ => .afterRequire fun _ => .query (faultless_moveAddress _) fun _ _ =>
    .query (faultless_readByte _ _) fun _ _ => .done hs.countFree.setUart

theorem moveUartRx_confined : EndsIn (Confined (.uart u) g s) (moveUartRx u t) :=
  .afterUartAt fun _ _ => .afterRequire fun _ => .afterValue fun _ _ =>
    .query (faultless_moveAddress _) fun _ _ => .afterMoveStore <| .done hs.setMem.countFree.setUart

end

section
variable {n : Nat} (hs : Confined (.engine n) g s t)
include hs

theorem moveBusTx_confined : EndsIn (Confined (.engine n) g s) (moveBusTx n t) :=
  .afterEngineAt fun _ _ => .afterRequire fun _ => .query (faultless_moveAddress _) fun _ _ =>
    .query (faultless_readByte _ _) fun _ _ => .done hs.countFree.setEngine

theorem moveBusRx_confined (v : Word) : EndsIn (Confined (.engine n) g s) (moveBusRx n v t) :=
  .afterEngineAt fun _ _ => .afterRequire fun _ => .afterRequire fun _ =>
    .query (faultless_moveAddress _) fun _ _ => .afterMoveStore <| .done hs.setMem.countFree.setEngine

end
end

/-! ### The operations -/

section
variable {s : State} {i : BitVec 4} {a : Agent}

/-! Host access to MEM -/

theorem execMemLd_confined (n : BitVec 3) : LeadsTo (Confined .mem a s) (execMemLd i a n s) := by
  refine .conclude .refl <| .afterField fun k _ => .afterRequire fun _ => .afterRequire fun _ =>
    .afterRequire fun _ => ?_
  split
  · exact .done (.setRes0 .refl)
  · exact .refused _

theorem execMemSt_confined (n : BitVec 3) : LeadsTo (Confined .mem a s) (execMemSt i a n s) :=
  .conclude .refl <| .afterField fun _ _ => .afterRequire fun _ => .afterRequire fun _ =>
    .afterRequire fun _ => .afterRequire fun _ => .done (.setMem .refl)

/-! Free-standing rings -/

theorem execRbWrite_confined : LeadsTo (Confined (.ring i.toNat) a s) (execRbWrite i a s) :=
  .conclude .refl <| .afterRingFor fun b _ => .query (b.ring.faultless_write _ _ _) fun _ _ =>
    .done (Confined.setRing .refl).setMem.setRes0

theorem execRbRead_confined : LeadsTo (Confined (.ring i.toNat) a s) (execRbRead i a s) :=
  .conclude .refl <| .afterRingFor fun b _ => .query (b.ring.faultless_read _ _ _) fun _ _ =>
    .done (Confined.setRing .refl).setMem.setRes0

theorem execRbPop_confined : LeadsTo (Confined (.ring i.toNat) a s) (execRbPop i a s) := by
  refine .conclude .refl <| .afterRingFor fun b _ => .query (b.ring.faultless_pop _) fun ⟨v, _⟩ _ => ?_
  cases v with
  | some _ => exact .done (Confined.setRing .refl).setRes1.setRes0
  | none => exact .done (.setRes0 .refl)

theorem execRbSkip_confined : LeadsTo (Confined (.ring i.toNat) a s) (execRbSkip i a s) :=
  .conclude .refl <| .afterRingFor fun _ _ => .afterSkip .refl <| .done (.setRing .refl)

theorem execRbPeek_confined : LeadsTo (Confined (.ring i.toNat) a s) (execRbPeek i a s) :=
  .conclude .refl <| .afterRingFor fun _ _ => .done (Confined.setRes0 .refl).setRes1

theorem execRbCommit_confined : LeadsTo (Confined (.ring i.toNat) a s) (execRbCommit i a s) :=
  .conclude .refl <| .afterRingFor fun _ _ => .afterCommit .refl <| .done (.setRing .refl)

theorem execRbUsed_confined : LeadsTo (Confined (.ring i.toNat) a s) (execRbUsed i a s) :=
  .conclude .refl <| .afterRingFor fun _ _ => .done (.setRes0 .refl)

/-! BufferedStream and TransferBinding -/

theorem execBsWrite_confined : LeadsTo (Confined (.uart i.toNat) a s) (execBsWrite i a s) :=
  .conclude .refl <| .afterUartFor fun x _ => .afterRequire fun _ =>
    .query (x.bs.tx.faultless_write _ _ _) fun _ _ => .done (Confined.setUart .refl).setMem.setRes0

theorem execBsTxDone_confined : LeadsTo (Confined (.uart i.toNat) a s) (execBsTxDone i a s) :=
  .conclude .refl <| .afterUartFor fun _ _ => .afterRequire fun _ => .afterRequire fun _ =>
    .afterSkip (.setUart .refl) <| .done (.setUart .refl)

theorem execBsRxDone_confined : LeadsTo (Confined (.uart i.toNat) a s) (execBsRxDone i a s) :=
  .conclude .refl <| .afterUartFor fun _ _ => .afterRequire fun _ => .afterRequire fun _ =>
    rxSync_confined (.setUart .refl)

theorem execBsReadB_confined : LeadsTo (Confined (.uart i.toNat) a s) (execBsReadB i a s) :=
  .conclude .refl <| .afterUartFor fun _ _ => .afterRequire fun _ => .afterRequire fun _ =>
    .ite (fun _ => drainRead_confined (.setUart .refl)) fun _ => .done (Confined.setUart .refl).hold

theorem execBsReadNb_confined : LeadsTo (Confined (.uart i.toNat) a s) (execBsReadNb i a s) :=
  .conclude .refl <| .afterUartFor fun _ _ => .afterRequire fun _ => .afterRequire fun _ =>
    .ite (fun _ => drainRead_confined (.setUart .refl)) fun _ => .done (Confined.setUart .refl).setRes0

theorem execTbEnable_confined (part : BitVec 2) :
    LeadsTo (Confined (.uart i.toNat) a s) (execTbEnable i a part s) :=
  .conclude .refl <| .afterField fun _ _ => .afterUartFor fun _ _ => .afterRequire fun _ =>
    .afterRequire fun _ => .done (.setUart .refl)

theorem execTbDisable_confined (part : BitVec 2) :
    LeadsTo (Confined (.uart i.toNat) a s) (execTbDisable i a part s) :=
  .conclude .refl <| .afterField fun _ _ => .afterUartFor fun _ _ => .done (.setUart .refl)

/-! LineDriver -/

theorem execLdSetSpeed_confined : LeadsTo (Confined (.uart i.toNat) a s) (execLdSetSpeed i a s) :=
  .conclude .refl <| .afterUartFor fun _ _ => .query (faultless_frequency _ _) fun _ _ =>
    .afterRequire fun _ => .afterRequire fun _ => .done (Confined.setUart .refl).setRes0

theorem execLdSetFrame_confined (parity stopBits : BitVec 2) (dataBits : BitVec 8) :
    LeadsTo (Confined (.uart i.toNat) a s) (execLdSetFrame i a parity stopBits dataBits s) :=
  .conclude .refl <| .afterField fun _ _ => .afterUartFor fun _ _ => .afterRequire fun _ =>
    .afterRequire fun _ => .done (.setUart .refl)

theorem execLdSetFlow_confined (flow : BitVec 2) :
    LeadsTo (Confined (.uart i.toNat) a s) (execLdSetFlow i a flow s) :=
  .conclude .refl <| .afterUartFor fun _ _ => .afterRequire fun _ => .done (.setUart .refl)

theorem execLdEnable_confined (part : BitVec 2) :
    LeadsTo (Confined (.uart i.toNat) a s) (execLdEnable i a part s) :=
  .conclude .refl <| .afterField fun _ _ => .afterUartFor fun _ _ => .afterRequire fun _ =>
    .done (.setUart .refl)

theorem execLdDisable_confined (part : BitVec 2) :
    LeadsTo (Confined (.uart i.toNat) a s) (execLdDisable i a part s) :=
  .conclude .refl <| .afterField fun _ _ => .afterUartFor fun _ _ => .done (.setUart .refl)

theorem execLdArmIrq_confined (cond : BitVec 4) :
    LeadsTo (Confined (.uart i.toNat) a s) (execLdArmIrq i a cond s) :=
  .conclude .refl <| .afterField fun _ _ => .afterUartFor fun _ _ => .afterRequire fun _ =>
    .done (.setUart .refl)

theorem execLdDisarmIrq_confined (cond : BitVec 4) :
    LeadsTo (Confined (.uart i.toNat) a s) (execLdDisarmIrq i a cond s) :=
  .conclude .refl <| .afterField fun _ _ => .afterUartFor fun _ _ => .done (.setUart .refl)

theorem execLdIrq_confined : LeadsTo (Confined (.uart i.toNat) a s) (execLdIrq i a s) :=
  .conclude .refl <| .afterUartFor fun _ _ => .afterRequire fun _ =>
    irqTests_confined _ _ _ (.setUart .refl)

theorem execLdRdUnit_confined : LeadsTo (Confined (.uart i.toNat) a s) (execLdRdUnit i a s) :=
  .conclude .refl <| .afterUartFor fun _ _ => .afterRequire fun _ => .afterRequire fun _ =>
    .afterValue fun _ _ => .done (Confined.setUart .refl).setRes0

theorem execLdWrUnit_confined : LeadsTo (Confined (.uart i.toNat) a s) (execLdWrUnit i a s) :=
  .conclude .refl <| .afterUartFor fun _ _ => .afterRequire fun _ => .afterRequire fun _ =>
    .afterValue fun _ _ => .afterRequire fun _ => .done (.setUart .refl)

theorem execLdWaitTc_confined : LeadsTo (Confined (.uart i.toNat) a s) (execLdWaitTc i a s) := by
  refine .conclude .refl <| .afterUartFor fun _ _ => .afterRequire fun _ => .done ?_
  split
  · exact .refl
  · exact .hold .refl

theorem execLdWaitRxne_confined : LeadsTo (Confined (.uart i.toNat) a s) (execLdWaitRxne i a s) := by
  refine .conclude .refl <| .afterUartFor fun _ _ => .afterRequire fun _ => .done ?_
  split
  · exact .refl
  · exact .hold .refl

theorem execLdClkChg_confined (phase : BitVec 1) :
    LeadsTo (Confined (.clock i.toNat) a s) (execLdClkChg i a phase s) :=
  .conclude .refl <| .afterRequire fun _ => .afterRequire fun _ => .ite (fun _ => .done .refl) fun _ =>
    .afterRequire fun _ => .done (.reclock .refl)

/-! Bus engine -/

theorem execBteSubmit_confined : LeadsTo (Confined (.engine i.toNat) a s) (execBteSubmit i a s) := by
  refine .conclude .refl <| .afterEngineFor fun e _ => .query (e.faultless_validate _ _) fun _ _ =>
    .ite (fun _ => .done (.setRes0 .refl)) fun _ => ?_
  split
  · exact .query (Engine.faultless_startHead _ _) fun _ _ => .done (Confined.setEngine .refl).setRes0
  · exact .done (Confined.setEngine .refl).setRes0

theorem execBteEvAddr_confined : LeadsTo (Confined (.engine i.toNat) a s) (execBteEvAddr i a s) :=
  .conclude .refl <| .afterEngineFor fun _ _ => .afterRequire fun _ => .afterValue fun _ _ =>
    .done (.setEngine .refl)

theorem execBteEvTc_confined : LeadsTo (Confined (.engine i.toNat) a s) (execBteEvTc i a s) :=
  .conclude .refl <| .afterEngineFor fun _ _ => .afterRequire fun _ => .afterValue fun _ _ =>
    .afterWord fun _ _ => .afterWord fun _ _ => .afterWord fun _ _ => .done (.setEngine .refl)

theorem execBteEvStop_confined : LeadsTo (Confined (.engine i.toNat) a s) (execBteEvStop i a s) := by
  refine .conclude .refl <| .afterEngineFor fun _ _ => .afterRequire fun _ => .afterValue fun _ _ =>
    .afterWord fun _ _ => .query (Engine.faultless_next _ _) fun _ _ => .done (.setEngine ?_)
  split
  · exact .refl
  · exact .post .refl

theorem execBteEvNack_confined : LeadsTo (Confined (.engine i.toNat) a s) (execBteEvNack i a s) :=
  .conclude .refl <| .afterEngineFor fun _ _ => .afterRequire fun _ =>
    .query (Engine.faultless_next _ _) fun _ _ => .done (.setEngine .refl)

theorem execBteEvErr_confined (kind : BitVec 8) :
    LeadsTo (Confined (.engine i.toNat) a s) (execBteEvErr i a kind s) :=
  .conclude .refl <| .afterField fun _ _ => .afterEngineFor fun _ _ => .afterRequire fun _ =>
    .query (Engine.faultless_next _ _) fun _ _ => .done (.setEngine .refl)

theorem execBteDmaDone_confined (channel : BitVec 1) :
    LeadsTo (Confined (.engine i.toNat) a s) (execBteDmaDone i a channel s) :=
  .conclude .refl <| .afterEngineFor fun _ _ => .ite
    (fun _ => .afterRequire fun _ => .done (.setEngine .refl))
    fun _ => .afterRequire fun _ => .done (.setEngine .refl)

/-! Environment -/

theorem execLineRx_confined (flags : BitVec 4) :
    LeadsTo (Confined (.uart i.toNat) a s) (execLineRx i a flags s) := by
  refine .conclude .refl <| .afterUartFor fun _ _ => .afterRequire fun _ => .done ?_
  split
  · exact .setUart .refl
  · exact .refl

theorem execLineTxReady_confined : LeadsTo (Confined (.uart i.toNat) a s) (execLineTxReady i a s) :=
  .conclude .refl <| .afterUartFor fun _ _ => .afterRequire fun _ => .done (.setUart .refl)

theorem execLineTxComplete_confined :
    LeadsTo (Confined (.uart i.toNat) a s) (execLineTxComplete i a s) :=
  .conclude .refl <| .afterUartFor fun _ _ => .afterRequire fun _ => .done (.setUart .refl)

theorem execLineIdle_confined : LeadsTo (Confined (.uart i.toNat) a s) (execLineIdle i a s) := by
  refine .conclude .refl <| .afterUartFor fun _ _ => .done ?_
  split
  · exact .setUart .refl
  · exact .refl

/-- Channels 0 and 1 are a UART's, 2 and 3 a bus engine's (R93). -/
theorem execDmaMove_confined (channel : BitVec 2) :
    LeadsTo (Confined (target (.dmaMove i a channel)) a s) (execDmaMove i a channel s) := by
  refine .conclude .refl <| .afterRequire fun _ => .ite (fun h0 => ?_) fun h0 =>
    .ite (fun h1 => ?_) fun h1 => ?_
  · subst h0
    exact moveUartTx_confined .refl
  · subst h1
    exact moveUartRx_confined .refl
  · have hbus : target (.dmaMove i a channel) = .engine i.toNat := if_neg (by bv_omega)
    rw [hbus]
    exact .ite (fun _ => moveBusTx_confined .refl) fun _ => moveBusRx_confined .refl _

end

/-- An operation changes no unit but the one it names and no port but its issuer's. -/
theorem exec_confined (i : Instr) (s : State) : LeadsTo (Confined (target i) i.agentOf s) (exec i s) := by
  cases i with
  | memLd _ _ _ => exact execMemLd_confined _
  | memSt _ _ _ => exact execMemSt_confined _
  | rbWrite _ _ => exact execRbWrite_confined
  | rbRead _ _ => exact execRbRead_confined
  | rbPop _ _ => exact execRbPop_confined
  | rbSkip _ _ => exact execRbSkip_confined
  | rbPeek _ _ => exact execRbPeek_confined
  | rbCommit _ _ => exact execRbCommit_confined
  | rbUsed _ _ => exact execRbUsed_confined
  | ldSetSpeed _ _ => exact execLdSetSpeed_confined
  | ldSetFrame _ _ _ _ _ => exact execLdSetFrame_confined _ _ _
  | ldSetFlow _ _ _ => exact execLdSetFlow_confined _
  | ldEnable _ _ _ => exact execLdEnable_confined _
  | ldDisable _ _ _ => exact execLdDisable_confined _
  | ldArmIrq _ _ _ => exact execLdArmIrq_confined _
  | ldDisarmIrq _ _ _ => exact execLdDisarmIrq_confined _
  | ldIrq _ _ => exact execLdIrq_confined
  | ldRdUnit _ _ => exact execLdRdUnit_confined
  | ldWrUnit _ _ => exact execLdWrUnit_confined
  | ldWaitTc _ _ => exact execLdWaitTc_confined
  | ldWaitRxne _ _ => exact execLdWaitRxne_confined
  | ldClkChg _ _ _ => exact execLdClkChg_confined _
  | bsWrite _ _ => exact execBsWrite_confined
  | bsReadB _ _ => exact execBsReadB_confined
  | bsReadNb _ _ => exact execBsReadNb_confined
  | bsTxDone _ _ => exact execBsTxDone_confined
  | bsRxDone _ _ => exact execBsRxDone_confined
  | tbEnable _ _ _ => exact execTbEnable_confined _
  | tbDisable _ _ _ => exact execTbDisable_confined _
  | bteSubmit _ _ => exact execBteSubmit_confined
  | bteEvAddr _ _ => exact execBteEvAddr_confined
  | bteEvTc _ _ => exact execBteEvTc_confined
  | bteEvStop _ _ => exact execBteEvStop_confined
  | bteEvNack _ _ => exact execBteEvNack_confined
  | bteEvErr _ _ _ => exact execBteEvErr_confined _
  | bteDmaDone _ _ _ => exact execBteDmaDone_confined _
  | lineRx _ _ _ => exact execLineRx_confined _
  | lineTxReady _ _ => exact execLineTxReady_confined
  | lineTxComplete _ _ => exact execLineTxComplete_confined
  | lineIdle _ _ => exact execLineIdle_confined
  | dmaMove _ _ _ => exact execDmaMove_confined _

/-- `LD.CLKCHG` is the one operation that names a clock (R96). -/
theorem target_ne_clock {i : Instr} (h : changesClock i = false) (c : Nat) : target i ≠ .clock c := by
  cases i with
  | ldClkChg _ _ _ => cases h
  | dmaMove inst _ channel =>
    show (if channel.toNat < 2 then Target.uart inst.toNat else .engine inst.toNat) ≠ _
    split <;> simp
  | _ => simp [target]

/-- Settles O60: the end of every operation is confined to the unit it names and to its issuer's port. -/
theorem unitsDoNotDisturbEachOther : Obligations.UnitsDoNotDisturbEachOther := by
  intro i s t h
  obtain ⟨huarts, hengines, hrings, hports⟩ := exec_confined i s t h
  exact ⟨fun v hv hclock => huarts v hv (target_ne_clock hclock), hengines, hrings, hports⟩

end Sys2Proof.Machine

/-! Steps while FG holds (O8, O9), and that every step answers (O7). The turn is found first: whose entry a
hold lets through, and when the held command resumes; what the step then does is read off the turn. -/

namespace Sys2Proof.Machine

/-! ### The machine never stops (R330) -/

/-- Every operation is a procedure that is concluded, whatever it ends in (R340, R341). -/
theorem exec_next (i : Instr) (s : State) : ∃ t, exec i s = .next t := by
  cases i <;> exact conclude_next s _

/-- Settles O7: a step is idle, or concludes a procedure. -/
theorem stepNeverStops : Obligations.StepNeverStops := by
  intro s
  unfold step
  split
  · exact ⟨_, rfl⟩
  · exact conclude_next _ _
  · exact conclude_next _ _
  · split
    · exact exec_next _ _
    · exact conclude_next _ _

/-! ### What a step does with its turn -/

section
variable {s t : State}

theorem step_of_idle (hturn : nextTurn s = .idle t) : step s = .next t := by
  simp only [step, hturn]

theorem step_of_resume {h : Held} (hturn : nextTurn s = .resume h t) : step s = execResume h t := by
  simp only [step, hturn]

theorem step_of_readTurn {g : Agent} {k : ResReg} (hturn : nextTurn s = .readRes g k t) :
    step s = execReadRes g k t := by
  simp only [step, hturn]

end

/-- The turn of an operation word: its operands stand in its issuer's port (R314). -/
theorem Act.turn_issue (s : State) (rest : List Act) (w a0 a1 a2 : Word) :
    (Act.issue w a0 a1 a2).turn { s with acts := rest } =
      .issue w (({ s with acts := rest } : State).setPort (issuerOf w)
        { s.port (issuerOf w) with arg0 := a0, arg1 := a1, arg2 := a2 }) := by
  rw [Act.turn, State.loadArgs, State.setActs_port]

theorem Act.byFg_issue_eq_false {w a0 a1 a2 : Word} (h : issuerOf w ≠ .fg) :
    (Act.issue w a0 a1 a2).byFg = false := beq_eq_false_iff_ne.2 h

theorem Act.byFg_readRes_eq_false {g : Agent} {k : ResReg} (h : g ≠ .fg) :
    (Act.readRes g k).byFg = false := beq_eq_false_iff_ne.2 h

/-- The value of a result register decides its read: nothing changes, or `X_STATE` (R20, R44). -/
theorem execReadRes_eq (g : Agent) (k : ResReg) (s : State) :
    let value := if k = .res0 then (s.port g).res0 else (s.port g).res1
    (value.isSome = true → execReadRes g k s = .next s) ∧
      (value = none → execReadRes g k s = .next (markRefused .xState s)) := by
  cases k with
  | res0 => exact conclude_valueOf s (s.port g).res0
  | res1 => exact conclude_valueOf s (s.port g).res1

/-! ### FG holds and its condition is false (R342) -/

section
variable {s : State} {h : Held} (hheld : s.held = some h) (hwait : s.lifted h = false)
include hheld hwait

theorem nextTurn_of_waiting : nextTurn s = waitingTurn s := by
  simp only [nextTurn, hheld, hwait, Bool.false_eq_true, if_false]

/-- With nothing but FG's entries left the block waits (R342, R390). -/
theorem nextTurn_idle_of_all_byFg (hfg : ∀ x ∈ s.acts, x.byFg = true) : nextTurn s = .idle s := by
  rw [nextTurn_of_waiting hheld hwait]
  simp only [waitingTurn, takeOther_of_all_byFg hfg]

/-- The first entry that is not FG's has the turn, past the entries of FG before it (R342). -/
theorem nextTurn_of_other {before after : List Act} {x : Act} (hfg : ∀ y ∈ before, y.byFg = true)
    (hx : x.byFg = false) (hacts : s.acts = before ++ x :: after) :
    nextTurn s = x.turn { s with acts := before ++ after } := by
  rw [nextTurn_of_waiting hheld hwait]
  simp only [waitingTurn, hacts, takeOther_append hfg hx]

end

/-- Settles O8: the first entry that is not FG's has the turn, and the step is what that entry does. -/
theorem holdingForegroundIssuesNothing : Obligations.HoldingForegroundIssuesNothing := by
  intro s h hheld hwait
  refine ⟨fun hfg => step_of_idle (nextTurn_idle_of_all_byFg hheld hwait hfg), ?_⟩
  intro before after hfg rest
  have turn {x : Act} (hx : x.byFg = false) (hacts : s.acts = before ++ x :: after) :
      nextTurn s = x.turn rest := nextTurn_of_other hheld hwait hfg hx hacts
  have issued {w a0 a1 a2 : Word} (hw : issuerOf w ≠ .fg)
      (hacts : s.acts = before ++ .issue w a0 a1 a2 :: after) :=
    (turn (Act.byFg_issue_eq_false hw) hacts).trans (Act.turn_issue s _ w a0 a1 a2)
  refine ⟨fun hacts => step_of_idle (turn rfl hacts), ?_, ?_, ?_⟩
  · intro w a0 a1 a2 i hacts hdecode hagent
    rw [← issuerOf_of_decode hdecode] at hagent ⊢
    exact step_of_issue (issued hagent hacts) hdecode
  · intro w a0 a1 a2 e hacts herror hagent
    exact step_of_reserved (issued hagent hacts) herror
  · intro g k hacts hagent
    rw [step_of_readTurn (turn (Act.byFg_readRes_eq_false hagent) hacts),
      ← State.setActs_port s (before ++ after)]
    exact execReadRes_eq g k rest

/-! ### FG holds and its condition is true (R342, R356) -/

/-- At the end of the trace, and before an entry of FG, the command resumes with the trace as it is (R342). -/
theorem liftedTurn_of_stays {s : State} (h : Held)
    (hstays : s.acts = [] ∨ ∃ y ys, s.acts = y :: ys ∧ y.byFg = true) :
    liftedTurn h s = .resume h s := by
  rcases hstays with hend | ⟨y, ys, hfirst, hfg⟩
  · simp only [liftedTurn, hend]
  · cases y with
    | issue w a0 a1 a2 => simp only [liftedTurn, hfirst, if_pos (beq_iff_eq.1 hfg)]
    | wake => cases hfg
    | readRes g k => simp only [liftedTurn, hfirst, if_pos (beq_iff_eq.1 hfg)]

section
variable {s : State} {h : Held} (hheld : s.held = some h) (hlift : s.lifted h = true)
include hheld hlift

theorem nextTurn_of_lifted : nextTurn s = liftedTurn h s := by
  simp only [nextTurn, hheld, hlift, if_true]

/-- A wake-up is used up by the command that resumes; the end of the trace and an entry of FG stay
(R342, R356). -/
theorem nextTurn_resumes {rest : List Act} (hacts : s.acts = .wake :: rest ∨
      (s.acts = rest ∧ (rest = [] ∨ ∃ y ys, rest = y :: ys ∧ y.byFg = true))) :
    nextTurn s = .resume h { s with acts := rest } := by
  rw [nextTurn_of_lifted hheld hlift]
  rcases hacts with hwake | ⟨rfl, hstays⟩
  · simp only [liftedTurn, hwake]
  · exact liftedTurn_of_stays h hstays

/-- An operation of another agent that comes first has the turn (R12). -/
theorem nextTurn_of_lifted_issue {w a0 a1 a2 : Word} {rest : List Act} (hagent : issuerOf w ≠ .fg)
    (hacts : s.acts = .issue w a0 a1 a2 :: rest) :
    nextTurn s = .issue w (({ s with acts := rest } : State).setPort (issuerOf w)
      { s.port (issuerOf w) with arg0 := a0, arg1 := a1, arg2 := a2 }) := by
  rw [nextTurn_of_lifted hheld hlift, ← Act.turn_issue]
  simp only [liftedTurn, hacts, if_neg hagent]

end

section
variable {s : State} {u : Nat} {x : Uart} (hx : s.uarts[u]? = some x)
include hx

/-- The condition of each command that holds is read off its unit (R170, R171, R205). -/
theorem lifted_waitTc : s.lifted (.waitTc u) = x.line.flag bitTC := by
  simp only [State.lifted, hx, Option.any_some]

theorem lifted_waitRxne : s.lifted (.waitRxne u) = x.line.flag bitRXNE := by
  simp only [State.lifted, hx, Option.any_some]

theorem lifted_readB :
    s.lifted (.readB u) = decide (s.portFg.arg1.toNat ≤ x.bs.rx.ix.used) := by
  simp only [State.lifted, hx, Option.any_some]

section
variable (hle : s.portFg.arg1.toNat ≤ x.bs.rx.ix.used)
include hle

/-- The lines of `BS.READB` below its hold drain exactly its length, oldest first, and return it (R205). -/
theorem drainRead_whole (hdst : SpanAllowed s s.portFg.arg0.toNat s.portFg.arg1.toNat)
    (hread : ∀ k < s.portFg.arg1.toNat, ByteReadable s (x.bs.rx.unreadAddr k)) :
    drainRead u .fg s = .ok
      { s with
        portFg := { s.portFg with res0 := some s.portFg.arg1 }
        mem := copied s.mem x.bs.rx.unreadAddr (s.portFg.arg0.toNat + ·) s.portFg.arg1.toNat
        uarts := s.uarts.set u { x with bs := { x.bs with
          rx := { x.bs.rx with ix := x.bs.rx.ix.consume s.portFg.arg1.toNat } } } } := by
  have hwhole : x.bs.rx.read s s.portFg.arg0.toNat s.portFg.arg1.toNat = _ :=
    ByteRing.read_whole hle hdst hread
  have hdrain := (drainRead_eq_ok u .fg s _).2 ⟨x, hx, _, hwhole, rfl⟩
  rwa [show zext32 s.portFg.arg1.toNat = s.portFg.arg1 from BitVec.ofNat_toNat ..] at hdrain

/-- They are refused where the bytes cannot be moved (R69). -/
theorem drainRead_refused (h : ¬ SpanAllowed s s.portFg.arg0.toNat s.portFg.arg1.toNat ∨
      ∃ k < s.portFg.arg1.toNat, ¬ ByteReadable s (x.bs.rx.unreadAddr k)) :
    drainRead u .fg s = refuse .xMem := by
  have hwhole : x.bs.rx.delivers s.portFg.arg1.toNat = s.portFg.arg1.toNat := Nat.min_eq_left hle
  have hrefused : x.bs.rx.read s s.portFg.arg0.toNat s.portFg.arg1.toNat = refuse .xMem :=
    ByteRing.read_refused (by rwa [hwhole])
  rw [drainRead, uartAt_of hx, proc_ok_bind]
  exact congrArg (· >>= _) hrefused

end

end

/-- Settles O9: the held command resumes with `CSR.HOLD` clear, and its remaining lines are none, or the drain
of the read; an operation of another agent that comes first has the turn all the same. -/
theorem holdLiftsWhenConditionHolds : Obligations.HoldLiftsWhenConditionHolds := by
  constructor
  · intro s u x rest hx hacts lifted dst len rx
    have resumes {h : Held} (hheld : s.held = some h) (hlift : s.lifted h = true) :
        step s = conclude lifted (resumeProc h lifted) :=
      step_of_resume (nextTurn_resumes hheld hlift hacts)
    have drains (hheld : s.held = some (.readB u)) (hle : len ≤ rx.ix.used) :
        step s = conclude lifted (drainRead u .fg lifted) :=
      resumes hheld ((lifted_readB hx).trans (decide_eq_true hle))
    refine ⟨fun hheld htc => resumes hheld ((lifted_waitTc hx).trans htc),
      fun hheld hrxne => resumes hheld ((lifted_waitRxne hx).trans hrxne), ?_, ?_⟩
    · intro hheld hle hdst hread
      rw [drains hheld hle, drainRead_whole (s := lifted) hx hle hdst hread, conclude_ok]
      rfl
    · intro hheld hle hbad
      rw [drains hheld hle, drainRead_refused (s := lifted) hx hle hbad, conclude_refuse]
  · intro s h w a0 a1 a2 rest i hheld hlift hacts hdecode hagent
    rw [← issuerOf_of_decode hdecode] at hagent ⊢
    exact step_of_issue (nextTurn_of_lifted_issue hheld hlift hagent hacts) hdecode

end Sys2Proof.Machine
